-- ==== Sys2Proof/Word.lean ====
section
/-!
DEFINITION. The machine's word types (spec/00_scope.md R10: a byte is 8 bits, a half-word 16, a word 32).
-/

namespace Sys2Proof

/-- 8 bits: the unit of the flash array and of the ring. -/
abbrev Byte := BitVec 8

/-- 16 bits: the programming granule of the flash array, and the persisted cell. -/
abbrev Half := BitVec 16

/-- 32 bits: addresses, counts, results, controller registers. All unsigned. -/
abbrev Word := BitVec 32

end Sys2Proof
end

