-- ==== Sys2Proof/Config.lean ====
section
/-!
DEFINITION. What an instance of the core fixes (spec/00_scope.md R8), the document's literals, and the free values:
constants without a body, which no proof can see the value of (spec/93_implementation_defined.md, treatment "any value").
-/

namespace Sys2Proof

/-- Which Flash Write Engine is present (R2): `g` the half-word programmer, `a` the page-buffered one. -/
inductive Variant where
  | g
  | a
deriving DecidableEq, Repr

/-- The OPEN parameters of R8. Plain data, held by `State.cfg` and never changed by a step.
The controller's register addresses and bit positions are symbolic (R44, decision D19): log 24. -/
structure Config where
  /-- `VARIANT` -/
  variant : Variant
  /-- `APP_BASE`, becomes `FAS.base` -/
  appBase : Word
  /-- `FLASH_ORIGIN`, the first address of the flash array -/
  flashOrigin : Word
  /-- `SIZE_OVERRIDE`, optional -/
  sizeOverride : Option Word
  /-- `CAPACITY`, sampled at reset when `sizeOverride` is absent -/
  capacity : Word
  /-- `PAGE_SIZE`, the minimum erasable unit in bytes -/
  pageSize : Word
  /-- `KEY1` -/
  key1 : Word
  /-- `KEY2` -/
  key2 : Word
  /-- `RING_N`, the ring's capacity in slots -/
  ringN : Nat
  /-- `FORCE_CMD` -/
  forceCmd : Half
  /-- `HAVE_BUTTON` -/
  haveButton : Bool
  /-- `BUTTON_ACTIVE_HIGH` -/
  buttonActiveHigh : Bool
  /-- `DEBOUNCE_DELAY`; no rule depends on its value -/
  debounceDelay : Nat
  /-- `HEX_UPPER` -/
  hexUpper : Bool
deriving DecidableEq, Repr

namespace Config

/-- `PAGE_MASK`, variant A (R8). -/
def pageMask : Word := 0x7F

/-- Bytes in a page of variant A (R8: 128). -/
def pageBytes : Nat := 128

/-- `PAGE_BUF_HW`, variant A: the page buffer's limit in half-words (R8). -/
def pageBufHalves : Nat := 64

/-- `BATCH_WORDS`, variant A: words per inner batch (R8). -/
def batchWords : Nat := 4

/-- Half-words per inner batch (R8: 8). -/
def batchHalves : Nat := 8

/-- `REFRESH_XOR`, variant A (R8). -/
def refreshXor : Word := 0x100

/-- `CLEARED`, what the trigger writes to the persisted cell (R8). -/
def cleared : Half := 0x0000

/-- The size that `FAS.end` is computed from (spec/10_state.md R27). -/
def size (c : Config) : Word :=
  match c.sizeOverride with
  | some n => n
  | none => c.capacity

/-- Is `n` one of the powers of two `2, 4, …, 2^31`? -/
def isPageSize (n : Word) : Bool :=
  (List.range 31).any fun k => n.toNat == 2 ^ (k + 1)

/-- The constraints of R8 (decision D8). A configuration that breaks one is refused.
`FAS.end < FAS.base` breaks none: the source gives that case a meaning (R28).
DESIGN CHOICE (log 31): the row of `CAPACITY` is read as a constraint on the size in use, so `capacity` is not tested while
`sizeOverride` is present. -/
def wf (c : Config) : Bool :=
  isPageSize c.pageSize &&
  (c.variant == .g || c.pageSize == 128) &&
  c.appBase.toNat % c.pageSize.toNat == 0 &&
  c.flashOrigin.toNat % c.pageSize.toNat == 0 &&
  decide (c.flashOrigin.toNat ≤ c.appBase.toNat) &&
  c.size.toNat % c.pageSize.toNat == 0 &&
  decide (c.flashOrigin.toNat + c.size.toNat + c.pageSize.toNat ≤ 2 ^ 32) &&
  decide (2 ≤ c.ringN) &&
  c.forceCmd != 0

/-- The illustrative configuration of spec/95_test_vectors.md (K4), in variant A.
DESIGN CHOICE (log 3): the parameters are OPEN; a statement about every state holds for every configuration. -/
def reference : Config where
  variant := .a
  appBase := 0x08002000
  flashOrigin := 0x08000000
  sizeOverride := none
  capacity := 0x00020000
  pageSize := 128
  key1 := 0x45670123
  key2 := 0xCDEF89AB
  ringN := 64
  forceCmd := 0x544F
  haveButton := false
  buttonActiveHigh := true
  debounceDelay := 0
  hexUpper := true

/-- The same instance with the generic engine and 1024-byte pages (K4). -/
def referenceG : Config := { reference with variant := .g, pageSize := 1024 }

/-! ### Free values. The argument is the number of the draw (`State.draws`). -/

/-- A 32-bit value the spec leaves open: a stale read (R69), the page buffer after a commit (R75). -/
opaque freeWord : Nat → Word

/-- A 16-bit value the spec leaves open: a stale half-word read (R69). -/
opaque freeHalf : Nat → Half

/-- An 8-bit value the spec leaves open: a byte of the unit a reset interrupts (R242). -/
opaque freeByte : Nat → Byte

/-- A bit the spec leaves open: a fault draw (R75), the read-back of a command bit (R45). -/
opaque freeBit : Nat → Bool

/-- `FlashProg16` where nothing fixes it (R70, U1): the cell's content after programming. -/
opaque freeProg16 : Half → Half → Half

/-- `FlashProg32` where nothing fixes it (R70, U1). -/
opaque freeProg32 : Word → Word → Word

end Config

end Sys2Proof
end

