-- ==== Sys2Proof/Syntax.lean ====
section
/-!
DEFINITION. The operations of the command port (spec/30_encoding.md R92, R99): one constructor per row of
spec/opcode_table.json. Operands travel in `A0`, `A1`, `SRC` (R90, R94), so no constructor has an argument.
-/

namespace Sys2Proof

/-- The thirteen operations. A suffix `G` or `A` is the row's `.g` or `.a` (R93). -/
inductive Instr where
  | flashUnlockG
  | flashUnlockA
  | flashLockG
  | flashLockA
  | flashErasePageG
  | flashErasePageA
  | flashProgramArrayG
  | flashProgramArrayA
  | flashProgramPage
  | getMaxFirmwareSize
  | shouldForceBootloader
  | txEnqueue
  | sessionReset
deriving DecidableEq, Repr

/-- Which operand registers an operation reads (R91). -/
inductive Format where
  | z
  | a
  | p
  | b
deriving DecidableEq, Repr

/-- The operation's operand format (R92). -/
def Instr.format : Instr → Format
  | .flashUnlockG => .z
  | .flashUnlockA => .z
  | .flashLockG => .z
  | .flashLockA => .z
  | .flashErasePageG => .a
  | .flashErasePageA => .a
  | .flashProgramArrayG => .p
  | .flashProgramArrayA => .p
  | .flashProgramPage => .p
  | .getMaxFirmwareSize => .z
  | .shouldForceBootloader => .z
  | .txEnqueue => .b
  | .sessionReset => .z

end Sys2Proof
end

