-- ==== Sys2Proof/WellFormed.lean ====
section
/-!
DEFINITION. When an operation exists in an instance of the core (spec/30_encoding.md R92, R93, R96;
spec/10_state.md R56).
-/

namespace Sys2Proof

/-- The variant a row of the opcode table applies to; `none` for both (R92, R93). -/
def Instr.variant? : Instr → Option Variant
  | .flashUnlockG => some .g
  | .flashUnlockA => some .a
  | .flashLockG => some .g
  | .flashLockA => some .a
  | .flashErasePageG => some .g
  | .flashErasePageA => some .a
  | .flashProgramArrayG => some .g
  | .flashProgramArrayA => some .a
  | .flashProgramPage => some .a
  | .getMaxFirmwareSize => none
  | .shouldForceBootloader => none
  | .txEnqueue => none
  | .sessionReset => none

/-- The operation exists in an instance of variant `v`. -/
def Instr.wf (v : Variant) (i : Instr) : Bool :=
  match i.variant? with
  | some u => u == v
  | none => true

end Sys2Proof
end

