-- ==== Sys2Proof/Decode.lean ====
section
/-!
DEFINITION. The command word (spec/30_encoding.md R90 to R98): decoder, total on every 32-bit value and rejecting
by name, and after it the encoder.
-/

namespace Sys2Proof

/-- Why a command word is illegal (R96). -/
inductive Illegal where
  /-- `OP[31:8] != 0` -/
  | reservedBits
  /-- `OPC` is `0x00`, or `OPC >= 0x0A` -/
  | unassignedOpcode
  /-- `OPC == 0x05` while `VARIANT = G` -/
  | absentInVariant
deriving DecidableEq, Repr

/-- What a command word decodes to. -/
inductive Decoded where
  | op (i : Instr)
  | illegal (why : Illegal)
deriving DecidableEq, Repr

/-- Field `OPC`, bits 7:0 of the command word (R90). -/
def opcField (w : Word) : Nat := w.toNat % 256

/-- Field `RSV`, bits 31:8 of the command word (R90). -/
def rsvField (w : Word) : Nat := w.toNat / 256

/-- The opcode map (R92), per variant (R93). -/
def decodeOpc (v : Variant) : Nat → Decoded
  | 0x01 => match v with
    | .g => .op .flashUnlockG
    | .a => .op .flashUnlockA
  | 0x02 => match v with
    | .g => .op .flashLockG
    | .a => .op .flashLockA
  | 0x03 => match v with
    | .g => .op .flashErasePageG
    | .a => .op .flashErasePageA
  | 0x04 => match v with
    | .g => .op .flashProgramArrayG
    | .a => .op .flashProgramArrayA
  | 0x05 => match v with
    | .g => .illegal .absentInVariant
    | .a => .op .flashProgramPage
  | 0x06 => .op .getMaxFirmwareSize
  | 0x07 => .op .shouldForceBootloader
  | 0x08 => .op .txEnqueue
  | 0x09 => .op .sessionReset
  | _ => .illegal .unassignedOpcode

/-- The decoder of an instance of variant `v`, total on every word (R96). -/
def decode (v : Variant) (w : Word) : Decoded :=
  if rsvField w = 0 then decodeOpc v (opcField w) else .illegal .reservedBits

/-- The command word of an operation (R92). -/
def encode : Instr → Word
  | .flashUnlockG => 0x00000001
  | .flashUnlockA => 0x00000001
  | .flashLockG => 0x00000002
  | .flashLockA => 0x00000002
  | .flashErasePageG => 0x00000003
  | .flashErasePageA => 0x00000003
  | .flashProgramArrayG => 0x00000004
  | .flashProgramArrayA => 0x00000004
  | .flashProgramPage => 0x00000005
  | .getMaxFirmwareSize => 0x00000006
  | .shouldForceBootloader => 0x00000007
  | .txEnqueue => 0x00000008
  | .sessionReset => 0x00000009

/-- The variant whose decoder the host's table check reads: that of `State.reset`'s configuration.
The word does not name the variant (R93), so the four rows `.g` share their words with the rows `.a` (log 3). -/
def tableVariant : Variant := Config.reference.variant

/-- The host's entry: an instruction of `nbits` bits with value `w`.
Every command word has the same length, 32 bits, and there is no shorter or longer form (R98): any other `nbits`, and a
value that does not fit in 32 bits, are refused. -/
def decodeTableWord (nbits w : Nat) : Option Instr :=
  if nbits = 32 ∧ w < 2 ^ 32 then
    match decode tableVariant (BitVec.ofNat 32 w) with
    | .op i => some i
    | .illegal _ => none
  else none

end Sys2Proof
end

