-- ==== Sys2Proof/Machine/State.lean ====
section
/-!
DEFINITION. The state of the core (spec/10_state.md), the lines of the operations (one constructor per kind of
micro-step), the turns of the other agents, the reasons a step can stop, and the state after reset (R55).
-/

namespace Sys2Proof.Machine

/-! ## Records of the spec's state -/

/-- `SRC`, the source-data space (R53): half-words or bytes, indexed from 0. -/
inductive Source where
  | halves (l : List Half)
  | bytes (l : List Byte)
deriving DecidableEq, Repr

/-- `FAS`, the FlashAddressSpace (R26). `endAddr` is the spec's `FAS.end`. -/
structure AddressSpace where
  base : Word
  pageSize : Word
  endAddr : Word
deriving DecidableEq, Repr

/-- `WIN`, the ErasedWindow, the half-open range `[start, endAddr)` (R29; variant G). -/
structure Window where
  start : Word
  endAddr : Word
deriving DecidableEq, Repr

/-- `RB`, the RingBuffer (R32): storage of `RING_N` bytes, read index, write index. -/
structure Ring where
  buf : List Byte
  rd : Nat
  wr : Nat
deriving DecidableEq, Repr

/-- A controller cycle that has started and not completed (R38 (b)); `progHalf` is variant G's
half-word program (spec/20_memory.md R73; log 26). -/
inductive Cycle where
  | none
  | erase (p : Word)
  | progHalf (a : Word) (v : Half)
  | bufReset
  | bufLoad
  | program (p : Word)
deriving DecidableEq, Repr

/-- The flash controller's own state (R37, R38, R41). -/
structure Controller where
  /-- `FC.locked` -/
  locked : Bool
  /-- `FC.busy` (G), `STATR.BSY` (A) -/
  busy : Bool
  /-- `FC.pending` -/
  pending : Cycle
  /-- `FC.keyseq`, how much of the key sequence has been seen -/
  keyseq : Nat
  /-- `FC.stale`, the read cache does not reflect the array -/
  stale : Bool
  /-- `FC.pbuf[0..31]` -/
  pbuf : List Word
  /-- `FC.stage` -/
  stage : List (Word × Word)
deriving DecidableEq, Repr

/-- `CTLR` (R43, R45): the fields by name; `rsv` the 26 reserved bits, which `CtlSet` and `CtlClear` preserve (R44). -/
structure Ctlr where
  per : Bool
  ppg : Bool
  bufrst : Bool
  bufload : Bool
  strt : Bool
  lock : Bool
  rsv : BitVec 26
deriving DecidableEq, Repr

/-- `STATR` (R43, R46) without `BSY`, which is `Controller.busy`; `rsv` the 29 reserved bits. -/
structure Statr where
  pgerr : Bool
  wrprterr : Bool
  rsv : BitVec 29
deriving DecidableEq, Repr

/-- The flash array `FLASH` (R40): the listed bytes, addresses strictly rising, none equal to `0xFF`, which is what
an unlisted address reads as (log 4). -/
abbrev Memory := List Host.Cell

/-! ## Lines: the micro-steps of `SEQ` -/

/-- The failure classes of spec/60_exceptions.md R211 to R213: ghost labels. -/
inductive Cause where
  | param
  | verify
  | ctrl
deriving DecidableEq, Repr

/-- The two key registers (R43, R47). -/
inductive KeyReg where
  /-- `KEYR`, the main key register -/
  | main
  /-- `MODEKEYR`, the auxiliary "mode" register -/
  | mode
deriving DecidableEq, Repr

/-- The level bits of `CTLR` (R45): the ones the sequencer sets and clears. -/
inductive LevelBit where
  | per
  | ppg
deriving DecidableEq, Repr

/-- The bits of `CTLR` that setting acts on (R43): level bits, command bits, lock. -/
inductive CtlBit where
  | level (b : LevelBit)
  | bufRst
  | bufLoad
  | strt
  | lock
deriving DecidableEq, Repr

/-- One line of an operation's pseudocode: one micro-step of `SEQ` (spec/00_scope.md R6). The loop variables of R24
are the line's arguments. Lines that move nothing but a loop variable are not listed (log 14). -/
inductive Line where
  /-- `put <- 0` (spec/43_ring_transmitter.md R182 line 1) -/
  | enqStart
  /-- one byte: test, store, publish, count (R182 lines 3 to 6); `left` bytes of the call come after it -/
  | enqByte (b : Byte) (left : Nat)
  /-- `if put >= 1: ARMED <- 1` (R182 line 7) -/
  | enqArm
  /-- `GUnlock()` (R42) -/
  | gUnlock
  /-- `GLock()` (R42) -/
  | gLock
  /-- `GErasePage(PageStart(d))`, the start (R42; spec/40_flash_generic.md R123, R126 line 6) -/
  | gErase (d : Word)
  /-- `GProgHalf(d, v)`, the start (R42; R126 line 8) -/
  | gProg (d : Word) (v : Half)
  /-- the hold inside `GErasePage` and `GProgHalf` (R42) -/
  | gWait
  /-- `if d >= FAS.end: raise Fail(PARAM)` (R126 line 4; spec/41_flash_alternate.md R156 line 6) -/
  | bound (d : Word)
  /-- `if d < WIN.start or d >= WIN.end` (R126 line 5): inside the window the next three lines are passed over -/
  | windowTest (d : Word)
  /-- `WIN.start <- PageStart(d); WIN.end <- PageEnd(d)` (R126 line 7) -/
  | windowPage (d : Word)
  /-- `WIN.start <- d + 2` (R126 line 9) -/
  | windowPast (d : Word)
  /-- `if VARIANT == G: WIN.start <- 0; WIN.end <- 0` (R130 line 1) -/
  | windowEmpty
  /-- `if not Verify(d, v): raise Fail(VERIFY)` (R126 line 10; R156 line 11) -/
  | verify (d : Word) (v : Half)
  /-- `CtlWrite(KEYR | MODEKEYR, v)` (R141) -/
  | keyWrite (r : KeyReg) (v : Word)
  /-- `CtlSet(CTLR.b)` -/
  | ctlSet (b : CtlBit)
  /-- `CtlClear(CTLR.b)` -/
  | ctlClear (b : LevelBit)
  /-- `CtlWrite(ADDR, a)` -/
  | addrWrite (a : Word)
  /-- `SpinNotBusy()` (spec/20_memory.md R76) -/
  | spin
  /-- `w <- MemRead(x XOR 0x100, 4)`, the first half of `Refresh(x)` (R78) -/
  | refreshRead (x : Word)
  /-- `CtlWrite(CACHECTL, w)`, the second half of `Refresh(x)` (R78) -/
  | refreshWrite
  /-- `MemWrite(a, 4, w)` (R71) -/
  | memWrite (a w : Word)
  /-- `s <- CtlRead(STATR)` (R150 line 21) -/
  | statusRead
  /-- `if s.PGERR == 1 or s.WRPRTERR == 1` (R150 line 22): with both clear the next two lines are passed over -/
  | statusTest
  /-- `ClearErr()` (spec/10_state.md R46; R150 line 22) -/
  | clearErr
  /-- `v <- BkpRead()` (spec/44_boot_trigger.md R201 line 1) -/
  | bkpRead
  /-- `force <- (v == FORCE_CMD)` (R201 line 2) -/
  | bkpCompare
  /-- `BkpWrite(CLEARED)` (R201 line 3) -/
  | bkpClear
  /-- `Delay(n)` (R201 line 5) -/
  | delay (n : Nat)
  /-- `lvl <- PinSample()` (R201 line 6) -/
  | pinSample
  /-- `pressed <- …` (R201 line 7) -/
  | pinPressed
  /-- `force <- force or pressed` (R201 line 8) -/
  | pinOr
  /-- `return (1 if force else 0)` (R201 line 9) -/
  | retForce
  /-- `return FAS.end - FAS.base`, or 0 (spec/42_verify_and_capacity.md R174) -/
  | retSize
  /-- `return v` -/
  | ret (v : Word)
  /-- `raise Fail(c)` -/
  | fail (c : Cause)
deriving DecidableEq, Repr

/-- `seq`, the sequencer's position (spec/10_state.md R23): `IDLE`, or the operation in progress with the lines still
to be executed, the line about to be executed first. -/
inductive SeqPos where
  | idle
  | running (op : Instr) (lines : List Line)
deriving DecidableEq, Repr

/-- The sequencer's temporaries that hold a value read at run time (R24). -/
structure Tmp where
  /-- `put` of R182 -/
  put : Nat
  /-- `w` of R146, R150 -/
  w : Word
  /-- `s` of R150 line 21, the two fields it reads -/
  s : Statr
  /-- `v` of R201 -/
  v : Half
  /-- `force` of R201 -/
  force : Bool
  /-- `lvl` of R201 -/
  lvl : Bool
  /-- `pressed` of R201 -/
  pressed : Bool
deriving DecidableEq, Repr

/-! ## Host and environment -/

/-- What `HOST` writes to issue one operation (spec/10_state.md R21, R22). -/
structure Command where
  op : Word
  a0 : Word
  a1 : Word
  src : Source
deriving DecidableEq, Repr

/-- One entry of the schedule: which agent moves next (spec/60_exceptions.md R224; log 2). A turn whose agent is not
enabled does nothing. -/
inductive Turn where
  /-- `SEQ` takes its next micro-step, or polls a hold -/
  | seq
  /-- `IRQ`: `txe_drain` -/
  | irq
  /-- `UART` raises `TXE` -/
  | uart
  /-- `FCTL` completes the cycle; the fault draws `e_pg`, `e_wp` of R75 -/
  | fctl (pg wp : Bool)
  /-- `PIN`: the button level changes -/
  | pin (level : Bool)
  /-- `HOST` writes its next command now -/
  | host
  /-- reset of the core (spec/70_reset_and_hazards.md R240) -/
  | reset
  /-- from here on the controller's busy flag never clears (spec/93_implementation_defined.md U16) -/
  | stick
  /-- the observer's mark: this step of the model ends here, whatever is in progress -/
  | yield
deriving DecidableEq, Repr

/-- What the flash array does when it is programmed (spec/20_memory.md R70): the premise *Healthy*, and outcomes of
`FlashProg16` and `FlashProg32` by (old content, written value). Where neither applies the outcome is free (log 7). -/
structure Device where
  healthy : Bool
  prog16 : List ((Half × Half) × Half)
  prog32 : List ((Word × Word) × Word)
deriving DecidableEq, Repr

/-! ## The state -/

/-- The state of the core (spec/10_state.md R20) and, after `cause`, the model's own fields. -/
structure State where
  /-- the parameters (spec/00_scope.md R8), never changed -/
  cfg : Config
  /-- `OP` -/
  op : Word
  /-- `A0` -/
  a0 : Word
  /-- `A1` -/
  a1 : Word
  /-- `SRC` -/
  src : Source
  /-- `RES` -/
  res : Word
  /-- `BUSY` -/
  busy : Bool
  /-- `ILL` -/
  ill : Bool
  /-- `seq` -/
  seq : SeqPos
  /-- the sequencer's temporaries -/
  tmp : Tmp
  /-- `FAS` -/
  fas : AddressSpace
  /-- `WIN` (G) -/
  win : Window
  /-- `RB` -/
  rb : Ring
  /-- `ARMED` -/
  armed : Bool
  /-- `BKP` -/
  bkp : Half
  /-- `FLASH` -/
  flash : Memory
  /-- `FC` -/
  fc : Controller
  /-- `KEYR` (A) -/
  keyr : Word
  /-- `MODEKEYR` (A) -/
  modekeyr : Word
  /-- `CTLR` (A) -/
  ctlr : Ctlr
  /-- `ADDR` (A) -/
  addr : Word
  /-- `STATR` (A) -/
  statr : Statr
  /-- `CACHECTL` (A) -/
  cachectl : Word
  /-- `TDR` -/
  tdr : Byte
  /-- `TXE` -/
  txe : Bool
  /-- `LINE`, ghost -/
  line : List Byte
  /-- `BTN`, an input -/
  btn : Bool
  /-- ghost: the label of the last operation's failure (spec/60_exceptions.md R210); no step depends on it -/
  cause : Option Cause
  /-- the commands `HOST` is going to write, oldest first -/
  inbox : List Command
  /-- the turns to come, oldest first -/
  sched : List Turn
  /-- the flash array's response to programming -/
  dev : Device
  /-- the controller's busy flag never clears -/
  fctlStuck : Bool
  /-- how many free values have been drawn -/
  draws : Nat
deriving DecidableEq, Repr

/-! ## Why a step stops -/

/-- Faults: an access to a flash address that does not exist (spec/20_memory.md R40, R62). SAFE: the machine stops. No
operation raises one from a state that meets `State.Inv` (Safety.lean). -/
inductive Fault where
  /-- raised by a flash access outside `[FLASH_ORIGIN, FAS.end)`; safe -/
  | flashAddressAbsent
  /-- raised by a flash access whose address is not a multiple of its width (R62); safe -/
  | flashMisaligned
deriving DecidableEq, Repr

/-- Refusals: the situations spec/93_implementation_defined.md lists with the treatment `refuse`. SAFE: no step is
claimed. -/
inductive Refusal where
  /-- raised by an arm of `exec` whose instruction has no meaning yet; safe -/
  | notModelled (mnemonic : String)
  /-- raised by `step` in a configuration that breaks R8 (U13); safe -/
  | illFormedConfiguration
  /-- raised by a meaning whose row does not exist in the instance's variant (R56, R93); safe -/
  | absentInVariant
  /-- raised when `OP` is written while `BUSY == 1` (U12, R256); safe -/
  | opWrittenWhileBusy
  /-- raised by `flash_program_array.g` on an odd destination (U2, R63); safe -/
  | oddDestination
  /-- raised by `flash_program_array` on a destination below `FAS.base` (U3, R65); safe -/
  | destinationBelowBase
  /-- raised by `flash_erase_page` and `flash_program_page` outside the flash array (U4, R65); safe -/
  | pageOutsideFlash
  /-- raised when `SRC` is shorter than the count in `A1` (U12, R53); safe -/
  | sourceTooShort
  /-- raised by a key write out of sequence (U6, R47); safe -/
  | wrongKey
  /-- raised by a start with `PER` and `PPG` both 1, or neither (U11, R72, R75); safe -/
  | startWithoutOneMode
  /-- raised by a buffer command outside program mode (U11, R74); safe -/
  | bufferCommandOutsideProgramMode
  /-- raised by a `MemWrite` outside program mode (U11, R71); safe -/
  | memWriteOutsideProgramMode
  /-- raised by a fifth staged word before a buffer load (U11, R71); safe -/
  | fifthStagedWord
  /-- raised by starting a cycle while one is pending, to which no rule gives a meaning (R76); safe -/
  | cycleAlreadyPending
deriving DecidableEq, Repr

/-- The outcome of one step. -/
abbrev Outcome := Host.Outcome State Fault Refusal

/-! ## Reset -/

/-- The temporaries while no operation is in progress (R24: no meaning while idle). -/
def Tmp.init : Tmp where
  put := 0
  w := 0
  s := { pgerr := false, wrprterr := false, rsv := 0 }
  v := 0
  force := false
  lvl := false
  pressed := false

/-- `FAS` as reset latches it (R27). -/
def AddressSpace.latch (c : Config) : AddressSpace where
  base := c.appBase
  pageSize := c.pageSize
  endAddr := c.flashOrigin + c.size

/-- The state after reset of an instance with parameters `c` (R55, R240), given what reset does not touch. Where R55
says "unspecified" the value is the model's (log 5). -/
def State.resetOf (c : Config) (bkp : Half) (flash : Memory) (btn : Bool) (dev : Device) : State where
  cfg := c
  op := 0
  a0 := 0
  a1 := 0
  src := .halves []
  res := 0
  busy := false
  ill := false
  seq := .idle
  tmp := Tmp.init
  fas := AddressSpace.latch c
  win := { start := 0, endAddr := 0 }
  rb := { buf := List.replicate c.ringN 0, rd := 0, wr := 0 }
  armed := false
  bkp := bkp
  flash := flash
  fc := { locked := true, busy := false, pending := .none, keyseq := 0, stale := false,
          pbuf := List.replicate 32 0, stage := [] }
  keyr := 0
  modekeyr := 0
  ctlr := { per := false, ppg := false, bufrst := false, bufload := false, strt := false, lock := true, rsv := 0 }
  addr := 0
  statr := { pgerr := false, wrprterr := false, rsv := 0 }
  cachectl := 0
  tdr := 0
  txe := true
  line := []
  btn := btn
  cause := none
  inbox := []
  sched := []
  dev := dev
  fctlStuck := false
  draws := 0

/-- The device of the reference configuration: healthy, nothing else fixed (log 7). -/
def Device.reference : Device := { healthy := true, prog16 := [], prog32 := [] }

/-- The machine right after its first reset: the reference configuration (log 3), `BKP` and `FLASH` as the log names
them (logs 4, 5), no command waiting. -/
def State.reset : State := State.resetOf Config.reference 0 [] false Device.reference

end Sys2Proof.Machine
end

