-- ==== Sys2Proof/Machine/Flags.lean ====
section
/-!
DEFINITION. The one-bit state (spec/10_state.md R25): the flags that are computed and the sets and clears of the
controller's register bits.
-/

namespace Sys2Proof.Machine

/-- `next(i) = (i + 1) mod RING_N` (spec/43_ring_transmitter.md R181). -/
def ringNext (n i : Nat) : Nat := if i + 1 < n then i + 1 else 0

/-- "the buffer is empty iff `read_index == write_index`" (spec/10_state.md R33 (b)). -/
def ringEmpty (r : Ring) : Bool := r.rd == r.wr

/-- The producer's test: the next write index would equal the read index (R182 line 4). -/
def ringFull (n : Nat) (r : Ring) : Bool := ringNext n r.wr == r.rd

/-- The number of bytes held, `(RB.wr - RB.rd) mod RING_N` (R33 (c), R181). -/
def ringHeld (n : Nat) (r : Ring) : Nat := (r.wr + n - r.rd) % n

/-- The number of free slots, `RING_N - 1 - held` (R181). -/
def ringFree (n : Nat) (r : Ring) : Nat := n - 1 - ringHeld n r

/-- The interrupt request `TXE AND ARMED` (R50, spec/60_exceptions.md R220). -/
def State.txeRequest (s : State) : Bool := s.txe && s.armed

/-- `STATR.BSY` in variant A, `FC.busy` in variant G: the busy flag (R41, R46). -/
def State.statrBsy (s : State) : Bool := s.fc.busy

/-- The window test (R30): `d` is outside `[WIN.start, WIN.end)`. -/
def outsideWindow (w : Window) (d : Word) : Bool :=
  decide (d.toNat < w.start.toNat) || decide (w.endAddr.toNat ≤ d.toNat)

/-- One of the two error flags is set (spec/41_flash_alternate.md R150 line 22). -/
def statusFlagged (s : Statr) : Bool := s.pgerr || s.wrprterr

/-- Read-modify-write of a level bit of `CTLR`: the other bits stay (R44, R45). -/
def setLevel (b : LevelBit) (v : Bool) (c : Ctlr) : Ctlr :=
  match b with
  | .per => { c with per := v }
  | .ppg => { c with ppg := v }

/-- `ClearErr()`: both error flags together (R46). -/
def clearErrFlags (s : Statr) : Statr := { s with pgerr := false, wrprterr := false }

/-- The completion of a commit ORs the two fault draws into the sticky flags (spec/20_memory.md R75). -/
def orErrFlags (pg wp : Bool) (s : Statr) : Statr :=
  { s with pgerr := s.pgerr || pg, wrprterr := s.wrprterr || wp }

end Sys2Proof.Machine
end

