-- ==== Sys2Proof/Machine/Operands.lean ====
section
/-!
DEFINITION. Operand assembly (spec/30_encoding.md R94, R95), the page arithmetic (spec/40_flash_generic.md R124,
spec/41_flash_alternate.md R148), and the diagnostic frames (R102 to R105).
-/

namespace Sys2Proof.Machine

/-! ## Operands -/

/-- `src16[0..]`: the source data as half-words (spec/10_state.md R53). -/
def Source.halfWords : Source → List Half
  | .halves l => l
  | .bytes _ => []

/-- `src8[0..]`: the source data as bytes (R53). -/
def Source.byteSeq : Source → List Byte
  | .halves _ => []
  | .bytes l => l

/-- `src16[0 .. A1-1]` (R91, format `P`). -/
def State.operandHalves (s : State) : List Half := s.src.halfWords.take s.a1.toNat

/-- `src8[0 .. A1-1]` (R91, format `B`). -/
def State.operandBytes (s : State) : List Byte := s.src.byteSeq.take s.a1.toNat

/-! ## Page arithmetic -/

/-- `PageStart(a) = a AND NOT (page_size - 1)` (R124). -/
def pageStart (pageSize a : Word) : Word := a &&& ~~~(pageSize - 1)

/-- `PageEnd(a) = PageStart(a) + page_size` (R124). -/
def pageEnd (pageSize a : Word) : Word := pageStart pageSize a + pageSize

/-- Variant A's page of an address, `a AND NOT 0x7F` (spec/20_memory.md R84). -/
def pageOfA (a : Word) : Word := a &&& ~~~Config.pageMask

/-- Variant A's alignment test, `(a AND 0x7F) != 0` (R64). -/
def misalignedA (a : Word) : Bool := a &&& Config.pageMask != 0

/-- The refresh partner of an address, `x XOR 0x100` (R78, R84). -/
def refreshPartner (x : Word) : Word := x ^^^ Config.refreshXor

/-! ## Byte order and packing -/

/-- A half-word from its bytes, `b0 OR (b1 << 8)`, the byte at the lower address first (R61). -/
def halfOfBytes (b0 b1 : Byte) : Half := b0.setWidth 16 ||| (b1.setWidth 16 <<< 8)

/-- A word from its half-words, `(hi << 16) OR lo`, the one at the lower address first (R61, R95). -/
def wordOfHalves (lo hi : Half) : Word := (hi.setWidth 32 <<< 16) ||| lo.setWidth 32

/-- Bits `8i+7 : 8i` of a half-word. -/
def byteOfHalf (v : Half) (i : Nat) : Byte := v.extractLsb' (8 * i) 8

/-- Bits 15:0 of a word. -/
def loHalf (w : Word) : Half := w.extractLsb' 0 16

/-- Bits 31:16 of a word. -/
def hiHalf (w : Word) : Half := w.extractLsb' 16 16

/-- Half-words packed in pairs into page-buffer words, the lower index in bits 15:0; a trailing odd half-word `v` is
`0xFFFF0000 OR v` (R95). -/
def packWords : List Half → List Word
  | [] => []
  | [lo] => [wordOfHalves lo 0xFFFF]
  | lo :: hi :: rest => wordOfHalves lo hi :: packWords rest

/-! ## Diagnostic frames -/

/-- The digits of `v` in base `b`, most significant first, at most `fuel` of them. -/
def digits (b : Nat) : Nat → Nat → List Nat
  | 0, _ => []
  | fuel + 1, v => if v < b then [v] else digits b fuel (v / b) ++ [v % b]

/-- Padding on the left with zero digits to at least `w` digits (R102). -/
def padDigits (w : Nat) (l : List Nat) : List Nat := List.replicate (w - l.length) 0 ++ l

/-- The ASCII code of a digit below 16 (spec/00_scope.md R9); letters by `HEX_UPPER` (R102). -/
def digitChar (upper : Bool) (d : Nat) : Byte :=
  if d < 10 then BitVec.ofNat 8 (0x30 + d)
  else if upper then BitVec.ofNat 8 (0x41 + (d - 10))
  else BitVec.ofNat 8 (0x61 + (d - 10))

/-- `hex(v, w)` (R102). A 32-bit value has at most 8 digits. -/
def hexField (upper : Bool) (v : Word) (w : Nat) : List Byte :=
  (padDigits w (digits 16 8 v.toNat)).map (digitChar upper)

/-- `dec(v, w)` (R102). A 32-bit value has at most 10 digits. -/
def decField (v : Word) (w : Nat) : List Byte :=
  (padDigits w (digits 10 10 v.toNat)).map (digitChar true)

/-- `AddrFrame(a, c)`: `A=` address `,C=` count newline (R103). -/
def addrFrame (upper : Bool) (a c : Word) : List Byte :=
  [0x41, 0x3D] ++ hexField upper a 8 ++ [0x2C, 0x43, 0x3D] ++ hexField upper c 4 ++ [0x0A]

/-- `SessionFrame(n)`: `S` count `|` (R104). -/
def sessionFrame (n : Word) : List Byte := [0x53] ++ decField n 6 ++ [0x7C]

/-- `Status('U')`, "unlock" (R105). -/
def statusU : List Byte := [0x55]

/-- `Status('L')`, "lock" (R105). -/
def statusL : List Byte := [0x4C]

/-- `Status('E')`, "erase-complete" (R105). -/
def statusE : List Byte := [0x45]

/-- `Status('P')`, "program-complete" (R105). -/
def statusP : List Byte := [0x50]

end Sys2Proof.Machine
end

