-- ==== Sys2Proof/Machine/Ops.lean ====
section
/-!
DEFINITION. The named operations over memory, ring, controller and command port that the lines are built from:
the flash array, the controller's cycles (`FCTL`), the drain interrupt, the failure return, and reset.
-/

namespace Sys2Proof.Machine

/-! ## The flash array (spec/10_state.md R40, spec/20_memory.md R61) -/

/-- What an erased byte reads as (R72), and what an unlisted byte reads as (log 4). -/
def erasedByte : Byte := 0xFF

/-- One byte of the array. -/
def Memory.read : Memory → Nat → Byte
  | [], _ => erasedByte
  | (k, v) :: r, a => if k = a then v else Memory.read r a

/-- Write one byte, keeping the canonical form. -/
def Memory.write : Memory → Nat → Byte → Memory
  | [], a, v => if v = erasedByte then [] else [(a, v)]
  | (k, x) :: r, a, v =>
    if a < k then (if v = erasedByte then (k, x) :: r else (a, v) :: (k, x) :: r)
    else if a = k then (if v = erasedByte then r else (a, v) :: r)
    else (k, x) :: Memory.write r a v

/-- Canonical above `lo`: addresses strictly rising from `lo`, no entry equal to what an unlisted address reads as. -/
def Memory.wfAbove : Nat → Memory → Bool
  | _, [] => true
  | lo, (k, v) :: r => decide (lo ≤ k) && (v != erasedByte) && Memory.wfAbove (k + 1) r

/-- The canonical form. -/
def Memory.wf (m : Memory) : Bool := Memory.wfAbove 0 m

/-- Every byte of `[p, p + n)` becomes `0xFF` (R72). -/
def Memory.erase (m : Memory) (p n : Nat) : Memory := m.filter fun c => !(decide (p ≤ c.1) && decide (c.1 < p + n))

/-- The half-word at `a`, little-endian (R61). -/
def Memory.readHalf (m : Memory) (a : Nat) : Half := halfOfBytes (Memory.read m a) (Memory.read m (a + 1))

/-- The word at `a`, little-endian (R61). -/
def Memory.readWord (m : Memory) (a : Nat) : Word := wordOfHalves (Memory.readHalf m a) (Memory.readHalf m (a + 2))

/-- Store a half-word at `a`. -/
def Memory.writeHalf (m : Memory) (a : Nat) (v : Half) : Memory :=
  Memory.write (Memory.write m a (byteOfHalf v 0)) (a + 1) (byteOfHalf v 1)

/-- Store a word at `a`. -/
def Memory.writeWord (m : Memory) (a : Nat) (w : Word) : Memory :=
  Memory.writeHalf (Memory.writeHalf m a (loHalf w)) (a + 2) (hiHalf w)

/-- Store `n` free bytes from `p` on, the draws numbered from `k` (spec/70_reset_and_hazards.md R242). -/
def Memory.fillFree (m : Memory) (p : Nat) : Nat → Nat → Memory
  | 0, _ => m
  | n + 1, k => Memory.write (Memory.fillFree m p n k) (p + n) (Config.freeByte (k + n))

/-- `[a, a + n)` lies in the array `[FLASH_ORIGIN, FAS.end)` (R40). -/
def State.inArray (s : State) (a : Word) (n : Nat) : Bool :=
  decide (s.cfg.flashOrigin.toNat ≤ a.toNat) && decide (a.toNat + n ≤ s.fas.endAddr.toNat)

/-! ## What programming does to a cell (R70) -/

/-- `FlashProg16(old, v)`: on a healthy device an erased cell takes the value; otherwise the device's listed outcome;
otherwise free (U1). -/
def flashProg16 (d : Device) (old v : Half) : Half :=
  if d.healthy && old == 0xFFFF then v
  else match d.prog16.lookup (old, v) with
    | some r => r
    | none => Config.freeProg16 old v

/-- `FlashProg32(old, w)`: on a healthy device it acts on its two half-words as `FlashProg16` does; otherwise the
device's listed outcome; otherwise free (U1). -/
def flashProg32 (d : Device) (old w : Word) : Word :=
  if d.healthy then wordOfHalves (flashProg16 d (loHalf old) (loHalf w)) (flashProg16 d (hiHalf old) (hiHalf w))
  else match d.prog32.lookup (old, w) with
    | some r => r
    | none => Config.freeProg32 old w

/-- The commit of the page buffer: the word at `p + 4i` becomes `FlashProg32(old, pbuf[i])` (R75). -/
def commitWords (d : Device) (m : Memory) (p : Nat) : List Word → Memory
  | [] => m
  | w :: ws => commitWords d (Memory.writeWord m p (flashProg32 d (Memory.readWord m p) w)) (p + 4) ws

/-- The buffer load: each staged pair `(a, w)` goes to `pbuf[(a AND 0x7F) >> 2]`, in order (R74). -/
def loadStaged (pbuf : List Word) : List (Word × Word) → List Word
  | [] => pbuf
  | (a, w) :: r => loadStaged (pbuf.set ((a &&& Config.pageMask).toNat / 4) w) r

/-- `n` free words, the draws numbered from `k`: the page buffer after a commit (R75, U10). -/
def freeWords (k : Nat) : Nat → List Word
  | 0 => []
  | n + 1 => Config.freeWord k :: freeWords (k + 1) n

/-! ## Controller cycles: the starts (`SEQ`) and the completion (`FCTL`) -/

/-- A cycle starts: busy flag 1, `FC.pending` the cycle (R72 to R75). -/
def State.startCycle (c : Cycle) (s : State) : State :=
  { s with fc := { s.fc with busy := true, pending := c } }

/-- The busy flag falls, nothing is pending. -/
def Controller.rest (f : Controller) : Controller := { f with busy := false, pending := .none }

/-- In variant A a committing cycle leaves the read cache stale (R72, R74, R75). -/
def State.staleAfter (s : State) : Bool := if s.cfg.variant = .a then true else s.fc.stale

/-- Completion of a page erase (R72). -/
def State.completeErase (p : Word) (s : State) : State :=
  { s with
    flash := if s.fc.locked then s.flash else Memory.erase s.flash p.toNat s.cfg.pageSize.toNat
    fc := { s.fc.rest with stale := s.staleAfter } }

/-- Completion of a half-word program, variant G (R73). -/
def State.completeHalf (a : Word) (v : Half) (s : State) : State :=
  { s with
    flash := if s.fc.locked then s.flash
      else Memory.writeHalf s.flash a.toNat (flashProg16 s.dev (Memory.readHalf s.flash a.toNat) v)
    fc := s.fc.rest }

/-- Completion of a buffer reset (R74, R77). -/
def State.completeBufReset (s : State) : State :=
  { s with fc := if s.fc.locked then s.fc.rest
      else { s.fc.rest with pbuf := List.replicate 32 0xFFFFFFFF, stage := [] } }

/-- Completion of a buffer load (R74, R77). -/
def State.completeBufLoad (s : State) : State :=
  { s with fc := if s.fc.locked then { s.fc.rest with stale := true }
      else { s.fc.rest with pbuf := loadStaged s.fc.pbuf s.fc.stage, stage := [], stale := true } }

/-- Completion of a page program commit (R75, R77): the draws `pg`, `wp` are 0 on a healthy device, but `e_wp` is
free on a locked controller (R77). The page buffer is free afterwards (U10). -/
def State.completeProgram (pg wp : Bool) (p : Word) (s : State) : State :=
  { s with
    flash := if s.fc.locked then s.flash else commitWords s.dev s.flash p.toNat s.fc.pbuf
    statr := orErrFlags (!s.dev.healthy && pg) (!(s.dev.healthy && !s.fc.locked) && wp) s.statr
    fc := { s.fc.rest with
      pbuf := if s.fc.locked then s.fc.pbuf else freeWords (s.draws + 2) 32
      stale := true }
    draws := s.draws + 34 }

/-- `FCTL` completes the pending cycle with the fault draws `pg`, `wp` (R72 to R75, R86). -/
def State.complete (pg wp : Bool) (s : State) : State :=
  match s.fc.pending with
  | .none => { s with fc := s.fc.rest }
  | .erase p => s.completeErase p
  | .progHalf a v => s.completeHalf a v
  | .bufReset => s.completeBufReset
  | .bufLoad => s.completeBufLoad
  | .program p => s.completeProgram pg wp p

/-- The completion with free fault draws. -/
def State.completeFree (s : State) : State :=
  s.complete (Config.freeBit s.draws) (Config.freeBit (s.draws + 1))

/-! ## The drain interrupt: entry, service and return in one atomic step (R186, spec/60_exceptions.md R220 to R227) -/

/-- `txe_drain`: an empty ring disarms; otherwise the oldest byte goes to `TDR` (which clears `TXE` and appends to
`LINE`, R50) and the read index advances. Entry saves nothing and the return goes on where `SEQ` was (R226, R227). -/
def State.txeDrain (s : State) : State :=
  if ringEmpty s.rb then { s with armed := false }
  else { s with
    tdr := s.rb.buf.getD s.rb.rd 0
    txe := false
    line := s.line ++ [s.rb.buf.getD s.rb.rd 0]
    rb := { s.rb with rd := ringNext s.cfg.ringN s.rb.rd } }

/-- The interrupt is taken iff it is requested (R224). -/
def State.irqTurn (s : State) : State := if s.txeRequest then s.txeDrain else s

/-- `UART` raises `TXE`, enabled iff `TXE == 0` (R50, R224). -/
def State.uartShift (s : State) : State := if s.txe then s else { s with txe := true }

/-- `FCTL` completes, enabled iff the busy flag is 1 (R86); never once the controller is stuck (U16). -/
def State.fctlTurn (pg wp : Bool) (s : State) : State :=
  if s.fc.busy && !s.fctlStuck then s.complete pg wp else s

/-! ## The command port -/

/-- `HOST` writes a command (spec/10_state.md R22): the operands are in their registers before `OP` starts it. -/
def State.accept (c : Command) (rest : List Command) (s : State) : State :=
  { s with op := c.op, a0 := c.a0, a1 := c.a1, src := c.src, inbox := rest }

/-- An operation starts: `BUSY <- 1`, `ILL <- 0`, `seq` at its first line (R22). -/
def State.begin (i : Instr) (lines : List Line) (s : State) : State :=
  { s with busy := true, ill := false, seq := .running i lines, tmp := Tmp.init, cause := none }

/-- `return v` (spec/00_scope.md R11): `RES <- v`, then `seq <- IDLE`, `BUSY <- 0`. -/
def State.finish (v : Word) (s : State) : State :=
  { s with res := v, seq := .idle, busy := false, tmp := Tmp.init }

/-- `raise Fail(c)` (R11, spec/60_exceptions.md R210): the one way an operation fails. `RES <- 0`, then as a return;
the label is ghost state. -/
def State.raiseFail (c : Cause) (s : State) : State := { s.finish 0 with cause := some c }

/-- An illegal command word (spec/30_encoding.md R96). -/
def State.illegal (s : State) : State :=
  { s with ill := true, res := 0, busy := false, seq := .idle }

/-! ## Reset (spec/70_reset_and_hazards.md R240 to R242) -/

/-- The bytes of the unit a pending cycle was changing: first address and number of bytes (R242). -/
def State.pendingUnit (s : State) : Nat × Nat :=
  match s.fc.pending with
  | .none => (0, 0)
  | .erase p => (p.toNat, s.cfg.pageSize.toNat)
  | .progHalf a _ => (a.toNat, 2)
  | .bufReset => (0, 0)
  | .bufLoad => (0, 0)
  | .program p => (p.toNat, Config.pageBytes)

/-- Reset of the core: every piece of state takes its reset value, `BKP` and `FLASH` stay, but the unit a pending cycle
was changing is free (U8). -/
def State.coreReset (s : State) : State :=
  { State.resetOf s.cfg s.bkp (Memory.fillFree s.flash s.pendingUnit.1 s.pendingUnit.2 s.draws) s.btn s.dev with
    inbox := s.inbox
    sched := s.sched
    draws := s.draws + s.pendingUnit.2 }

/-! ## Turns -/

/-- One turn of an agent other than `SEQ` and `HOST` (R224). -/
def State.turn (t : Turn) (s : State) : State :=
  match t with
  | .seq => s
  | .irq => s.irqTurn
  | .uart => s.uartShift
  | .fctl pg wp => s.fctlTurn pg wp
  | .pin level => { s with btn := level }
  | .host => s
  | .reset => s.coreReset
  | .stick => { s with fctlStuck := true }
  | .yield => s

/-- One step while no operation is in progress and `HOST` has nothing to write: the next turn of the schedule; with the
schedule used up, the drain if it is requested, else the transmitter, else nothing changes (log 2). -/
def State.idleStep (s : State) : State :=
  match s.sched with
  | t :: r => State.turn t { s with sched := r }
  | [] => if s.txeRequest then s.txeDrain else s.uartShift

end Sys2Proof.Machine
end

