-- ==== Sys2Proof/Machine/Sequencer.lean ====
section
/-!
DEFINITION. The sequencer `SEQ`: what one line does (`runLine`), how it waits for its turn among the other agents
(`await`), and how an operation runs (`runLines`, `start`). spec/10_state.md R22 to R24, spec/20_memory.md R76, R79,
spec/60_exceptions.md R222 to R227.
-/

namespace Sys2Proof.Machine

/-- What a line leads to. -/
inductive Flow where
  /-- the next line in textual order (R23) -/
  | go (s : State)
  /-- a branch: the next `n` lines are passed over -/
  | skip (n : Nat) (s : State)
  /-- the operation has ended (`return`, `raise Fail`) -/
  | done (s : State)
  | fault (r : Fault)
  | refuse (r : Refusal)
deriving DecidableEq, Repr

/-- What a flash read gives: a value and the state after the draw, or no such address. -/
inductive Got (α : Type) where
  | value (v : α) (s : State)
  | absent (r : Fault)
deriving DecidableEq, Repr

/-! ## Flash reads (spec/20_memory.md R61, R62, R69) -/

/-- The read cache is stale (variant A only, R69). -/
def State.readStale (s : State) : Bool := s.cfg.variant == .a && s.fc.stale

/-- `MemRead(a, 2)`: array content, or a fresh free value while the read cache is stale. -/
def memRead16 (a : Word) (s : State) : Got Half :=
  if s.readStale then .value (Config.freeHalf s.draws) { s with draws := s.draws + 1 }
  else if a.toNat % 2 ≠ 0 then .absent .flashMisaligned
  else if s.inArray a 2 then .value (Memory.readHalf s.flash a.toNat) s
  else .absent .flashAddressAbsent

/-- `MemRead(a, 4)`. -/
def memRead32 (a : Word) (s : State) : Got Word :=
  if s.readStale then .value (Config.freeWord s.draws) { s with draws := s.draws + 1 }
  else if a.toNat % 4 ≠ 0 then .absent .flashMisaligned
  else if s.inArray a 4 then .value (Memory.readWord s.flash a.toNat) s
  else .absent .flashAddressAbsent

/-! ## Ring -/

/-- One byte of an enqueue call (spec/43_ring_transmitter.md R182 lines 3 to 6): a full ring drops it and the `left`
bytes after it; else it is stored, then published. -/
def enqueueByte (b : Byte) (left : Nat) (s : State) : Flow :=
  if ringFull s.cfg.ringN s.rb then .skip left s
  else .go { s with
    rb := { s.rb with buf := s.rb.buf.set s.rb.wr b, wr := ringNext s.cfg.ringN s.rb.wr }
    tmp := { s.tmp with put := s.tmp.put + 1 } }

/-! ## Controller actions -/

/-- Start a cycle on `n` bytes from `p` (R72, R73, R75): the unit exists and no cycle is pending. -/
def startOn (p : Word) (n : Nat) (c : Cycle) (s : State) : Flow :=
  if !s.inArray p n then .fault .flashAddressAbsent
  else if s.fc.busy then .refuse .cycleAlreadyPending
  else .go (s.startCycle c)

/-- `GErasePage(PageStart(d))`, the start (spec/10_state.md R42). -/
def startErase (d : Word) (s : State) : Flow :=
  startOn (pageStart s.fas.pageSize d) s.fas.pageSize.toNat (.erase (pageStart s.fas.pageSize d)) s

/-- `GProgHalf(d, v)`, the start (R42). -/
def startHalf (d : Word) (v : Half) (s : State) : Flow :=
  if d.toNat % 2 ≠ 0 then .fault .flashMisaligned else startOn d 2 (.progHalf d v) s

/-- `CTLR.STRT` is set; how it reads back is free (R45, U9). -/
def State.setStrt (s : State) : State :=
  { s with ctlr := { s.ctlr with strt := Config.freeBit s.draws }, draws := s.draws + 1 }

/-- `CTLR.BUFRST` is set; how it reads back is free (R45, U9). -/
def State.setBufrst (s : State) : State :=
  { s with ctlr := { s.ctlr with bufrst := Config.freeBit s.draws }, draws := s.draws + 1 }

/-- `CTLR.BUFLOAD` is set; how it reads back is free (R45, U9). -/
def State.setBufload (s : State) : State :=
  { s with ctlr := { s.ctlr with bufload := Config.freeBit s.draws }, draws := s.draws + 1 }

/-- `CtlSet(CTLR.STRT)`: an erase or a commit of the page in `ADDR`, by the one level bit that is set (R72, R75). -/
def startMode (s : State) : Flow :=
  match s.ctlr.per, s.ctlr.ppg with
  | true, false => startOn (pageOfA s.addr) Config.pageBytes (.erase (pageOfA s.addr)) s.setStrt
  | false, true => startOn (pageOfA s.addr) Config.pageBytes (.program (pageOfA s.addr)) s.setStrt
  | true, true => .refuse .startWithoutOneMode
  | false, false => .refuse .startWithoutOneMode

/-- A buffer command, only in program mode (R74). -/
def startBuffer (c : Cycle) (s : State) : Flow :=
  if !s.ctlr.ppg then .refuse .bufferCommandOutsideProgramMode
  else if s.fc.busy then .refuse .cycleAlreadyPending
  else .go (s.startCycle c)

/-- `CtlSet(CTLR.b)` (R45, R47, R142). Setting the lock bit closes write access and forgets the key sequence. -/
def ctlSetBit (b : CtlBit) (s : State) : Flow :=
  match b with
  | .level l => .go { s with ctlr := setLevel l true s.ctlr }
  | .bufRst => startBuffer .bufReset s.setBufrst
  | .bufLoad => startBuffer .bufLoad s.setBufload
  | .strt => startMode s
  | .lock => .go { s with ctlr := { s.ctlr with lock := true }, fc := { s.fc with locked := true, keyseq := 0 } }

/-- The key register and the key that the sequence wants after `n` matching writes (R47); a complete sequence starts
over (log 17). -/
def expectedKey (c : Config) (n : Nat) : KeyReg × Word :=
  match n with
  | 1 => (.main, c.key2)
  | 2 => (.mode, c.key1)
  | 3 => (.mode, c.key2)
  | _ => (.main, c.key1)

/-- `CtlWrite(KEYR | MODEKEYR, v)`: the register takes the value and the sequence advances; the fourth matching write
opens write access (R47). A key out of sequence is refused (U6). -/
def writeKey (r : KeyReg) (v : Word) (s : State) : Flow :=
  let n := if s.fc.keyseq ≥ 4 then 0 else s.fc.keyseq
  if expectedKey s.cfg n ≠ (r, v) then .refuse .wrongKey
  else
    let s1 : State := match r with
      | .main => { s with keyr := v }
      | .mode => { s with modekeyr := v }
    if n = 3 then
      .go { s1 with fc := { s.fc with keyseq := 4, locked := false }, ctlr := { s.ctlr with lock := false } }
    else .go { s1 with fc := { s.fc with keyseq := n + 1 } }

/-- `MemWrite(a, 4, w)` (R71): staged if unlocked; only in program mode, aligned, at most `BATCH_WORDS` staged. -/
def stageWord (a w : Word) (s : State) : Flow :=
  if a.toNat % 4 ≠ 0 then .fault .flashMisaligned
  else if !s.inArray a 4 then .fault .flashAddressAbsent
  else if !s.ctlr.ppg then .refuse .memWriteOutsideProgramMode
  else if s.fc.locked then .go s
  else if s.fc.stage.length ≥ Config.batchWords then .refuse .fifthStagedWord
  else .go { s with fc := { s.fc with stage := s.fc.stage ++ [(a, w)] } }

/-! ## Tests -/

/-- `Verify(a, expected)` (spec/42_verify_and_capacity.md R170), and the failure on a mismatch (R172). -/
def verifyHalf (a : Word) (expected : Half) (s : State) : Flow :=
  match memRead16 a s with
  | .value got s1 => if got = expected then .go s1 else .done (s1.raiseFail .verify)
  | .absent r => .fault r

/-- `w <- MemRead(x XOR 0x100, 4)` (R78). -/
def refreshRead (x : Word) (s : State) : Flow :=
  match memRead32 (refreshPartner x) s with
  | .value w s1 => .go { s1 with tmp := { s1.tmp with w := w } }
  | .absent r => .fault r

/-- `get_max_firmware_size`: the usable bytes, 0 when `FAS.end < FAS.base` (R174, spec/10_state.md R28). -/
def firmwareSize (f : AddressSpace) : Word :=
  if f.base.toNat ≤ f.endAddr.toNat then f.endAddr - f.base else 0

/-- The logical level of the button (spec/44_boot_trigger.md R201 line 7). -/
def buttonPressed (activeHigh lvl : Bool) : Bool := if activeHigh then lvl else !lvl

/-- A Boolean result (spec/30_encoding.md R99). -/
def boolResult (b : Bool) : Word := if b then 1 else 0

/-! ## One line -/

/-- One micro-step of `SEQ`. -/
def runLine (l : Line) (s : State) : Flow :=
  match l with
  | .enqStart => .go { s with tmp := { s.tmp with put := 0 } }
  | .enqByte b left => enqueueByte b left s
  | .enqArm => .go { s with armed := if s.tmp.put ≥ 1 then true else s.armed }
  | .gUnlock => .go { s with fc := { s.fc with locked := false } }
  | .gLock => .go { s with fc := { s.fc with locked := true } }
  | .gErase d => startErase d s
  | .gProg d v => startHalf d v s
  | .gWait => .go s
  | .bound d => if s.fas.endAddr.toNat ≤ d.toNat then .done (s.raiseFail .param) else .go s
  | .windowTest d => if outsideWindow s.win d then .go s else .skip 3 s
  | .windowPage d => .go { s with win := { start := pageStart s.fas.pageSize d, endAddr := pageEnd s.fas.pageSize d } }
  | .windowPast d => .go { s with win := { s.win with start := d + 2 } }
  | .windowEmpty => .go { s with win := if s.cfg.variant = .g then { start := 0, endAddr := 0 } else s.win }
  | .verify d v => verifyHalf d v s
  | .keyWrite r v => writeKey r v s
  | .ctlSet b => ctlSetBit b s
  | .ctlClear b => .go { s with ctlr := setLevel b false s.ctlr }
  | .addrWrite a => .go { s with addr := a }
  | .spin => .go s
  | .refreshRead x => refreshRead x s
  | .refreshWrite => .go { s with cachectl := s.tmp.w, fc := { s.fc with stale := false } }
  | .memWrite a w => stageWord a w s
  | .statusRead => .go { s with tmp := { s.tmp with s := s.statr } }
  | .statusTest => if statusFlagged s.tmp.s then .go s else .skip 2 s
  | .clearErr => .go { s with statr := clearErrFlags s.statr }
  | .bkpRead => .go { s with tmp := { s.tmp with v := s.bkp } }
  | .bkpCompare => .go { s with tmp := { s.tmp with force := s.tmp.v == s.cfg.forceCmd } }
  | .bkpClear => .go { s with bkp := Config.cleared }
  | .delay _ => .go s
  | .pinSample => .go { s with tmp := { s.tmp with lvl := s.btn } }
  | .pinPressed => .go { s with tmp := { s.tmp with pressed := buttonPressed s.cfg.buttonActiveHigh s.tmp.lvl } }
  | .pinOr => .go { s with tmp := { s.tmp with force := s.tmp.force || s.tmp.pressed } }
  | .retForce => .done (s.finish (boolResult s.tmp.force))
  | .retSize => .done (s.finish (firmwareSize s.fas))
  | .ret v => .done (s.finish v)
  | .fail c => .done (s.raiseFail c)

/-- The lines that are not enabled while the busy flag is 1 (R76, R224). -/
def Line.holds : Line → Bool
  | .gWait => true
  | .spin => true
  | _ => false

/-- `SEQ` may take this line now (R224). -/
def lineEnabled (l : Line) (s : State) : Bool := !(l.holds && s.statrBsy)

/-! ## Waiting for the turn -/

/-- How the wait before a line ends. -/
inductive Awaited where
  /-- it is `SEQ`'s turn and the line is enabled -/
  | ready (s : State)
  /-- this step of the model ends before the line: an observer's mark, a hang, a reset -/
  | ended (s : State)
  /-- the host broke its protocol -/
  | refused (r : Refusal)
deriving DecidableEq, Repr

/-- The boundary before line `l`: the other agents take the turns of the schedule until `SEQ` has one at which the line
is enabled. With the schedule used up `SEQ` goes on, and a hold is lifted by `FCTL` unless it is stuck (log 2, log 10).
The first argument after the line is `s.sched`. -/
def await (l : Line) : List Turn → State → Awaited
  | [], s =>
    if lineEnabled l s then .ready s
    else if s.fctlStuck then .ended s
    else .ready s.completeFree
  | .seq :: r, s => if lineEnabled l s then .ready { s with sched := r } else await l r { s with sched := r }
  | .yield :: r, s => .ended { s with sched := r }
  | .reset :: r, s => .ended (State.coreReset { s with sched := r })
  | .host :: r, s => if s.inbox.isEmpty then await l r { s with sched := r } else .refused .opWrittenWhileBusy
  | .irq :: r, s => await l r (State.turn .irq { s with sched := r })
  | .uart :: r, s => await l r (State.turn .uart { s with sched := r })
  | .fctl pg wp :: r, s => await l r (State.turn (.fctl pg wp) { s with sched := r })
  | .pin b :: r, s => await l r (State.turn (.pin b) { s with sched := r })
  | .stick :: r, s => await l r (State.turn .stick { s with sched := r })

/-- Run the lines in order; the number counts lines still to be passed over (a branch taken). The step of the model
ends with the operation, or earlier where `await` says so, with `seq` at the line that waits. -/
def runLines (i : Instr) : List Line → Nat → State → Outcome
  | [], _, s => .next s
  | _ :: rest, n + 1, s => runLines i rest n s
  | l :: rest, 0, s =>
    match await l s.sched { s with seq := .running i (l :: rest) } with
    | .ready s1 =>
      match runLine l s1 with
      | .go s2 => runLines i rest 0 s2
      | .skip n s2 => runLines i rest n s2
      | .done s2 => .next s2
      | .fault r => .fault r
      | .refuse r => .refused r
    | .ended s1 => .next s1
    | .refused r => .refused r

/-- An operation at the command port: refused while another is in progress (U12), where the instance's variant does not
have it (R56), and where its precondition is violated; else it starts (R22) and runs. -/
def start (i : Instr) (pre : Option Refusal) (lines : List Line) (s : State) : Outcome :=
  if s.busy then .refused .opWrittenWhileBusy
  else if !i.wf s.cfg.variant then .refused .absentInVariant
  else match pre with
    | some r => .refused r
    | none => runLines i lines 0 (s.begin i lines)

/-! ## Lines shared by several operations -/

/-- The bytes of one call of `Enqueue` (spec/43_ring_transmitter.md R182). -/
def enqueueBytes : List Byte → List Line
  | [] => [.enqArm]
  | b :: bs => .enqByte b bs.length :: enqueueBytes bs

/-- `Enqueue(bytes)`, and `Emit(frame)`, one call per frame (R182, R190, spec/30_encoding.md R106). -/
def emit (bytes : List Byte) : List Line := .enqStart :: enqueueBytes bytes

/-- `Verify` of consecutive half-words from `d` on, ascending (spec/42_verify_and_capacity.md R171). -/
def verifyLines : Word → List Half → List Line
  | _, [] => []
  | d, v :: vs => .verify d v :: verifyLines (d + 2) vs

/-! ## What a step does -/

/-- What the state has the machine do next. -/
inductive Poll where
  | refuse (r : Refusal)
  /-- the operation in progress goes on with these lines -/
  | resume (i : Instr) (lines : List Line)
  /-- `HOST` has written a command word: the state with the command in its registers -/
  | issue (d : Decoded) (s : State)
  /-- no operation and no command: one turn of another agent -/
  | idle (s : State)
deriving DecidableEq, Repr

/-- Fetch: the sequencer's operation if there is one, else the host's next command word, decoded (R22, R93). -/
def State.poll (s : State) : Poll :=
  if !s.cfg.wf then .refuse .illFormedConfiguration
  else match s.seq with
    | .running i lines => .resume i lines
    | .idle =>
      match s.inbox with
      | c :: rest => .issue (decode s.cfg.variant c.op) (s.accept c rest)
      | [] => .idle s.idleStep

end Sys2Proof.Machine
end

