-- ==== Sys2Proof/Machine/Capacity.lean ====
section
/-!
DEFINITION. The capacity query (spec/42_verify_and_capacity.md R174).
-/

namespace Sys2Proof.Machine

/-- `get_max_firmware_size()` (R174). -/
def execGetMaxFirmwareSize (s : State) : Outcome := start .getMaxFirmwareSize none [.retSize] s

end Sys2Proof.Machine
end

