-- ==== Sys2Proof/Machine/FlashAlternate.lean ====
section
/-!
DEFINITION. Flash Write Engine, alternate variant with the erratum workaround (spec/41_flash_alternate.md R140 to R160).
-/

namespace Sys2Proof.Machine

/-- `flash_unlock()`, variant A (R141). -/
def execFlashUnlockA (s : State) : Outcome :=
  start .flashUnlockA none
    ([.keyWrite .main s.cfg.key1, .keyWrite .main s.cfg.key2, .keyWrite .mode s.cfg.key1, .keyWrite .mode s.cfg.key2]
      ++ emit statusU ++ [.ret 1]) s

/-- `flash_lock()`, variant A (R142). -/
def execFlashLockA (s : State) : Outcome :=
  start .flashLockA none ([.ctlSet .lock] ++ emit statusL ++ [.ret 1]) s

/-- `Refresh(x)` (spec/20_memory.md R78). -/
def refreshLines (x : Word) : List Line := [.refreshRead x, .refreshWrite]

/-- `ErasePageA(address)` (R146). -/
def erasePageLines (address : Word) : List Line :=
  [.ctlSet (.level .per), .addrWrite (pageOfA address), .ctlSet .strt, .spin, .ctlClear .per]
    ++ refreshLines (pageOfA address) ++ emit statusE

/-- A page of variant A lies in the flash array (R65, U4). -/
def pageInArrayA (s : State) (p : Word) : Bool := s.inArray p Config.pageBytes

/-- `flash_erase_page(address)`, variant A (R146). -/
def execFlashErasePageA (s : State) : Outcome :=
  start .flashErasePageA
    (if pageInArrayA s (pageOfA s.a0) then none else some .pageOutsideFlash)
    (erasePageLines s.a0 ++ [.ret 1]) s

/-- The words of a batch written to consecutive addresses (R150 lines 10, 11). -/
def memWriteLines : Word → List Word → List Line
  | _, [] => []
  | a, w :: ws => .memWrite a w :: memWriteLines (a + 4) ws

/-- One batch of at most 8 half-words at its batch start address `b` (R148, R150 lines 8 to 15). -/
def batchLines (b : Word) (batch : List Half) : List Line :=
  [.ctlSet (.level .ppg)] ++ memWriteLines b (packWords batch) ++ [.ctlSet .bufLoad, .spin, .ctlClear .ppg]
    ++ refreshLines b

/-- Batch `k` of a page request: source half-words `8k` to `min(8k + 8, m) - 1` (R148). -/
def batchOf (data : List Half) (k : Nat) : List Half := (data.drop (Config.batchHalves * k)).take Config.batchHalves

/-- All batches of a page request of `data.length` half-words at `a` (R148, R150 lines 6 to 16). -/
def loadLines (a : Word) (data : List Half) : List Line :=
  (List.range ((data.length + 7) / Config.batchHalves)).flatMap fun k =>
    batchLines (a + BitVec.ofNat 32 (16 * k)) (batchOf data k)

/-- The parameter test of R150 line 1. -/
def pageParamBad (a m : Word) : Bool := misalignedA a || decide (Config.pageBufHalves < m.toNat)

/-- Buffer reset (R150 lines 3 to 5). -/
def bufferResetLines : List Line := [.ctlSet (.level .ppg), .ctlSet .bufRst, .spin, .ctlClear .ppg]

/-- Commit (R150 lines 17 to 20). -/
def commitLines (a : Word) : List Line :=
  [.ctlSet (.level .ppg), .addrWrite a, .ctlSet .strt, .spin, .ctlClear .ppg] ++ refreshLines a

/-- Status inspection (R150 lines 21, 22; R152). -/
def statusLines : List Line := [.statusRead, .statusTest, .clearErr, .fail .ctrl]

/-- `ProgramPageA(a, m, data)` (R150). A false return ends the operation: with `PARAM` from line 1, with `CTRL` from
line 22 (R150, R156 line 9). -/
def programPageLines (upper : Bool) (a m : Word) (data : List Half) : List Line :=
  if pageParamBad a m then [.fail .param]
  else emit (addrFrame upper a m) ++ bufferResetLines ++ loadLines a data ++ commitLines a ++ statusLines
    ++ emit statusP

/-- The preconditions of `flash_program_page`: a source shorter than the count has no meaning, whatever the other
operands are (spec/10_state.md R53); the sequencer's own test comes before the array bound (log 12). -/
def pagePre (s : State) : Option Refusal :=
  if s.src.halfWords.length < s.a1.toNat then some .sourceTooShort
  else if pageParamBad s.a0 s.a1 then none
  else if !pageInArrayA s s.a0 then some .pageOutsideFlash
  else none

/-- `flash_program_page(address, size_half_words, data)` (R150). -/
def execFlashProgramPage (s : State) : Outcome :=
  start .flashProgramPage (pagePre s)
    (programPageLines s.cfg.hexUpper s.a0 s.a1 s.operandHalves ++ [.ret 1]) s

/-- One page of `flash_program_array.a` (R156 lines 6 to 11). -/
def arrayPageLines (upper : Bool) (d : Word) (chunk : List Half) : List Line :=
  .bound d :: (erasePageLines d ++ programPageLines upper d (BitVec.ofNat 32 chunk.length) chunk
    ++ verifyLines d chunk)

/-- Chunk `q` of the source: up to 64 half-words (R156 line 5). -/
def chunkOf (data : List Half) (q : Nat) : List Half :=
  (data.drop (Config.pageBufHalves * q)).take Config.pageBufHalves

/-- The loop of R156, lines 4 to 12: page `q` is at `dest + 128q`. -/
def arrayLoopA (upper : Bool) (dest : Word) (data : List Half) : List Line :=
  (List.range ((data.length + 63) / Config.pageBufHalves)).flatMap fun q =>
    arrayPageLines upper (dest + BitVec.ofNat 32 (Config.pageBytes * q)) (chunkOf data q)

/-- The lines of `flash_program_array.a` (R156). -/
def arrayLinesA (s : State) : List Line :=
  emit (sessionFrame s.a1) ++
    (if misalignedA s.a0 then [.fail .param]
     else arrayLoopA s.cfg.hexUpper s.a0 s.operandHalves ++ [.ret 1])

/-- The preconditions of `flash_program_array.a`: a source shorter than the count has no meaning, whatever the other
operands are (spec/10_state.md R53); the sequencer's own test comes before the lower bound (log 12). -/
def arrayPreA (s : State) : Option Refusal :=
  if s.src.halfWords.length < s.a1.toNat then some .sourceTooShort
  else if misalignedA s.a0 then none
  else if s.a0.toNat < s.fas.base.toNat then some .destinationBelowBase
  else none

/-- `flash_program_array(dest, data, half_word_count)`, variant A (R156). -/
def execFlashProgramArrayA (s : State) : Outcome := start .flashProgramArrayA (arrayPreA s) (arrayLinesA s) s

end Sys2Proof.Machine
end

