-- ==== Sys2Proof/Machine/FlashGeneric.lean ====
section
/-!
DEFINITION. Flash Write Engine, generic variant (spec/40_flash_generic.md R120 to R131).
-/

namespace Sys2Proof.Machine

/-- `flash_unlock()`, variant G (R121). -/
def execFlashUnlockG (s : State) : Outcome := start .flashUnlockG none [.gUnlock, .ret 1] s

/-- `flash_lock()`, variant G (R122). -/
def execFlashLockG (s : State) : Outcome := start .flashLockG none [.gLock, .ret 1] s

/-- The page of `A0` lies in the flash array (R65, U4). -/
def pageInArray (s : State) (p : Word) : Bool := s.inArray p s.fas.pageSize.toNat

/-- `flash_erase_page(address)`, variant G: any address in a page erases that page (R123). -/
def execFlashErasePageG (s : State) : Outcome :=
  start .flashErasePageG
    (if pageInArray s (pageStart s.fas.pageSize s.a0) then none else some .pageOutsideFlash)
    [.gErase s.a0, .gWait, .ret 1] s

/-- One pass of the loop of R126, lines 4 to 10, for the half-word `v` at `d`. -/
def halfLinesG (d : Word) (v : Half) : List Line :=
  [.bound d, .windowTest d, .gErase d, .gWait, .windowPage d, .gProg d v, .gWait, .windowPast d, .verify d v]

/-- The loop of R126, lines 3 to 11. -/
def arrayLoopG : Word → List Half → List Line
  | _, [] => []
  | d, v :: vs => halfLinesG d v ++ arrayLoopG (d + 2) vs

/-- The preconditions of `flash_program_array.g` on its operands (R63, R65, spec/10_state.md R53). -/
def arrayPreG (s : State) : Option Refusal :=
  if s.a0.toNat % 2 ≠ 0 then some .oddDestination
  else if s.a0.toNat < s.fas.base.toNat then some .destinationBelowBase
  else if s.src.halfWords.length < s.a1.toNat then some .sourceTooShort
  else none

/-- The lines of `flash_program_array.g` (R126). -/
def arrayLinesG (s : State) : List Line :=
  emit (addrFrame s.cfg.hexUpper s.a0 s.a1) ++ arrayLoopG s.a0 s.operandHalves ++ [.ret 1]

/-- `flash_program_array(dest, data, half_word_count)`, variant G (R126). -/
def execFlashProgramArrayG (s : State) : Outcome := start .flashProgramArrayG (arrayPreG s) (arrayLinesG s) s

/-- `session_reset()`: empties the ErasedWindow in variant G, no effect in variant A (R130, spec/10_state.md R56). -/
def execSessionReset (s : State) : Outcome := start .sessionReset none [.windowEmpty, .ret 1] s

end Sys2Proof.Machine
end

