-- ==== Sys2Proof/Machine/Transmitter.lean ====
section
/-!
DEFINITION. The ring's producer command (spec/43_ring_transmitter.md R183).
-/

namespace Sys2Proof.Machine

/-- `tx_enqueue(bytes)` (R183). -/
def execTxEnqueue (s : State) : Outcome :=
  start .txEnqueue
    (if s.src.byteSeq.length < s.a1.toNat then some .sourceTooShort else none)
    (emit s.operandBytes ++ [.ret 1]) s

end Sys2Proof.Machine
end

