-- ==== Sys2Proof/Machine/Trigger.lean ====
section
/-!
DEFINITION. Bootloader Trigger Resolver (spec/44_boot_trigger.md R200 to R205).
-/

namespace Sys2Proof.Machine

/-- Lines 5 to 8 of R201, which exist only when `HAVE_BUTTON` (R203). -/
def buttonLines (c : Config) : List Line :=
  if c.haveButton then [.delay c.debounceDelay, .pinSample, .pinPressed, .pinOr] else []

/-- `should_force_bootloader()` (R201). -/
def execShouldForceBootloader (s : State) : Outcome :=
  start .shouldForceBootloader none ([.bkpRead, .bkpCompare, .bkpClear] ++ buttonLines s.cfg ++ [.retForce]) s

end Sys2Proof.Machine
end

