-- ==== Sys2Proof/Machine/Dispatch.lean ====
section
/-!
DEFINITION. One arm per operation of the opcode table.
-/

namespace Sys2Proof.Machine

def exec (i : Instr) (s : State) : Host.Outcome State Fault Refusal :=
  match i with
  | .flashUnlockG => Sys2Proof.Machine.execFlashUnlockG s
  | .flashUnlockA => Sys2Proof.Machine.execFlashUnlockA s
  | .flashLockG => Sys2Proof.Machine.execFlashLockG s
  | .flashLockA => Sys2Proof.Machine.execFlashLockA s
  | .flashErasePageG => Sys2Proof.Machine.execFlashErasePageG s
  | .flashErasePageA => Sys2Proof.Machine.execFlashErasePageA s
  | .flashProgramArrayG => Sys2Proof.Machine.execFlashProgramArrayG s
  | .flashProgramArrayA => Sys2Proof.Machine.execFlashProgramArrayA s
  | .flashProgramPage => Sys2Proof.Machine.execFlashProgramPage s
  | .getMaxFirmwareSize => Sys2Proof.Machine.execGetMaxFirmwareSize s
  | .shouldForceBootloader => Sys2Proof.Machine.execShouldForceBootloader s
  | .txEnqueue => Sys2Proof.Machine.execTxEnqueue s
  | .sessionReset => Sys2Proof.Machine.execSessionReset s

end Sys2Proof.Machine
end

