-- ==== Sys2Proof/Machine/Step.lean ====
section
/-!
DEFINITION. One step of the machine: an operation runs (or goes on), or, with nothing in progress and nothing waiting,
one other agent takes a turn (log 1, log 2).
-/

namespace Sys2Proof.Machine

/-- One step. -/
def step (s : State) : Host.Outcome State Fault Refusal :=
  match s.poll with
  | .refuse r => .refused r
  | .resume i lines => runLines i lines 0 s
  | .issue (.op i) s1 => exec i s1
  | .issue (.illegal _) s1 => .next s1.illegal
  | .idle s1 => .next s1

/-- `s` with the command word `w` as the next one `HOST` writes, its operands `A0 = FAS.base`, `A1 = 0` and an empty
`SRC`, and no operation in progress (log 11).
The word written is always one of 32 bits (R98), `nbits` only says which bits of `w` are taken. -/
def State.withFetchWord (s : State) (nbits w : Nat) : State :=
  { s with
    seq := .idle
    busy := false
    inbox := { op := BitVec.ofNat 32 (w % 2 ^ nbits), a0 := s.fas.base, a1 := 0, src := .halves [] } :: s.inbox }

end Sys2Proof.Machine
end

