-- ==== Sys2Proof/Safety.lean ====
section
/-!
DEFINITION. What counts as a sound state and as an undisturbed run: the vocabulary of the claims.
-/

namespace Sys2Proof.Machine

/-! ## Schedules -/

/-- A turn that neither ends the step nor resets, sticks or overruns the core. -/
def Turn.quiet : Turn → Bool
  | .seq => true
  | .irq => true
  | .uart => true
  | .fctl _ _ => true
  | .pin _ => true
  | .host => false
  | .reset => false
  | .stick => false
  | .yield => false

/-- `FCTL` is fair and nothing interrupts the operation: the premise "`FCTL` fair" of spec/40_flash_generic.md R131 and
spec/41_flash_alternate.md R160, for whatever turns the drain, the transmitter, the controller and the pin take. -/
def State.uninterrupted (s : State) : Bool := s.sched.all Turn.quiet && !s.fctlStuck

/-- The consumer's turn. -/
def Turn.isIrq : Turn → Bool
  | .irq => true
  | _ => false

/-- A change of the button's level. -/
def Turn.isPin : Turn → Bool
  | .pin _ => true
  | _ => false

/-- A reset of the core. -/
def Turn.isReset : Turn → Bool
  | .reset => true
  | _ => false

/-! ## What a step works on -/

/-- The program of an operation: the lines it starts with. They depend on the parameters and the operands only. -/
def opLines (i : Instr) (s : State) : List Line :=
  match i with
  | .flashUnlockG => [.gUnlock, .ret 1]
  | .flashUnlockA =>
    [.keyWrite .main s.cfg.key1, .keyWrite .main s.cfg.key2, .keyWrite .mode s.cfg.key1, .keyWrite .mode s.cfg.key2]
      ++ emit statusU ++ [.ret 1]
  | .flashLockG => [.gLock, .ret 1]
  | .flashLockA => [.ctlSet .lock] ++ emit statusL ++ [.ret 1]
  | .flashErasePageG => [.gErase s.a0, .gWait, .ret 1]
  | .flashErasePageA => erasePageLines s.a0 ++ [.ret 1]
  | .flashProgramArrayG => arrayLinesG s
  | .flashProgramArrayA => arrayLinesA s
  | .flashProgramPage => programPageLines s.cfg.hexUpper s.a0 s.a1 s.operandHalves ++ [.ret 1]
  | .getMaxFirmwareSize => [.retSize]
  | .shouldForceBootloader => [.bkpRead, .bkpCompare, .bkpClear] ++ buttonLines s.cfg ++ [.retForce]
  | .txEnqueue => emit s.operandBytes ++ [.ret 1]
  | .sessionReset => [.windowEmpty, .ret 1]

/-- The operation a step runs: the one in progress, else the one that the host's next command word stands for. -/
def State.operation (s : State) : Option Instr :=
  match s.seq with
  | .running i _ => some i
  | .idle =>
    match s.inbox with
    | [] => none
    | c :: _ =>
      match decode s.cfg.variant c.op with
      | .op i => some i
      | .illegal _ => none

/-- The lines a step has before it: those still to be executed, else the program of the host's next command. -/
def State.program (s : State) : List Line :=
  match s.seq with
  | .running _ lines => lines
  | .idle =>
    match s.inbox with
    | [] => []
    | c :: rest =>
      match decode s.cfg.variant c.op with
      | .op i => opLines i (s.accept c rest)
      | .illegal _ => []

/-- The lines still to be executed are an end of the program of the operation in progress (spec/10_state.md R23). -/
def State.onProgram (s : State) : Bool :=
  match s.seq with
  | .running i lines => lines.isSuffixOf (opLines i s)
  | .idle => true

/-- The byte that a line offers to the ring. -/
def Line.byte? : Line → Option Byte
  | .enqByte b _ => some b
  | _ => none

/-- The bytes that lines offer to the ring, in order. -/
def offeredBytes (lines : List Line) : List Byte := lines.filterMap Line.byte?

/-! ## Digits -/

/-- `ds` are the digits of `v` in base `b`, most significant first, padded on the left with zeros to `w` digits, and more
than `w` only where `v` needs them (spec/30_encoding.md R102). -/
def IsNumeral (b w v : Nat) (ds : List Nat) : Prop :=
  w ≤ ds.length ∧ (∀ d ∈ ds, d < b) ∧ ds.foldl (fun n d => n * b + d) 0 = v ∧
    (w < ds.length → b ^ (ds.length - 1) ≤ v)

/-! ## The transmit side -/

/-- The bytes held in the ring, oldest first (spec/10_state.md R33 (e)). -/
def State.held (s : State) : List Byte :=
  (List.range (ringHeld s.cfg.ringN s.rb)).map fun k => s.rb.buf.getD ((s.rb.rd + k) % s.cfg.ringN) 0

/-- `s` with the ring, the transmitter, the pin and what is left of the schedule as in `e`. -/
def State.withTx (e s : State) : State :=
  { s with rb := e.rb, armed := e.armed, tdr := e.tdr, txe := e.txe, line := e.line, btn := e.btn, sched := e.sched }

/-- `t` is `s` but for the transmit side, the pin and the schedule: all that other agents may have changed. -/
def TxFrame (s t : State) : Prop := t = State.withTx t s

/-- From `s` to `t` each of `frames` was offered to the ring in one call: a prefix of each was stored, in order, and
what was stored or held before has been sent or is still held, in order (spec/43_ring_transmitter.md R189, R106); where
the frames fit into the free slots, all of each was stored. -/
def Streamed (frames : List (List Byte)) (s t : State) : Prop :=
  ∃ stored : List (List Byte), List.Forall₂ (· <+: ·) stored frames ∧
    t.line ++ t.held = s.line ++ s.held ++ stored.flatten ∧
    (s.held.length + frames.flatten.length < s.cfg.ringN → stored = frames)

/-! ## The control part of the state, and what each line asks of it -/

/-- The controller state that decides whether a line has a meaning. -/
structure Ctl where
  per : Bool
  ppg : Bool
  locked : Bool
  stale : Bool
  pending : Cycle
  keyseq : Nat
  addr : Word
  staged : Nat
deriving DecidableEq, Repr

/-- The control part of a state. -/
def State.ctl (s : State) : Ctl where
  per := s.ctlr.per
  ppg := s.ctlr.ppg
  locked := s.fc.locked
  stale := s.fc.stale
  pending := s.fc.pending
  keyseq := s.fc.keyseq
  addr := s.addr
  staged := s.fc.stage.length

/-- The control part after the pending cycle completes. -/
def Ctl.settle (v : Variant) (c : Ctl) : Ctl :=
  match c.pending with
  | .none => c
  | .erase _ => { c with pending := .none, stale := if v = .a then true else c.stale }
  | .progHalf _ _ => { c with pending := .none }
  | .bufReset => { c with pending := .none, staged := if c.locked then c.staged else 0 }
  | .bufLoad => { c with pending := .none, stale := true, staged := if c.locked then c.staged else 0 }
  | .program _ => { c with pending := .none, stale := true }

/-- The control part after a line. -/
def Ctl.after (cfg : Config) (fas : AddressSpace) (l : Line) (c : Ctl) : Ctl :=
  match l with
  | .gUnlock => { c with locked := false }
  | .gLock => { c with locked := true }
  | .gErase d => { c with pending := .erase (pageStart fas.pageSize d) }
  | .gProg d v => { c with pending := .progHalf d v }
  | .gWait => c.settle cfg.variant
  | .spin => c.settle cfg.variant
  | .keyWrite _ _ =>
    if c.keyseq = 3 then { c with keyseq := 4, locked := false }
    else { c with keyseq := if c.keyseq ≥ 4 then 1 else c.keyseq + 1 }
  | .ctlSet (.level .per) => { c with per := true }
  | .ctlSet (.level .ppg) => { c with ppg := true }
  | .ctlSet .bufRst => { c with pending := .bufReset }
  | .ctlSet .bufLoad => { c with pending := .bufLoad }
  | .ctlSet .strt => { c with pending := if c.per then .erase (pageOfA c.addr) else .program (pageOfA c.addr) }
  | .ctlSet .lock => { c with locked := true, keyseq := 0 }
  | .ctlClear .per => { c with per := false }
  | .ctlClear .ppg => { c with ppg := false }
  | .addrWrite a => { c with addr := a }
  | .refreshWrite => { c with stale := false }
  | .memWrite _ _ => { c with staged := if c.locked then c.staged else c.staged + 1 }
  | .enqStart => c
  | .enqByte _ _ => c
  | .enqArm => c
  | .bound _ => c
  | .windowTest _ => c
  | .windowPage _ => c
  | .windowPast _ => c
  | .windowEmpty => c
  | .verify _ _ => c
  | .refreshRead _ => c
  | .statusRead => c
  | .statusTest => c
  | .clearErr => c
  | .bkpRead => c
  | .bkpCompare => c
  | .bkpClear => c
  | .delay _ => c
  | .pinSample => c
  | .pinPressed => c
  | .pinOr => c
  | .retForce => c
  | .retSize => c
  | .ret _ => c
  | .fail _ => c

/-- The controller is at rest: neither mode bit set, nothing pending, the read cache fresh, no key sequence half
written, nothing staged. Every operation starts and ends so (spec/60_exceptions.md R231, spec/70 R251). -/
def Ctl.clean (c : Ctl) : Bool :=
  !c.per && !c.ppg && (c.pending == .none) && !c.stale && (c.keyseq == 0 || c.keyseq == 4) && (c.staged == 0)

/-- `[a, a + n)` lies in the flash array. -/
def inFlash (cfg : Config) (fas : AddressSpace) (a : Word) (n : Nat) : Bool :=
  decide (cfg.flashOrigin.toNat ≤ a.toNat) && decide (a.toNat + n ≤ fas.endAddr.toNat)

/-- After an enqueued byte with `left` bytes to come, the lines are those bytes and then the arming
(spec/43_ring_transmitter.md R182). -/
def enqueueTail : Nat → List Line → Bool
  | 0, .enqArm :: _ => true
  | n + 1, .enqByte _ m :: r => (m == n) && enqueueTail n r
  | _, _ => false

/-- What a line asks of the control part, so that neither it nor the cycle it starts is one of the situations the spec
gives no meaning to (spec/20_memory.md R62, R71, R75, spec/10_state.md R47); `rest` are the lines after it. -/
def Line.ok (cfg : Config) (fas : AddressSpace) (l : Line) (rest : List Line) (c : Ctl) : Bool :=
  match l with
  | .gWait => cfg.variant == .g
  | .spin => cfg.variant == .a
  | .enqStart => c.pending == .none && (match rest with
      | .enqByte _ m :: r => enqueueTail m r
      | .enqArm :: _ => true
      | _ => false)
  | .enqByte _ left => c.pending == .none && enqueueTail left rest
  | .enqArm => c.pending == .none
  | .gUnlock => c.pending == .none && cfg.variant == .g
  | .gLock => c.pending == .none && cfg.variant == .g
  | .gErase d => c.pending == .none && cfg.variant == .g &&
      inFlash cfg fas (pageStart fas.pageSize d) fas.pageSize.toNat
  | .gProg d _ => c.pending == .none && cfg.variant == .g && d.toNat % 2 == 0 && inFlash cfg fas d 2
  | .bound _ => c.clean
  | .windowTest _ => c.pending == .none && cfg.variant == .g
  | .windowPage _ => c.pending == .none && cfg.variant == .g
  | .windowPast _ => c.pending == .none && cfg.variant == .g
  | .windowEmpty => c.pending == .none
  | .verify d _ => c.clean && d.toNat % 2 == 0 && inFlash cfg fas d 2
  | .keyWrite r v => c.pending == .none && cfg.variant == .a &&
      expectedKey cfg (if c.keyseq ≥ 4 then 0 else c.keyseq) == (r, v)
  | .ctlSet (.level _) => c.pending == .none && cfg.variant == .a
  | .ctlSet .bufRst => c.pending == .none && cfg.variant == .a && c.ppg
  | .ctlSet .bufLoad => c.pending == .none && cfg.variant == .a && c.ppg
  | .ctlSet .strt => c.pending == .none && cfg.variant == .a && (c.per != c.ppg) &&
      inFlash cfg fas (pageOfA c.addr) Config.pageBytes
  | .ctlSet .lock => c.pending == .none && cfg.variant == .a
  | .ctlClear _ => c.pending == .none && cfg.variant == .a
  | .addrWrite _ => c.pending == .none && cfg.variant == .a
  | .refreshRead _ => c.pending == .none && cfg.variant == .a && c.stale
  | .refreshWrite => c.pending == .none && cfg.variant == .a
  | .memWrite a _ => c.pending == .none && cfg.variant == .a && a.toNat % 4 == 0 && inFlash cfg fas a 4 && c.ppg &&
      (c.locked || decide (c.staged < Config.batchWords))
  | .statusRead => c.pending == .none
  | .statusTest => c.pending == .none
  | .clearErr => c.pending == .none && cfg.variant == .a
  | .bkpRead => c.pending == .none
  | .bkpCompare => c.pending == .none
  | .bkpClear => c.pending == .none
  | .delay _ => c.pending == .none
  | .pinSample => c.pending == .none
  | .pinPressed => c.pending == .none
  | .pinOr => c.pending == .none
  | .retForce => c.clean
  | .retSize => c.clean
  | .ret _ => c.clean
  | .fail _ => c.clean

/-- How many lines a branch of the line passes over, for the lines that branch. -/
def Line.branch? : Line → Option Nat
  | .enqStart => none
  | .enqByte _ left => some left
  | .enqArm => none
  | .gUnlock => none
  | .gLock => none
  | .gErase _ => none
  | .gProg _ _ => none
  | .gWait => none
  | .bound _ => none
  | .windowTest _ => some 3
  | .windowPage _ => none
  | .windowPast _ => none
  | .windowEmpty => none
  | .verify _ _ => none
  | .keyWrite _ _ => none
  | .ctlSet _ => none
  | .ctlClear _ => none
  | .addrWrite _ => none
  | .spin => none
  | .refreshRead _ => none
  | .refreshWrite => none
  | .memWrite _ _ => none
  | .statusRead => none
  | .statusTest => some 2
  | .clearErr => none
  | .bkpRead => none
  | .bkpCompare => none
  | .bkpClear => none
  | .delay _ => none
  | .pinSample => none
  | .pinPressed => none
  | .pinOr => none
  | .retForce => none
  | .retSize => none
  | .ret _ => none
  | .fail _ => none

/-- The line ends the operation on every path. -/
def Line.ends : Line → Bool
  | .retForce => true
  | .retSize => true
  | .ret _ => true
  | .fail _ => true
  | _ => false

/-- The line after this one is never reached: a bound test on an address at or beyond `FAS.end`. -/
def Line.stops (fas : AddressSpace) : Line → Bool
  | .bound d => decide (fas.endAddr.toNat ≤ d.toNat)
  | _ => false

/-- Every path through the lines (the first `n` passed over) asks of each line what the control part gives, and ends
in a `return` or a `raise Fail`. -/
def linesOk (cfg : Config) (fas : AddressSpace) : List Line → Nat → Ctl → Bool
  | [], _, _ => false
  | _ :: r, n + 1, c => linesOk cfg fas r n c
  | l :: r, 0, c =>
    l.ok cfg fas r c &&
    (l.ends ||
      ((l.stops fas || linesOk cfg fas r 0 (c.after cfg fas l)) &&
       (match l.branch? with
        | some n => linesOk cfg fas r n c
        | none => true)))

/-! ## The invariant -/

/-- Ring indices and storage (spec/10_state.md R33 (a)). -/
def State.ringOk (s : State) : Bool :=
  (s.rb.buf.length == s.cfg.ringN) && decide (s.rb.rd < s.cfg.ringN) && decide (s.rb.wr < s.cfg.ringN)

/-- The flash array is in canonical form and lists nothing outside `[FLASH_ORIGIN, FAS.end)` (R40). -/
def State.flashOk (s : State) : Bool :=
  Memory.wf s.flash &&
  s.flash.all fun c => decide (s.cfg.flashOrigin.toNat ≤ c.1) && decide (c.1 < s.fas.endAddr.toNat)

/-- A pending cycle is one of the instance's variant and changes only cells of the array (R38 (b), R42). -/
def State.pendingOk (s : State) : Bool :=
  match s.fc.pending with
  | .none => true
  | .erase p => inFlash s.cfg s.fas p s.cfg.pageSize.toNat
  | .progHalf a _ => s.cfg.variant == .g && inFlash s.cfg s.fas a 2
  | .bufReset => s.cfg.variant == .a
  | .bufLoad => s.cfg.variant == .a
  | .program p => s.cfg.variant == .a && inFlash s.cfg s.fas p Config.pageBytes

/-- The controller: `FC.pending` is `none` iff the busy flag is 0 (R38 (b)); sizes; and what is absent in a variant
stays at rest (R56). In variant G the window ends at the end of a page (spec/40_flash_generic.md R127); in variant A,
`CTLR.LOCK` is `FC.locked` (R45). -/
def State.controllerOk (s : State) : Bool :=
  (s.fc.busy == (s.fc.pending != .none)) && s.pendingOk &&
  decide (s.fc.keyseq ≤ 4) && (s.fc.pbuf.length == 32) && decide (s.fc.stage.length ≤ Config.batchWords) &&
  (match s.cfg.variant with
   | .g => !s.fc.stale && !s.ctlr.per && !s.ctlr.ppg && s.fc.stage.isEmpty &&
       (s.win.endAddr.toNat % s.cfg.pageSize.toNat == 0)
   | .a => (s.ctlr.lock == s.fc.locked) && (s.win == { start := 0, endAddr := 0 }))

/-- The next line belongs to an enqueue call that has begun. -/
def SeqPos.midEnqueue : SeqPos → Bool
  | .running _ (.enqByte _ _ :: _) => true
  | .running _ (.enqArm :: _) => true
  | _ => false

/-- A ring that holds bytes is armed, except inside an enqueue call that has stored one
(spec/43_ring_transmitter.md R187). -/
def State.armOk (s : State) : Bool :=
  ringEmpty s.rb || s.armed || (decide (1 ≤ s.tmp.put) && s.seq.midEnqueue)

/-- `BUSY` is 1 iff an operation is in progress (R22); the controller is at rest between operations, and in an operation
every line still to come has a meaning. -/
def State.seqOk (s : State) : Bool :=
  match s.seq with
  | .idle => !s.busy && s.ctl.clean && (s.tmp == Tmp.init)
  | .running i lines => s.busy && i.wf s.cfg.variant && linesOk s.cfg s.fas lines 0 s.ctl

/-- The invariant of the core: kept by every step, true after reset. -/
abbrev State.Inv (s : State) : Prop :=
  s.cfg.wf = true ∧ s.fas = AddressSpace.latch s.cfg ∧ s.ringOk = true ∧ s.flashOk = true ∧
  s.controllerOk = true ∧ s.armOk = true ∧ s.seqOk = true

/-- A sound state in which the host may issue an operation of variant `v` and nothing will interrupt it. -/
abbrev State.ReadyIn (v : Variant) (s : State) : Prop :=
  s.Inv ∧ s.busy = false ∧ s.cfg.variant = v ∧ s.uninterrupted = true

/-- The same in either variant. -/
abbrev State.Ready (s : State) : Prop := s.Inv ∧ s.busy = false ∧ s.uninterrupted = true

/-! ## Variant G: pages and window -/

/-- The pages that `n` half-words from `d` on erase, in order, from the window `w`: a half-word outside the window erases
its page (spec/40_flash_generic.md R126 lines 5 to 7, 9). -/
def erasedBy (pageSize : Word) : Window → Word → Nat → List Word
  | _, _, 0 => []
  | w, d, n + 1 =>
    if outsideWindow w d then
      pageStart pageSize d :: erasedBy pageSize { start := d + 2, endAddr := pageEnd pageSize d } (d + 2) n
    else erasedBy pageSize { w with start := d + 2 } (d + 2) n

/-- Byte `a` lies in one of the pages. -/
def inPages (pageSize : Word) (pages : List Word) (a : Nat) : Bool :=
  pages.any fun p => decide (p.toNat ≤ a) && decide (a < p.toNat + pageSize.toNat)

/-- Every cell inside the window is erased: the precondition of spec/40_flash_generic.md R131. -/
def State.WindowErased (s : State) : Prop :=
  ∀ d : Word, d.toNat % 2 = 0 → outsideWindow s.win d = false → Memory.readHalf s.flash d.toNat = 0xFFFF

/-! ## Variant A: the page -/

/-- The page buffer at the commit of a request for `data` (spec/41_flash_alternate.md R154): word `i` packs half-words
`2i`, `2i + 1`; what the source does not fill is all ones. -/
def pageWords (data : List Half) : List Word :=
  (List.range 32).map fun i => wordOfHalves (data.getD (2 * i) 0xFFFF) (data.getD (2 * i + 1) 0xFFFF)

/-- The pages of a request of `n` half-words: `ceil(n / 64)` (R159). -/
def pagesOf (n : Nat) : Nat := (n + 63) / Config.pageBufHalves

/-- The frames of page `q` of a call that completes it (R159). -/
def pageTrace (upper : Bool) (dest : Word) (n q : Nat) : List (List Byte) :=
  [statusE, addrFrame upper (dest + BitVec.ofNat 32 (128 * q)) (BitVec.ofNat 32 (min 64 (n - 64 * q))), statusP]

/-- The frames of a successful `flash_program_array.a` (R159). -/
def arrayTrace (upper : Bool) (dest n : Word) : List (List Byte) :=
  sessionFrame n :: (List.range (pagesOf n.toNat)).flatMap (pageTrace upper dest n.toNat)

/-- The refusals a host can bring about from a sound state (spec/93_implementation_defined.md U2, U3, U4, U12). -/
def Refusal.hostMade (r : Refusal) : Bool :=
  r == .opWrittenWhileBusy || r == .oddDestination || r == .destinationBelowBase || r == .pageOutsideFlash ||
    r == .sourceTooShort

end Sys2Proof.Machine
end

