-- ==== Sys2Proof/Certificates/Slice0/Obligations.lean ====
section
/-!
DEFINITION. The statements about the core, from the numbered rules of spec/. A statement about an operation that ends
holds for every schedule of the other agents that neither resets the core nor cuts the step (`State.Ready`), and says
which state it ends in up to the transmit side (`TxFrame`): what the drain, the transmitter and the pin may have moved.
-/

open Sys2Proof Sys2Proof.Machine

/-! ## Encoding -/

/-- R92: the command word of every operation that exists in a variant decodes to it. -/
def Obligations.DecodeEncode : Prop :=
  ∀ (v : Variant) (i : Instr), i.wf v = true → decode v (encode i) = .op i

/-- R92, R97: a word that decodes to an operation is that operation's word, and the variant has the operation. -/
def Obligations.DecodedIsTableWord : Prop :=
  ∀ (v : Variant) (w : Word) (i : Instr), decode v w = .op i → w = encode i ∧ i.wf v = true

/-- R92, R93, R96 on the words of spec/95_test_vectors.md E1 to E11, each word in both variants. -/
def Obligations.SampleWords : Prop :=
  decode .g 0x00000001 = .op .flashUnlockG ∧ decode .a 0x00000001 = .op .flashUnlockA ∧
  decode .g 0x00000004 = .op .flashProgramArrayG ∧ decode .a 0x00000004 = .op .flashProgramArrayA ∧
  decode .a 0x00000005 = .op .flashProgramPage ∧ decode .g 0x00000005 = .illegal .absentInVariant ∧
  ∀ v : Variant, decode v 0x00000009 = .op .sessionReset ∧ decode v 0x00000000 = .illegal .unassignedOpcode ∧
    decode v 0x0000000A = .illegal .unassignedOpcode ∧ decode v 0x00000104 = .illegal .reservedBits ∧
    decode v 0xFFFFFFFF = .illegal .reservedBits

/-- R96: which words are illegal; an illegal command only reports; a legal command leaves `ILL` 0. -/
def Obligations.IllegalCommand : Prop :=
  (∀ (v : Variant) (w : Word), (∃ why, decode v w = .illegal why) ↔
    (w.extractLsb' 8 24 ≠ 0 ∨ w.extractLsb' 0 8 = 0 ∨ 0x0A ≤ (w.extractLsb' 0 8).toNat ∨
      (w.extractLsb' 0 8 = 0x05 ∧ v = .g))) ∧
  (∀ (s : State) (c : Command) (rest : List Command) (why : Illegal), s.cfg.wf = true → s.seq = .idle →
    s.busy = false → s.inbox = c :: rest → decode s.cfg.variant c.op = .illegal why →
    step s = .next { s.accept c rest with ill := true, res := 0 }) ∧
  (∀ (i : Instr) (s t : State), exec i s = .next t → t.ill = false)

/-! ## The step -/

/-- A step runs the decoded command, goes on with the operation in progress, or is one turn of another agent (R22, R23;
log 1, log 2, log 11). -/
def Obligations.StepRunsDecoded : Prop :=
  (∀ (s : State) (c : Command) (rest : List Command) (i : Instr), s.cfg.wf = true → s.seq = .idle →
    s.inbox = c :: rest → decode s.cfg.variant c.op = .op i → step s = exec i (s.accept c rest)) ∧
  (∀ (s : State) (i : Instr) (lines : List Line), s.cfg.wf = true → s.seq = .running i lines →
    step s = runLines i lines 0 s) ∧
  (∀ s : State, s.cfg.wf = true → s.seq = .idle → s.inbox = [] → step s = .next s.idleStep) ∧
  (∀ (s : State) (w : Nat) (i : Instr), s.cfg.wf = true → w < 2 ^ 32 →
    decode s.cfg.variant (BitVec.ofNat 32 w) = .op i →
    step (s.withFetchWord 32 w) = exec i { s with
      seq := .idle, busy := false, op := BitVec.ofNat 32 w, a0 := s.fas.base, a1 := 0, src := .halves [] })

/-- Cutting an operation at a boundary between two micro-steps and going on is the operation (R222, R226, R227; log 1):
the step that resumes has the outcome of the run without the cut. -/
def Obligations.CutAndResume : Prop :=
  ∀ (i : Instr) (s t : State) (a b : List Turn), s.Inv → i.wf s.cfg.variant = true → a.all Turn.quiet = true →
    exec i { s with sched := a ++ .yield :: b } = .next t → t.busy = true →
    step t = exec i { s with sched := a ++ b }

/-- The invariant after reset, of every well-formed instance and of the model's (R55, R241; logs 3, 4, 5); no operation is
in progress there, so the position is on a program too. -/
def Obligations.ResetInv : Prop :=
  (∀ (c : Config) (bkp : Half) (flash : Memory) (btn : Bool) (dev : Device), c.wf = true →
    (State.resetOf c bkp flash btn dev).flashOk = true →
    (State.resetOf c bkp flash btn dev).Inv ∧ (State.resetOf c bkp flash btn dev).onProgram = true) ∧
  State.reset.Inv ∧ State.reset.onProgram = true

/-- Every step keeps the invariant. -/
def Obligations.StepKeepsInv : Prop :=
  ∀ s t : State, s.Inv → step s = .next t → t.Inv

/-- Every step keeps the sequencer's position on the program of its operation (R22, R23): what is still to be executed is
an end of the lines that the operation has with the operands it started with, which do not change while it runs. -/
def Obligations.StepKeepsProgram : Prop :=
  (∀ s t : State, s.onProgram = true → step s = .next t → t.onProgram = true) ∧
  (∀ (s t : State) (i : Instr) (lines : List Line), s.seq = .running i lines →
    s.sched.all (fun x => !x.isReset) = true → step s = .next t →
    t.op = s.op ∧ t.a0 = s.a0 ∧ t.a1 = s.a1 ∧ t.src = s.src)

/-- From a sound state no step faults, and a step is refused only for what the host did (R62, R66, R71, R75; U2, U3, U4,
U12). -/
def Obligations.StepStopsOnlyForHost : Prop :=
  ∀ s : State, s.Inv → (∃ t, step s = .next t) ∨ (∃ r, step s = .refused r ∧ r.hostMade = true)

/-- `FAS` is latched at reset, and no step without a reset writes it; the parameters are constant (R27, R2). -/
def Obligations.FasImmutable : Prop :=
  (∀ s : State, s.coreReset.fas.base = s.cfg.appBase ∧ s.coreReset.fas.pageSize = s.cfg.pageSize ∧
    (∀ n, s.cfg.sizeOverride = some n → s.coreReset.fas.endAddr = s.cfg.flashOrigin + n) ∧
    (s.cfg.sizeOverride = none → s.coreReset.fas.endAddr = s.cfg.flashOrigin + s.cfg.capacity)) ∧
  (∀ s t : State, s.sched.all (fun x => !x.isReset) = true → step s = .next t → t.fas = s.fas ∧ t.cfg = s.cfg)

/-- Only `should_force_bootloader` writes `BKP`, and it writes `CLEARED` (R36, R201, R240), under every schedule: an operation
run, one resumed, an idle turn, a reset. -/
def Obligations.BkpWriter : Prop :=
  (∀ (i : Instr) (s t : State), exec i s = .next t → i ≠ .shouldForceBootloader → t.bkp = s.bkp) ∧
  (∀ s t : State, s.onProgram = true → s.operation ≠ some .shouldForceBootloader → step s = .next t → t.bkp = s.bkp) ∧
  (∀ s t : State, step s = .next t → t.bkp = s.bkp ∨ t.bkp = 0x0000)

/-- Without a reset only `flash_program_array.g` and `session_reset` write the window (R31): no other operation run or
resumed, and no idle turn. -/
def Obligations.WindowWriters : Prop :=
  (∀ (i : Instr) (s t : State), s.sched.all (fun x => !x.isReset) = true → exec i s = .next t →
    i ≠ .flashProgramArrayG → i ≠ .sessionReset → t.win = s.win) ∧
  (∀ s t : State, s.onProgram = true → s.sched.all (fun x => !x.isReset) = true →
    s.operation ≠ some .flashProgramArrayG → s.operation ≠ some .sessionReset → step s = .next t → t.win = s.win)

/-- The failure label is ghost state: no step depends on it (R210; log 22). -/
def Obligations.CauseIsGhost : Prop :=
  ∀ (s : State) (c : Option Cause),
    (∀ t, step s = .next t → ∃ c', step { s with cause := c } = .next { t with cause := c' }) ∧
    (∀ r, step s = .fault r → step { s with cause := c } = .fault r) ∧
    (∀ r, step s = .refused r → step { s with cause := c } = .refused r)

/-! ## Reset -/

/-- Derived from R55, R240, R241 and R242: the state after a reset, whatever was in progress, with the flags, mode bits
and lists as R55 has them; the array is as it was where no controller cycle is pending (R242 for the other case). -/
def Obligations.StateAfterReset : Prop :=
  ∀ s : State,
    s.coreReset.seq = .idle ∧ s.coreReset.busy = false ∧ s.coreReset.armed = false ∧
    s.coreReset.txeRequest = false ∧ s.coreReset.rb.rd = 0 ∧ s.coreReset.rb.wr = 0 ∧
    ringEmpty s.coreReset.rb = true ∧ s.coreReset.fc.locked = true ∧ s.coreReset.ctlr.lock = true ∧
    s.coreReset.fc.busy = false ∧ s.coreReset.fc.pending = .none ∧ s.coreReset.fc.stale = false ∧
    s.coreReset.fc.keyseq = 0 ∧ s.coreReset.fc.stage = [] ∧
    s.coreReset.win = { start := 0, endAddr := 0 } ∧ (∀ d, outsideWindow s.coreReset.win d = true) ∧
    s.coreReset.res = 0 ∧ s.coreReset.ill = false ∧ s.coreReset.txe = true ∧ s.coreReset.line = [] ∧
    s.coreReset.statr.pgerr = false ∧ s.coreReset.statr.wrprterr = false ∧
    s.coreReset.ctlr.per = false ∧ s.coreReset.ctlr.ppg = false ∧
    s.coreReset.bkp = s.bkp ∧ (s.fc.pending = .none → s.coreReset.flash = s.flash)

/-- A reset while a cycle is pending leaves every byte outside the unit the cycle was changing, loses the bytes held, and
keeps the array canonical (R242). -/
def Obligations.ResetDuringCycle : Prop :=
  ∀ s : State, s.Inv →
    (∀ a, (a < s.pendingUnit.1 ∨ s.pendingUnit.1 + s.pendingUnit.2 ≤ a) →
      Memory.read s.coreReset.flash a = Memory.read s.flash a) ∧
    s.coreReset.held = [] ∧ s.coreReset.bkp = s.bkp ∧ s.coreReset.Inv

/-! ## Ring, transmitter -/

/-- `txe_drain` (R186): enabled iff `TXE` and `ARMED`; an empty ring disarms, otherwise the oldest byte goes out. -/
def Obligations.TxeDrain : Prop :=
  (∀ s : State, ¬ (s.txe = true ∧ s.armed = true) → s.irqTurn = s) ∧
  (∀ s : State, s.txe = true → s.armed = true → s.rb.rd = s.rb.wr → s.irqTurn = { s with armed := false }) ∧
  (∀ (s : State) (b : Byte), s.txe = true → s.armed = true → s.rb.rd ≠ s.rb.wr → s.rb.buf[s.rb.rd]? = some b →
    s.irqTurn = { s with
      tdr := b, txe := false, line := s.line ++ [b], rb := { s.rb with rd := ringNext s.cfg.ringN s.rb.rd } })

/-- Single-writer discipline (R34): of the sequencer's lines only a byte of an enqueue call writes `RB.wr` and a slot, and
none moves `RB.rd`; no other agent moves `RB.wr` or a slot, and only the consumer moves `RB.rd`. -/
def Obligations.SingleWriter : Prop :=
  (∀ (l : Line) (s t : State) (n : Nat),
    (runLine l s = .go t ∨ runLine l s = .skip n t ∨ runLine l s = .done t) →
      t.rb.rd = s.rb.rd ∧ ((∀ b left, l ≠ .enqByte b left) → t.rb = s.rb)) ∧
  (∀ (x : Turn) (s : State), x.isReset = false →
    (s.turn x).rb.wr = s.rb.wr ∧ (s.turn x).rb.buf = s.rb.buf ∧ (x.isIrq = false → (s.turn x).rb = s.rb))

/-- Draining to empty (R188), with the agents in the order the model gives them when no schedule is left (log 2): in at
most `2h + 2` steps all `h` bytes held are on the line in order, the interrupt is disarmed, and nothing moves any more. -/
def Obligations.DrainsToEmpty : Prop :=
  ∀ s : State, s.Inv → s.busy = false → s.inbox = [] → s.sched = [] → s.armed = true →
    ∃ k t, k ≤ 2 * s.held.length + 2 ∧ Host.Core.run Sys2Proof.core k s = .next t ∧
      t.line = s.line ++ s.held ∧ t.held = [] ∧ t.armed = false ∧ t.txe = true ∧ step t = .next t ∧
      t = { s with rb := t.rb, armed := false, tdr := t.tdr, txe := true, line := t.line }

/-- Stream property (R189, R81). A byte of an enqueue call joins the end of what is on the line or held, or is dropped by a
full ring; no other line and no turn changes it, so it grows in a step without a reset by bytes that the step's lines offer,
in their order, and the line only grows. -/
def Obligations.StreamGrows : Prop :=
  (∀ (b : Byte) (left : Nat) (s : State), s.ringOk = true →
    (ringFull s.cfg.ringN s.rb = true → runLine (.enqByte b left) s = .skip left s) ∧
    (ringFull s.cfg.ringN s.rb = false →
      ∃ t, runLine (.enqByte b left) s = .go t ∧ t.line = s.line ∧ t.held = s.held ++ [b])) ∧
  (∀ (l : Line) (s t : State) (n : Nat), l.byte? = none →
    (runLine l s = .go t ∨ runLine l s = .skip n t ∨ runLine l s = .done t) → t.line = s.line ∧ t.held = s.held) ∧
  (∀ (x : Turn) (s : State), s.ringOk = true → x.isReset = false →
    s.line <+: (s.turn x).line ∧ (s.turn x).line ++ (s.turn x).held = s.line ++ s.held) ∧
  (∀ s t : State, s.Inv → s.sched.all (fun x => !x.isReset) = true → step s = .next t →
    s.line <+: t.line ∧
    ∃ stored, stored.Sublist (offeredBytes s.program) ∧ t.line ++ t.held = s.line ++ s.held ++ stored)

/-- A quiescent state (R224): with no step of `SEQ`, `IRQ`, `FCTL` or `UART` enabled nothing is in progress and every
accepted byte has been handed over. -/
def Obligations.QuiescentIsEmpty : Prop :=
  ∀ s : State, s.Inv → (∀ i l rest, s.seq = .running i (l :: rest) → lineEnabled l s = false) →
    s.txeRequest = false → s.fc.busy = false → s.txe = true →
    s.busy = false ∧ s.armed = false ∧ ringEmpty s.rb = true ∧ s.held = []

/-- `tx_enqueue` (R182, R183): whatever the consumer does during the call it returns 1, a prefix of its bytes joins the
stream, and nothing else changes. -/
def Obligations.EnqueueStream : Prop :=
  ∀ s : State, s.Ready → s.a1.toNat ≤ s.src.byteSeq.length →
    ∃ t, exec .txEnqueue s = .next t ∧ TxFrame { s with res := 1, ill := false, cause := none } t ∧
      Streamed [s.operandBytes] s t ∧ (t.held ≠ [] → t.armed = true)

/-- `tx_enqueue` with no consumer step during it (R184): exactly the free slots are filled with the first bytes of the
call, the rest is dropped, and `ARMED` is set iff a byte went in. -/
def Obligations.EnqueueDropsTail : Prop :=
  ∀ s : State, s.Ready → s.sched.all (fun x => !x.isIrq) = true → s.a1.toNat ≤ s.src.byteSeq.length →
    ∃ t, exec .txEnqueue s = .next t ∧ t.res = 1 ∧ t.line = s.line ∧ t.rb.rd = s.rb.rd ∧
      t.held = s.held ++ s.operandBytes.take (ringFree s.cfg.ringN s.rb) ∧
      t.armed = (s.armed || decide (1 ≤ (s.operandBytes.take (ringFree s.cfg.ringN s.rb)).length))

/-! ## Frames, packing, reads -/

/-- The diagnostic frames as bytes (R102, R103, R104): letters, separators, and between them the digits of the values, each
below its base, padded to their field and longer only where the value needs it; a digit's character by `HEX_UPPER`; the
lengths of the frames whose values fit. -/
def Obligations.FrameFormat : Prop :=
  ((List.range 16).map (digitChar true) =
    [0x30, 0x31, 0x32, 0x33, 0x34, 0x35, 0x36, 0x37, 0x38, 0x39, 0x41, 0x42, 0x43, 0x44, 0x45, 0x46]) ∧
  ((List.range 16).map (digitChar false) =
    [0x30, 0x31, 0x32, 0x33, 0x34, 0x35, 0x36, 0x37, 0x38, 0x39, 0x61, 0x62, 0x63, 0x64, 0x65, 0x66]) ∧
  (∀ (upper : Bool) (a c : Word), ∃ address count : List Nat,
    addrFrame upper a c = [0x41, 0x3D] ++ address.map (digitChar upper) ++ [0x2C, 0x43, 0x3D] ++
      count.map (digitChar upper) ++ [0x0A] ∧
    IsNumeral 16 8 a.toNat address ∧ address.length = 8 ∧ IsNumeral 16 4 c.toNat count) ∧
  (∀ n : Word, ∃ count : List Nat,
    sessionFrame n = [0x53] ++ count.map (digitChar true) ++ [0x7C] ∧ IsNumeral 10 6 n.toNat count) ∧
  (∀ (upper : Bool) (a c : Word), c.toNat ≤ 0xFFFF → (addrFrame upper a c).length = 18) ∧
  (∀ n : Word, n.toNat ≤ 999999 → (sessionFrame n).length = 8)

/-- Packing (R95): word `j` of a batch of `c` half-words holds half-word `2j` in its low half and half-word `2j + 1`,
or `0xFFFF` where there is none, in its high half. -/
def Obligations.Packing : Prop :=
  ∀ (l : List Half) (j : Nat),
    (packWords l).length = (l.length + 1) / 2 ∧
    ∀ lo, l[2 * j]? = some lo →
      (packWords l)[j]? = some (((l.getD (2 * j + 1) 0xFFFF).setWidth 32 <<< 16) ||| lo.setWidth 32)

/-- Flash reads (R61, R69): little-endian array content while the cache is fresh; while it is stale a value nothing
constrains, and no other effect. That a stale read looks at no address, misaligned or outside the array, and that its value
is a numbered draw, is the model's choice (log 20, log 6). -/
def Obligations.FlashRead : Prop :=
  (∀ (s : State) (a : Word), s.readStale = false → a.toNat % 2 = 0 → s.inArray a 2 = true →
    memRead16 a s = .value ((Memory.read s.flash a.toNat).setWidth 16 |||
      ((Memory.read s.flash (a.toNat + 1)).setWidth 16 <<< 8)) s) ∧
  (∀ (s : State) (a : Word), s.readStale = false → a.toNat % 4 = 0 → s.inArray a 4 = true →
    memRead32 a s = .value ((Memory.read s.flash a.toNat).setWidth 32 |||
      ((Memory.read s.flash (a.toNat + 1)).setWidth 32 <<< 8) |||
      ((Memory.read s.flash (a.toNat + 2)).setWidth 32 <<< 16) |||
      ((Memory.read s.flash (a.toNat + 3)).setWidth 32 <<< 24)) s) ∧
  (∀ (s : State) (a : Word), s.readStale = true →
    memRead16 a s = .value (Config.freeHalf s.draws) { s with draws := s.draws + 1 } ∧
    memRead32 a s = .value (Config.freeWord s.draws) { s with draws := s.draws + 1 })

/-- The erratum refresh (R78): the word read at the partner address, whatever it is, goes to `CACHECTL` and the cache is
fresh afterwards; nothing else changes but the count of free values drawn (log 6). -/
def Obligations.Refresh : Prop :=
  ∀ (x : Word) (s t : State), runLine (.refreshRead x) s = .go t →
    (∃ w u, memRead32 (x ^^^ 0x100) s = .value w u ∧ u = { s with draws := u.draws } ∧
      t = { s with draws := u.draws, tmp := { s.tmp with w := w } }) ∧
    runLine .refreshWrite t = .go { t with cachectl := t.tmp.w, fc := { t.fc with stale := false } }

/-- The sequencer passes a hold only with the busy flag 0 (R76, R86). -/
def Obligations.HoldWaitsForNotBusy : Prop :=
  ∀ (l : Line) (s t : State), l.holds = true → await l s.sched s = .ready t → t.fc.busy = false

/-! ## Capacity and trigger -/

/-- `get_max_firmware_size` (R174). -/
def Obligations.FirmwareSize : Prop :=
  ∀ s : State, s.Ready →
    ∃ t, exec .getMaxFirmwareSize s = .next t ∧ Streamed [] s t ∧
      TxFrame { s with
        res := if s.fas.base.toNat ≤ s.fas.endAddr.toNat then s.fas.endAddr - s.fas.base else 0
        ill := false, cause := none } t

/-- `should_force_bootloader` (R201, R205): the cell is compared and cleared; a configured button joins by its one sampled
level. -/
def Obligations.TriggerTruth : Prop :=
  ∀ s : State, s.Ready →
    ∃ t lvl, exec .shouldForceBootloader s = .next t ∧ Streamed [] s t ∧
      TxFrame { s with
        bkp := 0x0000
        res := if s.bkp = s.cfg.forceCmd ∨ (s.cfg.haveButton = true ∧ (lvl = true ↔ s.cfg.buttonActiveHigh = true))
          then 1 else 0
        ill := false, cause := none } t ∧
      (s.sched.all (fun x => !x.isPin) = true → lvl = s.btn)

/-- One-shot property (R204, R202): after a call the cell is cleared, and a second call is true only by the button. -/
def Obligations.TriggerOneShot : Prop :=
  ∀ s t u : State, s.Ready → exec .shouldForceBootloader s = .next t → exec .shouldForceBootloader t = .next u →
    t.bkp = 0x0000 ∧ u.bkp = 0x0000 ∧ (s.cfg.haveButton = false → u.res = 0) ∧
    (s.sched.all (fun x => !x.isPin) = true → u.res = 1 →
      s.cfg.haveButton = true ∧ (s.btn = true ↔ s.cfg.buttonActiveHigh = true))

/-! ## Session, lock -/

/-- `session_reset` (R130, R56): empties the window in variant G, has no effect in variant A. -/
def Obligations.SessionReset : Prop :=
  ∀ s : State, s.Ready →
    ∃ t, exec .sessionReset s = .next t ∧ Streamed [] s t ∧
      TxFrame { s with
        win := if s.cfg.variant = .g then { start := 0, endAddr := 0 } else s.win
        res := 1, ill := false, cause := none } t

/-- `flash_unlock` and `flash_lock` of variant G (R121, R122). -/
def Obligations.UnlockLockG : Prop :=
  ∀ s : State, s.ReadyIn .g →
    (∃ t, exec .flashUnlockG s = .next t ∧ Streamed [] s t ∧
      TxFrame { s with fc := { s.fc with locked := false }, res := 1, ill := false, cause := none } t) ∧
    (∃ t, exec .flashLockG s = .next t ∧ Streamed [] s t ∧
      TxFrame { s with fc := { s.fc with locked := true }, res := 1, ill := false, cause := none } t)

/-- `flash_unlock` of variant A (R141, R47): both keys to both key registers, main register first. That the registers keep
the last key written, and that the sequence is counted on an unlocked controller too, is the model's choice (log 17). -/
def Obligations.UnlockA : Prop :=
  ∀ s : State, s.ReadyIn .a →
    ∃ t, exec .flashUnlockA s = .next t ∧ Streamed [[0x55]] s t ∧
      TxFrame { s with
        keyr := s.cfg.key2, modekeyr := s.cfg.key2, fc := { s.fc with locked := false, keyseq := 4 }
        ctlr := { s.ctlr with lock := false }, res := 1, ill := false, cause := none } t

/-- `flash_lock` of variant A (R142). -/
def Obligations.LockA : Prop :=
  ∀ s : State, s.ReadyIn .a →
    ∃ t, exec .flashLockA s = .next t ∧ Streamed [[0x4C]] s t ∧
      TxFrame { s with
        fc := { s.fc with locked := true, keyseq := 0 }, ctlr := { s.ctlr with lock := true }
        res := 1, ill := false, cause := none } t

/-- A locked controller (R77): no operation but `flash_unlock`, run or resumed, and no idle turn changes a byte of the array,
the page buffer or the staging slots, under every schedule without a reset. -/
def Obligations.LockedChangesNothing : Prop :=
  (∀ (i : Instr) (s t : State), s.fc.locked = true → s.sched.all (fun x => !x.isReset) = true →
    i ≠ .flashUnlockG → i ≠ .flashUnlockA → exec i s = .next t →
    t.flash = s.flash ∧ t.fc.pbuf = s.fc.pbuf ∧ t.fc.stage = s.fc.stage ∧ t.fc.locked = true) ∧
  (∀ s t : State, s.onProgram = true → s.fc.locked = true → s.sched.all (fun x => !x.isReset) = true →
    s.operation ≠ some .flashUnlockG → s.operation ≠ some .flashUnlockA → step s = .next t →
    t.flash = s.flash ∧ t.fc.pbuf = s.fc.pbuf ∧ t.fc.stage = s.fc.stage ∧ t.fc.locked = true)

/-! ## Erase -/

/-- `flash_erase_page` of variant G (R123, R77): the page that contains the address becomes `0xFF` on an unlocked
controller; every other byte, and the window, is unchanged. -/
def Obligations.ErasePageG : Prop :=
  ∀ s : State, s.ReadyIn .g → s.inArray (pageStart s.fas.pageSize s.a0) s.fas.pageSize.toNat = true →
    ∃ t, exec .flashErasePageG s = .next t ∧ Streamed [] s t ∧
      TxFrame { s with flash := t.flash, res := 1, ill := false, cause := none } t ∧
      ∀ a, Memory.read t.flash a =
        if s.fc.locked = false ∧ (pageStart s.fas.pageSize s.a0).toNat ≤ a ∧
          a < (pageStart s.fas.pageSize s.a0).toNat + s.fas.pageSize.toNat then 0xFF else Memory.read s.flash a

/-- `flash_erase_page` of variant A (R146, R77): the masked page, `ADDR` at it, the refresh done (`FC.stale` 0), the mode
bits clear, `'E'`; how `CTLR.STRT` reads back and what `CACHECTL` got are free values (log 6). -/
def Obligations.ErasePageA : Prop :=
  ∀ s : State, s.ReadyIn .a → s.inArray (pageOfA s.a0) 128 = true →
    ∃ t, exec .flashErasePageA s = .next t ∧ Streamed [[0x45]] s t ∧
      TxFrame { s with
        flash := t.flash, addr := pageOfA s.a0, ctlr := { s.ctlr with strt := t.ctlr.strt }
        cachectl := t.cachectl, draws := t.draws, res := 1, ill := false, cause := none } t ∧
      ∀ a, Memory.read t.flash a =
        if s.fc.locked = false ∧ (pageOfA s.a0).toNat ≤ a ∧ a < (pageOfA s.a0).toNat + 128 then 0xFF
        else Memory.read s.flash a

/-! ## Preconditions -/

/-- Where an operation is refused before it starts (R53, R63, R65; U2, U3, U4, U12). Which refusal is named where two
preconditions are broken, and that in variant A the sequencer's own test of alignment and size comes before the bounds, is
the model's choice (log 12). -/
def Obligations.Preconditions : Prop :=
  ∀ s : State, s.busy = false →
    (s.cfg.variant = .g → s.a0.toNat % 2 = 1 → exec .flashProgramArrayG s = .refused .oddDestination) ∧
    (s.cfg.variant = .g → s.a0.toNat % 2 = 0 → s.a0.toNat < s.fas.base.toNat →
      exec .flashProgramArrayG s = .refused .destinationBelowBase) ∧
    (s.cfg.variant = .g → s.a0.toNat % 2 = 0 → s.fas.base.toNat ≤ s.a0.toNat →
      s.src.halfWords.length < s.a1.toNat → exec .flashProgramArrayG s = .refused .sourceTooShort) ∧
    (s.cfg.variant = .a → s.src.halfWords.length < s.a1.toNat →
      exec .flashProgramArrayA s = .refused .sourceTooShort) ∧
    (s.cfg.variant = .a → s.a1.toNat ≤ s.src.halfWords.length → s.a0.toNat % 128 = 0 →
      s.a0.toNat < s.fas.base.toNat → exec .flashProgramArrayA s = .refused .destinationBelowBase) ∧
    (s.cfg.variant = .a → s.src.halfWords.length < s.a1.toNat →
      exec .flashProgramPage s = .refused .sourceTooShort) ∧
    (s.cfg.variant = .a → s.a1.toNat ≤ s.src.halfWords.length → s.a0.toNat % 128 = 0 → s.a1.toNat ≤ 64 →
      s.inArray s.a0 128 = false → exec .flashProgramPage s = .refused .pageOutsideFlash) ∧
    (s.cfg.variant = .g → s.inArray (pageStart s.fas.pageSize s.a0) s.fas.pageSize.toNat = false →
      exec .flashErasePageG s = .refused .pageOutsideFlash) ∧
    (s.cfg.variant = .a → s.inArray (pageOfA s.a0) 128 = false →
      exec .flashErasePageA s = .refused .pageOutsideFlash) ∧
    (s.src.byteSeq.length < s.a1.toNat → exec .txEnqueue s = .refused .sourceTooShort)

/-! ## `flash_program_array`, variant G -/

/-- A call whose preconditions hold ends, with success or failure (R126, R128): it offers the frame, writes `FLASH` and
`WIN` only, and changes no byte but those of the destination range and of the pages it erases; none on a locked controller
(R77). -/
def Obligations.ArrayGFrame : Prop :=
  ∀ s : State, s.ReadyIn .g → s.a0.toNat % 2 = 0 → s.fas.base.toNat ≤ s.a0.toNat →
    s.a1.toNat ≤ s.src.halfWords.length →
    ∃ t, exec .flashProgramArrayG s = .next t ∧ Streamed [addrFrame s.cfg.hexUpper s.a0 s.a1] s t ∧
      TxFrame { s with flash := t.flash, win := t.win, res := t.res, ill := false, cause := t.cause } t ∧
      ((t.res = 1 ∧ t.cause = none) ∨ (t.res = 0 ∧ (t.cause = some .param ∨ t.cause = some .verify))) ∧
      (s.fc.locked = true → t.flash = s.flash) ∧
      ∀ a, (a < s.a0.toNat ∨ s.a0.toNat + 2 * s.a1.toNat ≤ a) →
        inPages s.fas.pageSize (erasedBy s.fas.pageSize s.win s.a0 s.a1.toNat) a = false →
        Memory.read t.flash a = Memory.read s.flash a

/-- Round trip (R131): inside the region, on an unlocked healthy controller and with the window erased, the call returns 1
and the range reads as supplied; every other cell of the array is `0xFFFF` if its page was erased by the call, else
unchanged. -/
def Obligations.ArrayGRoundTrip : Prop :=
  ∀ s : State, s.ReadyIn .g → s.a0.toNat % 2 = 0 → s.fas.base.toNat ≤ s.a0.toNat →
    s.a0.toNat + 2 * s.a1.toNat ≤ s.fas.endAddr.toNat → s.a1.toNat ≤ s.src.halfWords.length →
    s.fc.locked = false → s.dev.healthy = true → s.WindowErased →
    ∃ t, exec .flashProgramArrayG s = .next t ∧ t.res = 1 ∧
      (∀ i v, s.operandHalves[i]? = some v → Memory.readHalf t.flash (s.a0.toNat + 2 * i) = v) ∧
      ∀ a, (a < s.a0.toNat ∨ s.a0.toNat + 2 * s.a1.toNat ≤ a) →
        Memory.read t.flash a =
          if inPages s.fas.pageSize (erasedBy s.fas.pageSize s.win s.a0 s.a1.toNat) a = true then 0xFF
          else Memory.read s.flash a

/-- Success is proof of content (R126, R170, R172), on every device, healthy or not, and every lock state. -/
def Obligations.ArrayGVerified : Prop :=
  ∀ s : State, s.ReadyIn .g → s.a0.toNat % 2 = 0 → s.fas.base.toNat ≤ s.a0.toNat →
    s.a1.toNat ≤ s.src.halfWords.length →
    ∃ t, exec .flashProgramArrayG s = .next t ∧
      (t.res = 1 → ∀ i v, s.operandHalves[i]? = some v → Memory.readHalf t.flash (s.a0.toNat + 2 * i) = v)

/-- No half-words (R129 (a)): success, no flash access. A destination at or beyond `FAS.end` (R129 (b)): failure `PARAM`,
flash and window unmodified. -/
def Obligations.ArrayGNothingDone : Prop :=
  ∀ s : State, s.ReadyIn .g → s.a0.toNat % 2 = 0 → s.fas.base.toNat ≤ s.a0.toNat →
    s.a1.toNat ≤ s.src.halfWords.length →
    (s.a1 = 0 → ∃ t, exec .flashProgramArrayG s = .next t ∧ Streamed [addrFrame s.cfg.hexUpper s.a0 s.a1] s t ∧
      TxFrame { s with res := 1, ill := false, cause := none } t) ∧
    (s.a1 ≠ 0 → s.fas.endAddr.toNat ≤ s.a0.toNat →
      ∃ t, exec .flashProgramArrayG s = .next t ∧ Streamed [addrFrame s.cfg.hexUpper s.a0 s.a1] s t ∧
        TxFrame { s with res := 0, ill := false, cause := some .param } t)

/-- A run that crosses `FAS.end` (R129 (c), R128): the half-words below it are programmed and stay, the call fails `PARAM`,
and no byte at or beyond `FAS.end` is touched. -/
def Obligations.ArrayGCrossing : Prop :=
  ∀ s : State, s.ReadyIn .g → s.a0.toNat % 2 = 0 → s.fas.base.toNat ≤ s.a0.toNat →
    s.a0.toNat ≤ s.fas.endAddr.toNat → s.fas.endAddr.toNat < s.a0.toNat + 2 * s.a1.toNat →
    s.a1.toNat ≤ s.src.halfWords.length → s.fc.locked = false → s.dev.healthy = true → s.WindowErased →
    ∃ t, exec .flashProgramArrayG s = .next t ∧ t.res = 0 ∧ t.cause = some .param ∧
      (∀ i v, s.operandHalves[i]? = some v → s.a0.toNat + 2 * i < s.fas.endAddr.toNat →
        Memory.readHalf t.flash (s.a0.toNat + 2 * i) = v) ∧
      ∀ a, s.fas.endAddr.toNat ≤ a → Memory.read t.flash a = Memory.read s.flash a

/-- The window after a success (R127 (c)): from one past the last written address to the end of its page, for a call that
began with a window inside one page. -/
def Obligations.ArrayGWindow : Prop :=
  ∀ s : State, s.ReadyIn .g → s.a0.toNat % 2 = 0 → s.fas.base.toNat ≤ s.a0.toNat →
    s.a0.toNat + 2 * s.a1.toNat ≤ s.fas.endAddr.toNat → s.a1.toNat ≤ s.src.halfWords.length → s.a1 ≠ 0 →
    s.win.endAddr.toNat ≤ s.win.start.toNat + s.cfg.pageSize.toNat →
    ∃ t, exec .flashProgramArrayG s = .next t ∧
      (t.res = 1 → t.win.start.toNat = s.a0.toNat + 2 * s.a1.toNat ∧
        t.win.endAddr = pageEnd s.fas.pageSize (BitVec.ofNat 32 (s.a0.toNat + 2 * (s.a1.toNat - 1))))

/-- On a locked controller (R129 (h)) the call succeeds exactly when the array already holds the source. -/
def Obligations.ArrayGLocked : Prop :=
  ∀ s : State, s.ReadyIn .g → s.a0.toNat % 2 = 0 → s.fas.base.toNat ≤ s.a0.toNat →
    s.a0.toNat + 2 * s.a1.toNat ≤ s.fas.endAddr.toNat → s.a1.toNat ≤ s.src.halfWords.length → s.fc.locked = true →
    ∃ t, exec .flashProgramArrayG s = .next t ∧ t.flash = s.flash ∧
      (t.res = 1 ↔ ∀ i v, s.operandHalves[i]? = some v → Memory.readHalf s.flash (s.a0.toNat + 2 * i) = v)

/-! ## `flash_program_page` -/

/-- Rejected parameters (R64, R153 (a), (b)): failure `PARAM`, nothing touched, nothing emitted. That the test comes before
the bound of the array, so that a rejected address outside it fails too, is the model's choice (log 12). -/
def Obligations.PageRejected : Prop :=
  ∀ s : State, s.ReadyIn .a → (s.a0.toNat % 128 ≠ 0 ∨ 64 < s.a1.toNat) → s.a1.toNat ≤ s.src.halfWords.length →
    ∃ t, exec .flashProgramPage s = .next t ∧ Streamed [] s t ∧
      TxFrame { s with res := 0, ill := false, cause := some .param } t

/-- Accepted parameters (R150, R154, R75, R77), on every device: on an unlocked controller the page is the commit of the
packed source onto what it held, otherwise nothing changes; success leaves the flags as they were, both 0, failure `CTRL`
leaves both 0. -/
def Obligations.PageProgrammed : Prop :=
  ∀ s : State, s.ReadyIn .a → s.a0.toNat % 128 = 0 → s.a1.toNat ≤ 64 → s.inArray s.a0 128 = true →
    s.a1.toNat ≤ s.src.halfWords.length →
    ∃ t, exec .flashProgramPage s = .next t ∧
      (t.flash = if s.fc.locked = true then s.flash
        else commitWords s.dev s.flash s.a0.toNat (pageWords s.operandHalves)) ∧
      (∀ a, (a < s.a0.toNat ∨ s.a0.toNat + 128 ≤ a) → Memory.read t.flash a = Memory.read s.flash a) ∧
      t.statr.pgerr = false ∧ t.statr.wrprterr = false ∧
      TxFrame { s with
        flash := t.flash, addr := s.a0, fc := { s.fc with pbuf := t.fc.pbuf }
        ctlr := { s.ctlr with bufrst := t.ctlr.bufrst, bufload := t.ctlr.bufload, strt := t.ctlr.strt }
        statr := { s.statr with pgerr := false, wrprterr := false }
        cachectl := t.cachectl, draws := t.draws, res := t.res, ill := false, cause := t.cause } t ∧
      ((t.res = 1 ∧ t.cause = none ∧ Streamed [addrFrame s.cfg.hexUpper s.a0 s.a1, [0x50]] s t) ∨
        (t.res = 0 ∧ t.cause = some .ctrl ∧ Streamed [addrFrame s.cfg.hexUpper s.a0 s.a1] s t))

/-- On a healthy unlocked controller (R152, R154, R261): an erased page takes the half-words and stays erased beyond them;
the result is the sticky flags' word, which a flag left set by anything earlier makes a failure. -/
def Obligations.PageHealthy : Prop :=
  ∀ s : State, s.ReadyIn .a → s.a0.toNat % 128 = 0 → s.a1.toNat ≤ 64 → s.inArray s.a0 128 = true →
    s.a1.toNat ≤ s.src.halfWords.length → s.fc.locked = false → s.dev.healthy = true →
    (∀ j, j < 64 → Memory.readHalf s.flash (s.a0.toNat + 2 * j) = 0xFFFF) →
    ∃ t, exec .flashProgramPage s = .next t ∧
      (∀ j, j < 64 → Memory.readHalf t.flash (s.a0.toNat + 2 * j) = s.operandHalves.getD j 0xFFFF) ∧
      t.res = if s.statr.pgerr = true ∨ s.statr.wrprterr = true then 0 else 1

/-! ## `flash_program_array`, variant A -/

/-- An aligned call whose preconditions hold ends, with success or failure (R156, R157): it changes no byte outside the
pages of the request, none on a locked controller (R77), and leaves the mode bits 0 and the read cache fresh. -/
def Obligations.ArrayAFrame : Prop :=
  ∀ s : State, s.ReadyIn .a → s.a0.toNat % 128 = 0 → s.fas.base.toNat ≤ s.a0.toNat →
    s.a1.toNat ≤ s.src.halfWords.length →
    ∃ t, exec .flashProgramArrayA s = .next t ∧
      TxFrame { s with
        flash := t.flash, addr := t.addr, fc := { s.fc with pbuf := t.fc.pbuf }
        ctlr := { s.ctlr with bufrst := t.ctlr.bufrst, bufload := t.ctlr.bufload, strt := t.ctlr.strt }
        statr := { s.statr with pgerr := t.statr.pgerr, wrprterr := t.statr.wrprterr }
        cachectl := t.cachectl, draws := t.draws, res := t.res, ill := false, cause := t.cause } t ∧
      ((t.res = 1 ∧ t.cause = none) ∨ (t.res = 0 ∧ t.cause ≠ none)) ∧
      t.ctlr.per = false ∧ t.ctlr.ppg = false ∧ t.fc.stale = false ∧
      (s.fc.locked = true → t.flash = s.flash) ∧
      ∀ a, (a < s.a0.toNat ∨ s.a0.toNat + 128 * pagesOf s.a1.toNat ≤ a) →
        Memory.read t.flash a = Memory.read s.flash a

/-- Round trip and trace (R160, R159): inside the region, on an unlocked healthy controller with the error flags clear, the
call returns 1, the range reads as supplied, the rest of the last page reads `0xFF`, no other byte has changed, and the
frames are the session frame and `'E'`, address frame, `'P'` for each page. -/
def Obligations.ArrayARoundTrip : Prop :=
  ∀ s : State, s.ReadyIn .a → s.a0.toNat % 128 = 0 → s.fas.base.toNat ≤ s.a0.toNat →
    s.a0.toNat + 2 * s.a1.toNat ≤ s.fas.endAddr.toNat → s.a1.toNat ≤ s.src.halfWords.length →
    s.fc.locked = false → s.dev.healthy = true → s.statr.pgerr = false → s.statr.wrprterr = false →
    ∃ t, exec .flashProgramArrayA s = .next t ∧ t.res = 1 ∧
      (∀ i v, s.operandHalves[i]? = some v → Memory.readHalf t.flash (s.a0.toNat + 2 * i) = v) ∧
      (∀ a, s.a0.toNat + 2 * s.a1.toNat ≤ a → a < s.a0.toNat + 128 * pagesOf s.a1.toNat →
        Memory.read t.flash a = 0xFF) ∧
      (∀ a, (a < s.a0.toNat ∨ s.a0.toNat + 128 * pagesOf s.a1.toNat ≤ a) →
        Memory.read t.flash a = Memory.read s.flash a) ∧
      t.fc.stale = false ∧ t.ctlr.per = false ∧ t.ctlr.ppg = false ∧
      Streamed (arrayTrace s.cfg.hexUpper s.a0 s.a1) s t

/-- Success is proof of content (R156, R170, R172), on every device, healthy or not, and every lock state. -/
def Obligations.ArrayAVerified : Prop :=
  ∀ s : State, s.ReadyIn .a → s.a0.toNat % 128 = 0 → s.fas.base.toNat ≤ s.a0.toNat →
    s.a1.toNat ≤ s.src.halfWords.length →
    ∃ t, exec .flashProgramArrayA s = .next t ∧
      (t.res = 1 → ∀ i v, s.operandHalves[i]? = some v → Memory.readHalf t.flash (s.a0.toNat + 2 * i) = v)

/-- A misaligned destination (R64, R158 (b)): failure `PARAM` after the session frame. No half-words (R158 (a)): success. A
destination at or beyond `FAS.end` (R158 (c)): failure `PARAM`. Nothing else changes in any of them. That the test of
alignment comes before the lower bound, so that a misaligned destination below `FAS.base` fails too, is the model's choice
(log 12). -/
def Obligations.ArrayANothingDone : Prop :=
  ∀ s : State, s.ReadyIn .a → s.a1.toNat ≤ s.src.halfWords.length →
    (s.a0.toNat % 128 ≠ 0 →
      ∃ t, exec .flashProgramArrayA s = .next t ∧ Streamed [sessionFrame s.a1] s t ∧
        TxFrame { s with res := 0, ill := false, cause := some .param } t) ∧
    (s.a0.toNat % 128 = 0 → s.fas.base.toNat ≤ s.a0.toNat → s.a1 = 0 →
      ∃ t, exec .flashProgramArrayA s = .next t ∧ Streamed [sessionFrame s.a1] s t ∧
        TxFrame { s with res := 1, ill := false, cause := none } t) ∧
    (s.a0.toNat % 128 = 0 → s.fas.base.toNat ≤ s.a0.toNat → s.a1 ≠ 0 → s.fas.endAddr.toNat ≤ s.a0.toNat →
      ∃ t, exec .flashProgramArrayA s = .next t ∧ Streamed [sessionFrame s.a1] s t ∧
        TxFrame { s with res := 0, ill := false, cause := some .param } t)

/-- A run that crosses `FAS.end` (R158 (c), R157): every page below it is completed and stays, the call fails `PARAM`, and
no byte at or beyond `FAS.end` is touched. -/
def Obligations.ArrayACrossing : Prop :=
  ∀ s : State, s.ReadyIn .a → s.a0.toNat % 128 = 0 → s.fas.base.toNat ≤ s.a0.toNat →
    s.a0.toNat ≤ s.fas.endAddr.toNat → s.fas.endAddr.toNat < s.a0.toNat + 2 * s.a1.toNat →
    s.a1.toNat ≤ s.src.halfWords.length → s.fc.locked = false → s.dev.healthy = true →
    s.statr.pgerr = false → s.statr.wrprterr = false →
    ∃ t, exec .flashProgramArrayA s = .next t ∧ t.res = 0 ∧ t.cause = some .param ∧
      (∀ i v, s.operandHalves[i]? = some v → s.a0.toNat + 2 * i < s.fas.endAddr.toNat →
        Memory.readHalf t.flash (s.a0.toNat + 2 * i) = v) ∧
      ∀ a, (a < s.a0.toNat ∨ s.fas.endAddr.toNat ≤ a) → Memory.read t.flash a = Memory.read s.flash a

/-! ## The whole core -/

/-- Zero capacity (R28): with `FAS.end` below `FAS.base` the size is 0, and every `flash_program_array` of at least one
half-word at a destination from `FAS.base` on fails with flash unmodified. -/
def Obligations.ZeroCapacity : Prop :=
  ∀ s : State, s.Ready → s.fas.endAddr.toNat < s.fas.base.toNat →
    (∃ t, exec .getMaxFirmwareSize s = .next t ∧ t.res = 0) ∧
    (s.a1 ≠ 0 → s.a1.toNat ≤ s.src.halfWords.length → s.fas.base.toNat ≤ s.a0.toNat →
      (s.cfg.variant = .g → s.a0.toNat % 2 = 0 →
        ∃ t, exec .flashProgramArrayG s = .next t ∧ t.res = 0 ∧ t.flash = s.flash) ∧
      (s.cfg.variant = .a → ∃ t, exec .flashProgramArrayA s = .next t ∧ t.res = 0 ∧ t.flash = s.flash))

/-- No flash effect and no result depends on the transmit side (R82): two runs from states that differ only in the ring, the
transmitter, the pin and the turns of the other agents end in states that differ only there. In variant A for an unlocked
healthy controller, whose fault draws are 0; for the trigger without a button. -/
def Obligations.TransmitIndependence : Prop :=
  ∀ (i : Instr) (s e t : State), s.Ready → (State.withTx e s).Ready →
    (s.cfg.variant = .g ∨ (s.fc.locked = false ∧ s.dev.healthy = true)) →
    (i = .shouldForceBootloader → s.cfg.haveButton = false) → exec i s = .next t →
    ∃ u, exec i (State.withTx e s) = .next u ∧ TxFrame t u

/-- Hang (R214, R223, R224), once the busy flag never clears (log 10). Every erase and program operation that comes to start a
cycle is held with `BUSY` 1 and the array as it was. From a hold, whatever turns the drain, the transmitter, the pin and the
controller take, a step leaves the operation held and changes the transmit side and the pin only; it ends where the schedule
is used up or cut (log 1, log 2). A reset ends the hang. -/
def Obligations.HangUntilReset : Prop :=
  (∀ (i : Instr) (s : State), s.Inv → s.busy = false → s.fctlStuck = true → s.sched.all Turn.quiet = true →
    i.wf s.cfg.variant = true →
    ((i = .flashErasePageG ∧ s.inArray (pageStart s.fas.pageSize s.a0) s.fas.pageSize.toNat = true) ∨
      (i = .flashErasePageA ∧ s.inArray (pageOfA s.a0) 128 = true) ∨
      (i = .flashProgramPage ∧ s.a0.toNat % 128 = 0 ∧ s.a1.toNat ≤ 64 ∧ s.inArray s.a0 128 = true ∧
        s.a1.toNat ≤ s.src.halfWords.length) ∨
      ((i = .flashProgramArrayG ∧ s.a0.toNat % 2 = 0 ∨ i = .flashProgramArrayA ∧ s.a0.toNat % 128 = 0) ∧
        s.fas.base.toNat ≤ s.a0.toNat ∧ s.a0.toNat < s.fas.endAddr.toNat ∧ s.a1 ≠ 0 ∧
        s.a1.toNat ≤ s.src.halfWords.length)) →
    ∃ t l rest, exec i s = .next t ∧ t.seq = .running i (l :: rest) ∧ l.holds = true ∧ t.busy = true ∧
      t.fc.busy = true ∧ t.fctlStuck = true ∧ t.flash = s.flash) ∧
  (∀ (i : Instr) (l : Line) (rest : List Line) (s : State), s.cfg.wf = true → s.seq = .running i (l :: rest) →
    l.holds = true → s.fc.busy = true → s.fctlStuck = true →
    (s.sched.all (fun x => !x.isReset && x != .host) = true → ∃ t, step s = .next t ∧ TxFrame s t) ∧
    (∀ a b : List Turn, a.all Turn.quiet = true → s.sched = a ++ .reset :: b →
      ∃ u, TxFrame s u ∧ step s = .next u.coreReset))
end

