-- ==== Sys2Proof/Laws/Memory.lean ====
section
/-!
SUPPORT. The laws of the flash array: read after write, the canonical form, erase, half-words and words.
-/

namespace Sys2Proof.Machine

/-! ## One byte -/

theorem Memory.wfAbove_mono {m : Memory} {lo lo' : Nat} (h : Memory.wfAbove lo m = true) (hl : lo' ≤ lo) :
    Memory.wfAbove lo' m = true := by
  cases m with
  | nil => rfl
  | cons c r =>
    simp only [Memory.wfAbove, Bool.and_eq_true, decide_eq_true_eq] at h ⊢
    exact ⟨⟨by omega, h.1.2⟩, h.2⟩

/-- An address below a canonical list is unlisted. -/
theorem Memory.read_below {m : Memory} {lo a : Nat} (h : Memory.wfAbove lo m = true) (ha : a < lo) :
    Memory.read m a = erasedByte := by
  induction m generalizing lo with
  | nil => rfl
  | cons c r ih =>
    obtain ⟨k, x⟩ := c
    simp only [Memory.wfAbove, Bool.and_eq_true, decide_eq_true_eq] at h
    rw [Memory.read, if_neg (by omega)]
    exact ih h.2 (by omega)

theorem Memory.wfAbove_write {m : Memory} {lo a : Nat} (v : Byte) (h : Memory.wfAbove lo m = true) (ha : lo ≤ a) :
    Memory.wfAbove lo (Memory.write m a v) = true := by
  induction m generalizing lo with
  | nil =>
    rw [Memory.write]
    split
    · rfl
    · simp_all [Memory.wfAbove]
  | cons c r ih =>
    obtain ⟨k, x⟩ := c
    simp only [Memory.wfAbove, Bool.and_eq_true, decide_eq_true_eq] at h
    rw [Memory.write]
    split
    · split
      · simp_all [Memory.wfAbove]
      · rename_i h1 h2
        simp only [Memory.wfAbove, Bool.and_eq_true, decide_eq_true_eq, bne_iff_ne, ne_eq]
        exact ⟨⟨ha, h2⟩, ⟨by omega, by simpa using h.1.2⟩, h.2⟩
    · split
      · split
        · exact Memory.wfAbove_mono h.2 (by omega)
        · rename_i h1 h2 h3
          simp only [Memory.wfAbove, Bool.and_eq_true, decide_eq_true_eq, bne_iff_ne, ne_eq]
          exact ⟨⟨ha, h3⟩, by simpa [h2] using h.2⟩
      · simp only [Memory.wfAbove, Bool.and_eq_true, decide_eq_true_eq]
        exact ⟨h.1, ih h.2 (by omega)⟩

/-- A write keeps the canonical form. -/
theorem Memory.wf_write {m : Memory} (a : Nat) (v : Byte) (h : Memory.wf m = true) :
    Memory.wf (Memory.write m a v) = true := Memory.wfAbove_write v h (Nat.zero_le a)

theorem Memory.read_write_above {m : Memory} {lo : Nat} (a b : Nat) (v : Byte) (h : Memory.wfAbove lo m = true) :
    Memory.read (Memory.write m a v) b = if b = a then v else Memory.read m b := by
  induction m generalizing lo with
  | nil =>
    rw [Memory.write]
    by_cases hv : v = erasedByte <;> simp [hv, Memory.read, eq_comm]
  | cons c r ih =>
    obtain ⟨k, x⟩ := c
    simp only [Memory.wfAbove, Bool.and_eq_true, decide_eq_true_eq] at h
    rw [Memory.write]
    split
    · rename_i h1
      split
      · rename_i h2
        by_cases hb : b = a
        · subst hb
          rw [if_pos rfl, h2, Memory.read, if_neg (by omega)]
          exact Memory.read_below h.2 (by omega)
        · rw [if_neg hb]
      · simp only [Memory.read, eq_comm]
    · split
      · rename_i h1 h2
        subst h2
        split
        · rename_i h3
          by_cases hb : b = a
          · subst hb
            rw [if_pos rfl, h3]
            exact Memory.read_below h.2 (by omega)
          · rw [if_neg hb, Memory.read, if_neg (Ne.symm hb)]
        · simp only [Memory.read, eq_comm]
          split <;> rfl
      · rename_i h1 h2
        simp only [Memory.read, ih h.2]
        split
        · rw [if_neg (by omega)]
        · rfl

/-- Read after write. -/
theorem Memory.read_write {m : Memory} (a b : Nat) (v : Byte) (h : Memory.wf m = true) :
    Memory.read (Memory.write m a v) b = if b = a then v else Memory.read m b := Memory.read_write_above a b v h

/-- The listed addresses after a write are those before and the one written. -/
theorem Memory.mem_write {m : Memory} {a : Nat} {v : Byte} {c : Host.Cell} (h : c ∈ Memory.write m a v) :
    c ∈ m ∨ c.1 = a := by
  induction m with
  | nil =>
    rw [Memory.write] at h
    split at h <;> simp_all
  | cons d r ih =>
    obtain ⟨k, x⟩ := d
    rw [Memory.write] at h
    split at h
    · split at h
      · exact .inl h
      · rcases List.mem_cons.mp h with rfl | h
        · exact .inr rfl
        · exact .inl h
    · split at h
      · split at h
        · exact .inl (List.mem_cons_of_mem _ h)
        · rcases List.mem_cons.mp h with rfl | h
          · exact .inr rfl
          · exact .inl (List.mem_cons_of_mem _ h)
      · rcases List.mem_cons.mp h with rfl | h
        · exact .inl List.mem_cons_self
        · rcases ih h with h | h
          · exact .inl (List.mem_cons_of_mem _ h)
          · exact .inr h

/-! ## Erase -/

theorem Memory.wfAbove_erase {m : Memory} {lo : Nat} (p n : Nat) (h : Memory.wfAbove lo m = true) :
    Memory.wfAbove lo (Memory.erase m p n) = true := by
  induction m generalizing lo with
  | nil => rfl
  | cons c r ih =>
    obtain ⟨k, x⟩ := c
    simp only [Memory.wfAbove, Bool.and_eq_true, decide_eq_true_eq] at h
    rw [Memory.erase, List.filter_cons]
    split
    · simp only [Memory.wfAbove, Bool.and_eq_true, decide_eq_true_eq]
      exact ⟨h.1, ih h.2⟩
    · exact Memory.wfAbove_mono (ih h.2) (by omega)

/-- An erase keeps the canonical form. -/
theorem Memory.wf_erase {m : Memory} (p n : Nat) (h : Memory.wf m = true) : Memory.wf (Memory.erase m p n) = true :=
  Memory.wfAbove_erase p n h

/-- An erased byte reads `0xFF`, the others are unchanged. -/
theorem Memory.read_erase (m : Memory) (p n a : Nat) :
    Memory.read (Memory.erase m p n) a = if p ≤ a ∧ a < p + n then erasedByte else Memory.read m a := by
  induction m with
  | nil => simp [Memory.erase, Memory.read]
  | cons c r ih =>
    obtain ⟨k, x⟩ := c
    rw [Memory.erase, List.filter_cons]
    by_cases hk : p ≤ k ∧ k < p + n
    · rw [if_neg (by simp [hk])]
      have : Memory.read (List.filter (fun c => !(decide (p ≤ c.1) && decide (c.1 < p + n))) r) a =
        Memory.read (Memory.erase r p n) a := rfl
      rw [this, ih]
      split
      · rfl
      · rename_i ha
        rw [Memory.read, if_neg]
        rintro rfl
        exact ha hk
    · rw [if_pos (by simp; omega)]
      by_cases ha : k = a
      · subst ha
        rw [if_neg hk, Memory.read, if_pos rfl, Memory.read, if_pos rfl]
      · rw [Memory.read, if_neg ha, Memory.read, if_neg ha]
        exact ih

theorem Memory.mem_erase {m : Memory} {p n : Nat} {c : Host.Cell} (h : c ∈ Memory.erase m p n) : c ∈ m :=
  List.mem_of_mem_filter h

/-! ## Half-words -/

theorem halfOfBytes_byteOfHalf (v : Half) : halfOfBytes (byteOfHalf v 0) (byteOfHalf v 1) = v := by
  ext i hi
  simp only [halfOfBytes, byteOfHalf, BitVec.getElem_or, BitVec.getElem_setWidth, BitVec.getElem_shiftLeft,
    BitVec.getLsbD_extractLsb']
  by_cases h : i < 8
  · simp [h, BitVec.getLsbD_eq_getElem hi]
  · have h1 : i - 8 < 8 := by omega
    have h2 : 8 + (i - 8) = i := by omega
    simp [h, h1, h2, BitVec.getLsbD_eq_getElem hi]

theorem wordOfHalves_loHalf_hiHalf (w : Word) : wordOfHalves (loHalf w) (hiHalf w) = w := by
  ext i hi
  simp only [wordOfHalves, loHalf, hiHalf, BitVec.getElem_or, BitVec.getElem_setWidth, BitVec.getElem_shiftLeft,
    BitVec.getLsbD_extractLsb']
  by_cases h : i < 16
  · simp [h, BitVec.getLsbD_eq_getElem hi]
  · have h1 : i - 16 < 16 := by omega
    have h2 : 16 + (i - 16) = i := by omega
    simp [h, h1, h2, BitVec.getLsbD_eq_getElem hi]

theorem loHalf_wordOfHalves (lo hi : Half) : loHalf (wordOfHalves lo hi) = lo := by
  ext i h
  simp [wordOfHalves, loHalf, h]
  omega

theorem hiHalf_wordOfHalves (lo hi : Half) : hiHalf (wordOfHalves lo hi) = hi := by
  ext i h
  have h1 : 16 + i < 32 := by omega
  simp [wordOfHalves, hiHalf, BitVec.getLsbD_eq_getElem h, h1]

theorem Memory.wf_writeHalf {m : Memory} (a : Nat) (v : Half) (h : Memory.wf m = true) :
    Memory.wf (Memory.writeHalf m a v) = true := Memory.wf_write _ _ (Memory.wf_write _ _ h)

/-- A half-word write changes its two bytes and no other. -/
theorem Memory.read_writeHalf {m : Memory} (a b : Nat) (v : Half) (h : Memory.wf m = true) :
    Memory.read (Memory.writeHalf m a v) b =
      if b = a then byteOfHalf v 0 else if b = a + 1 then byteOfHalf v 1 else Memory.read m b := by
  rw [Memory.writeHalf, Memory.read_write _ _ _ (Memory.wf_write _ _ h), Memory.read_write _ _ _ h]
  split
  · rw [if_neg (by omega)]
  · rfl

theorem Memory.readHalf_writeHalf_same {m : Memory} (a : Nat) (v : Half) (h : Memory.wf m = true) :
    Memory.readHalf (Memory.writeHalf m a v) a = v := by
  rw [Memory.readHalf, Memory.read_writeHalf _ _ _ h, Memory.read_writeHalf _ _ _ h, if_pos rfl, if_neg (by omega),
    if_pos rfl, halfOfBytes_byteOfHalf]

theorem Memory.readHalf_writeHalf_other {m : Memory} {a b : Nat} (v : Half) (h : Memory.wf m = true)
    (hab : b + 2 ≤ a ∨ a + 2 ≤ b) : Memory.readHalf (Memory.writeHalf m a v) b = Memory.readHalf m b := by
  rw [Memory.readHalf, Memory.read_writeHalf _ _ _ h, Memory.read_writeHalf _ _ _ h, if_neg (by omega),
    if_neg (by omega), if_neg (by omega), if_neg (by omega), Memory.readHalf]

theorem Memory.mem_writeHalf {m : Memory} {a : Nat} {v : Half} {c : Host.Cell} (h : c ∈ Memory.writeHalf m a v) :
    c ∈ m ∨ a ≤ c.1 ∧ c.1 < a + 2 := by
  rcases Memory.mem_write h with h | h
  · rcases Memory.mem_write h with h | h
    · exact .inl h
    · exact .inr (by omega)
  · exact .inr (by omega)

theorem Memory.readHalf_erase_in {m : Memory} {p n a : Nat} (h1 : p ≤ a) (h2 : a + 2 ≤ p + n) :
    Memory.readHalf (Memory.erase m p n) a = 0xFFFF := by
  rw [Memory.readHalf, Memory.read_erase, Memory.read_erase, if_pos (by omega), if_pos (by omega)]
  decide

theorem Memory.readHalf_erase_out {m : Memory} {p n a : Nat} (h : a + 2 ≤ p ∨ p + n ≤ a) :
    Memory.readHalf (Memory.erase m p n) a = Memory.readHalf m a := by
  rw [Memory.readHalf, Memory.read_erase, Memory.read_erase, if_neg (by omega), if_neg (by omega), Memory.readHalf]

/-! ## Words -/

theorem Memory.wf_writeWord {m : Memory} (a : Nat) (w : Word) (h : Memory.wf m = true) :
    Memory.wf (Memory.writeWord m a w) = true := Memory.wf_writeHalf _ _ (Memory.wf_writeHalf _ _ h)

/-- A word write changes its four bytes and no other. -/
theorem Memory.read_writeWord_other {m : Memory} {a b : Nat} (w : Word) (h : Memory.wf m = true)
    (hab : b < a ∨ a + 4 ≤ b) : Memory.read (Memory.writeWord m a w) b = Memory.read m b := by
  rw [Memory.writeWord, Memory.read_writeHalf _ _ _ (Memory.wf_writeHalf _ _ h), Memory.read_writeHalf _ _ _ h,
    if_neg (by omega), if_neg (by omega), if_neg (by omega), if_neg (by omega)]

theorem Memory.readWord_writeWord_same {m : Memory} (a : Nat) (w : Word) (h : Memory.wf m = true) :
    Memory.readWord (Memory.writeWord m a w) a = w := by
  rw [Memory.readWord, Memory.writeWord,
    Memory.readHalf_writeHalf_other _ (Memory.wf_writeHalf _ _ h) (by omega),
    Memory.readHalf_writeHalf_same _ _ h, Memory.readHalf_writeHalf_same _ _ (Memory.wf_writeHalf _ _ h),
    wordOfHalves_loHalf_hiHalf]

theorem Memory.readHalf_writeWord_other {m : Memory} {a b : Nat} (w : Word) (h : Memory.wf m = true)
    (hab : b + 2 ≤ a ∨ a + 4 ≤ b) : Memory.readHalf (Memory.writeWord m a w) b = Memory.readHalf m b := by
  rw [Memory.writeWord, Memory.readHalf_writeHalf_other _ (Memory.wf_writeHalf _ _ h) (by omega),
    Memory.readHalf_writeHalf_other _ h (by omega)]

theorem Memory.readHalf_writeWord_lo {m : Memory} (a : Nat) (w : Word) (h : Memory.wf m = true) :
    Memory.readHalf (Memory.writeWord m a w) a = loHalf w := by
  rw [Memory.writeWord, Memory.readHalf_writeHalf_other _ (Memory.wf_writeHalf _ _ h) (by omega),
    Memory.readHalf_writeHalf_same _ _ h]

theorem Memory.readHalf_writeWord_hi {m : Memory} (a : Nat) (w : Word) (h : Memory.wf m = true) :
    Memory.readHalf (Memory.writeWord m a w) (a + 2) = hiHalf w := by
  rw [Memory.writeWord, Memory.readHalf_writeHalf_same _ _ (Memory.wf_writeHalf _ _ h)]

theorem Memory.mem_writeWord {m : Memory} {a : Nat} {w : Word} {c : Host.Cell} (h : c ∈ Memory.writeWord m a w) :
    c ∈ m ∨ a ≤ c.1 ∧ c.1 < a + 4 := by
  rcases Memory.mem_writeHalf h with h | h
  · rcases Memory.mem_writeHalf h with h | h
    · exact .inl h
    · exact .inr (by omega)
  · exact .inr (by omega)

/-! ## The commit of a page buffer -/

theorem Memory.wf_commitWords (d : Device) {m : Memory} (p : Nat) (ws : List Word) (h : Memory.wf m = true) :
    Memory.wf (commitWords d m p ws) = true := by
  induction ws generalizing m p with
  | nil => exact h
  | cons w ws ih => exact ih _ (Memory.wf_writeWord _ _ h)

theorem Memory.mem_commitWords {d : Device} {m : Memory} {p : Nat} {ws : List Word} {c : Host.Cell}
    (h : c ∈ commitWords d m p ws) : c ∈ m ∨ p ≤ c.1 ∧ c.1 < p + 4 * ws.length := by
  induction ws generalizing m p with
  | nil => exact .inl h
  | cons w ws ih =>
    rcases ih h with h | h
    · rcases Memory.mem_writeWord h with h | h
      · exact .inl h
      · exact .inr (by simp; omega)
    · exact .inr (by simp; omega)

/-- A commit changes the words of its page and no other byte. -/
theorem Memory.read_commitWords_other {d : Device} {m : Memory} {p a : Nat} {ws : List Word} (h : Memory.wf m = true)
    (ha : a < p ∨ p + 4 * ws.length ≤ a) : Memory.read (commitWords d m p ws) a = Memory.read m a := by
  induction ws generalizing m p with
  | nil => rfl
  | cons w ws ih =>
    simp only [List.length_cons] at ha
    rw [commitWords, ih (Memory.wf_writeWord _ _ h) (by omega), Memory.read_writeWord_other _ h (by omega)]

theorem Memory.readHalf_commitWords_other {d : Device} {m : Memory} {p a : Nat} {ws : List Word}
    (h : Memory.wf m = true) (ha : a + 2 ≤ p ∨ p + 4 * ws.length ≤ a) :
    Memory.readHalf (commitWords d m p ws) a = Memory.readHalf m a := by
  rw [Memory.readHalf, Memory.read_commitWords_other h (by omega), Memory.read_commitWords_other h (by omega),
    Memory.readHalf]

theorem flashProg16_healthy {d : Device} (h : d.healthy = true) (v : Half) : flashProg16 d 0xFFFF v = v := by
  simp [flashProg16, h]

theorem flashProg32_healthy {d : Device} (h : d.healthy = true) (w : Word) : flashProg32 d 0xFFFFFFFF w = w := by
  have h1 : loHalf 0xFFFFFFFF = 0xFFFF := by decide
  have h2 : hiHalf 0xFFFFFFFF = 0xFFFF := by decide
  rw [flashProg32, if_pos h, h1, h2, flashProg16_healthy h, flashProg16_healthy h, wordOfHalves_loHalf_hiHalf]

/-- On a healthy device a commit onto an erased page leaves the page buffer's half-words
(spec/41_flash_alternate.md R154). -/
theorem Memory.readHalf_commitWords_erased {d : Device} {m : Memory} {p : Nat} {ws : List Word}
    (hd : d.healthy = true) (h : Memory.wf m = true)
    (he : ∀ k, k < 2 * ws.length → Memory.readHalf m (p + 2 * k) = 0xFFFF) (i : Nat) (hi : i < ws.length) :
    Memory.readHalf (commitWords d m p ws) (p + 4 * i) = loHalf (ws[i]'hi) ∧
    Memory.readHalf (commitWords d m p ws) (p + 4 * i + 2) = hiHalf (ws[i]'hi) := by
  induction ws generalizing m p i with
  | nil => simp at hi
  | cons w ws ih =>
    have hw : Memory.readWord m p = 0xFFFFFFFF := by
      have h0 := he 0 (by simp)
      have h1 := he 1 (by simp; omega)
      simp only [Nat.mul_zero, Nat.add_zero, Nat.mul_one] at h0 h1
      rw [Memory.readWord, h0, h1]
      decide
    have hstep : commitWords d m p (w :: ws) = commitWords d (Memory.writeWord m p w) (p + 4) ws := by
      rw [commitWords, hw, flashProg32_healthy hd]
    have hwf := Memory.wf_writeWord p w h
    rw [hstep]
    cases i with
    | zero =>
      simp only [Nat.mul_zero, Nat.add_zero, List.getElem_cons_zero]
      rw [Memory.readHalf_commitWords_other hwf (by omega), Memory.readHalf_commitWords_other hwf (by omega),
        Memory.readHalf_writeWord_lo _ _ h, Memory.readHalf_writeWord_hi _ _ h]
      exact ⟨rfl, rfl⟩
    | succ j =>
      have := ih (m := Memory.writeWord m p w) (p := p + 4) hwf (fun k hk => by
        rw [Memory.readHalf_writeWord_other _ h (by omega)]
        have := he (k + 2) (by simp; omega)
        rwa [show p + 2 * (k + 2) = p + 4 + 2 * k by omega] at this) j (by simpa using hi)
      simpa only [List.getElem_cons_succ, show p + 4 + 4 * j = p + 4 * (j + 1) by omega] using this

/-! ## Free bytes -/

theorem Memory.wf_fillFree {m : Memory} (p n k : Nat) (h : Memory.wf m = true) :
    Memory.wf (Memory.fillFree m p n k) = true := by
  induction n generalizing m with
  | zero => exact h
  | succ n ih => exact Memory.wf_write _ _ (ih h)

theorem Memory.mem_fillFree {m : Memory} {p n k : Nat} {c : Host.Cell} (h : c ∈ Memory.fillFree m p n k) :
    c ∈ m ∨ p ≤ c.1 ∧ c.1 < p + n := by
  induction n with
  | zero => exact .inl h
  | succ n ih =>
    rcases Memory.mem_write h with h | h
    · rcases ih h with h | h
      · exact .inl h
      · exact .inr (by omega)
    · exact .inr (by omega)

theorem Memory.read_fillFree_other {m : Memory} {p n k a : Nat} (h : Memory.wf m = true) (ha : a < p ∨ p + n ≤ a) :
    Memory.read (Memory.fillFree m p n k) a = Memory.read m a := by
  induction n with
  | zero => rfl
  | succ n ih =>
    rw [Memory.fillFree, Memory.read_write _ _ _ (Memory.wf_fillFree _ _ _ h), if_neg (by omega), ih (by omega)]

end Sys2Proof.Machine
end

