-- ==== Sys2Proof/Laws/Page.lean ====
section
/-!
SUPPORT. Page arithmetic (spec/40_flash_generic.md R124, spec/20_memory.md R66, R84) on natural numbers, and what a
well-formed configuration says.
-/

namespace Sys2Proof.Machine

/-- What the constraints of spec/00_scope.md R8 say of the page geometry. -/
structure Geometry (c : Config) : Prop where
  pageSize_pow : ∃ n, 1 ≤ n ∧ n ≤ 31 ∧ c.pageSize.toNat = 2 ^ n
  pageSizeA : c.variant = .a → c.pageSize.toNat = 128
  base_dvd : c.pageSize.toNat ∣ c.appBase.toNat
  origin_dvd : c.pageSize.toNat ∣ c.flashOrigin.toNat
  origin_le : c.flashOrigin.toNat ≤ c.appBase.toNat
  size_dvd : c.pageSize.toNat ∣ c.size.toNat
  noWrap : c.flashOrigin.toNat + c.size.toNat + c.pageSize.toNat ≤ 2 ^ 32
  ring : 2 ≤ c.ringN
  force : c.forceCmd ≠ 0

theorem Config.geometry {c : Config} (h : c.wf = true) : Geometry c := by
  simp only [Config.wf, Config.isPageSize, Bool.and_eq_true, Bool.or_eq_true, List.any_eq_true, List.mem_range,
    beq_iff_eq, decide_eq_true_eq, bne_iff_ne, ne_eq] at h
  obtain ⟨⟨⟨⟨⟨⟨⟨⟨⟨n, hn, hp⟩, hv⟩, hb⟩, ho⟩, hle⟩, hs⟩, hw⟩, hr⟩, hf⟩ := h
  exact {
    pageSize_pow := ⟨n + 1, by omega, by omega, hp⟩
    pageSizeA := fun hva => by
      rcases hv with hv | hv
      · rw [hva] at hv; cases hv
      · rw [hv]; rfl
    base_dvd := Nat.dvd_of_mod_eq_zero hb
    origin_dvd := Nat.dvd_of_mod_eq_zero ho
    origin_le := hle
    size_dvd := Nat.dvd_of_mod_eq_zero hs
    noWrap := hw
    ring := hr
    force := hf }

theorem Geometry.pageSize_pos {c : Config} (g : Geometry c) : 0 < c.pageSize.toNat := by
  obtain ⟨n, -, -, hp⟩ := g.pageSize_pow
  rw [hp]
  positivity

/-- A page is a whole number of half-words. -/
theorem Geometry.two_dvd {c : Config} (g : Geometry c) : 2 ∣ c.pageSize.toNat := by
  obtain ⟨n, h1, -, hp⟩ := g.pageSize_pow
  rw [hp]
  exact dvd_pow_self 2 (by omega)

/-- `FAS.end` does not wrap (spec/20_memory.md R66). -/
theorem Geometry.endAddr_toNat {c : Config} (g : Geometry c) :
    (AddressSpace.latch c).endAddr.toNat = c.flashOrigin.toNat + c.size.toNat := by
  have h1 : (AddressSpace.latch c).endAddr = c.flashOrigin + c.size := rfl
  have := g.noWrap
  obtain ⟨n, h1n, -, hp⟩ := g.pageSize_pow
  have hpos : 0 < c.pageSize.toNat := by rw [hp]; positivity
  rw [h1, BitVec.toNat_add, Nat.mod_eq_of_lt (by omega)]

/-- `FAS.end` is a multiple of the page size. -/
theorem Geometry.endAddr_dvd {c : Config} (g : Geometry c) :
    c.pageSize.toNat ∣ (AddressSpace.latch c).endAddr.toNat := by
  rw [g.endAddr_toNat]
  exact Nat.dvd_add g.origin_dvd g.size_dvd

/-- There is room for one more page below `2^32` (R8). -/
theorem Geometry.endAddr_le {c : Config} (g : Geometry c) :
    (AddressSpace.latch c).endAddr.toNat + c.pageSize.toNat ≤ 2 ^ 32 := by
  rw [g.endAddr_toNat]
  exact g.noWrap

theorem and_not_low_bits {n : Nat} (hn : n ≤ 31) (p a : Word) (hp : p.toNat = 2 ^ n) :
    (a &&& ~~~(p - 1)).toNat = a.toNat - a.toNat % 2 ^ n := by
  have hm : p - 1 = BitVec.ofNat 32 (2 ^ n - 1) := by
    apply BitVec.eq_of_toNat_eq
    have h1 : 1 ≤ 2 ^ n := Nat.one_le_two_pow
    have h2 : 2 ^ n < 2 ^ 32 := Nat.pow_lt_pow_right (by omega) (by omega)
    rw [BitVec.toNat_sub, hp, BitVec.toNat_ofNat]
    simp
    omega
  have hs : a &&& ~~~(p - 1) = (a >>> n) <<< n := by
    rw [hm]
    ext i hi
    simp only [BitVec.getElem_and, BitVec.getElem_not, BitVec.getElem_shiftLeft]
    by_cases h : i < n
    · have h1 : (BitVec.ofNat 32 (2 ^ n - 1))[i] = true := by
        rw [← BitVec.getLsbD_eq_getElem hi, BitVec.getLsbD_ofNat, Nat.testBit_two_pow_sub_one]
        simp [h, hi]
      simp [h, h1]
    · have h1 : (BitVec.ofNat 32 (2 ^ n - 1))[i] = false := by
        rw [← BitVec.getLsbD_eq_getElem hi, BitVec.getLsbD_ofNat, Nat.testBit_two_pow_sub_one]
        simp [h]
      have h2 : n + (i - n) = i := by omega
      simp [h, h1, h2, BitVec.getLsbD_eq_getElem hi]
  rw [hs, BitVec.toNat_shiftLeft, BitVec.toNat_ushiftRight, Nat.shiftRight_eq_div_pow, Nat.shiftLeft_eq]
  have h3 := Nat.div_add_mod a.toNat (2 ^ n)
  rw [Nat.mul_comm] at h3
  have h4 := a.isLt
  rw [Nat.mod_eq_of_lt (by omega)]
  omega

/-- `PageStart(a)` is `a` rounded down to the page (R124). -/
theorem Geometry.pageStart_toNat {c : Config} (g : Geometry c) (a : Word) :
    (pageStart c.pageSize a).toNat = a.toNat - a.toNat % c.pageSize.toNat := by
  obtain ⟨n, -, hn, hp⟩ := g.pageSize_pow
  rw [pageStart, and_not_low_bits hn _ _ hp, hp]

/-- `PageEnd(a)` is a multiple of the page size, also where it wraps. -/
theorem Geometry.pageEnd_mod {c : Config} (g : Geometry c) (a : Word) :
    (pageEnd c.pageSize a).toNat % c.pageSize.toNat = 0 := by
  have h1 : c.pageSize.toNat ∣ (pageStart c.pageSize a).toNat := by
    rw [g.pageStart_toNat]; exact Nat.dvd_sub_mod _
  obtain ⟨n, -, hn, hp⟩ := g.pageSize_pow
  have h2 : c.pageSize.toNat ∣ 2 ^ 32 := by rw [hp]; exact Nat.pow_dvd_pow 2 (by omega)
  rw [pageEnd, BitVec.toNat_add]
  exact Nat.mod_eq_zero_of_dvd ((Nat.dvd_mod_iff h2).mpr (Nat.dvd_add h1 (Nat.dvd_refl _)))

theorem pageOfA_toNat (a : Word) : (pageOfA a).toNat = a.toNat - a.toNat % 128 := by
  have h := and_not_low_bits (n := 7) (by omega) 128 a rfl
  exact h

/-- Variant A's alignment test is divisibility by 128 (spec/20_memory.md R64). -/
theorem misalignedA_iff (a : Word) : misalignedA a = true ↔ a.toNat % 128 ≠ 0 := by
  have h : a.toNat % 128 = (a &&& Config.pageMask).toNat := by
    have := Nat.and_two_pow_sub_one_eq_mod a.toNat 7
    rw [BitVec.toNat_and]
    exact this.symm
  rw [misalignedA, h, bne_iff_ne, ne_eq, ne_eq, not_iff_not]
  constructor
  · intro h; rw [h]; rfl
  · intro h; exact BitVec.eq_of_toNat_eq (by simpa using h)

theorem misalignedA_eq_false_iff (a : Word) : misalignedA a = false ↔ a.toNat % 128 = 0 := by
  rw [← Bool.not_eq_true, misalignedA_iff, not_not]

/-- An aligned address is its own page. -/
theorem pageOfA_of_aligned {a : Word} (h : a.toNat % 128 = 0) : pageOfA a = a :=
  BitVec.eq_of_toNat_eq (by rw [pageOfA_toNat, h, Nat.sub_zero])

/-- A page below a page-aligned end ends at or below it. -/
theorem page_le_of_lt {p e n : Nat} (hp : n ∣ p) (he : n ∣ e) (h : p < e) : p + n ≤ e := by
  obtain ⟨i, rfl⟩ := hp
  obtain ⟨j, rfl⟩ := he
  have hij : i < j := lt_of_mul_lt_mul_left h (Nat.zero_le n)
  calc n * i + n = n * (i + 1) := by ring
    _ ≤ n * j := Nat.mul_le_mul_left n hij

/-- The page of an address in `[FLASH_ORIGIN, FAS.end)` lies in the array (R66). -/
theorem Geometry.page_inFlash {c : Config} (g : Geometry c) {d : Word} (h1 : c.flashOrigin.toNat ≤ d.toNat)
    (h2 : d.toNat < (AddressSpace.latch c).endAddr.toNat) :
    c.flashOrigin.toNat ≤ (pageStart c.pageSize d).toNat ∧
    (pageStart c.pageSize d).toNat + c.pageSize.toNat ≤ (AddressSpace.latch c).endAddr.toNat := by
  rw [g.pageStart_toNat]
  obtain ⟨n, -, -, hp⟩ := g.pageSize_pow
  have hpos : 0 < c.pageSize.toNat := by rw [hp]; positivity
  have hd : c.pageSize.toNat ∣ d.toNat - d.toNat % c.pageSize.toNat := Nat.dvd_sub_mod _
  refine ⟨?_, page_le_of_lt hd g.endAddr_dvd (by omega)⟩
  obtain ⟨i, hi⟩ := g.origin_dvd
  rw [hi] at h1 ⊢
  have h3 := Nat.div_add_mod d.toNat c.pageSize.toNat
  have h4 : i ≤ d.toNat / c.pageSize.toNat := (Nat.le_div_iff_mul_le hpos).mpr (by rw [Nat.mul_comm]; exact h1)
  have h5 := Nat.mul_le_mul_left c.pageSize.toNat h4
  omega

end Sys2Proof.Machine
end

