-- ==== Sys2Proof/Laws/State.lean ====
section
/-!
SUPPORT. The fields of the named updates: what each update leaves alone, and what it writes.
-/

namespace Sys2Proof.Machine

variable (s : State)

/-! ### `begin` -/

@[simp] theorem State.begin_cfg (i : Instr) (ls : List Line) : (s.begin i ls).cfg = s.cfg := rfl
@[simp] theorem State.begin_op (i : Instr) (ls : List Line) : (s.begin i ls).op = s.op := rfl
@[simp] theorem State.begin_a0 (i : Instr) (ls : List Line) : (s.begin i ls).a0 = s.a0 := rfl
@[simp] theorem State.begin_a1 (i : Instr) (ls : List Line) : (s.begin i ls).a1 = s.a1 := rfl
@[simp] theorem State.begin_src (i : Instr) (ls : List Line) : (s.begin i ls).src = s.src := rfl
@[simp] theorem State.begin_res (i : Instr) (ls : List Line) : (s.begin i ls).res = s.res := rfl
@[simp] theorem State.begin_busy (i : Instr) (ls : List Line) : (s.begin i ls).busy = true := rfl
@[simp] theorem State.begin_ill (i : Instr) (ls : List Line) : (s.begin i ls).ill = false := rfl
@[simp] theorem State.begin_seq (i : Instr) (ls : List Line) : (s.begin i ls).seq = .running i ls := rfl
@[simp] theorem State.begin_tmp (i : Instr) (ls : List Line) : (s.begin i ls).tmp = Tmp.init := rfl
@[simp] theorem State.begin_fas (i : Instr) (ls : List Line) : (s.begin i ls).fas = s.fas := rfl
@[simp] theorem State.begin_win (i : Instr) (ls : List Line) : (s.begin i ls).win = s.win := rfl
@[simp] theorem State.begin_rb (i : Instr) (ls : List Line) : (s.begin i ls).rb = s.rb := rfl
@[simp] theorem State.begin_armed (i : Instr) (ls : List Line) : (s.begin i ls).armed = s.armed := rfl
@[simp] theorem State.begin_bkp (i : Instr) (ls : List Line) : (s.begin i ls).bkp = s.bkp := rfl
@[simp] theorem State.begin_flash (i : Instr) (ls : List Line) : (s.begin i ls).flash = s.flash := rfl
@[simp] theorem State.begin_fc (i : Instr) (ls : List Line) : (s.begin i ls).fc = s.fc := rfl
@[simp] theorem State.begin_keyr (i : Instr) (ls : List Line) : (s.begin i ls).keyr = s.keyr := rfl
@[simp] theorem State.begin_modekeyr (i : Instr) (ls : List Line) : (s.begin i ls).modekeyr = s.modekeyr := rfl
@[simp] theorem State.begin_ctlr (i : Instr) (ls : List Line) : (s.begin i ls).ctlr = s.ctlr := rfl
@[simp] theorem State.begin_addr (i : Instr) (ls : List Line) : (s.begin i ls).addr = s.addr := rfl
@[simp] theorem State.begin_statr (i : Instr) (ls : List Line) : (s.begin i ls).statr = s.statr := rfl
@[simp] theorem State.begin_cachectl (i : Instr) (ls : List Line) : (s.begin i ls).cachectl = s.cachectl := rfl
@[simp] theorem State.begin_tdr (i : Instr) (ls : List Line) : (s.begin i ls).tdr = s.tdr := rfl
@[simp] theorem State.begin_txe (i : Instr) (ls : List Line) : (s.begin i ls).txe = s.txe := rfl
@[simp] theorem State.begin_line (i : Instr) (ls : List Line) : (s.begin i ls).line = s.line := rfl
@[simp] theorem State.begin_btn (i : Instr) (ls : List Line) : (s.begin i ls).btn = s.btn := rfl
@[simp] theorem State.begin_cause (i : Instr) (ls : List Line) : (s.begin i ls).cause = none := rfl
@[simp] theorem State.begin_inbox (i : Instr) (ls : List Line) : (s.begin i ls).inbox = s.inbox := rfl
@[simp] theorem State.begin_sched (i : Instr) (ls : List Line) : (s.begin i ls).sched = s.sched := rfl
@[simp] theorem State.begin_dev (i : Instr) (ls : List Line) : (s.begin i ls).dev = s.dev := rfl
@[simp] theorem State.begin_fctlStuck (i : Instr) (ls : List Line) : (s.begin i ls).fctlStuck = s.fctlStuck := rfl
@[simp] theorem State.begin_draws (i : Instr) (ls : List Line) : (s.begin i ls).draws = s.draws := rfl

/-! ### `finish` -/

@[simp] theorem State.finish_cfg (v : Word) : (s.finish v).cfg = s.cfg := rfl
@[simp] theorem State.finish_op (v : Word) : (s.finish v).op = s.op := rfl
@[simp] theorem State.finish_a0 (v : Word) : (s.finish v).a0 = s.a0 := rfl
@[simp] theorem State.finish_a1 (v : Word) : (s.finish v).a1 = s.a1 := rfl
@[simp] theorem State.finish_src (v : Word) : (s.finish v).src = s.src := rfl
@[simp] theorem State.finish_res (v : Word) : (s.finish v).res = v := rfl
@[simp] theorem State.finish_busy (v : Word) : (s.finish v).busy = false := rfl
@[simp] theorem State.finish_ill (v : Word) : (s.finish v).ill = s.ill := rfl
@[simp] theorem State.finish_seq (v : Word) : (s.finish v).seq = .idle := rfl
@[simp] theorem State.finish_tmp (v : Word) : (s.finish v).tmp = Tmp.init := rfl
@[simp] theorem State.finish_fas (v : Word) : (s.finish v).fas = s.fas := rfl
@[simp] theorem State.finish_win (v : Word) : (s.finish v).win = s.win := rfl
@[simp] theorem State.finish_rb (v : Word) : (s.finish v).rb = s.rb := rfl
@[simp] theorem State.finish_armed (v : Word) : (s.finish v).armed = s.armed := rfl
@[simp] theorem State.finish_bkp (v : Word) : (s.finish v).bkp = s.bkp := rfl
@[simp] theorem State.finish_flash (v : Word) : (s.finish v).flash = s.flash := rfl
@[simp] theorem State.finish_fc (v : Word) : (s.finish v).fc = s.fc := rfl
@[simp] theorem State.finish_keyr (v : Word) : (s.finish v).keyr = s.keyr := rfl
@[simp] theorem State.finish_modekeyr (v : Word) : (s.finish v).modekeyr = s.modekeyr := rfl
@[simp] theorem State.finish_ctlr (v : Word) : (s.finish v).ctlr = s.ctlr := rfl
@[simp] theorem State.finish_addr (v : Word) : (s.finish v).addr = s.addr := rfl
@[simp] theorem State.finish_statr (v : Word) : (s.finish v).statr = s.statr := rfl
@[simp] theorem State.finish_cachectl (v : Word) : (s.finish v).cachectl = s.cachectl := rfl
@[simp] theorem State.finish_tdr (v : Word) : (s.finish v).tdr = s.tdr := rfl
@[simp] theorem State.finish_txe (v : Word) : (s.finish v).txe = s.txe := rfl
@[simp] theorem State.finish_line (v : Word) : (s.finish v).line = s.line := rfl
@[simp] theorem State.finish_btn (v : Word) : (s.finish v).btn = s.btn := rfl
@[simp] theorem State.finish_cause (v : Word) : (s.finish v).cause = s.cause := rfl
@[simp] theorem State.finish_inbox (v : Word) : (s.finish v).inbox = s.inbox := rfl
@[simp] theorem State.finish_sched (v : Word) : (s.finish v).sched = s.sched := rfl
@[simp] theorem State.finish_dev (v : Word) : (s.finish v).dev = s.dev := rfl
@[simp] theorem State.finish_fctlStuck (v : Word) : (s.finish v).fctlStuck = s.fctlStuck := rfl
@[simp] theorem State.finish_draws (v : Word) : (s.finish v).draws = s.draws := rfl

/-! ### `raiseFail` -/

@[simp] theorem State.raiseFail_cfg (c : Cause) : (s.raiseFail c).cfg = s.cfg := rfl
@[simp] theorem State.raiseFail_op (c : Cause) : (s.raiseFail c).op = s.op := rfl
@[simp] theorem State.raiseFail_a0 (c : Cause) : (s.raiseFail c).a0 = s.a0 := rfl
@[simp] theorem State.raiseFail_a1 (c : Cause) : (s.raiseFail c).a1 = s.a1 := rfl
@[simp] theorem State.raiseFail_src (c : Cause) : (s.raiseFail c).src = s.src := rfl
@[simp] theorem State.raiseFail_res (c : Cause) : (s.raiseFail c).res = 0 := rfl
@[simp] theorem State.raiseFail_busy (c : Cause) : (s.raiseFail c).busy = false := rfl
@[simp] theorem State.raiseFail_ill (c : Cause) : (s.raiseFail c).ill = s.ill := rfl
@[simp] theorem State.raiseFail_seq (c : Cause) : (s.raiseFail c).seq = .idle := rfl
@[simp] theorem State.raiseFail_tmp (c : Cause) : (s.raiseFail c).tmp = Tmp.init := rfl
@[simp] theorem State.raiseFail_fas (c : Cause) : (s.raiseFail c).fas = s.fas := rfl
@[simp] theorem State.raiseFail_win (c : Cause) : (s.raiseFail c).win = s.win := rfl
@[simp] theorem State.raiseFail_rb (c : Cause) : (s.raiseFail c).rb = s.rb := rfl
@[simp] theorem State.raiseFail_armed (c : Cause) : (s.raiseFail c).armed = s.armed := rfl
@[simp] theorem State.raiseFail_bkp (c : Cause) : (s.raiseFail c).bkp = s.bkp := rfl
@[simp] theorem State.raiseFail_flash (c : Cause) : (s.raiseFail c).flash = s.flash := rfl
@[simp] theorem State.raiseFail_fc (c : Cause) : (s.raiseFail c).fc = s.fc := rfl
@[simp] theorem State.raiseFail_keyr (c : Cause) : (s.raiseFail c).keyr = s.keyr := rfl
@[simp] theorem State.raiseFail_modekeyr (c : Cause) : (s.raiseFail c).modekeyr = s.modekeyr := rfl
@[simp] theorem State.raiseFail_ctlr (c : Cause) : (s.raiseFail c).ctlr = s.ctlr := rfl
@[simp] theorem State.raiseFail_addr (c : Cause) : (s.raiseFail c).addr = s.addr := rfl
@[simp] theorem State.raiseFail_statr (c : Cause) : (s.raiseFail c).statr = s.statr := rfl
@[simp] theorem State.raiseFail_cachectl (c : Cause) : (s.raiseFail c).cachectl = s.cachectl := rfl
@[simp] theorem State.raiseFail_tdr (c : Cause) : (s.raiseFail c).tdr = s.tdr := rfl
@[simp] theorem State.raiseFail_txe (c : Cause) : (s.raiseFail c).txe = s.txe := rfl
@[simp] theorem State.raiseFail_line (c : Cause) : (s.raiseFail c).line = s.line := rfl
@[simp] theorem State.raiseFail_btn (c : Cause) : (s.raiseFail c).btn = s.btn := rfl
@[simp] theorem State.raiseFail_cause (c : Cause) : (s.raiseFail c).cause = some c := rfl
@[simp] theorem State.raiseFail_inbox (c : Cause) : (s.raiseFail c).inbox = s.inbox := rfl
@[simp] theorem State.raiseFail_sched (c : Cause) : (s.raiseFail c).sched = s.sched := rfl
@[simp] theorem State.raiseFail_dev (c : Cause) : (s.raiseFail c).dev = s.dev := rfl
@[simp] theorem State.raiseFail_fctlStuck (c : Cause) : (s.raiseFail c).fctlStuck = s.fctlStuck := rfl
@[simp] theorem State.raiseFail_draws (c : Cause) : (s.raiseFail c).draws = s.draws := rfl

/-! ### `illegal` -/

@[simp] theorem State.illegal_cfg : (s.illegal).cfg = s.cfg := rfl
@[simp] theorem State.illegal_op : (s.illegal).op = s.op := rfl
@[simp] theorem State.illegal_a0 : (s.illegal).a0 = s.a0 := rfl
@[simp] theorem State.illegal_a1 : (s.illegal).a1 = s.a1 := rfl
@[simp] theorem State.illegal_src : (s.illegal).src = s.src := rfl
@[simp] theorem State.illegal_res : (s.illegal).res = 0 := rfl
@[simp] theorem State.illegal_busy : (s.illegal).busy = false := rfl
@[simp] theorem State.illegal_ill : (s.illegal).ill = true := rfl
@[simp] theorem State.illegal_seq : (s.illegal).seq = .idle := rfl
@[simp] theorem State.illegal_tmp : (s.illegal).tmp = s.tmp := rfl
@[simp] theorem State.illegal_fas : (s.illegal).fas = s.fas := rfl
@[simp] theorem State.illegal_win : (s.illegal).win = s.win := rfl
@[simp] theorem State.illegal_rb : (s.illegal).rb = s.rb := rfl
@[simp] theorem State.illegal_armed : (s.illegal).armed = s.armed := rfl
@[simp] theorem State.illegal_bkp : (s.illegal).bkp = s.bkp := rfl
@[simp] theorem State.illegal_flash : (s.illegal).flash = s.flash := rfl
@[simp] theorem State.illegal_fc : (s.illegal).fc = s.fc := rfl
@[simp] theorem State.illegal_keyr : (s.illegal).keyr = s.keyr := rfl
@[simp] theorem State.illegal_modekeyr : (s.illegal).modekeyr = s.modekeyr := rfl
@[simp] theorem State.illegal_ctlr : (s.illegal).ctlr = s.ctlr := rfl
@[simp] theorem State.illegal_addr : (s.illegal).addr = s.addr := rfl
@[simp] theorem State.illegal_statr : (s.illegal).statr = s.statr := rfl
@[simp] theorem State.illegal_cachectl : (s.illegal).cachectl = s.cachectl := rfl
@[simp] theorem State.illegal_tdr : (s.illegal).tdr = s.tdr := rfl
@[simp] theorem State.illegal_txe : (s.illegal).txe = s.txe := rfl
@[simp] theorem State.illegal_line : (s.illegal).line = s.line := rfl
@[simp] theorem State.illegal_btn : (s.illegal).btn = s.btn := rfl
@[simp] theorem State.illegal_cause : (s.illegal).cause = s.cause := rfl
@[simp] theorem State.illegal_inbox : (s.illegal).inbox = s.inbox := rfl
@[simp] theorem State.illegal_sched : (s.illegal).sched = s.sched := rfl
@[simp] theorem State.illegal_dev : (s.illegal).dev = s.dev := rfl
@[simp] theorem State.illegal_fctlStuck : (s.illegal).fctlStuck = s.fctlStuck := rfl
@[simp] theorem State.illegal_draws : (s.illegal).draws = s.draws := rfl

/-! ### `accept` -/

@[simp] theorem State.accept_cfg (c : Command) (r : List Command) : (s.accept c r).cfg = s.cfg := rfl
@[simp] theorem State.accept_op (c : Command) (r : List Command) : (s.accept c r).op = c.op := rfl
@[simp] theorem State.accept_a0 (c : Command) (r : List Command) : (s.accept c r).a0 = c.a0 := rfl
@[simp] theorem State.accept_a1 (c : Command) (r : List Command) : (s.accept c r).a1 = c.a1 := rfl
@[simp] theorem State.accept_src (c : Command) (r : List Command) : (s.accept c r).src = c.src := rfl
@[simp] theorem State.accept_res (c : Command) (r : List Command) : (s.accept c r).res = s.res := rfl
@[simp] theorem State.accept_busy (c : Command) (r : List Command) : (s.accept c r).busy = s.busy := rfl
@[simp] theorem State.accept_ill (c : Command) (r : List Command) : (s.accept c r).ill = s.ill := rfl
@[simp] theorem State.accept_seq (c : Command) (r : List Command) : (s.accept c r).seq = s.seq := rfl
@[simp] theorem State.accept_tmp (c : Command) (r : List Command) : (s.accept c r).tmp = s.tmp := rfl
@[simp] theorem State.accept_fas (c : Command) (r : List Command) : (s.accept c r).fas = s.fas := rfl
@[simp] theorem State.accept_win (c : Command) (r : List Command) : (s.accept c r).win = s.win := rfl
@[simp] theorem State.accept_rb (c : Command) (r : List Command) : (s.accept c r).rb = s.rb := rfl
@[simp] theorem State.accept_armed (c : Command) (r : List Command) : (s.accept c r).armed = s.armed := rfl
@[simp] theorem State.accept_bkp (c : Command) (r : List Command) : (s.accept c r).bkp = s.bkp := rfl
@[simp] theorem State.accept_flash (c : Command) (r : List Command) : (s.accept c r).flash = s.flash := rfl
@[simp] theorem State.accept_fc (c : Command) (r : List Command) : (s.accept c r).fc = s.fc := rfl
@[simp] theorem State.accept_keyr (c : Command) (r : List Command) : (s.accept c r).keyr = s.keyr := rfl
@[simp] theorem State.accept_modekeyr (c : Command) (r : List Command) : (s.accept c r).modekeyr = s.modekeyr := rfl
@[simp] theorem State.accept_ctlr (c : Command) (r : List Command) : (s.accept c r).ctlr = s.ctlr := rfl
@[simp] theorem State.accept_addr (c : Command) (r : List Command) : (s.accept c r).addr = s.addr := rfl
@[simp] theorem State.accept_statr (c : Command) (r : List Command) : (s.accept c r).statr = s.statr := rfl
@[simp] theorem State.accept_cachectl (c : Command) (r : List Command) : (s.accept c r).cachectl = s.cachectl := rfl
@[simp] theorem State.accept_tdr (c : Command) (r : List Command) : (s.accept c r).tdr = s.tdr := rfl
@[simp] theorem State.accept_txe (c : Command) (r : List Command) : (s.accept c r).txe = s.txe := rfl
@[simp] theorem State.accept_line (c : Command) (r : List Command) : (s.accept c r).line = s.line := rfl
@[simp] theorem State.accept_btn (c : Command) (r : List Command) : (s.accept c r).btn = s.btn := rfl
@[simp] theorem State.accept_cause (c : Command) (r : List Command) : (s.accept c r).cause = s.cause := rfl
@[simp] theorem State.accept_inbox (c : Command) (r : List Command) : (s.accept c r).inbox = r := rfl
@[simp] theorem State.accept_sched (c : Command) (r : List Command) : (s.accept c r).sched = s.sched := rfl
@[simp] theorem State.accept_dev (c : Command) (r : List Command) : (s.accept c r).dev = s.dev := rfl
@[simp] theorem State.accept_fctlStuck (c : Command) (r : List Command) : (s.accept c r).fctlStuck = s.fctlStuck := rfl
@[simp] theorem State.accept_draws (c : Command) (r : List Command) : (s.accept c r).draws = s.draws := rfl

/-! ### `withTx` -/

@[simp] theorem State.withTx_cfg (e : State) : (State.withTx e s).cfg = s.cfg := rfl
@[simp] theorem State.withTx_op (e : State) : (State.withTx e s).op = s.op := rfl
@[simp] theorem State.withTx_a0 (e : State) : (State.withTx e s).a0 = s.a0 := rfl
@[simp] theorem State.withTx_a1 (e : State) : (State.withTx e s).a1 = s.a1 := rfl
@[simp] theorem State.withTx_src (e : State) : (State.withTx e s).src = s.src := rfl
@[simp] theorem State.withTx_res (e : State) : (State.withTx e s).res = s.res := rfl
@[simp] theorem State.withTx_busy (e : State) : (State.withTx e s).busy = s.busy := rfl
@[simp] theorem State.withTx_ill (e : State) : (State.withTx e s).ill = s.ill := rfl
@[simp] theorem State.withTx_seq (e : State) : (State.withTx e s).seq = s.seq := rfl
@[simp] theorem State.withTx_tmp (e : State) : (State.withTx e s).tmp = s.tmp := rfl
@[simp] theorem State.withTx_fas (e : State) : (State.withTx e s).fas = s.fas := rfl
@[simp] theorem State.withTx_win (e : State) : (State.withTx e s).win = s.win := rfl
@[simp] theorem State.withTx_rb (e : State) : (State.withTx e s).rb = e.rb := rfl
@[simp] theorem State.withTx_armed (e : State) : (State.withTx e s).armed = e.armed := rfl
@[simp] theorem State.withTx_bkp (e : State) : (State.withTx e s).bkp = s.bkp := rfl
@[simp] theorem State.withTx_flash (e : State) : (State.withTx e s).flash = s.flash := rfl
@[simp] theorem State.withTx_fc (e : State) : (State.withTx e s).fc = s.fc := rfl
@[simp] theorem State.withTx_keyr (e : State) : (State.withTx e s).keyr = s.keyr := rfl
@[simp] theorem State.withTx_modekeyr (e : State) : (State.withTx e s).modekeyr = s.modekeyr := rfl
@[simp] theorem State.withTx_ctlr (e : State) : (State.withTx e s).ctlr = s.ctlr := rfl
@[simp] theorem State.withTx_addr (e : State) : (State.withTx e s).addr = s.addr := rfl
@[simp] theorem State.withTx_statr (e : State) : (State.withTx e s).statr = s.statr := rfl
@[simp] theorem State.withTx_cachectl (e : State) : (State.withTx e s).cachectl = s.cachectl := rfl
@[simp] theorem State.withTx_tdr (e : State) : (State.withTx e s).tdr = e.tdr := rfl
@[simp] theorem State.withTx_txe (e : State) : (State.withTx e s).txe = e.txe := rfl
@[simp] theorem State.withTx_line (e : State) : (State.withTx e s).line = e.line := rfl
@[simp] theorem State.withTx_btn (e : State) : (State.withTx e s).btn = e.btn := rfl
@[simp] theorem State.withTx_cause (e : State) : (State.withTx e s).cause = s.cause := rfl
@[simp] theorem State.withTx_inbox (e : State) : (State.withTx e s).inbox = s.inbox := rfl
@[simp] theorem State.withTx_sched (e : State) : (State.withTx e s).sched = e.sched := rfl
@[simp] theorem State.withTx_dev (e : State) : (State.withTx e s).dev = s.dev := rfl
@[simp] theorem State.withTx_fctlStuck (e : State) : (State.withTx e s).fctlStuck = s.fctlStuck := rfl
@[simp] theorem State.withTx_draws (e : State) : (State.withTx e s).draws = s.draws := rfl

/-! ### `startCycle` -/

@[simp] theorem State.startCycle_cfg (c : Cycle) : (s.startCycle c).cfg = s.cfg := rfl
@[simp] theorem State.startCycle_op (c : Cycle) : (s.startCycle c).op = s.op := rfl
@[simp] theorem State.startCycle_a0 (c : Cycle) : (s.startCycle c).a0 = s.a0 := rfl
@[simp] theorem State.startCycle_a1 (c : Cycle) : (s.startCycle c).a1 = s.a1 := rfl
@[simp] theorem State.startCycle_src (c : Cycle) : (s.startCycle c).src = s.src := rfl
@[simp] theorem State.startCycle_res (c : Cycle) : (s.startCycle c).res = s.res := rfl
@[simp] theorem State.startCycle_busy (c : Cycle) : (s.startCycle c).busy = s.busy := rfl
@[simp] theorem State.startCycle_ill (c : Cycle) : (s.startCycle c).ill = s.ill := rfl
@[simp] theorem State.startCycle_seq (c : Cycle) : (s.startCycle c).seq = s.seq := rfl
@[simp] theorem State.startCycle_tmp (c : Cycle) : (s.startCycle c).tmp = s.tmp := rfl
@[simp] theorem State.startCycle_fas (c : Cycle) : (s.startCycle c).fas = s.fas := rfl
@[simp] theorem State.startCycle_win (c : Cycle) : (s.startCycle c).win = s.win := rfl
@[simp] theorem State.startCycle_rb (c : Cycle) : (s.startCycle c).rb = s.rb := rfl
@[simp] theorem State.startCycle_armed (c : Cycle) : (s.startCycle c).armed = s.armed := rfl
@[simp] theorem State.startCycle_bkp (c : Cycle) : (s.startCycle c).bkp = s.bkp := rfl
@[simp] theorem State.startCycle_flash (c : Cycle) : (s.startCycle c).flash = s.flash := rfl
@[simp] theorem State.startCycle_fc (c : Cycle) : (s.startCycle c).fc = { s.fc with busy := true, pending := c } := rfl
@[simp] theorem State.startCycle_keyr (c : Cycle) : (s.startCycle c).keyr = s.keyr := rfl
@[simp] theorem State.startCycle_modekeyr (c : Cycle) : (s.startCycle c).modekeyr = s.modekeyr := rfl
@[simp] theorem State.startCycle_ctlr (c : Cycle) : (s.startCycle c).ctlr = s.ctlr := rfl
@[simp] theorem State.startCycle_addr (c : Cycle) : (s.startCycle c).addr = s.addr := rfl
@[simp] theorem State.startCycle_statr (c : Cycle) : (s.startCycle c).statr = s.statr := rfl
@[simp] theorem State.startCycle_cachectl (c : Cycle) : (s.startCycle c).cachectl = s.cachectl := rfl
@[simp] theorem State.startCycle_tdr (c : Cycle) : (s.startCycle c).tdr = s.tdr := rfl
@[simp] theorem State.startCycle_txe (c : Cycle) : (s.startCycle c).txe = s.txe := rfl
@[simp] theorem State.startCycle_line (c : Cycle) : (s.startCycle c).line = s.line := rfl
@[simp] theorem State.startCycle_btn (c : Cycle) : (s.startCycle c).btn = s.btn := rfl
@[simp] theorem State.startCycle_cause (c : Cycle) : (s.startCycle c).cause = s.cause := rfl
@[simp] theorem State.startCycle_inbox (c : Cycle) : (s.startCycle c).inbox = s.inbox := rfl
@[simp] theorem State.startCycle_sched (c : Cycle) : (s.startCycle c).sched = s.sched := rfl
@[simp] theorem State.startCycle_dev (c : Cycle) : (s.startCycle c).dev = s.dev := rfl
@[simp] theorem State.startCycle_fctlStuck (c : Cycle) : (s.startCycle c).fctlStuck = s.fctlStuck := rfl
@[simp] theorem State.startCycle_draws (c : Cycle) : (s.startCycle c).draws = s.draws := rfl

/-! ### `txeDrain` -/

@[simp] theorem State.txeDrain_cfg : (s.txeDrain).cfg = s.cfg := by unfold State.txeDrain; split <;> rfl
@[simp] theorem State.txeDrain_op : (s.txeDrain).op = s.op := by unfold State.txeDrain; split <;> rfl
@[simp] theorem State.txeDrain_a0 : (s.txeDrain).a0 = s.a0 := by unfold State.txeDrain; split <;> rfl
@[simp] theorem State.txeDrain_a1 : (s.txeDrain).a1 = s.a1 := by unfold State.txeDrain; split <;> rfl
@[simp] theorem State.txeDrain_src : (s.txeDrain).src = s.src := by unfold State.txeDrain; split <;> rfl
@[simp] theorem State.txeDrain_res : (s.txeDrain).res = s.res := by unfold State.txeDrain; split <;> rfl
@[simp] theorem State.txeDrain_busy : (s.txeDrain).busy = s.busy := by unfold State.txeDrain; split <;> rfl
@[simp] theorem State.txeDrain_ill : (s.txeDrain).ill = s.ill := by unfold State.txeDrain; split <;> rfl
@[simp] theorem State.txeDrain_seq : (s.txeDrain).seq = s.seq := by unfold State.txeDrain; split <;> rfl
@[simp] theorem State.txeDrain_tmp : (s.txeDrain).tmp = s.tmp := by unfold State.txeDrain; split <;> rfl
@[simp] theorem State.txeDrain_fas : (s.txeDrain).fas = s.fas := by unfold State.txeDrain; split <;> rfl
@[simp] theorem State.txeDrain_win : (s.txeDrain).win = s.win := by unfold State.txeDrain; split <;> rfl
@[simp] theorem State.txeDrain_bkp : (s.txeDrain).bkp = s.bkp := by unfold State.txeDrain; split <;> rfl
@[simp] theorem State.txeDrain_flash : (s.txeDrain).flash = s.flash := by unfold State.txeDrain; split <;> rfl
@[simp] theorem State.txeDrain_fc : (s.txeDrain).fc = s.fc := by unfold State.txeDrain; split <;> rfl
@[simp] theorem State.txeDrain_keyr : (s.txeDrain).keyr = s.keyr := by unfold State.txeDrain; split <;> rfl
@[simp] theorem State.txeDrain_modekeyr : (s.txeDrain).modekeyr = s.modekeyr := by unfold State.txeDrain; split <;> rfl
@[simp] theorem State.txeDrain_ctlr : (s.txeDrain).ctlr = s.ctlr := by unfold State.txeDrain; split <;> rfl
@[simp] theorem State.txeDrain_addr : (s.txeDrain).addr = s.addr := by unfold State.txeDrain; split <;> rfl
@[simp] theorem State.txeDrain_statr : (s.txeDrain).statr = s.statr := by unfold State.txeDrain; split <;> rfl
@[simp] theorem State.txeDrain_cachectl : (s.txeDrain).cachectl = s.cachectl := by unfold State.txeDrain; split <;> rfl
@[simp] theorem State.txeDrain_btn : (s.txeDrain).btn = s.btn := by unfold State.txeDrain; split <;> rfl
@[simp] theorem State.txeDrain_cause : (s.txeDrain).cause = s.cause := by unfold State.txeDrain; split <;> rfl
@[simp] theorem State.txeDrain_inbox : (s.txeDrain).inbox = s.inbox := by unfold State.txeDrain; split <;> rfl
@[simp] theorem State.txeDrain_sched : (s.txeDrain).sched = s.sched := by unfold State.txeDrain; split <;> rfl
@[simp] theorem State.txeDrain_dev : (s.txeDrain).dev = s.dev := by unfold State.txeDrain; split <;> rfl
@[simp] theorem State.txeDrain_fctlStuck : (s.txeDrain).fctlStuck = s.fctlStuck := by unfold State.txeDrain; split <;> rfl
@[simp] theorem State.txeDrain_draws : (s.txeDrain).draws = s.draws := by unfold State.txeDrain; split <;> rfl

/-! ### `irqTurn` -/

@[simp] theorem State.irqTurn_cfg : (s.irqTurn).cfg = s.cfg := by unfold State.irqTurn; split <;> simp
@[simp] theorem State.irqTurn_op : (s.irqTurn).op = s.op := by unfold State.irqTurn; split <;> simp
@[simp] theorem State.irqTurn_a0 : (s.irqTurn).a0 = s.a0 := by unfold State.irqTurn; split <;> simp
@[simp] theorem State.irqTurn_a1 : (s.irqTurn).a1 = s.a1 := by unfold State.irqTurn; split <;> simp
@[simp] theorem State.irqTurn_src : (s.irqTurn).src = s.src := by unfold State.irqTurn; split <;> simp
@[simp] theorem State.irqTurn_res : (s.irqTurn).res = s.res := by unfold State.irqTurn; split <;> simp
@[simp] theorem State.irqTurn_busy : (s.irqTurn).busy = s.busy := by unfold State.irqTurn; split <;> simp
@[simp] theorem State.irqTurn_ill : (s.irqTurn).ill = s.ill := by unfold State.irqTurn; split <;> simp
@[simp] theorem State.irqTurn_seq : (s.irqTurn).seq = s.seq := by unfold State.irqTurn; split <;> simp
@[simp] theorem State.irqTurn_tmp : (s.irqTurn).tmp = s.tmp := by unfold State.irqTurn; split <;> simp
@[simp] theorem State.irqTurn_fas : (s.irqTurn).fas = s.fas := by unfold State.irqTurn; split <;> simp
@[simp] theorem State.irqTurn_win : (s.irqTurn).win = s.win := by unfold State.irqTurn; split <;> simp
@[simp] theorem State.irqTurn_bkp : (s.irqTurn).bkp = s.bkp := by unfold State.irqTurn; split <;> simp
@[simp] theorem State.irqTurn_flash : (s.irqTurn).flash = s.flash := by unfold State.irqTurn; split <;> simp
@[simp] theorem State.irqTurn_fc : (s.irqTurn).fc = s.fc := by unfold State.irqTurn; split <;> simp
@[simp] theorem State.irqTurn_keyr : (s.irqTurn).keyr = s.keyr := by unfold State.irqTurn; split <;> simp
@[simp] theorem State.irqTurn_modekeyr : (s.irqTurn).modekeyr = s.modekeyr := by unfold State.irqTurn; split <;> simp
@[simp] theorem State.irqTurn_ctlr : (s.irqTurn).ctlr = s.ctlr := by unfold State.irqTurn; split <;> simp
@[simp] theorem State.irqTurn_addr : (s.irqTurn).addr = s.addr := by unfold State.irqTurn; split <;> simp
@[simp] theorem State.irqTurn_statr : (s.irqTurn).statr = s.statr := by unfold State.irqTurn; split <;> simp
@[simp] theorem State.irqTurn_cachectl : (s.irqTurn).cachectl = s.cachectl := by unfold State.irqTurn; split <;> simp
@[simp] theorem State.irqTurn_btn : (s.irqTurn).btn = s.btn := by unfold State.irqTurn; split <;> simp
@[simp] theorem State.irqTurn_cause : (s.irqTurn).cause = s.cause := by unfold State.irqTurn; split <;> simp
@[simp] theorem State.irqTurn_inbox : (s.irqTurn).inbox = s.inbox := by unfold State.irqTurn; split <;> simp
@[simp] theorem State.irqTurn_sched : (s.irqTurn).sched = s.sched := by unfold State.irqTurn; split <;> simp
@[simp] theorem State.irqTurn_dev : (s.irqTurn).dev = s.dev := by unfold State.irqTurn; split <;> simp
@[simp] theorem State.irqTurn_fctlStuck : (s.irqTurn).fctlStuck = s.fctlStuck := by unfold State.irqTurn; split <;> simp
@[simp] theorem State.irqTurn_draws : (s.irqTurn).draws = s.draws := by unfold State.irqTurn; split <;> simp

/-! ### `uartShift` -/

@[simp] theorem State.uartShift_cfg : (s.uartShift).cfg = s.cfg := by unfold State.uartShift; split <;> rfl
@[simp] theorem State.uartShift_op : (s.uartShift).op = s.op := by unfold State.uartShift; split <;> rfl
@[simp] theorem State.uartShift_a0 : (s.uartShift).a0 = s.a0 := by unfold State.uartShift; split <;> rfl
@[simp] theorem State.uartShift_a1 : (s.uartShift).a1 = s.a1 := by unfold State.uartShift; split <;> rfl
@[simp] theorem State.uartShift_src : (s.uartShift).src = s.src := by unfold State.uartShift; split <;> rfl
@[simp] theorem State.uartShift_res : (s.uartShift).res = s.res := by unfold State.uartShift; split <;> rfl
@[simp] theorem State.uartShift_busy : (s.uartShift).busy = s.busy := by unfold State.uartShift; split <;> rfl
@[simp] theorem State.uartShift_ill : (s.uartShift).ill = s.ill := by unfold State.uartShift; split <;> rfl
@[simp] theorem State.uartShift_seq : (s.uartShift).seq = s.seq := by unfold State.uartShift; split <;> rfl
@[simp] theorem State.uartShift_tmp : (s.uartShift).tmp = s.tmp := by unfold State.uartShift; split <;> rfl
@[simp] theorem State.uartShift_fas : (s.uartShift).fas = s.fas := by unfold State.uartShift; split <;> rfl
@[simp] theorem State.uartShift_win : (s.uartShift).win = s.win := by unfold State.uartShift; split <;> rfl
@[simp] theorem State.uartShift_rb : (s.uartShift).rb = s.rb := by unfold State.uartShift; split <;> rfl
@[simp] theorem State.uartShift_armed : (s.uartShift).armed = s.armed := by unfold State.uartShift; split <;> rfl
@[simp] theorem State.uartShift_bkp : (s.uartShift).bkp = s.bkp := by unfold State.uartShift; split <;> rfl
@[simp] theorem State.uartShift_flash : (s.uartShift).flash = s.flash := by unfold State.uartShift; split <;> rfl
@[simp] theorem State.uartShift_fc : (s.uartShift).fc = s.fc := by unfold State.uartShift; split <;> rfl
@[simp] theorem State.uartShift_keyr : (s.uartShift).keyr = s.keyr := by unfold State.uartShift; split <;> rfl
@[simp] theorem State.uartShift_modekeyr : (s.uartShift).modekeyr = s.modekeyr := by unfold State.uartShift; split <;> rfl
@[simp] theorem State.uartShift_ctlr : (s.uartShift).ctlr = s.ctlr := by unfold State.uartShift; split <;> rfl
@[simp] theorem State.uartShift_addr : (s.uartShift).addr = s.addr := by unfold State.uartShift; split <;> rfl
@[simp] theorem State.uartShift_statr : (s.uartShift).statr = s.statr := by unfold State.uartShift; split <;> rfl
@[simp] theorem State.uartShift_cachectl : (s.uartShift).cachectl = s.cachectl := by unfold State.uartShift; split <;> rfl
@[simp] theorem State.uartShift_tdr : (s.uartShift).tdr = s.tdr := by unfold State.uartShift; split <;> rfl
@[simp] theorem State.uartShift_line : (s.uartShift).line = s.line := by unfold State.uartShift; split <;> rfl
@[simp] theorem State.uartShift_btn : (s.uartShift).btn = s.btn := by unfold State.uartShift; split <;> rfl
@[simp] theorem State.uartShift_cause : (s.uartShift).cause = s.cause := by unfold State.uartShift; split <;> rfl
@[simp] theorem State.uartShift_inbox : (s.uartShift).inbox = s.inbox := by unfold State.uartShift; split <;> rfl
@[simp] theorem State.uartShift_sched : (s.uartShift).sched = s.sched := by unfold State.uartShift; split <;> rfl
@[simp] theorem State.uartShift_dev : (s.uartShift).dev = s.dev := by unfold State.uartShift; split <;> rfl
@[simp] theorem State.uartShift_fctlStuck : (s.uartShift).fctlStuck = s.fctlStuck := by unfold State.uartShift; split <;> rfl
@[simp] theorem State.uartShift_draws : (s.uartShift).draws = s.draws := by unfold State.uartShift; split <;> rfl

/-! ### `complete` -/

@[simp] theorem State.complete_cfg (pg wp : Bool) : (s.complete pg wp).cfg = s.cfg := by unfold State.complete; split <;> rfl
@[simp] theorem State.complete_op (pg wp : Bool) : (s.complete pg wp).op = s.op := by unfold State.complete; split <;> rfl
@[simp] theorem State.complete_a0 (pg wp : Bool) : (s.complete pg wp).a0 = s.a0 := by unfold State.complete; split <;> rfl
@[simp] theorem State.complete_a1 (pg wp : Bool) : (s.complete pg wp).a1 = s.a1 := by unfold State.complete; split <;> rfl
@[simp] theorem State.complete_src (pg wp : Bool) : (s.complete pg wp).src = s.src := by unfold State.complete; split <;> rfl
@[simp] theorem State.complete_res (pg wp : Bool) : (s.complete pg wp).res = s.res := by unfold State.complete; split <;> rfl
@[simp] theorem State.complete_busy (pg wp : Bool) : (s.complete pg wp).busy = s.busy := by unfold State.complete; split <;> rfl
@[simp] theorem State.complete_ill (pg wp : Bool) : (s.complete pg wp).ill = s.ill := by unfold State.complete; split <;> rfl
@[simp] theorem State.complete_seq (pg wp : Bool) : (s.complete pg wp).seq = s.seq := by unfold State.complete; split <;> rfl
@[simp] theorem State.complete_tmp (pg wp : Bool) : (s.complete pg wp).tmp = s.tmp := by unfold State.complete; split <;> rfl
@[simp] theorem State.complete_fas (pg wp : Bool) : (s.complete pg wp).fas = s.fas := by unfold State.complete; split <;> rfl
@[simp] theorem State.complete_win (pg wp : Bool) : (s.complete pg wp).win = s.win := by unfold State.complete; split <;> rfl
@[simp] theorem State.complete_rb (pg wp : Bool) : (s.complete pg wp).rb = s.rb := by unfold State.complete; split <;> rfl
@[simp] theorem State.complete_armed (pg wp : Bool) : (s.complete pg wp).armed = s.armed := by unfold State.complete; split <;> rfl
@[simp] theorem State.complete_bkp (pg wp : Bool) : (s.complete pg wp).bkp = s.bkp := by unfold State.complete; split <;> rfl
@[simp] theorem State.complete_keyr (pg wp : Bool) : (s.complete pg wp).keyr = s.keyr := by unfold State.complete; split <;> rfl
@[simp] theorem State.complete_modekeyr (pg wp : Bool) : (s.complete pg wp).modekeyr = s.modekeyr := by unfold State.complete; split <;> rfl
@[simp] theorem State.complete_ctlr (pg wp : Bool) : (s.complete pg wp).ctlr = s.ctlr := by unfold State.complete; split <;> rfl
@[simp] theorem State.complete_addr (pg wp : Bool) : (s.complete pg wp).addr = s.addr := by unfold State.complete; split <;> rfl
@[simp] theorem State.complete_cachectl (pg wp : Bool) : (s.complete pg wp).cachectl = s.cachectl := by unfold State.complete; split <;> rfl
@[simp] theorem State.complete_tdr (pg wp : Bool) : (s.complete pg wp).tdr = s.tdr := by unfold State.complete; split <;> rfl
@[simp] theorem State.complete_txe (pg wp : Bool) : (s.complete pg wp).txe = s.txe := by unfold State.complete; split <;> rfl
@[simp] theorem State.complete_line (pg wp : Bool) : (s.complete pg wp).line = s.line := by unfold State.complete; split <;> rfl
@[simp] theorem State.complete_btn (pg wp : Bool) : (s.complete pg wp).btn = s.btn := by unfold State.complete; split <;> rfl
@[simp] theorem State.complete_cause (pg wp : Bool) : (s.complete pg wp).cause = s.cause := by unfold State.complete; split <;> rfl
@[simp] theorem State.complete_inbox (pg wp : Bool) : (s.complete pg wp).inbox = s.inbox := by unfold State.complete; split <;> rfl
@[simp] theorem State.complete_sched (pg wp : Bool) : (s.complete pg wp).sched = s.sched := by unfold State.complete; split <;> rfl
@[simp] theorem State.complete_dev (pg wp : Bool) : (s.complete pg wp).dev = s.dev := by unfold State.complete; split <;> rfl
@[simp] theorem State.complete_fctlStuck (pg wp : Bool) : (s.complete pg wp).fctlStuck = s.fctlStuck := by unfold State.complete; split <;> rfl

/-! ### `completeFree` -/

@[simp] theorem State.completeFree_cfg : (s.completeFree).cfg = s.cfg := by simp [State.completeFree]
@[simp] theorem State.completeFree_op : (s.completeFree).op = s.op := by simp [State.completeFree]
@[simp] theorem State.completeFree_a0 : (s.completeFree).a0 = s.a0 := by simp [State.completeFree]
@[simp] theorem State.completeFree_a1 : (s.completeFree).a1 = s.a1 := by simp [State.completeFree]
@[simp] theorem State.completeFree_src : (s.completeFree).src = s.src := by simp [State.completeFree]
@[simp] theorem State.completeFree_res : (s.completeFree).res = s.res := by simp [State.completeFree]
@[simp] theorem State.completeFree_busy : (s.completeFree).busy = s.busy := by simp [State.completeFree]
@[simp] theorem State.completeFree_ill : (s.completeFree).ill = s.ill := by simp [State.completeFree]
@[simp] theorem State.completeFree_seq : (s.completeFree).seq = s.seq := by simp [State.completeFree]
@[simp] theorem State.completeFree_tmp : (s.completeFree).tmp = s.tmp := by simp [State.completeFree]
@[simp] theorem State.completeFree_fas : (s.completeFree).fas = s.fas := by simp [State.completeFree]
@[simp] theorem State.completeFree_win : (s.completeFree).win = s.win := by simp [State.completeFree]
@[simp] theorem State.completeFree_rb : (s.completeFree).rb = s.rb := by simp [State.completeFree]
@[simp] theorem State.completeFree_armed : (s.completeFree).armed = s.armed := by simp [State.completeFree]
@[simp] theorem State.completeFree_bkp : (s.completeFree).bkp = s.bkp := by simp [State.completeFree]
@[simp] theorem State.completeFree_keyr : (s.completeFree).keyr = s.keyr := by simp [State.completeFree]
@[simp] theorem State.completeFree_modekeyr : (s.completeFree).modekeyr = s.modekeyr := by simp [State.completeFree]
@[simp] theorem State.completeFree_ctlr : (s.completeFree).ctlr = s.ctlr := by simp [State.completeFree]
@[simp] theorem State.completeFree_addr : (s.completeFree).addr = s.addr := by simp [State.completeFree]
@[simp] theorem State.completeFree_cachectl : (s.completeFree).cachectl = s.cachectl := by simp [State.completeFree]
@[simp] theorem State.completeFree_tdr : (s.completeFree).tdr = s.tdr := by simp [State.completeFree]
@[simp] theorem State.completeFree_txe : (s.completeFree).txe = s.txe := by simp [State.completeFree]
@[simp] theorem State.completeFree_line : (s.completeFree).line = s.line := by simp [State.completeFree]
@[simp] theorem State.completeFree_btn : (s.completeFree).btn = s.btn := by simp [State.completeFree]
@[simp] theorem State.completeFree_cause : (s.completeFree).cause = s.cause := by simp [State.completeFree]
@[simp] theorem State.completeFree_inbox : (s.completeFree).inbox = s.inbox := by simp [State.completeFree]
@[simp] theorem State.completeFree_sched : (s.completeFree).sched = s.sched := by simp [State.completeFree]
@[simp] theorem State.completeFree_dev : (s.completeFree).dev = s.dev := by simp [State.completeFree]
@[simp] theorem State.completeFree_fctlStuck : (s.completeFree).fctlStuck = s.fctlStuck := by simp [State.completeFree]

/-! ### `fctlTurn` -/

@[simp] theorem State.fctlTurn_cfg (pg wp : Bool) : (s.fctlTurn pg wp).cfg = s.cfg := by unfold State.fctlTurn; split <;> simp
@[simp] theorem State.fctlTurn_op (pg wp : Bool) : (s.fctlTurn pg wp).op = s.op := by unfold State.fctlTurn; split <;> simp
@[simp] theorem State.fctlTurn_a0 (pg wp : Bool) : (s.fctlTurn pg wp).a0 = s.a0 := by unfold State.fctlTurn; split <;> simp
@[simp] theorem State.fctlTurn_a1 (pg wp : Bool) : (s.fctlTurn pg wp).a1 = s.a1 := by unfold State.fctlTurn; split <;> simp
@[simp] theorem State.fctlTurn_src (pg wp : Bool) : (s.fctlTurn pg wp).src = s.src := by unfold State.fctlTurn; split <;> simp
@[simp] theorem State.fctlTurn_res (pg wp : Bool) : (s.fctlTurn pg wp).res = s.res := by unfold State.fctlTurn; split <;> simp
@[simp] theorem State.fctlTurn_busy (pg wp : Bool) : (s.fctlTurn pg wp).busy = s.busy := by unfold State.fctlTurn; split <;> simp
@[simp] theorem State.fctlTurn_ill (pg wp : Bool) : (s.fctlTurn pg wp).ill = s.ill := by unfold State.fctlTurn; split <;> simp
@[simp] theorem State.fctlTurn_seq (pg wp : Bool) : (s.fctlTurn pg wp).seq = s.seq := by unfold State.fctlTurn; split <;> simp
@[simp] theorem State.fctlTurn_tmp (pg wp : Bool) : (s.fctlTurn pg wp).tmp = s.tmp := by unfold State.fctlTurn; split <;> simp
@[simp] theorem State.fctlTurn_fas (pg wp : Bool) : (s.fctlTurn pg wp).fas = s.fas := by unfold State.fctlTurn; split <;> simp
@[simp] theorem State.fctlTurn_win (pg wp : Bool) : (s.fctlTurn pg wp).win = s.win := by unfold State.fctlTurn; split <;> simp
@[simp] theorem State.fctlTurn_rb (pg wp : Bool) : (s.fctlTurn pg wp).rb = s.rb := by unfold State.fctlTurn; split <;> simp
@[simp] theorem State.fctlTurn_armed (pg wp : Bool) : (s.fctlTurn pg wp).armed = s.armed := by unfold State.fctlTurn; split <;> simp
@[simp] theorem State.fctlTurn_bkp (pg wp : Bool) : (s.fctlTurn pg wp).bkp = s.bkp := by unfold State.fctlTurn; split <;> simp
@[simp] theorem State.fctlTurn_keyr (pg wp : Bool) : (s.fctlTurn pg wp).keyr = s.keyr := by unfold State.fctlTurn; split <;> simp
@[simp] theorem State.fctlTurn_modekeyr (pg wp : Bool) : (s.fctlTurn pg wp).modekeyr = s.modekeyr := by unfold State.fctlTurn; split <;> simp
@[simp] theorem State.fctlTurn_ctlr (pg wp : Bool) : (s.fctlTurn pg wp).ctlr = s.ctlr := by unfold State.fctlTurn; split <;> simp
@[simp] theorem State.fctlTurn_addr (pg wp : Bool) : (s.fctlTurn pg wp).addr = s.addr := by unfold State.fctlTurn; split <;> simp
@[simp] theorem State.fctlTurn_cachectl (pg wp : Bool) : (s.fctlTurn pg wp).cachectl = s.cachectl := by unfold State.fctlTurn; split <;> simp
@[simp] theorem State.fctlTurn_tdr (pg wp : Bool) : (s.fctlTurn pg wp).tdr = s.tdr := by unfold State.fctlTurn; split <;> simp
@[simp] theorem State.fctlTurn_txe (pg wp : Bool) : (s.fctlTurn pg wp).txe = s.txe := by unfold State.fctlTurn; split <;> simp
@[simp] theorem State.fctlTurn_line (pg wp : Bool) : (s.fctlTurn pg wp).line = s.line := by unfold State.fctlTurn; split <;> simp
@[simp] theorem State.fctlTurn_btn (pg wp : Bool) : (s.fctlTurn pg wp).btn = s.btn := by unfold State.fctlTurn; split <;> simp
@[simp] theorem State.fctlTurn_cause (pg wp : Bool) : (s.fctlTurn pg wp).cause = s.cause := by unfold State.fctlTurn; split <;> simp
@[simp] theorem State.fctlTurn_inbox (pg wp : Bool) : (s.fctlTurn pg wp).inbox = s.inbox := by unfold State.fctlTurn; split <;> simp
@[simp] theorem State.fctlTurn_sched (pg wp : Bool) : (s.fctlTurn pg wp).sched = s.sched := by unfold State.fctlTurn; split <;> simp
@[simp] theorem State.fctlTurn_dev (pg wp : Bool) : (s.fctlTurn pg wp).dev = s.dev := by unfold State.fctlTurn; split <;> simp
@[simp] theorem State.fctlTurn_fctlStuck (pg wp : Bool) : (s.fctlTurn pg wp).fctlStuck = s.fctlStuck := by unfold State.fctlTurn; split <;> simp

/-! ### `coreReset` -/

@[simp] theorem State.coreReset_cfg : (s.coreReset).cfg = s.cfg := rfl
@[simp] theorem State.coreReset_res : (s.coreReset).res = 0 := rfl
@[simp] theorem State.coreReset_busy : (s.coreReset).busy = false := rfl
@[simp] theorem State.coreReset_ill : (s.coreReset).ill = false := rfl
@[simp] theorem State.coreReset_seq : (s.coreReset).seq = .idle := rfl
@[simp] theorem State.coreReset_tmp : (s.coreReset).tmp = Tmp.init := rfl
@[simp] theorem State.coreReset_fas : (s.coreReset).fas = AddressSpace.latch s.cfg := rfl
@[simp] theorem State.coreReset_win : (s.coreReset).win = { start := 0, endAddr := 0 } := rfl
@[simp] theorem State.coreReset_armed : (s.coreReset).armed = false := rfl
@[simp] theorem State.coreReset_bkp : (s.coreReset).bkp = s.bkp := rfl
@[simp] theorem State.coreReset_txe : (s.coreReset).txe = true := rfl
@[simp] theorem State.coreReset_line : (s.coreReset).line = [] := rfl
@[simp] theorem State.coreReset_btn : (s.coreReset).btn = s.btn := rfl
@[simp] theorem State.coreReset_cause : (s.coreReset).cause = none := rfl
@[simp] theorem State.coreReset_inbox : (s.coreReset).inbox = s.inbox := rfl
@[simp] theorem State.coreReset_sched : (s.coreReset).sched = s.sched := rfl
@[simp] theorem State.coreReset_dev : (s.coreReset).dev = s.dev := rfl
@[simp] theorem State.coreReset_fctlStuck : (s.coreReset).fctlStuck = false := rfl

end Sys2Proof.Machine
end

