-- ==== Sys2Proof/Laws/Base.lean ====
section
/-!
SUPPORT. The part of the invariant that holds at every micro-step, and that each turn of an agent keeps it; what a turn
does to the control part.
-/

namespace Sys2Proof.Machine

/-- The invariant without the sequencer. -/
structure State.Base (s : State) : Prop where
  cfg : s.cfg.wf = true
  fas : s.fas = AddressSpace.latch s.cfg
  ring : s.ringOk = true
  flash : s.flashOk = true
  controller : s.controllerOk = true

theorem State.Inv.base {s : State} (h : s.Inv) : s.Base :=
  { cfg := h.1, fas := h.2.1, ring := h.2.2.1, flash := h.2.2.2.1, controller := h.2.2.2.2.1 }

/-! ## The pieces, spelt out -/

theorem State.ringOk_iff (s : State) :
    s.ringOk = true ↔ s.rb.buf.length = s.cfg.ringN ∧ s.rb.rd < s.cfg.ringN ∧ s.rb.wr < s.cfg.ringN := by
  simp [State.ringOk, and_assoc]

theorem State.flashOk_iff (s : State) :
    s.flashOk = true ↔ Memory.wf s.flash = true ∧
      ∀ c ∈ s.flash, s.cfg.flashOrigin.toNat ≤ c.1 ∧ c.1 < s.fas.endAddr.toNat := by
  simp [State.flashOk]

theorem inFlash_iff (cfg : Config) (fas : AddressSpace) (a : Word) (n : Nat) :
    inFlash cfg fas a n = true ↔ cfg.flashOrigin.toNat ≤ a.toNat ∧ a.toNat + n ≤ fas.endAddr.toNat := by
  simp [inFlash]

theorem State.inArray_eq (s : State) (a : Word) (n : Nat) : s.inArray a n = inFlash s.cfg s.fas a n := rfl

/-- What `controllerOk` says beside the pending cycle. -/
structure ControllerFacts (s : State) : Prop where
  busy_iff : s.fc.busy = true ↔ s.fc.pending ≠ .none
  pending : s.pendingOk = true
  keyseq : s.fc.keyseq ≤ 4
  pbuf : s.fc.pbuf.length = 32
  stage : s.fc.stage.length ≤ Config.batchWords
  inG : s.cfg.variant = .g → s.fc.stale = false ∧ s.ctlr.per = false ∧ s.ctlr.ppg = false ∧ s.fc.stage = [] ∧
    s.win.endAddr.toNat % s.cfg.pageSize.toNat = 0
  inA : s.cfg.variant = .a → s.ctlr.lock = s.fc.locked ∧ s.win = { start := 0, endAddr := 0 }

theorem State.controllerOk_iff (s : State) : s.controllerOk = true ↔ ControllerFacts s := by
  have hb : (s.fc.busy == (s.fc.pending != .none)) = true ↔ (s.fc.busy = true ↔ s.fc.pending ≠ .none) := by
    rw [beq_iff_eq]
    constructor
    · intro h; rw [h, bne_iff_ne]
    · intro h
      rw [Bool.eq_iff_iff, h, bne_iff_ne]
  constructor
  · intro h
    simp only [State.controllerOk, Bool.and_eq_true, decide_eq_true_eq, hb] at h
    obtain ⟨⟨⟨⟨⟨h1, h2⟩, h3⟩, h4⟩, h5⟩, h6⟩ := h
    refine { busy_iff := h1, pending := h2, keyseq := h3, pbuf := by simpa using h4, stage := h5, inG := ?_, inA := ?_ }
    · intro hv
      rw [hv] at h6
      simpa [and_assoc] using h6
    · intro hv
      rw [hv] at h6
      simpa using h6
  · intro h
    simp only [State.controllerOk, Bool.and_eq_true, decide_eq_true_eq, hb]
    refine ⟨⟨⟨⟨⟨h.busy_iff, h.pending⟩, h.keyseq⟩, by simpa using h.pbuf⟩, h.stage⟩, ?_⟩
    cases hv : s.cfg.variant with
    | g => simpa [and_assoc] using h.inG hv
    | a => simpa using h.inA hv

theorem State.Base.facts {s : State} (h : s.Base) : ControllerFacts s := (s.controllerOk_iff).mp h.controller

theorem State.Base.geometry {s : State} (h : s.Base) : Geometry s.cfg := Config.geometry h.cfg

theorem State.Base.notBusy_iff {s : State} (h : s.Base) : s.fc.busy = false ↔ s.fc.pending = .none := by
  rw [← Bool.not_eq_true, h.facts.busy_iff, not_not]

/-- Two states that agree on what the base invariant reads. -/
theorem State.Base.congr {s t : State} (h : s.Base) (hcfg : t.cfg = s.cfg) (hfas : t.fas = s.fas)
    (hbuf : t.rb.buf.length = s.rb.buf.length) (hrd : t.rb.rd < s.cfg.ringN) (hwr : t.rb.wr < s.cfg.ringN)
    (hflash : t.flash = s.flash) (hfc : t.fc = s.fc) (hctlr : t.ctlr = s.ctlr) (hwin : t.win = s.win) : t.Base where
  cfg := by rw [hcfg]; exact h.cfg
  fas := by rw [hfas, hcfg]; exact h.fas
  ring := by
    rw [State.ringOk_iff, hbuf, hcfg]
    exact ⟨((s.ringOk_iff).mp h.ring).1, hrd, hwr⟩
  flash := by
    have := h.flash
    simpa only [State.flashOk, hflash, hcfg, hfas] using this
  controller := by
    have := h.controller
    simpa only [State.controllerOk, State.pendingOk, hfc, hcfg, hfas, hctlr, hwin] using this

theorem ringNext_lt {n i : Nat} (hn : 0 < n) : ringNext n i < n := by
  unfold ringNext
  split <;> omega

theorem State.Base.ringN_pos {s : State} (h : s.Base) : 0 < s.cfg.ringN := by
  have := h.geometry.ring
  omega

/-- The transmit side of the base invariant may change as long as the indices stay in range. -/
theorem State.Base.txDrain {s : State} (h : s.Base) : s.txeDrain.Base := by
  have hr := (s.ringOk_iff).mp h.ring
  unfold State.txeDrain
  split
  · exact h.congr rfl rfl rfl hr.2.1 hr.2.2 rfl rfl rfl rfl
  · exact h.congr rfl rfl rfl (ringNext_lt h.ringN_pos) hr.2.2 rfl rfl rfl rfl

theorem State.Base.irqTurn {s : State} (h : s.Base) : s.irqTurn.Base := by
  unfold State.irqTurn
  split
  · exact h.txDrain
  · exact h

theorem State.Base.uartShift {s : State} (h : s.Base) : s.uartShift.Base := by
  have hr := (s.ringOk_iff).mp h.ring
  apply h.congr <;> simp [hr.2.1, hr.2.2]

/-! ## The completion of a cycle -/

theorem loadStaged_length (p : List Word) (st : List (Word × Word)) : (loadStaged p st).length = p.length := by
  induction st generalizing p with
  | nil => rfl
  | cons c r ih => rw [loadStaged, ih, List.length_set]

theorem freeWords_length (k n : Nat) : (freeWords k n).length = n := by
  induction n generalizing k with
  | zero => rfl
  | succ n ih => rw [freeWords, List.length_cons, ih]

/-- What a completion does to the control part. -/
theorem State.ctl_complete (pg wp : Bool) (s : State) : (s.complete pg wp).ctl = s.ctl.settle s.cfg.variant := by
  unfold State.complete Ctl.settle
  cases hp : s.fc.pending with
  | none => simp [State.ctl, hp, Controller.rest]
  | erase p => simp [State.ctl, hp, State.completeErase, Controller.rest, State.staleAfter]
  | progHalf a v => simp [State.ctl, hp, State.completeHalf, Controller.rest]
  | bufReset =>
    cases hl : s.fc.locked <;> simp [State.ctl, hp, State.completeBufReset, Controller.rest, hl]
  | bufLoad =>
    cases hl : s.fc.locked <;> simp [State.ctl, hp, State.completeBufLoad, Controller.rest, hl]
  | program p => simp [State.ctl, hp, State.completeProgram, Controller.rest]

theorem State.complete_fcBusy (pg wp : Bool) (s : State) : (s.complete pg wp).fc.busy = false := by
  unfold State.complete
  cases s.fc.pending with
  | none => rfl
  | erase p => rfl
  | progHalf a v => rfl
  | bufReset => simp only [State.completeBufReset]; cases s.fc.locked <;> rfl
  | bufLoad => simp only [State.completeBufLoad]; cases s.fc.locked <;> rfl
  | program p => rfl

theorem State.complete_pending (pg wp : Bool) (s : State) : (s.complete pg wp).fc.pending = .none := by
  have h := congrArg Ctl.pending (State.ctl_complete pg wp s)
  rw [show (s.complete pg wp).ctl.pending = (s.complete pg wp).fc.pending from rfl] at h
  rw [h]
  simp only [Ctl.settle]
  split <;> first | assumption | rfl

theorem State.complete_locked (pg wp : Bool) (s : State) : (s.complete pg wp).fc.locked = s.fc.locked := by
  have h := congrArg Ctl.locked (State.ctl_complete pg wp s)
  rw [show (s.complete pg wp).ctl.locked = (s.complete pg wp).fc.locked from rfl] at h
  rw [h]
  simp only [Ctl.settle]
  split <;> rfl

theorem State.complete_keyseq (pg wp : Bool) (s : State) : (s.complete pg wp).fc.keyseq = s.fc.keyseq := by
  have h := congrArg Ctl.keyseq (State.ctl_complete pg wp s)
  rw [show (s.complete pg wp).ctl.keyseq = (s.complete pg wp).fc.keyseq from rfl] at h
  rw [h]
  simp only [Ctl.settle]
  split <;> rfl

/-- The bytes a completion changes are those of the pending unit. -/
theorem State.complete_flash_mem {pg wp : Bool} {s : State} (hb : s.fc.pbuf.length = 32) {c : Host.Cell}
    (h : c ∈ (s.complete pg wp).flash) :
    c ∈ s.flash ∨ s.pendingUnit.1 ≤ c.1 ∧ c.1 < s.pendingUnit.1 + s.pendingUnit.2 := by
  unfold State.complete at h
  unfold State.pendingUnit
  cases hp : s.fc.pending with
  | none => rw [hp] at h; exact .inl h
  | erase p =>
    rw [hp] at h
    simp only [State.completeErase] at h
    split at h
    · exact .inl h
    · exact .inl (Memory.mem_erase h)
  | progHalf a v =>
    rw [hp] at h
    simp only [State.completeHalf] at h
    split at h
    · exact .inl h
    · exact Memory.mem_writeHalf h
  | bufReset => rw [hp] at h; exact .inl h
  | bufLoad => rw [hp] at h; exact .inl h
  | program p =>
    rw [hp] at h
    simp only [State.completeProgram] at h
    split at h
    · exact .inl h
    · have := Memory.mem_commitWords h
      rw [hb] at this
      exact this

theorem State.complete_flash_wf {pg wp : Bool} {s : State} (h : Memory.wf s.flash = true) :
    Memory.wf (s.complete pg wp).flash = true := by
  unfold State.complete
  cases s.fc.pending with
  | none => exact h
  | erase p =>
    simp only [State.completeErase]
    split
    · exact h
    · exact Memory.wf_erase _ _ h
  | progHalf a v =>
    simp only [State.completeHalf]
    split
    · exact h
    · exact Memory.wf_writeHalf _ _ h
  | bufReset => exact h
  | bufLoad => exact h
  | program p =>
    simp only [State.completeProgram]
    split
    · exact h
    · exact Memory.wf_commitWords _ _ _ h

/-- The pending unit lies in the array. -/
theorem State.Base.pendingUnit_inArray {s : State} (h : s.Base) {a : Nat} (h1 : s.pendingUnit.1 ≤ a)
    (h2 : a < s.pendingUnit.1 + s.pendingUnit.2) : s.cfg.flashOrigin.toNat ≤ a ∧ a < s.fas.endAddr.toNat := by
  have hp := h.facts.pending
  unfold State.pendingOk at hp
  unfold State.pendingUnit at h1 h2
  cases hc : s.fc.pending with
  | none => simp only [hc] at h1 h2; omega
  | erase p => simp only [hc, inFlash_iff] at hp h1 h2; omega
  | progHalf a v => simp only [hc, Bool.and_eq_true, inFlash_iff] at hp h1 h2; omega
  | bufReset => simp only [hc] at h1 h2; omega
  | bufLoad => simp only [hc] at h1 h2; omega
  | program p => simp only [hc, Bool.and_eq_true, inFlash_iff, Config.pageBytes] at hp h1 h2; omega

theorem State.complete_pbuf {pg wp : Bool} {s : State} (h : s.fc.pbuf.length = 32) :
    (s.complete pg wp).fc.pbuf.length = 32 := by
  unfold State.complete
  cases s.fc.pending with
  | none => exact h
  | erase p => exact h
  | progHalf a v => exact h
  | bufReset => simp only [State.completeBufReset]; split <;> simp [Controller.rest, h]
  | bufLoad => simp only [State.completeBufLoad]; split <;> simp [Controller.rest, h, loadStaged_length]
  | program p => simp only [State.completeProgram]; split <;> simp [h, freeWords_length]

theorem State.complete_stage {pg wp : Bool} {s : State} :
    (s.complete pg wp).fc.stage = s.fc.stage ∨ (s.complete pg wp).fc.stage = [] := by
  unfold State.complete
  cases s.fc.pending with
  | none => exact .inl rfl
  | erase p => exact .inl rfl
  | progHalf a v => exact .inl rfl
  | bufReset => simp only [State.completeBufReset]; split <;> simp [Controller.rest]
  | bufLoad => simp only [State.completeBufLoad]; split <;> simp [Controller.rest]
  | program p => exact .inl rfl

/-- A completion in variant G leaves the read cache fresh. -/
theorem State.complete_stale_g {pg wp : Bool} {s : State} (h : s.Base) (hv : s.cfg.variant = .g) :
    (s.complete pg wp).fc.stale = false := by
  have hs := congrArg Ctl.stale (State.ctl_complete pg wp s)
  rw [show (s.complete pg wp).ctl.stale = (s.complete pg wp).fc.stale from rfl] at hs
  rw [hs]
  have hp := h.facts.pending
  have hst := (h.facts.inG hv).1
  unfold State.pendingOk at hp
  rw [hv] at hp ⊢
  simp only [Ctl.settle, State.ctl]
  cases hc : s.fc.pending <;> simp_all

/-- A completion keeps the base invariant. -/
theorem State.Base.complete {s : State} (h : s.Base) (pg wp : Bool) : (s.complete pg wp).Base := by
  have hf := h.facts
  have hfl := (s.flashOk_iff).mp h.flash
  refine { cfg := by simpa using h.cfg, fas := by simpa using h.fas, ring := ?_, flash := ?_, controller := ?_ }
  · have := h.ring
    simpa only [State.ringOk, State.complete_rb, State.complete_cfg] using this
  · rw [State.flashOk_iff]
    refine ⟨State.complete_flash_wf hfl.1, fun c hc => ?_⟩
    rw [State.complete_cfg, State.complete_fas]
    rcases State.complete_flash_mem hf.pbuf hc with hc | hc
    · exact hfl.2 c hc
    · exact h.pendingUnit_inArray hc.1 hc.2
  · rw [State.controllerOk_iff]
    refine { busy_iff := by simp [State.complete_fcBusy, State.complete_pending],
             pending := by simp [State.pendingOk, State.complete_pending],
             keyseq := by rw [State.complete_keyseq]; exact hf.keyseq, pbuf := State.complete_pbuf hf.pbuf,
             stage := ?_, inG := ?_, inA := ?_ }
    · rcases State.complete_stage (pg := pg) (wp := wp) (s := s) with h1 | h1
      · rw [h1]; exact hf.stage
      · rw [h1]; simp
    · rw [State.complete_cfg, State.complete_ctlr]
      intro hv
      have hg := hf.inG hv
      rw [State.complete_win]
      refine ⟨State.complete_stale_g h hv, hg.2.1, hg.2.2.1, ?_, hg.2.2.2.2⟩
      rcases State.complete_stage (pg := pg) (wp := wp) (s := s) with h1 | h1
      · rw [h1]; exact hg.2.2.2.1
      · exact h1
    · rw [State.complete_cfg, State.complete_ctlr, State.complete_locked, State.complete_win]
      exact hf.inA

theorem State.Base.completeFree {s : State} (h : s.Base) : s.completeFree.Base := h.complete _ _

theorem State.Base.fctlTurn {s : State} (h : s.Base) (pg wp : Bool) : (s.fctlTurn pg wp).Base := by
  unfold State.fctlTurn
  split
  · exact h.complete pg wp
  · exact h

theorem State.Base.setSched {s : State} (h : s.Base) (r : List Turn) : ({ s with sched := r } : State).Base :=
  ⟨h.cfg, h.fas, h.ring, h.flash, h.controller⟩

theorem State.Base.setSeq {s : State} (h : s.Base) (q : SeqPos) : ({ s with seq := q } : State).Base :=
  ⟨h.cfg, h.fas, h.ring, h.flash, h.controller⟩

/-! ## Reset -/

/-- A reset of a state with a sound configuration gives a sound idle state (R240, R241). -/
theorem State.Base.inv_coreReset {s : State} (h : s.Base) : s.coreReset.Inv := by
  have hfl := (s.flashOk_iff).mp h.flash
  refine ⟨h.cfg, rfl, ?_, ?_, ?_, rfl, rfl⟩
  · rw [State.ringOk_iff]
    have := h.ringN_pos
    simp [State.coreReset, State.resetOf, this]
  · rw [State.flashOk_iff]
    refine ⟨Memory.wf_fillFree _ _ _ hfl.1, fun c hc => ?_⟩
    have he : s.coreReset.fas.endAddr.toNat = s.fas.endAddr.toNat := by rw [h.fas]; rfl
    rw [he, State.coreReset_cfg]
    rcases Memory.mem_fillFree hc with hc | hc
    · exact hfl.2 c hc
    · exact h.pendingUnit_inArray hc.1 hc.2
  · rw [State.controllerOk_iff]
    refine { busy_iff := by simp [State.coreReset, State.resetOf], pending := rfl, keyseq := Nat.zero_le _,
             pbuf := by simp [State.coreReset, State.resetOf], stage := Nat.zero_le _,
             inG := fun _ => ⟨rfl, rfl, rfl, rfl, Nat.zero_mod _⟩, inA := fun _ => ⟨rfl, rfl⟩ }

end Sys2Proof.Machine
end

