-- ==== Sys2Proof/Laws/Await.lean ====
section
/-!
SUPPORT. The wait before a line: what every turn keeps the whole wait keeps (`await_keeps`), and what the wait of an
uninterrupted operation leads to (`await_ready`).
-/

namespace Sys2Proof.Machine

/-- What a predicate must survive to survive a wait. -/
structure KeptByTurns (P : State → Prop) : Prop where
  sched : ∀ s r, P s → P { s with sched := r }
  irq : ∀ s, P s → P s.irqTurn
  uart : ∀ s, P s → P s.uartShift
  fctl : ∀ pg wp s, P s → P (s.fctlTurn pg wp)
  pin : ∀ b s, P s → P { s with btn := b }
  stick : ∀ s, P s → P { s with fctlStuck := true }
  free : ∀ s, P s → s.fc.busy = true → P s.completeFree

/-- How a wait can end, with what holds then. -/
def Awaited.Sat (l : Line) (P : State → Prop) : Awaited → Prop
  | .ready t => P t ∧ lineEnabled l t = true
  | .ended t => P t ∨ ∃ u, P u ∧ t = u.coreReset
  | .refused r => r = .opWrittenWhileBusy

theorem lineEnabled_completeFree (l : Line) (s : State) : lineEnabled l s.completeFree = true := by
  simp [lineEnabled, State.statrBsy, State.completeFree, State.complete_fcBusy]

theorem lineEnabled_false {l : Line} {s : State} (h : ¬ lineEnabled l s = true) : s.fc.busy = true := by
  simp only [lineEnabled, State.statrBsy, Bool.not_eq_true', Bool.and_eq_false_iff, not_or, Bool.not_eq_false] at h
  exact h.2

/-- A wait keeps what the turns keep; a turn of reset ends it in the reset state. -/
theorem await_keeps {P : State → Prop} (hP : KeptByTurns P) (l : Line) (sched : List Turn) (s : State) (h : P s) :
    (await l sched s).Sat l P := by
  induction sched generalizing s with
  | nil =>
    rw [await]
    split
    · exact ⟨h, ‹_›⟩
    · rename_i hl
      split
      · exact .inl h
      · exact ⟨hP.free s h (lineEnabled_false hl), lineEnabled_completeFree l s⟩
  | cons t r ih =>
    cases t with
    | seq =>
      rw [await]
      split
      · exact ⟨hP.sched s r h, ‹_›⟩
      · exact ih _ (hP.sched s r h)
    | irq => exact ih _ (hP.irq _ (hP.sched s r h))
    | uart => exact ih _ (hP.uart _ (hP.sched s r h))
    | fctl pg wp => exact ih _ (hP.fctl pg wp _ (hP.sched s r h))
    | pin b => exact ih _ (hP.pin b _ (hP.sched s r h))
    | host =>
      rw [await]
      split
      · exact ih _ (hP.sched s r h)
      · rfl
    | reset => exact .inr ⟨_, hP.sched s r h, rfl⟩
    | stick => exact ih _ (hP.stick _ (hP.sched s r h))
    | yield => exact .inl (hP.sched s r h)

/-! ## Uninterrupted operations -/

theorem State.uninterrupted_iff (s : State) :
    s.uninterrupted = true ↔ (∀ t ∈ s.sched, t.quiet = true) ∧ s.fctlStuck = false := by
  simp [State.uninterrupted]

/-- What a predicate must survive to survive the wait of an uninterrupted operation. -/
structure KeptByQuiet (P : State → Prop) : Prop where
  sched : ∀ s r, P s → P { s with sched := r }
  irq : ∀ s, P s → P s.irqTurn
  uart : ∀ s, P s → P s.uartShift
  pin : ∀ b s, P s → P { s with btn := b }
  complete : ∀ pg wp s, P s → s.fc.busy = true → P (s.complete pg wp)

theorem KeptByQuiet.fctl {P : State → Prop} (hP : KeptByQuiet P) (pg wp : Bool) (s : State) (h : P s) :
    P (s.fctlTurn pg wp) := by
  unfold State.fctlTurn
  split
  · rename_i hb
    exact hP.complete pg wp s h (Bool.and_elim_left hb)
  · exact h

/-- The wait of an uninterrupted operation ends at the line. -/
theorem await_ready {P : State → Prop} (hP : KeptByQuiet P) (l : Line) (sched : List Turn) (s : State) (h : P s)
    (hq : ∀ t ∈ sched, t.quiet = true) (hs : s.sched = sched) (hk : s.fctlStuck = false) :
    ∃ t, await l sched s = .ready t ∧ P t ∧ lineEnabled l t = true ∧ t.uninterrupted = true ∧
      ∀ x ∈ t.sched, x ∈ sched := by
  induction sched generalizing s with
  | nil =>
    rw [await]
    split
    · exact ⟨s, rfl, h, ‹_›, by simp [State.uninterrupted, hs, hk], by simp [hs]⟩
    · rename_i hl
      rw [if_neg (by simp [hk])]
      exact ⟨_, rfl, hP.complete _ _ s h (lineEnabled_false hl), lineEnabled_completeFree l s,
        by simp [State.uninterrupted, hs, hk], by simp [hs]⟩
  | cons t r ih =>
    have hr : ∀ x ∈ r, x.quiet = true := fun x hx => hq x (List.mem_cons_of_mem _ hx)
    have next : ∀ u : State, P u → u.sched = r → u.fctlStuck = false →
        ∃ t', await l r u = .ready t' ∧ P t' ∧ lineEnabled l t' = true ∧ t'.uninterrupted = true ∧
          ∀ x ∈ t'.sched, x ∈ t :: r := fun u hu hus huk => by
      obtain ⟨t', h1, h2, h3, h4, h5⟩ := ih u hu hr hus huk
      exact ⟨t', h1, h2, h3, h4, fun x hx => List.mem_cons_of_mem _ (h5 x hx)⟩
    cases t with
    | seq =>
      rw [await]
      split
      · exact ⟨_, rfl, hP.sched s r h, ‹_›, by simpa [State.uninterrupted, hk] using hr,
          fun x hx => List.mem_cons_of_mem _ hx⟩
      · exact next _ (hP.sched s r h) rfl hk
    | irq => exact next _ (hP.irq _ (hP.sched s r h)) (by simp [State.turn]) (by simp [State.turn, hk])
    | uart => exact next _ (hP.uart _ (hP.sched s r h)) (by simp [State.turn]) (by simp [State.turn, hk])
    | fctl pg wp =>
      exact next _ (hP.fctl pg wp _ (hP.sched s r h)) (by simp [State.turn]) (by simp [State.turn, hk])
    | pin b => exact next _ (hP.pin b _ (hP.sched s r h)) rfl hk
    | host => exact absurd (hq _ List.mem_cons_self) (by simp [Turn.quiet])
    | reset => exact absurd (hq _ List.mem_cons_self) (by simp [Turn.quiet])
    | stick => exact absurd (hq _ List.mem_cons_self) (by simp [Turn.quiet])
    | yield => exact absurd (hq _ List.mem_cons_self) (by simp [Turn.quiet])

end Sys2Proof.Machine
end

