-- ==== Sys2Proof/Laws/Control.lean ====
section
/-!
SUPPORT. What one line does to the control part of the state, and that a line whose demand is met keeps the base
invariant and neither faults nor refuses (`runLine_ok`).
-/

namespace Sys2Proof.Machine

/-! ## The control part and `settle` -/

@[simp] theorem State.ctl_pending (s : State) : s.ctl.pending = s.fc.pending := rfl
@[simp] theorem State.ctl_per (s : State) : s.ctl.per = s.ctlr.per := rfl
@[simp] theorem State.ctl_ppg (s : State) : s.ctl.ppg = s.ctlr.ppg := rfl
@[simp] theorem State.ctl_locked (s : State) : s.ctl.locked = s.fc.locked := rfl
@[simp] theorem State.ctl_stale (s : State) : s.ctl.stale = s.fc.stale := rfl
@[simp] theorem State.ctl_keyseq (s : State) : s.ctl.keyseq = s.fc.keyseq := rfl
@[simp] theorem State.ctl_addr (s : State) : s.ctl.addr = s.addr := rfl
@[simp] theorem State.ctl_staged (s : State) : s.ctl.staged = s.fc.stage.length := rfl

theorem Ctl.settle_of_none {c : Ctl} (v : Variant) (h : c.pending = .none) : c.settle v = c := by
  simp [Ctl.settle, h]

@[simp] theorem Ctl.settle_pending (c : Ctl) (v : Variant) : (c.settle v).pending = .none := by
  simp only [Ctl.settle]
  split <;> first | assumption | rfl

@[simp] theorem Ctl.settle_locked (c : Ctl) (v : Variant) : (c.settle v).locked = c.locked := by
  simp only [Ctl.settle]
  split <;> rfl

@[simp] theorem Ctl.settle_settle (c : Ctl) (v : Variant) : (c.settle v).settle v = c.settle v :=
  Ctl.settle_of_none v (c.settle_pending v)

theorem Ctl.clean_iff (c : Ctl) : c.clean = true ↔ c.per = false ∧ c.ppg = false ∧ c.pending = .none ∧
    c.stale = false ∧ (c.keyseq = 0 ∨ c.keyseq = 4) ∧ c.staged = 0 := by
  simp [Ctl.clean, and_assoc]

theorem Ctl.clean_pending {c : Ctl} (h : c.clean = true) : c.pending = .none := (c.clean_iff.mp h).2.2.1

/-- A line other than a hold asks that no cycle is pending. -/
theorem Line.ok_pending {cfg : Config} {fas : AddressSpace} {l : Line} {rest : List Line} {c : Ctl}
    (h : l.ok cfg fas rest c = true) (hl : l.holds = false) : c.pending = .none := by
  cases l with
  | gWait => simp [Line.holds] at hl
  | spin => simp [Line.holds] at hl
  | ctlSet b => cases b <;> simp_all [Line.ok]
  | bound d => exact Ctl.clean_pending (by simpa [Line.ok] using h)
  | verify d v => exact Ctl.clean_pending (by simp [Line.ok] at h; exact h.1.1)
  | retForce => exact Ctl.clean_pending (by simpa [Line.ok] using h)
  | retSize => exact Ctl.clean_pending (by simpa [Line.ok] using h)
  | ret v => exact Ctl.clean_pending (by simpa [Line.ok] using h)
  | fail c => exact Ctl.clean_pending (by simpa [Line.ok] using h)
  | _ => simp_all [Line.ok]

theorem Line.ends_of_branch {l : Line} {n : Nat} (h : l.branch? = some n) : l.ends = false := by
  cases l <;> first | rfl | cases h

theorem Line.holds_cases {l : Line} (h : l.holds = true) : l = .gWait ∨ l = .spin := by
  unfold Line.holds at h
  split at h
  · exact .inl rfl
  · exact .inr rfl
  · cases h

theorem linesOk_cons (cfg : Config) (fas : AddressSpace) (l : Line) (r : List Line) (c : Ctl) :
    linesOk cfg fas (l :: r) 0 c = (l.ok cfg fas r c && (l.ends ||
      ((l.stops fas || linesOk cfg fas r 0 (c.after cfg fas l)) &&
        (match l.branch? with
         | some n => linesOk cfg fas r n c
         | none => true)))) := rfl

@[simp] theorem linesOk_skip (cfg : Config) (fas : AddressSpace) (l : Line) (r : List Line) (n : Nat) (c : Ctl) :
    linesOk cfg fas (l :: r) (n + 1) c = linesOk cfg fas r n c := rfl

theorem linesOk_head {cfg : Config} {fas : AddressSpace} {l : Line} {r : List Line} {c : Ctl}
    (h : linesOk cfg fas (l :: r) 0 c = true) : l.ok cfg fas r c = true := by
  rw [linesOk_cons, Bool.and_eq_true] at h
  exact h.1

/-- The next line's demand is met. -/
theorem linesOk_next {cfg : Config} {fas : AddressSpace} {l : Line} {r : List Line} {c : Ctl}
    (h : linesOk cfg fas (l :: r) 0 c = true) (he : l.ends = false) (hb : l.stops fas = false) :
    linesOk cfg fas r 0 (c.after cfg fas l) = true := by
  rw [linesOk_cons, he, hb, Bool.false_or, Bool.false_or, Bool.and_eq_true, Bool.and_eq_true] at h
  exact h.2.1

/-- The demand of the line a branch leads to is met. -/
theorem linesOk_branch {cfg : Config} {fas : AddressSpace} {l : Line} {r : List Line} {c : Ctl} {n : Nat}
    (h : linesOk cfg fas (l :: r) 0 c = true) (hb : l.branch? = some n) : linesOk cfg fas r n c = true := by
  have he := Line.ends_of_branch hb
  rw [linesOk_cons, he, hb, Bool.false_or, Bool.and_eq_true, Bool.and_eq_true] at h
  exact h.2.2

/-- What the lines ask is met after the pending cycle completes. -/
theorem linesOk_settle {cfg : Config} {fas : AddressSpace} {l : Line} {r : List Line} {c : Ctl}
    (h : linesOk cfg fas (l :: r) 0 c = true) : linesOk cfg fas (l :: r) 0 (c.settle cfg.variant) = true := by
  cases hl : l.holds with
  | false => rw [Ctl.settle_of_none _ (Line.ok_pending (linesOk_head h) hl)]; exact h
  | true =>
    rcases Line.holds_cases hl with rfl | rfl
    all_goals
      rw [linesOk_cons] at h ⊢
      simp only [Ctl.after, Ctl.settle_settle] at h ⊢
      exact h

/-! ## One line -/

/-- What a flow leads to, by kind. -/
def Flow.Sat (go : State → Prop) (skip : Nat → State → Prop) (done : State → Prop) : Flow → Prop
  | .go t => go t
  | .skip n t => skip n t
  | .done t => done t
  | .fault _ => False
  | .refuse _ => False

/-- The base invariant when only the controller changes. -/
theorem State.Base.withController {s t : State} (h : s.Base) (hcfg : t.cfg = s.cfg) (hfas : t.fas = s.fas)
    (hrb : t.rb = s.rb) (hflash : t.flash = s.flash) (facts : ControllerFacts t) : t.Base where
  cfg := by rw [hcfg]; exact h.cfg
  fas := by rw [hfas, hcfg]; exact h.fas
  ring := by
    have := h.ring
    simpa only [State.ringOk, hrb, hcfg] using this
  flash := by
    have := h.flash
    simpa only [State.flashOk, hflash, hcfg, hfas] using this
  controller := (State.controllerOk_iff t).mpr facts

/-- The base invariant when nothing that it reads changes. -/
theorem State.Base.same {s t : State} (h : s.Base) (hcfg : t.cfg = s.cfg) (hfas : t.fas = s.fas)
    (hrb : t.rb = s.rb) (hflash : t.flash = s.flash) (hfc : t.fc = s.fc) (hctlr : t.ctlr = s.ctlr)
    (hwin : t.win = s.win) : t.Base := by
  have hr := (s.ringOk_iff).mp h.ring
  exact h.congr hcfg hfas (by rw [hrb]) (by rw [hrb]; exact hr.2.1) (by rw [hrb]; exact hr.2.2) hflash hfc hctlr hwin

/-- The line belongs to an enqueue call that has begun. -/
def Line.inEnqueue : Line → Bool
  | .enqByte _ _ => true
  | .enqArm => true
  | _ => false

/-- The transmit side and the count of the enqueue call are the same. -/
structure SameTx (s t : State) : Prop where
  rb : t.rb = s.rb
  armed : t.armed = s.armed
  line : t.line = s.line
  tdr : t.tdr = s.tdr
  txe : t.txe = s.txe
  put : t.tmp.put = s.tmp.put

/-- What no line changes. -/
structure SameEnv (s t : State) : Prop where
  sched : t.sched = s.sched
  stuck : t.fctlStuck = s.fctlStuck
  inbox : t.inbox = s.inbox
  dev : t.dev = s.dev
  btn : t.btn = s.btn
  ill : t.ill = s.ill

/-- The state after a line that goes on. -/
structure Went (l : Line) (s t : State) : Prop where
  base : t.Base
  cfg : t.cfg = s.cfg
  fas : t.fas = s.fas
  ctl : t.ctl = s.ctl.after s.cfg s.fas l
  ends : l.ends = false
  stops : l.stops s.fas = false
  env : SameEnv s t
  busy : t.busy = s.busy
  tx : l.inEnqueue = false → l ≠ .enqStart → SameTx s t

/-- The state after a line that branches over `n` lines. -/
structure Branched (l : Line) (s : State) (n : Nat) (t : State) : Prop where
  same : t = s
  branch : l.branch? = some n

/-- The state after a line that ends the operation. -/
structure Ended (s t : State) : Prop where
  base : t.Base
  cfg : t.cfg = s.cfg
  fas : t.fas = s.fas
  clean : t.ctl.clean = true
  busy : t.busy = false
  seq : t.seq = .idle
  tmp : t.tmp = Tmp.init
  env : SameEnv s t
  rb : t.rb = s.rb
  armed : t.armed = s.armed
  line : t.line = s.line
  tdr : t.tdr = s.tdr
  txe : t.txe = s.txe

/-- What a line whose demand is met leads to. -/
def LineSat (l : Line) (s : State) (f : Flow) : Prop := f.Sat (Went l s) (Branched l s) (Ended s)

theorem ended_finish {s : State} (h : s.Base) (hc : s.ctl.clean = true) (v : Word) : Ended s (s.finish v) :=
  { base := h.same rfl rfl rfl rfl rfl rfl rfl, cfg := rfl, fas := rfl, clean := hc, busy := rfl, seq := rfl,
    tmp := rfl, env := ⟨rfl, rfl, rfl, rfl, rfl, rfl⟩, rb := rfl, armed := rfl, line := rfl, tdr := rfl, txe := rfl }

theorem ended_raiseFail {s : State} (h : s.Base) (hc : s.ctl.clean = true) (c : Cause) : Ended s (s.raiseFail c) :=
  { base := h.same rfl rfl rfl rfl rfl rfl rfl, cfg := rfl, fas := rfl, clean := hc, busy := rfl, seq := rfl,
    tmp := rfl, env := ⟨rfl, rfl, rfl, rfl, rfl, rfl⟩, rb := rfl, armed := rfl, line := rfl, tdr := rfl, txe := rfl }

/-- A line that changes nothing the base invariant or the control part reads. -/
theorem went_same {l : Line} {s t : State} (h : s.Base) (hcfg : t.cfg = s.cfg) (hfas : t.fas = s.fas)
    (hrb : t.rb = s.rb) (hflash : t.flash = s.flash) (hfc : t.fc = s.fc) (hctlr : t.ctlr = s.ctlr)
    (hwin : t.win = s.win) (haddr : t.addr = s.addr) (ha : s.ctl.after s.cfg s.fas l = s.ctl) (he : l.ends = false)
    (hb : l.stops s.fas = false) (henv : SameEnv s t) (hbusy : t.busy = s.busy)
    (htx : l.inEnqueue = false → l ≠ .enqStart → SameTx s t) : Went l s t :=
  { base := h.same hcfg hfas hrb hflash hfc hctlr hwin, cfg := hcfg, fas := hfas,
    ctl := by rw [ha]; simp only [State.ctl, hfc, hctlr, haddr], ends := he, stops := hb, env := henv,
    busy := hbusy, tx := htx }

/-! ## Starting a cycle -/

/-- A cycle as `State.pendingOk` wants it. -/
def Cycle.okIn (cfg : Config) (fas : AddressSpace) : Cycle → Prop
  | .none => False
  | .erase p => inFlash cfg fas p cfg.pageSize.toNat = true
  | .progHalf a _ => cfg.variant = .g ∧ inFlash cfg fas a 2 = true
  | .bufReset => cfg.variant = .a
  | .bufLoad => cfg.variant = .a
  | .program p => cfg.variant = .a ∧ inFlash cfg fas p Config.pageBytes = true

theorem State.Base.startCycle {s : State} (h : s.Base) {c : Cycle} (hc : c.okIn s.cfg s.fas) :
    (s.startCycle c).Base := by
  have hf := h.facts
  refine h.withController rfl rfl rfl rfl
    { busy_iff := ?_, pending := ?_, keyseq := hf.keyseq, pbuf := hf.pbuf, stage := hf.stage, inG := hf.inG,
      inA := hf.inA }
  · cases c <;> simp [State.startCycle, Cycle.okIn] at hc ⊢
  · cases c <;> simp_all [State.pendingOk, State.startCycle, Cycle.okIn]

theorem startOn_go {s : State} (h : s.Base) (hp : s.fc.pending = .none) {p : Word} {n : Nat}
    (hin : inFlash s.cfg s.fas p n = true) (c : Cycle) : startOn p n c s = .go (s.startCycle c) := by
  rw [startOn, State.inArray_eq, hin, (h.notBusy_iff).mpr hp]
  rfl

theorem startBuffer_go {s : State} (h : s.Base) (hp : s.fc.pending = .none) (hb : s.ctlr.ppg = true) (c : Cycle) :
    startBuffer c s = .go (s.startCycle c) := by
  rw [startBuffer, hb, (h.notBusy_iff).mpr hp]
  rfl

theorem State.ctl_startCycle (s : State) (c : Cycle) : (s.startCycle c).ctl = { s.ctl with pending := c } := rfl

/-- `CTLR` may change in the bits that neither the invariant nor the control part reads. -/
theorem State.Base.setCtlr {s t : State} (h : s.Base) (hcfg : t.cfg = s.cfg) (hfas : t.fas = s.fas)
    (hrb : t.rb = s.rb) (hflash : t.flash = s.flash) (hfc : t.fc = s.fc) (hwin : t.win = s.win)
    (hlock : t.ctlr.lock = s.ctlr.lock)
    (hg : s.cfg.variant = .g → t.ctlr.per = s.ctlr.per ∧ t.ctlr.ppg = s.ctlr.ppg) : t.Base := by
  have hf := h.facts
  refine h.withController hcfg hfas hrb hflash ?_
  refine { busy_iff := by rw [hfc]; exact hf.busy_iff, pending := ?_, keyseq := by rw [hfc]; exact hf.keyseq,
           pbuf := by rw [hfc]; exact hf.pbuf, stage := by rw [hfc]; exact hf.stage, inG := ?_, inA := ?_ }
  · have := hf.pending
    simpa only [State.pendingOk, hfc, hcfg, hfas] using this
  · rw [hcfg, hfc]
    intro hv
    obtain ⟨h1, h2, h3, h4, h5⟩ := hf.inG hv
    exact ⟨h1, by rw [(hg hv).1, h2], by rw [(hg hv).2, h3], h4, by rw [hwin, h5]⟩
  · rw [hcfg, hfc, hlock, hwin]
    exact hf.inA

/-! ## Flash reads -/

theorem State.readStale_eq (s : State) : s.readStale = (s.cfg.variant == .a && s.fc.stale) := rfl

theorem memRead16_fresh {s : State} {a : Word} (hs : s.readStale = false) (ha : a.toNat % 2 = 0)
    (hin : inFlash s.cfg s.fas a 2 = true) : memRead16 a s = .value (Memory.readHalf s.flash a.toNat) s := by
  rw [memRead16, hs, State.inArray_eq, hin]
  simp [ha]

theorem memRead32_stale {s : State} (a : Word) (hs : s.readStale = true) :
    memRead32 a s = .value (Config.freeWord s.draws) { s with draws := s.draws + 1 } := by
  rw [memRead32, hs]
  rfl

end Sys2Proof.Machine
end

