-- ==== Sys2Proof/Laws/Line.lean ====
section
/-!
SUPPORT. One micro-step of the sequencer: a line whose demand is met neither faults nor refuses, keeps the base
invariant, and changes the control part as `Ctl.after` says.
-/

namespace Sys2Proof.Machine

theorem ringNext_lt' {s : State} (h : s.Base) (i : Nat) : ringNext s.cfg.ringN i < s.cfg.ringN :=
  ringNext_lt h.ringN_pos

theorem enqueueByte_sat {s : State} (h : s.Base) (b : Byte) (left : Nat) :
    LineSat (.enqByte b left) s (enqueueByte b left s) := by
  have hr := (s.ringOk_iff).mp h.ring
  unfold enqueueByte
  split
  · exact { same := rfl, branch := rfl }
  · exact { base := h.congr rfl rfl (List.length_set ..) hr.2.1 (ringNext_lt' h _) rfl rfl rfl rfl, cfg := rfl,
            fas := rfl, ctl := rfl, ends := rfl, stops := rfl,
                env := ⟨rfl, rfl, rfl, rfl, rfl, rfl⟩, busy := rfl, tx := fun h => by cases h }

/-- A page of variant A is a page of the configuration. -/
theorem State.Base.pageBytes {s : State} (h : s.Base) (hv : s.cfg.variant = .a) :
    s.cfg.pageSize.toNat = Config.pageBytes := h.geometry.pageSizeA hv

theorem State.Base.fasPageSize {s : State} (h : s.Base) : s.fas.pageSize = s.cfg.pageSize := by
  rw [h.fas]; rfl

theorem State.Base.setStrt {s : State} (h : s.Base) : s.setStrt.Base :=
  h.setCtlr rfl rfl rfl rfl rfl rfl rfl (fun _ => ⟨rfl, rfl⟩)

theorem State.Base.setBufrst {s : State} (h : s.Base) : s.setBufrst.Base :=
  h.setCtlr rfl rfl rfl rfl rfl rfl rfl (fun _ => ⟨rfl, rfl⟩)

theorem State.Base.setBufload {s : State} (h : s.Base) : s.setBufload.Base :=
  h.setCtlr rfl rfl rfl rfl rfl rfl rfl (fun _ => ⟨rfl, rfl⟩)

/-- The start of an erase or a commit (R72, R75). -/
theorem startMode_eq {s : State} (h : s.Base) {rest : List Line}
    (hok : (Line.ctlSet .strt).ok s.cfg s.fas rest s.ctl = true) :
    startMode s = .go (s.setStrt.startCycle
      (if s.ctlr.per then .erase (pageOfA s.addr) else .program (pageOfA s.addr))) := by
  simp only [Line.ok, Bool.and_eq_true, beq_iff_eq, bne_iff_ne, ne_eq] at hok
  obtain ⟨⟨⟨hp, hv⟩, hne⟩, hin⟩ := hok
  have hne' : s.ctlr.per ≠ s.ctlr.ppg := hne
  have hgo := fun c => startOn_go (s := s.setStrt) h.setStrt hp hin c
  unfold startMode
  split
  · rename_i hper hppg; rw [hper]; exact hgo _
  · rename_i hper hppg; rw [hper]; exact hgo _
  · rename_i hper hppg; exact absurd (hper.trans hppg.symm) hne'
  · rename_i hper hppg; exact absurd (hper.trans hppg.symm) hne'

theorem startMode_sat {s : State} (h : s.Base) (rest : List Line)
    (hok : (Line.ctlSet .strt).ok s.cfg s.fas rest s.ctl = true) : LineSat (.ctlSet .strt) s (startMode s) := by
  rw [startMode_eq h hok]
  simp only [Line.ok, Bool.and_eq_true, beq_iff_eq] at hok
  obtain ⟨⟨⟨hp, hv⟩, hne⟩, hin⟩ := hok
  refine { base := h.setStrt.startCycle ?_, cfg := rfl, fas := rfl, ctl := rfl, ends := rfl, stops := rfl,
                env := ⟨rfl, rfl, rfl, rfl, rfl, rfl⟩, busy := rfl, tx := fun _ _ => ⟨rfl, rfl, rfl, rfl, rfl, rfl⟩ }
  split
  · rw [Cycle.okIn, show s.setStrt.cfg = s.cfg from rfl, h.pageBytes hv]; exact hin
  · exact ⟨hv, hin⟩

/-- The state after a key write in sequence (spec/10_state.md R47). -/
def State.keyed (r : KeyReg) (v : Word) (s : State) : State :=
  { s with
    keyr := if r = .main then v else s.keyr
    modekeyr := if r = .mode then v else s.modekeyr
    fc := if s.fc.keyseq = 3 then { s.fc with keyseq := 4, locked := false }
      else { s.fc with keyseq := if s.fc.keyseq ≥ 4 then 1 else s.fc.keyseq + 1 }
    ctlr := if s.fc.keyseq = 3 then { s.ctlr with lock := false } else s.ctlr }

theorem writeKey_eq {s : State} {r : KeyReg} {v : Word}
    (hk : expectedKey s.cfg (if s.fc.keyseq ≥ 4 then 0 else s.fc.keyseq) = (r, v)) :
    writeKey r v s = .go (s.keyed r v) := by
  unfold writeKey
  simp only [hk, ne_eq, not_true_eq_false, if_false]
  by_cases h3 : s.fc.keyseq = 3
  · rw [if_pos (by simp [h3])]
    cases r <;> simp [State.keyed, h3]
  · by_cases h4 : s.fc.keyseq ≥ 4
    · rw [if_neg (by simp [h4])]
      cases r <;> simp [State.keyed, h3, h4]
    · rw [if_neg (by simp [h3, h4])]
      cases r <;> simp [State.keyed, h3, h4]

/-- A key out of sequence is refused (U6). -/
theorem writeKey_ne {s : State} {r : KeyReg} {v : Word}
    (hk : expectedKey s.cfg (if s.fc.keyseq ≥ 4 then 0 else s.fc.keyseq) ≠ (r, v)) :
    writeKey r v s = .refuse .wrongKey := by
  unfold writeKey
  simp only [ne_eq, hk, not_false_eq_true, if_true]

theorem writeKey_sat {s : State} (h : s.Base) {r : KeyReg} {v : Word} (rest : List Line)
    (hok : (Line.keyWrite r v).ok s.cfg s.fas rest s.ctl = true) : LineSat (.keyWrite r v) s (writeKey r v s) := by
  simp only [Line.ok, Bool.and_eq_true, beq_iff_eq] at hok
  obtain ⟨⟨hp, hv⟩, hk⟩ := hok
  have hf := h.facts
  have hg : s.cfg.variant ≠ .g := by rw [hv]; simp
  rw [writeKey_eq hk]
  have hfc : (s.keyed r v).fc.busy = s.fc.busy ∧ (s.keyed r v).fc.pending = s.fc.pending ∧
      (s.keyed r v).fc.pbuf = s.fc.pbuf ∧ (s.keyed r v).fc.stage = s.fc.stage ∧
      (s.keyed r v).fc.stale = s.fc.stale := by
    simp only [State.keyed]
    split <;> exact ⟨rfl, rfl, rfl, rfl, rfl⟩
  refine { base := h.withController rfl rfl rfl rfl ?_, cfg := rfl, fas := rfl, ctl := ?_, ends := rfl, stops := rfl,
                env := ⟨rfl, rfl, rfl, rfl, rfl, rfl⟩, busy := rfl, tx := fun _ _ => ⟨rfl, rfl, rfl, rfl, rfl, rfl⟩ }
  · refine { busy_iff := by rw [hfc.1, hfc.2.1]; exact hf.busy_iff, pending := ?_, keyseq := ?_,
             pbuf := by rw [hfc.2.2.1]; exact hf.pbuf, stage := by rw [hfc.2.2.2.1]; exact hf.stage,
             inG := fun hv => absurd hv hg, inA := fun hva => ?_ }
    · simp only [State.pendingOk, hfc.2.1, show s.fc.pending = .none from hp]
    · have := hf.keyseq
      simp only [State.keyed]
      split
      · exact Nat.le_refl 4
      · simp only
        split <;> omega
    · obtain ⟨h1, h2⟩ := hf.inA hva
      refine ⟨?_, h2⟩
      simp only [State.keyed]
      split
      · rfl
      · exact h1
  · by_cases h3 : s.fc.keyseq = 3 <;> simp [State.ctl, Ctl.after, State.keyed, h3]

theorem stageWord_sat {s : State} (h : s.Base) {a w : Word} (rest : List Line)
    (hok : (Line.memWrite a w).ok s.cfg s.fas rest s.ctl = true) : LineSat (.memWrite a w) s (stageWord a w s) := by
  simp only [Line.ok, Bool.and_eq_true, beq_iff_eq, Bool.or_eq_true, decide_eq_true_eq] at hok
  obtain ⟨⟨⟨⟨⟨hp, hv⟩, ha⟩, hin⟩, hppg⟩, hst⟩ := hok
  have hf := h.facts
  have hg : s.cfg.variant ≠ .g := by rw [hv]; simp
  unfold stageWord
  rw [if_neg (by simp [ha]), State.inArray_eq, hin, show s.ctlr.ppg = true from hppg]
  cases hl : s.fc.locked with
  | true =>
    exact went_same h rfl rfl rfl rfl rfl rfl rfl rfl (by simp [Ctl.after, State.ctl, hl]) rfl rfl ⟨rfl, rfl, rfl, rfl, rfl, rfl⟩ rfl (fun _ _ => ⟨rfl, rfl, rfl, rfl, rfl, rfl⟩)
  | false =>
    have hst' : s.fc.stage.length < Config.batchWords := by simpa [hl] using hst
    simp only [Bool.not_true, Bool.false_eq_true, if_false]
    rw [if_neg (by omega)]
    refine { base := h.withController rfl rfl rfl rfl
              { busy_iff := hf.busy_iff, pending := hf.pending, keyseq := hf.keyseq, pbuf := hf.pbuf,
                stage := ?_, inG := fun hv => absurd hv hg, inA := hf.inA },
             cfg := rfl, fas := rfl, ctl := ?_, ends := rfl, stops := rfl,
                env := ⟨rfl, rfl, rfl, rfl, rfl, rfl⟩, busy := rfl, tx := fun _ _ => ⟨rfl, rfl, rfl, rfl, rfl, rfl⟩ }
    · simp only [List.length_append, List.length_cons, List.length_nil]
      omega
    · simp [State.ctl, Ctl.after, hl]

/-- A line whose demand is met neither faults nor refuses, and leads to a sound state. -/
theorem runLine_ok {l : Line} {rest : List Line} {s : State} (h : s.Base) (hp : s.fc.pending = .none)
    (hok : l.ok s.cfg s.fas rest s.ctl = true) : LineSat l s (runLine l s) := by
  have hf := h.facts
  cases l with
  | enqStart => exact went_same h rfl rfl rfl rfl rfl rfl rfl rfl rfl rfl rfl ⟨rfl, rfl, rfl, rfl, rfl, rfl⟩ rfl (fun _ h => absurd rfl h)
  | enqByte b left => exact enqueueByte_sat h b left
  | enqArm => exact went_same h rfl rfl rfl rfl rfl rfl rfl rfl rfl rfl rfl ⟨rfl, rfl, rfl, rfl, rfl, rfl⟩ rfl (fun h => by cases h)
  | gUnlock =>
    simp only [Line.ok, Bool.and_eq_true, beq_iff_eq] at hok
    exact { base := h.withController rfl rfl rfl rfl
              { busy_iff := hf.busy_iff, pending := hf.pending, keyseq := hf.keyseq, pbuf := hf.pbuf,
                stage := hf.stage, inG := hf.inG, inA := fun hv => by rw [show s.cfg.variant = .a from hv] at hok; cases hok.2 },
            cfg := rfl, fas := rfl, ctl := rfl, ends := rfl, stops := rfl,
                env := ⟨rfl, rfl, rfl, rfl, rfl, rfl⟩, busy := rfl, tx := fun _ _ => ⟨rfl, rfl, rfl, rfl, rfl, rfl⟩ }
  | gLock =>
    simp only [Line.ok, Bool.and_eq_true, beq_iff_eq] at hok
    exact { base := h.withController rfl rfl rfl rfl
              { busy_iff := hf.busy_iff, pending := hf.pending, keyseq := hf.keyseq, pbuf := hf.pbuf,
                stage := hf.stage, inG := hf.inG, inA := fun hv => by rw [show s.cfg.variant = .a from hv] at hok; cases hok.2 },
            cfg := rfl, fas := rfl, ctl := rfl, ends := rfl, stops := rfl,
                env := ⟨rfl, rfl, rfl, rfl, rfl, rfl⟩, busy := rfl, tx := fun _ _ => ⟨rfl, rfl, rfl, rfl, rfl, rfl⟩ }
  | gErase d =>
    simp only [Line.ok, Bool.and_eq_true, beq_iff_eq] at hok
    simp only [runLine, startErase]
    rw [startOn_go h hp hok.2]
    exact { base := h.startCycle (by rw [Cycle.okIn, ← h.fasPageSize]; exact hok.2), cfg := rfl, fas := rfl,
            ctl := rfl, ends := rfl, stops := rfl,
                env := ⟨rfl, rfl, rfl, rfl, rfl, rfl⟩, busy := rfl, tx := fun _ _ => ⟨rfl, rfl, rfl, rfl, rfl, rfl⟩ }
  | gProg d v =>
    simp only [Line.ok, Bool.and_eq_true, beq_iff_eq] at hok
    simp only [runLine, startHalf]
    rw [if_neg (by simp [hok.1.2]), startOn_go h hp hok.2]
    exact { base := h.startCycle ⟨hok.1.1.2, hok.2⟩, cfg := rfl, fas := rfl, ctl := rfl, ends := rfl, stops := rfl,
                env := ⟨rfl, rfl, rfl, rfl, rfl, rfl⟩, busy := rfl, tx := fun _ _ => ⟨rfl, rfl, rfl, rfl, rfl, rfl⟩ }
  | gWait => exact went_same h rfl rfl rfl rfl rfl rfl rfl rfl (Ctl.settle_of_none _ hp) rfl rfl ⟨rfl, rfl, rfl, rfl, rfl, rfl⟩ rfl (fun _ _ => ⟨rfl, rfl, rfl, rfl, rfl, rfl⟩)
  | bound d =>
    simp only [runLine]
    split
    · exact ended_raiseFail h hok .param
    · rename_i hd
      exact went_same h rfl rfl rfl rfl rfl rfl rfl rfl rfl rfl (by simp only [Line.stops, hd, decide_false])
        ⟨rfl, rfl, rfl, rfl, rfl, rfl⟩ rfl (fun _ _ => ⟨rfl, rfl, rfl, rfl, rfl, rfl⟩)
  | windowTest d =>
    simp only [runLine]
    split
    · exact went_same h rfl rfl rfl rfl rfl rfl rfl rfl rfl rfl rfl ⟨rfl, rfl, rfl, rfl, rfl, rfl⟩ rfl (fun _ _ => ⟨rfl, rfl, rfl, rfl, rfl, rfl⟩)
    · exact { same := rfl, branch := rfl }
  | windowPage d =>
    simp only [Line.ok, Bool.and_eq_true, beq_iff_eq] at hok
    refine { base := h.withController rfl rfl rfl rfl
              { busy_iff := hf.busy_iff, pending := hf.pending, keyseq := hf.keyseq, pbuf := hf.pbuf,
                stage := hf.stage, inG := fun hv => ?_, inA := fun hv => by rw [show s.cfg.variant = .a from hv] at hok; cases hok.2 },
             cfg := rfl, fas := rfl, ctl := rfl, ends := rfl, stops := rfl,
                env := ⟨rfl, rfl, rfl, rfl, rfl, rfl⟩, busy := rfl, tx := fun _ _ => ⟨rfl, rfl, rfl, rfl, rfl, rfl⟩ }
    obtain ⟨h1, h2, h3, h4, -⟩ := hf.inG hv
    exact ⟨h1, h2, h3, h4, by rw [show s.fas.pageSize = s.cfg.pageSize from h.fasPageSize]; exact h.geometry.pageEnd_mod d⟩
  | windowPast d =>
    simp only [Line.ok, Bool.and_eq_true, beq_iff_eq] at hok
    exact { base := h.withController rfl rfl rfl rfl
              { busy_iff := hf.busy_iff, pending := hf.pending, keyseq := hf.keyseq, pbuf := hf.pbuf,
                stage := hf.stage, inG := hf.inG, inA := fun hv => by rw [show s.cfg.variant = .a from hv] at hok; cases hok.2 },
            cfg := rfl, fas := rfl, ctl := rfl, ends := rfl, stops := rfl,
                env := ⟨rfl, rfl, rfl, rfl, rfl, rfl⟩, busy := rfl, tx := fun _ _ => ⟨rfl, rfl, rfl, rfl, rfl, rfl⟩ }
  | windowEmpty =>
    refine { base := h.withController rfl rfl rfl rfl
              { busy_iff := hf.busy_iff, pending := hf.pending, keyseq := hf.keyseq, pbuf := hf.pbuf,
                stage := hf.stage, inG := fun hv => ?_, inA := fun hv => ?_ },
             cfg := rfl, fas := rfl, ctl := rfl, ends := rfl, stops := rfl,
                env := ⟨rfl, rfl, rfl, rfl, rfl, rfl⟩, busy := rfl, tx := fun _ _ => ⟨rfl, rfl, rfl, rfl, rfl, rfl⟩ }
    · have hv' : s.cfg.variant = .g := hv
      obtain ⟨h1, h2, h3, h4, -⟩ := hf.inG hv'
      exact ⟨h1, h2, h3, h4, by simp [hv']⟩
    have hv' : s.cfg.variant = .a := hv
    refine ⟨(hf.inA hv').1, ?_⟩
    simp only [hv', reduceCtorEq, if_false]
    exact (hf.inA hv').2
  | verify d v =>
    simp only [Line.ok, Bool.and_eq_true, beq_iff_eq] at hok
    obtain ⟨⟨hc, ha⟩, hin⟩ := hok
    have hst : s.readStale = false := by
      have : s.fc.stale = false := (s.ctl.clean_iff.mp hc).2.2.2.1
      simp [State.readStale, this]
    simp only [runLine, verifyHalf]
    rw [memRead16_fresh hst ha hin]
    simp only
    split
    · exact went_same h rfl rfl rfl rfl rfl rfl rfl rfl rfl rfl rfl ⟨rfl, rfl, rfl, rfl, rfl, rfl⟩ rfl (fun _ _ => ⟨rfl, rfl, rfl, rfl, rfl, rfl⟩)
    · exact ended_raiseFail h hc .verify
  | keyWrite r v => exact writeKey_sat h rest hok
  | ctlSet b =>
    cases b with
    | level l =>
      simp only [Line.ok, Bool.and_eq_true, beq_iff_eq] at hok
      have hg : s.cfg.variant ≠ .g := by rw [hok.2]; simp
      refine { base := h.setCtlr rfl rfl rfl rfl rfl rfl ?_ (fun hv => absurd hv hg), cfg := rfl, fas := rfl,
               ctl := ?_, ends := rfl, stops := rfl,
                env := ⟨rfl, rfl, rfl, rfl, rfl, rfl⟩, busy := rfl, tx := fun _ _ => ⟨rfl, rfl, rfl, rfl, rfl, rfl⟩ } <;> cases l <;> rfl
    | bufRst =>
      simp only [Line.ok, Bool.and_eq_true, beq_iff_eq] at hok
      simp only [runLine, ctlSetBit]
      rw [startBuffer_go h.setBufrst hp hok.2]
      exact { base := h.setBufrst.startCycle hok.1.2, cfg := rfl, fas := rfl, ctl := rfl, ends := rfl, stops := rfl,
                env := ⟨rfl, rfl, rfl, rfl, rfl, rfl⟩, busy := rfl, tx := fun _ _ => ⟨rfl, rfl, rfl, rfl, rfl, rfl⟩ }
    | bufLoad =>
      simp only [Line.ok, Bool.and_eq_true, beq_iff_eq] at hok
      simp only [runLine, ctlSetBit]
      rw [startBuffer_go h.setBufload hp hok.2]
      exact { base := h.setBufload.startCycle hok.1.2, cfg := rfl, fas := rfl, ctl := rfl, ends := rfl, stops := rfl,
                env := ⟨rfl, rfl, rfl, rfl, rfl, rfl⟩, busy := rfl, tx := fun _ _ => ⟨rfl, rfl, rfl, rfl, rfl, rfl⟩ }
    | strt => exact startMode_sat h rest hok
    | lock =>
      simp only [Line.ok, Bool.and_eq_true, beq_iff_eq] at hok
      have hg : s.cfg.variant ≠ .g := by rw [hok.2]; simp
      exact { base := h.withController rfl rfl rfl rfl
                { busy_iff := hf.busy_iff, pending := hf.pending, keyseq := Nat.zero_le _, pbuf := hf.pbuf,
                  stage := hf.stage, inG := fun hv => absurd hv hg, inA := fun hv => ⟨rfl, (hf.inA hv).2⟩ },
              cfg := rfl, fas := rfl, ctl := rfl, ends := rfl, stops := rfl,
                env := ⟨rfl, rfl, rfl, rfl, rfl, rfl⟩, busy := rfl, tx := fun _ _ => ⟨rfl, rfl, rfl, rfl, rfl, rfl⟩ }
  | ctlClear b =>
    simp only [Line.ok, Bool.and_eq_true, beq_iff_eq] at hok
    have hg : s.cfg.variant ≠ .g := by rw [hok.2]; simp
    refine { base := h.setCtlr rfl rfl rfl rfl rfl rfl ?_ (fun hv => absurd hv hg), cfg := rfl, fas := rfl,
             ctl := ?_, ends := rfl, stops := rfl,
                env := ⟨rfl, rfl, rfl, rfl, rfl, rfl⟩, busy := rfl, tx := fun _ _ => ⟨rfl, rfl, rfl, rfl, rfl, rfl⟩ } <;> cases b <;> rfl
  | addrWrite a =>
    exact { base := h.same rfl rfl rfl rfl rfl rfl rfl, cfg := rfl, fas := rfl, ctl := rfl, ends := rfl, stops := rfl,
                env := ⟨rfl, rfl, rfl, rfl, rfl, rfl⟩, busy := rfl, tx := fun _ _ => ⟨rfl, rfl, rfl, rfl, rfl, rfl⟩ }
  | spin => exact went_same h rfl rfl rfl rfl rfl rfl rfl rfl (Ctl.settle_of_none _ hp) rfl rfl ⟨rfl, rfl, rfl, rfl, rfl, rfl⟩ rfl (fun _ _ => ⟨rfl, rfl, rfl, rfl, rfl, rfl⟩)
  | refreshRead x =>
    simp only [Line.ok, Bool.and_eq_true, beq_iff_eq] at hok
    have hst : s.readStale = true := by
      have : s.fc.stale = true := hok.2
      simp [State.readStale, this, hok.1.2]
    simp only [runLine, refreshRead, memRead32_stale _ hst]
    exact went_same h rfl rfl rfl rfl rfl rfl rfl rfl rfl rfl rfl ⟨rfl, rfl, rfl, rfl, rfl, rfl⟩ rfl (fun _ _ => ⟨rfl, rfl, rfl, rfl, rfl, rfl⟩)
  | refreshWrite =>
    exact { base := h.withController rfl rfl rfl rfl
              { busy_iff := hf.busy_iff, pending := hf.pending, keyseq := hf.keyseq, pbuf := hf.pbuf,
                stage := hf.stage, inG := fun hv => ⟨rfl, (hf.inG hv).2⟩, inA := hf.inA },
            cfg := rfl, fas := rfl, ctl := rfl, ends := rfl, stops := rfl,
                env := ⟨rfl, rfl, rfl, rfl, rfl, rfl⟩, busy := rfl, tx := fun _ _ => ⟨rfl, rfl, rfl, rfl, rfl, rfl⟩ }
  | memWrite a w => exact stageWord_sat h rest hok
  | statusRead => exact went_same h rfl rfl rfl rfl rfl rfl rfl rfl rfl rfl rfl ⟨rfl, rfl, rfl, rfl, rfl, rfl⟩ rfl (fun _ _ => ⟨rfl, rfl, rfl, rfl, rfl, rfl⟩)
  | statusTest =>
    simp only [runLine]
    split
    · exact went_same h rfl rfl rfl rfl rfl rfl rfl rfl rfl rfl rfl ⟨rfl, rfl, rfl, rfl, rfl, rfl⟩ rfl (fun _ _ => ⟨rfl, rfl, rfl, rfl, rfl, rfl⟩)
    · exact { same := rfl, branch := rfl }
  | clearErr => exact went_same h rfl rfl rfl rfl rfl rfl rfl rfl rfl rfl rfl ⟨rfl, rfl, rfl, rfl, rfl, rfl⟩ rfl (fun _ _ => ⟨rfl, rfl, rfl, rfl, rfl, rfl⟩)
  | bkpRead => exact went_same h rfl rfl rfl rfl rfl rfl rfl rfl rfl rfl rfl ⟨rfl, rfl, rfl, rfl, rfl, rfl⟩ rfl (fun _ _ => ⟨rfl, rfl, rfl, rfl, rfl, rfl⟩)
  | bkpCompare => exact went_same h rfl rfl rfl rfl rfl rfl rfl rfl rfl rfl rfl ⟨rfl, rfl, rfl, rfl, rfl, rfl⟩ rfl (fun _ _ => ⟨rfl, rfl, rfl, rfl, rfl, rfl⟩)
  | bkpClear => exact went_same h rfl rfl rfl rfl rfl rfl rfl rfl rfl rfl rfl ⟨rfl, rfl, rfl, rfl, rfl, rfl⟩ rfl (fun _ _ => ⟨rfl, rfl, rfl, rfl, rfl, rfl⟩)
  | delay n => exact went_same h rfl rfl rfl rfl rfl rfl rfl rfl rfl rfl rfl ⟨rfl, rfl, rfl, rfl, rfl, rfl⟩ rfl (fun _ _ => ⟨rfl, rfl, rfl, rfl, rfl, rfl⟩)
  | pinSample => exact went_same h rfl rfl rfl rfl rfl rfl rfl rfl rfl rfl rfl ⟨rfl, rfl, rfl, rfl, rfl, rfl⟩ rfl (fun _ _ => ⟨rfl, rfl, rfl, rfl, rfl, rfl⟩)
  | pinPressed => exact went_same h rfl rfl rfl rfl rfl rfl rfl rfl rfl rfl rfl ⟨rfl, rfl, rfl, rfl, rfl, rfl⟩ rfl (fun _ _ => ⟨rfl, rfl, rfl, rfl, rfl, rfl⟩)
  | pinOr => exact went_same h rfl rfl rfl rfl rfl rfl rfl rfl rfl rfl rfl ⟨rfl, rfl, rfl, rfl, rfl, rfl⟩ rfl (fun _ _ => ⟨rfl, rfl, rfl, rfl, rfl, rfl⟩)
  | retForce => exact ended_finish h hok _
  | retSize => exact ended_finish h hok _
  | ret v => exact ended_finish h hok v
  | fail c => exact ended_raiseFail h hok c

/-! ## The arming invariant (spec/43_ring_transmitter.md R187) -/

/-- A ring that holds bytes is armed, or an enqueue call that has stored one is going on. -/
def State.ArmedOr (s : State) (mid : Bool) : Prop :=
  ringEmpty s.rb = true ∨ s.armed = true ∨ (1 ≤ s.tmp.put ∧ mid = true)

theorem State.ArmedOr.congr {s t : State} {mid : Bool} (h : s.ArmedOr mid) (hr : t.rb = s.rb)
    (ha : t.armed = s.armed) (hp : t.tmp.put = s.tmp.put) : t.ArmedOr mid := by
  unfold State.ArmedOr
  rw [hr, ha, hp]
  exact h

theorem State.ArmedOr.weaken {s : State} (h : s.ArmedOr false) (mid : Bool) : s.ArmedOr mid := by
  rcases h with h | h | ⟨-, h⟩
  · exact .inl h
  · exact .inr (.inl h)
  · cases h

theorem midEnqueue_cons (i : Instr) (l : Line) (r : List Line) :
    (SeqPos.running i (l :: r)).midEnqueue = l.inEnqueue := by cases l <;> rfl

/-- The lines that the enqueue call still has after one of its bytes. -/
def tailInEnqueue : List Line → Bool
  | l :: _ => l.inEnqueue
  | [] => false

theorem tailInEnqueue_of_enqueueTail {n : Nat} {r : List Line} (h : enqueueTail n r = true) :
    tailInEnqueue r = true := by
  cases r with
  | nil => cases n <;> simp [enqueueTail] at h
  | cons l r => cases n <;> cases l <;> first | rfl | simp [enqueueTail] at h

theorem tailInEnqueue_drop {n : Nat} {r : List Line} (h : enqueueTail n r = true) :
    tailInEnqueue (r.drop n) = true := by
  induction n generalizing r with
  | zero => exact tailInEnqueue_of_enqueueTail h
  | succ n ih =>
    cases r with
    | nil => simp [enqueueTail] at h
    | cons l r =>
      cases l <;> simp [enqueueTail] at h
      exact ih h.2

end Sys2Proof.Machine
end

