-- ==== Sys2Proof/Laws/Sequence.lean ====
section
/-!
SUPPORT. A run of lines whose demands are met: it keeps the invariant of the core, and the only thing that can stop it
is a host that writes `OP` while it is busy (`runLines_sound`).
-/

namespace Sys2Proof.Machine

/-! ## The arming invariant under the other agents -/

theorem State.ArmedOr.irqTurn {s : State} {mid : Bool} (h : s.ArmedOr mid) : s.irqTurn.ArmedOr mid := by
  unfold State.irqTurn State.txeRequest
  split
  · rename_i hr
    have ha : s.armed = true := Bool.and_elim_right hr
    unfold State.txeDrain
    split
    · exact .inl ‹_›
    · exact .inr (.inl ha)
  · exact h

theorem State.ArmedOr.uartShift {s : State} {mid : Bool} (h : s.ArmedOr mid) : s.uartShift.ArmedOr mid :=
  h.congr (by simp) (by simp) (by simp)

theorem State.ArmedOr.complete {s : State} {mid : Bool} (h : s.ArmedOr mid) (pg wp : Bool) :
    (s.complete pg wp).ArmedOr mid := h.congr (by simp) (by simp) (by simp)

/-! ## The state while a line waits -/

/-- The operation `i` waits before line `l`, and every line still to come has a meaning. -/
structure Waiting (i : Instr) (l : Line) (rest : List Line) (s : State) : Prop where
  base : s.Base
  busy : s.busy = true
  wf : i.wf s.cfg.variant = true
  seq : s.seq = .running i (l :: rest)
  ok : linesOk s.cfg s.fas (l :: rest) 0 s.ctl = true
  armed : s.ArmedOr l.inEnqueue

theorem Waiting.congr {i : Instr} {l : Line} {rest : List Line} {s t : State} (h : Waiting i l rest s) (hb : t.Base)
    (hbusy : t.busy = s.busy) (hcfg : t.cfg = s.cfg) (hfas : t.fas = s.fas) (hseq : t.seq = s.seq)
    (hctl : t.ctl = s.ctl) (ha : t.ArmedOr l.inEnqueue) : Waiting i l rest t :=
  { base := hb, busy := by rw [hbusy]; exact h.busy, wf := by rw [hcfg]; exact h.wf, seq := by rw [hseq]; exact h.seq,
    ok := by rw [hcfg, hfas, hctl]; exact h.ok, armed := ha }

theorem Waiting.complete {i : Instr} {l : Line} {rest : List Line} {s : State} (h : Waiting i l rest s)
    (pg wp : Bool) : Waiting i l rest (s.complete pg wp) :=
  { base := h.base.complete pg wp, busy := by simpa using h.busy, wf := by simpa using h.wf,
    seq := by simpa using h.seq,
    ok := by
      rw [State.complete_cfg, State.complete_fas, State.ctl_complete]
      exact linesOk_settle h.ok,
    armed := h.armed.complete pg wp }

theorem State.ctl_irqTurn (s : State) : s.irqTurn.ctl = s.ctl := by simp [State.ctl]

theorem State.ctl_uartShift (s : State) : s.uartShift.ctl = s.ctl := by simp [State.ctl]

theorem Waiting.kept (i : Instr) (l : Line) (rest : List Line) : KeptByTurns (Waiting i l rest) where
  sched s r h := h.congr (h.base.setSched r) rfl rfl rfl rfl rfl (h.armed.congr rfl rfl rfl)
  irq s h := h.congr h.base.irqTurn (by simp) (by simp) (by simp) (by simp) s.ctl_irqTurn h.armed.irqTurn
  uart s h := h.congr h.base.uartShift (by simp) (by simp) (by simp) (by simp) s.ctl_uartShift h.armed.uartShift
  fctl pg wp s h := by
    unfold State.fctlTurn
    split
    · exact h.complete pg wp
    · exact h
  pin b s h := h.congr (h.base.same rfl rfl rfl rfl rfl rfl rfl) rfl rfl rfl rfl rfl (h.armed.congr rfl rfl rfl)
  stick s h := h.congr (h.base.same rfl rfl rfl rfl rfl rfl rfl) rfl rfl rfl rfl rfl (h.armed.congr rfl rfl rfl)
  free s h _ := h.complete _ _

theorem Waiting.kept_quiet (i : Instr) (l : Line) (rest : List Line) : KeptByQuiet (Waiting i l rest) where
  sched := (Waiting.kept i l rest).sched
  irq := (Waiting.kept i l rest).irq
  uart := (Waiting.kept i l rest).uart
  pin := (Waiting.kept i l rest).pin
  complete pg wp _ h _ := h.complete pg wp

/-- A waiting state satisfies the invariant. -/
theorem Waiting.inv {i : Instr} {l : Line} {rest : List Line} {s : State} (h : Waiting i l rest s) : s.Inv := by
  refine ⟨h.base.cfg, h.base.fas, h.base.ring, h.base.flash, h.base.controller, ?_, ?_⟩
  · rw [State.armOk, h.seq, midEnqueue_cons]
    rcases h.armed with ha | ha | ha
    · simp [ha]
    · simp [ha]
    · simp [ha.1, ha.2]
  · rw [State.seqOk, h.seq]
    simp [h.busy, h.wf, h.ok]

/-- When the line may be taken no cycle is pending. -/
theorem Waiting.pending {i : Instr} {l : Line} {rest : List Line} {s : State} (h : Waiting i l rest s)
    (he : lineEnabled l s = true) : s.fc.pending = .none := by
  cases hl : l.holds with
  | false => exact Line.ok_pending (linesOk_head h.ok) hl
  | true =>
    rw [lineEnabled, hl, Bool.true_and, State.statrBsy, Bool.not_eq_true'] at he
    exact h.base.notBusy_iff.mp he

/-! ## A run of lines -/

/-- The operation `i` is about to wait before the first of `lines` that is not passed over. -/
structure Going (i : Instr) (lines : List Line) (n : Nat) (s : State) : Prop where
  base : s.Base
  busy : s.busy = true
  wf : i.wf s.cfg.variant = true
  ok : linesOk s.cfg s.fas lines n s.ctl = true
  armed : s.ArmedOr (tailInEnqueue (lines.drop n))

theorem Going.waiting {i : Instr} {l : Line} {rest : List Line} {s : State} (h : Going i (l :: rest) 0 s) :
    Waiting i l rest { s with seq := .running i (l :: rest) } :=
  { base := h.base.setSeq _, busy := h.busy, wf := h.wf, seq := rfl, ok := h.ok,
    armed := State.ArmedOr.congr h.armed rfl rfl rfl }

theorem Going.skip {i : Instr} {l : Line} {rest : List Line} {n : Nat} {s : State} (h : Going i (l :: rest) (n + 1) s) :
    Going i rest n s :=
  { base := h.base, busy := h.busy, wf := h.wf, ok := h.ok, armed := h.armed }

/-- Before a line that does not belong to an enqueue call a ring that holds bytes is armed. -/
theorem Waiting.armed_out {i : Instr} {l : Line} {rest : List Line} {s : State} (h : Waiting i l rest s)
    (hl : l.inEnqueue = false) : s.ArmedOr false := by
  have := h.armed
  rwa [hl] at this

theorem enqueueTail_of_ok {cfg : Config} {fas : AddressSpace} {b : Byte} {left : Nat} {rest : List Line} {c : Ctl}
    (h : (Line.enqByte b left).ok cfg fas rest c = true) : enqueueTail left rest = true := by
  simp only [Line.ok, Bool.and_eq_true] at h
  exact h.2

/-- A line that goes on leads before the next line. -/
theorem Waiting.went {i : Instr} {l : Line} {rest : List Line} {s t : State} (h : Waiting i l rest s)
    (hr : runLine l s = .go t) (hw : Went l s t) : Going i rest 0 t := by
  refine { base := hw.base, busy := by rw [hw.busy]; exact h.busy, wf := by rw [hw.cfg]; exact h.wf, ok := ?_,
           armed := ?_ }
  · rw [hw.cfg, hw.fas, hw.ctl]
    exact linesOk_next h.ok hw.ends hw.stops
  · rw [List.drop_zero]
    by_cases hs : l = .enqStart
    · subst hs
      have ht : t = { s with tmp := { s.tmp with put := 0 } } := by
        simp only [runLine, Flow.go.injEq] at hr; exact hr.symm
      subst ht
      exact (State.ArmedOr.weaken (by
        rcases h.armed_out rfl with ha | ha | ⟨-, ha⟩
        · exact .inl ha
        · exact .inr (.inl ha)
        · cases ha) _)
    · cases hl : l.inEnqueue with
      | false =>
        have htx := hw.tx hl hs
        exact (State.ArmedOr.congr (h.armed_out hl) htx.rb htx.armed htx.put).weaken _
      | true =>
        cases l <;> simp only [Line.inEnqueue, Bool.false_eq_true] at hl
        · rename_i b left
          have htail := enqueueTail_of_ok (linesOk_head h.ok)
          simp only [runLine, enqueueByte] at hr
          split at hr
          · cases hr
          · simp only [Flow.go.injEq] at hr
            subst hr
            exact .inr (.inr ⟨Nat.le_add_left 1 _, tailInEnqueue_of_enqueueTail htail⟩)
        · simp only [runLine, Flow.go.injEq] at hr
          subst hr
          refine State.ArmedOr.weaken ?_ _
          rcases h.armed with ha | ha | ⟨ha, -⟩
          · exact .inl ha
          · exact .inr (.inl (by simp only [ha]; split <;> rfl))
          · exact .inr (.inl (by simp only [ge_iff_le, ha, if_true]))

/-- A line that branches leads before the line that the branch names. -/
theorem Waiting.branched {i : Instr} {l : Line} {rest : List Line} {s t : State} {n : Nat} (h : Waiting i l rest s)
    (hb : Branched l s n t) : Going i rest n t := by
  obtain ⟨rfl, hbr⟩ := hb
  refine { base := h.base, busy := h.busy, wf := h.wf, ok := linesOk_branch h.ok hbr, armed := ?_ }
  cases hl : l.inEnqueue with
  | false => exact (h.armed_out hl).weaken _
  | true =>
    cases l <;> simp only [Line.inEnqueue, Bool.false_eq_true] at hl
    · simp only [Line.branch?, Option.some.injEq] at hbr
      subst hbr
      rw [tailInEnqueue_drop (enqueueTail_of_ok (linesOk_head h.ok))]
      exact h.armed
    · simp [Line.branch?] at hbr

/-- A line that ends the operation leads to a sound idle state. -/
theorem Waiting.ended {i : Instr} {l : Line} {rest : List Line} {s t : State} (h : Waiting i l rest s)
    (hl : l.inEnqueue = false) (he : Ended s t) : t.Inv := by
  refine ⟨he.base.cfg, he.base.fas, he.base.ring, he.base.flash, he.base.controller, ?_, ?_⟩
  · rw [State.armOk, he.rb, he.armed]
    rcases h.armed_out hl with ha | ha | ⟨-, ha⟩
    · simp [ha]
    · simp [ha]
    · cases ha
  · rw [State.seqOk, he.seq]
    simp [he.busy, he.clean, he.tmp]

/-- What an outcome answers. -/
def outcomeSat (next : State → Prop) (refused : Refusal → Prop) : Outcome → Prop
  | .next t => next t
  | .fault _ => False
  | .refused r => refused r

theorem runLine_done_inEnqueue {l : Line} {s t : State} (h : runLine l s = .done t) : l.inEnqueue = false := by
  cases l <;> first | rfl | skip
  · simp only [runLine, enqueueByte] at h
    split at h <;> cases h
  · cases h

/-- A run of lines whose demands are met keeps the invariant. -/
theorem runLines_sound (i : Instr) (lines : List Line) (n : Nat) (s : State) (h : Going i lines n s) :
    outcomeSat State.Inv (· = .opWrittenWhileBusy) (runLines i lines n s) := by
  induction lines generalizing n s with
  | nil => exact absurd h.ok (by simp [linesOk])
  | cons l rest ih =>
    cases n with
    | succ n => exact ih n s h.skip
    | zero =>
      have hw := h.waiting
      have ha := await_keeps (Waiting.kept i l rest) l s.sched _ hw
      rw [runLines]
      split
      · rename_i s1 hs1
        rw [hs1] at ha
        obtain ⟨ha, hen⟩ := ha
        have hl := runLine_ok ha.base (ha.pending hen) (linesOk_head ha.ok)
        split
        · rename_i s2 h2
          rw [h2] at hl
          exact ih 0 s2 (ha.went h2 hl)
        · rename_i m s2 h2
          rw [h2] at hl
          exact ih m s2 (ha.branched hl)
        · rename_i s2 h2
          rw [h2] at hl
          exact ha.ended (runLine_done_inEnqueue h2) hl
        · rename_i r h2
          rw [h2] at hl
          exact hl
        · rename_i r h2
          rw [h2] at hl
          exact hl.elim
      · rename_i s1 hs1
        rw [hs1] at ha
        rcases ha with ha | ⟨u, hu, rfl⟩
        · exact ha.inv
        · exact hu.base.inv_coreReset
      · rename_i r hs1
        rw [hs1] at ha
        exact ha

end Sys2Proof.Machine
end

