-- ==== Sys2Proof/Laws/Programs.lean ====
section
/-!
SUPPORT. The lines of every operation ask nothing that the control part does not give: the demands of each program are
met from a controller at rest (`OkAfter`), so that no operation runs into a situation without a meaning.
-/

namespace Sys2Proof.Machine

/-- From a controller at rest the lines' demands are met. -/
def OkAfter (cfg : Config) (fas : AddressSpace) (lines : List Line) : Prop :=
  ∀ c : Ctl, c.clean = true → linesOk cfg fas lines 0 c = true

variable {cfg : Config} {fas : AddressSpace}

/-! ## Enqueue calls -/

theorem enqueueTail_bytes (bs : List Byte) (rest : List Line) :
    enqueueTail bs.length (enqueueBytes bs ++ rest) = true := by
  induction bs with
  | nil => rfl
  | cons b bs ih => simp [enqueueBytes, enqueueTail, ih]

theorem linesOk_enqueue_skip (bs : List Byte) (rest : List Line) (c : Ctl) :
    linesOk cfg fas (enqueueBytes bs ++ rest) bs.length c = linesOk cfg fas (.enqArm :: rest) 0 c := by
  induction bs with
  | nil => rfl
  | cons b bs ih => exact ih

theorem linesOk_enqArm {rest : List Line} {c : Ctl} (hp : c.pending = .none) (h : linesOk cfg fas rest 0 c = true) :
    linesOk cfg fas (.enqArm :: rest) 0 c = true := by
  rw [linesOk_cons]
  simp [Line.ok, Line.ends, Line.stops, Line.branch?, Ctl.after, hp, h]

theorem linesOk_enqueueBytes (bs : List Byte) {rest : List Line} {c : Ctl} (hp : c.pending = .none)
    (h : linesOk cfg fas rest 0 c = true) : linesOk cfg fas (enqueueBytes bs ++ rest) 0 c = true := by
  induction bs with
  | nil => exact linesOk_enqArm hp h
  | cons b bs ih =>
    rw [enqueueBytes, List.cons_append, linesOk_cons]
    simp [Line.ok, Line.ends, Line.stops, Line.branch?, Ctl.after, hp, enqueueTail_bytes, ih, linesOk_enqueue_skip,
      linesOk_enqArm hp h]

/-- A frame handed to the ring asks only that no cycle is pending. -/
theorem linesOk_emit (bs : List Byte) {rest : List Line} {c : Ctl} (hp : c.pending = .none)
    (h : linesOk cfg fas rest 0 c = true) : linesOk cfg fas (emit bs ++ rest) 0 c = true := by
  rw [emit, List.cons_append, linesOk_cons]
  have hr := linesOk_enqueueBytes (cfg := cfg) (fas := fas) bs hp h
  cases bs with
  | nil =>
    simp only [enqueueBytes, List.cons_append, List.nil_append] at hr ⊢
    simp [Line.ok, Line.ends, Line.stops, Line.branch?, Ctl.after, hp, hr]
  | cons b bs =>
    have ht := enqueueTail_bytes bs rest
    simp only [enqueueBytes, List.cons_append] at hr ⊢
    simp [Line.ok, Line.ends, Line.stops, Line.branch?, Ctl.after, hp, hr, ht]

theorem OkAfter.emit (bs : List Byte) {rest : List Line} (h : OkAfter cfg fas rest) :
    OkAfter cfg fas (emit bs ++ rest) := fun c hc => linesOk_emit bs (Ctl.clean_pending hc) (h c hc)

theorem okAfter_ret (v : Word) : OkAfter cfg fas [.ret v] := fun c hc => by
  rw [linesOk_cons]
  simp [Line.ok, Line.ends, hc]

theorem okAfter_fail (x : Cause) : OkAfter cfg fas [.fail x] := fun c hc => by
  rw [linesOk_cons]
  simp [Line.ok, Line.ends, hc]

theorem OkAfter.fail_cons (x : Cause) (rest : List Line) : OkAfter cfg fas (.fail x :: rest) := fun c hc => by
  rw [linesOk_cons]
  simp [Line.ok, Line.ends, hc]

/-- A line that moves nothing of the control part. -/
theorem OkAfter.line {l : Line} {rest : List Line} (h : OkAfter cfg fas rest)
    (hok : ∀ c : Ctl, c.clean = true → l.ok cfg fas rest c = true) (ha : ∀ c, Ctl.after cfg fas l c = c)
    (hb : l.branch? = none) : OkAfter cfg fas (l :: rest) := fun c hc => by
  rw [linesOk_cons, hok c hc, ha c, h c hc, hb]
  simp

/-! ## The bound test and the verification -/

theorem OkAfter.bound {d : Word} {rest : List Line} (h : d.toNat < fas.endAddr.toNat → OkAfter cfg fas rest) :
    OkAfter cfg fas (.bound d :: rest) := fun c hc => by
  rw [linesOk_cons]
  by_cases hd : fas.endAddr.toNat ≤ d.toNat
  · simp [Line.ok, hc, Line.ends, Line.stops, hd, Line.branch?]
  · simp [Line.ok, hc, Line.ends, Line.stops, Line.branch?, Ctl.after, h (by omega) c hc]

theorem OkAfter.verify {d : Word} {v : Half} {rest : List Line} (h : OkAfter cfg fas rest) (hd : d.toNat % 2 = 0)
    (hin : inFlash cfg fas d 2 = true) : OkAfter cfg fas (.verify d v :: rest) := fun c hc => by
  rw [linesOk_cons]
  simp [Line.ok, hc, hd, hin, Line.ends, Line.stops, Line.branch?, Ctl.after, h c hc]

/-- `d + 2` does not wrap below `FAS.end` (spec/20_memory.md R66). -/
theorem toNat_add_two {d : Word} (h : d.toNat + 2 ≤ 2 ^ 32 - 1) : (d + 2).toNat = d.toNat + 2 := by
  rw [BitVec.toNat_add]
  simp
  omega

theorem OkAfter.verifyLines {d : Word} {vs : List Half} {rest : List Line} (h : OkAfter cfg fas rest)
    (hd : d.toNat % 2 = 0) (ho : cfg.flashOrigin.toNat ≤ d.toNat) (he : d.toNat + 2 * vs.length ≤ fas.endAddr.toNat)
    (hw : fas.endAddr.toNat + 2 ≤ 2 ^ 32) : OkAfter cfg fas (verifyLines d vs ++ rest) := by
  induction vs generalizing d with
  | nil => exact h
  | cons v vs ih =>
    rw [List.length_cons] at he
    have h2 : (d + 2).toNat = d.toNat + 2 := toNat_add_two (by omega)
    refine OkAfter.verify (ih ?_ ?_ ?_) hd ((inFlash_iff ..).mpr ⟨ho, by omega⟩)
    · rw [h2]; omega
    · rw [h2]; omega
    · rw [h2]; omega

/-! ## Variant G -/

theorem OkAfter.gUnlock {rest : List Line} (hv : cfg.variant = .g) (h : OkAfter cfg fas rest) :
    OkAfter cfg fas (.gUnlock :: rest) := fun c hc => by
  have hp := Ctl.clean_pending hc
  rw [linesOk_cons, h (Ctl.after cfg fas .gUnlock c) hc]
  simp [Line.ok, hp, hv, Line.branch?]

theorem OkAfter.gLock {rest : List Line} (hv : cfg.variant = .g) (h : OkAfter cfg fas rest) :
    OkAfter cfg fas (.gLock :: rest) := fun c hc => by
  have hp := Ctl.clean_pending hc
  rw [linesOk_cons, h (Ctl.after cfg fas .gLock c) hc]
  simp [Line.ok, hp, hv, Line.branch?]

theorem linesOk_gErase {d : Word} {rest : List Line} {c : Ctl} (hv : cfg.variant = .g) (hp : c.pending = .none)
    (hin : inFlash cfg fas (pageStart fas.pageSize d) fas.pageSize.toNat = true)
    (h : linesOk cfg fas rest 0 c = true) : linesOk cfg fas (.gErase d :: .gWait :: rest) 0 c = true := by
  have hs : Ctl.settle cfg.variant { c with pending := .erase (pageStart fas.pageSize d) } = c := by
    simp only [Ctl.settle, hv, reduceCtorEq, if_false]
    rw [← hp]
  rw [linesOk_cons, linesOk_cons]
  simp [Line.ok, Line.ends, Line.stops, Line.branch?, Ctl.after, hp, hv, hin]
  rw [hv] at hs
  rw [hs]
  exact h

theorem linesOk_gProg {d : Word} {v : Half} {rest : List Line} {c : Ctl} (hv : cfg.variant = .g)
    (hp : c.pending = .none) (hd : d.toNat % 2 = 0) (hin : inFlash cfg fas d 2 = true)
    (h : linesOk cfg fas rest 0 c = true) : linesOk cfg fas (.gProg d v :: .gWait :: rest) 0 c = true := by
  have hs : Ctl.settle cfg.variant { c with pending := .progHalf d v } = c := by
    simp only [Ctl.settle]
    rw [← hp]
  rw [linesOk_cons, linesOk_cons]
  simp [Line.ok, Line.ends, Line.stops, Line.branch?, Ctl.after, hp, hv, hd, hin]
  rw [hv] at hs
  rw [hs]
  exact h

theorem OkAfter.halfLinesG {d : Word} {v : Half} {rest : List Line} (hv : cfg.variant = .g) (hd : d.toNat % 2 = 0)
    (hin : d.toNat < fas.endAddr.toNat → inFlash cfg fas d 2 = true ∧
      inFlash cfg fas (pageStart fas.pageSize d) fas.pageSize.toNat = true)
    (h : d.toNat < fas.endAddr.toNat → OkAfter cfg fas rest) : OkAfter cfg fas (halfLinesG d v ++ rest) := by
  refine OkAfter.bound fun hb c hc => ?_
  obtain ⟨h1, h2⟩ := hin hb
  have hp := Ctl.clean_pending hc
  have hprog : linesOk cfg fas (.gProg d v :: .gWait :: .windowPast d :: .verify d v :: rest) 0 c = true := by
    refine linesOk_gProg hv hp hd h1 ?_
    rw [linesOk_cons]
    have hver := OkAfter.verify (v := v) (h hb) hd h1 c hc
    simp [Line.ok, Line.ends, Line.stops, Line.branch?, Ctl.after, hp, hv, hver]
  have hpage : linesOk cfg fas (.gErase d :: .gWait :: .windowPage d :: .gProg d v :: .gWait :: .windowPast d ::
      .verify d v :: rest) 0 c = true := by
    refine linesOk_gErase hv hp h2 ?_
    rw [linesOk_cons]
    simp [Line.ok, Line.ends, Line.stops, Line.branch?, Ctl.after, hp, hv, hprog]
  change linesOk cfg fas (.windowTest d :: .gErase d :: .gWait :: .windowPage d :: .gProg d v :: .gWait ::
    .windowPast d :: .verify d v :: rest) 0 c = true
  rw [linesOk_cons]
  simp [Line.ok, Line.ends, Line.stops, Line.branch?, Ctl.after, hp, hv, hprog, hpage]

theorem OkAfter.arrayLoopG {d : Word} {vs : List Half} {rest : List Line} (hv : cfg.variant = .g)
    (g : Geometry cfg) (hfas : fas = AddressSpace.latch cfg) (hd : d.toNat % 2 = 0)
    (ho : cfg.flashOrigin.toNat ≤ d.toNat) (h : OkAfter cfg fas rest) :
    OkAfter cfg fas (arrayLoopG d vs ++ rest) := by
  subst hfas
  induction vs generalizing d with
  | nil => exact h
  | cons v vs ih =>
    rw [Sys2Proof.Machine.arrayLoopG, List.append_assoc]
    have hpos := g.two_dvd
    have hend := g.endAddr_le
    have hed := Nat.dvd_trans hpos g.endAddr_dvd
    have hle := Nat.le_of_dvd (by have := g.pageSize_pos; omega) hpos
    refine OkAfter.halfLinesG hv hd (fun hb => ⟨?_, ?_⟩) (fun hb => ih ?_ ?_)
    · rw [inFlash_iff]; omega
    · rw [inFlash_iff]
      exact g.page_inFlash ho hb
    · rw [toNat_add_two (by omega)]; omega
    · rw [toNat_add_two (by omega)]; omega

/-! ## Variant A -/

theorem OkAfter.unlockA {rest : List Line} (hv : cfg.variant = .a) (h : OkAfter cfg fas rest) :
    OkAfter cfg fas (.keyWrite .main cfg.key1 :: .keyWrite .main cfg.key2 :: .keyWrite .mode cfg.key1 ::
      .keyWrite .mode cfg.key2 :: rest) := fun c hc => by
  obtain ⟨per, ppg, locked, stale, pending, keyseq, addr, staged⟩ := c
  obtain ⟨rfl, rfl, rfl, rfl, h5, rfl⟩ := (Ctl.clean_iff _).mp hc
  simp only [linesOk_cons]
  have hr := h ⟨false, false, false, false, .none, 4, addr, 0⟩ (by simp [Ctl.clean_iff])
  rcases h5 with h5 | h5 <;> simp only at h5 <;> subst h5 <;>
    simp [Line.ok, Line.ends, Line.stops, Line.branch?, Ctl.after, hv, expectedKey, hr]

theorem OkAfter.lockA {rest : List Line} (hv : cfg.variant = .a) (h : OkAfter cfg fas rest) :
    OkAfter cfg fas (.ctlSet .lock :: rest) := fun c hc => by
  obtain ⟨per, ppg, locked, stale, pending, keyseq, addr, staged⟩ := c
  obtain ⟨rfl, rfl, rfl, rfl, h5, rfl⟩ := (Ctl.clean_iff _).mp hc
  rw [linesOk_cons, h (Ctl.after cfg fas (.ctlSet .lock) _) (by simp [Ctl.after, Ctl.clean_iff])]
  simp [Line.ok, Line.branch?, hv]

theorem OkAfter.erasePageLines {d : Word} {rest : List Line} (hv : cfg.variant = .a)
    (hin : inFlash cfg fas (pageOfA d) Config.pageBytes = true) (h : OkAfter cfg fas rest) :
    OkAfter cfg fas (erasePageLines d ++ rest) := fun c hc => by
  obtain ⟨per, ppg, locked, stale, pending, keyseq, addr, staged⟩ := c
  obtain ⟨rfl, rfl, rfl, rfl, h5, rfl⟩ := (Ctl.clean_iff _).mp hc
  have hpp : pageOfA (pageOfA d) = pageOfA d := by
    unfold pageOfA
    rw [BitVec.and_assoc, BitVec.and_self]
  have hr := linesOk_emit statusE (cfg := cfg) (fas := fas) (rest := rest)
    (c := ⟨false, false, locked, false, .none, keyseq, pageOfA d, 0⟩) rfl
    (h _ (by simpa [Ctl.clean_iff] using h5))
  simp only [Sys2Proof.Machine.erasePageLines, refreshLines, List.cons_append, List.nil_append]
  simp only [linesOk_cons]
  simp [Line.ok, Line.ends, Line.stops, Line.branch?, Ctl.after, Ctl.settle, hv, hpp, hin, hr]

theorem linesOk_memWrites {a : Word} {ws : List Word} {rest : List Line} {c : Ctl} (hv : cfg.variant = .a)
    (hp : c.pending = .none) (hppg : c.ppg = true) (ha : a.toNat % 4 = 0) (ho : cfg.flashOrigin.toNat ≤ a.toNat)
    (he : a.toNat + 4 * ws.length ≤ fas.endAddr.toNat) (hw : fas.endAddr.toNat + 4 ≤ 2 ^ 32)
    (hn : c.locked = true ∨ c.staged + ws.length ≤ 4)
    (h : linesOk cfg fas rest 0 { c with staged := if c.locked then c.staged else c.staged + ws.length } = true) :
    linesOk cfg fas (memWriteLines a ws ++ rest) 0 c = true := by
  induction ws generalizing a c with
  | nil =>
    have hc : { c with staged := if c.locked then c.staged else c.staged + 0 } = c := by simp
    rw [List.length_nil, hc] at h
    exact h
  | cons w ws ih =>
    simp only [List.length_cons] at he hn h
    have h4 : (a + 4).toNat = a.toNat + 4 := by
      rw [BitVec.toNat_add]; simp; omega
    rw [memWriteLines, List.cons_append, linesOk_cons]
    have hin : inFlash cfg fas a 4 = true := (inFlash_iff ..).mpr ⟨ho, by omega⟩
    have hr := ih (a := a + 4) (c := Ctl.after cfg fas (.memWrite a w) c) hp hppg (by omega) (by omega) (by omega)
      (by
        cases hl : c.locked with
        | true => exact .inl hl
        | false =>
          refine .inr ?_
          simp only [Ctl.after, hl, Bool.false_eq_true, if_false]
          simp only [hl, Bool.false_eq_true, false_or] at hn
          omega)
      (by
        cases hl : c.locked with
        | true => simpa [Ctl.after, hl] using h
        | false => simpa [Ctl.after, hl, Nat.add_assoc, Nat.add_comm 1] using h)
    rw [hr]
    have : c.locked = true ∨ c.staged < Config.batchWords := by
      rcases hn with hn | hn
      · exact .inl hn
      · exact .inr (by simp only [Config.batchWords]; omega)
    simp [Line.ok, Line.ends, Line.branch?, hp, hv, ha, hin, hppg, this]

theorem OkAfter.batchLines {b : Word} {batch : List Half} {rest : List Line} (hv : cfg.variant = .a)
    (ha : b.toNat % 4 = 0) (ho : cfg.flashOrigin.toNat ≤ b.toNat)
    (he : b.toNat + 4 * (packWords batch).length ≤ fas.endAddr.toNat) (hw : fas.endAddr.toNat + 4 ≤ 2 ^ 32)
    (hn : (packWords batch).length ≤ 4) (h : OkAfter cfg fas rest) :
    OkAfter cfg fas (batchLines b batch ++ rest) := fun c hc => by
  obtain ⟨per, ppg, locked, stale, pending, keyseq, addr, staged⟩ := c
  obtain ⟨rfl, rfl, rfl, rfl, h5, rfl⟩ := (Ctl.clean_iff _).mp hc
  simp only [Sys2Proof.Machine.batchLines, refreshLines, List.cons_append, List.nil_append, List.append_assoc]
  have hr := h ⟨false, false, locked, false, .none, keyseq, addr, 0⟩ (by simpa [Ctl.clean_iff] using h5)
  rw [linesOk_cons]
  simp only [Line.ok, Line.ends, Line.stops, Line.branch?, Ctl.after, hv]
  rw [linesOk_memWrites (c := ⟨false, true, locked, false, .none, keyseq, addr, 0⟩) hv rfl rfl ha ho he hw
    (.inr (by simpa using hn))]
  · simp
  · simp only [linesOk_cons]
    cases locked <;>
      simp [Line.ok, Line.ends, Line.stops, Line.branch?, Ctl.after, Ctl.settle, hv, hr]

theorem packWords_length (l : List Half) : (packWords l).length = (l.length + 1) / 2 := by
  induction l using packWords.induct with
  | case1 => rfl
  | case2 lo => simp [packWords]
  | case3 lo hi rest ih =>
    simp only [packWords, List.length_cons, ih]
    omega

theorem OkAfter.flatMap {α : Type} {f : α → List Line} {l : List α} {rest : List Line}
    (hf : ∀ x ∈ l, ∀ r, OkAfter cfg fas r → OkAfter cfg fas (f x ++ r)) (h : OkAfter cfg fas rest) :
    OkAfter cfg fas (l.flatMap f ++ rest) := by
  induction l with
  | nil => exact h
  | cons x l ih =>
    rw [List.flatMap_cons, List.append_assoc]
    exact hf x List.mem_cons_self _ (ih fun y hy => hf y (List.mem_cons_of_mem _ hy))

theorem toNat_add_ofNat {a : Word} {n : Nat} (h : a.toNat + n < 2 ^ 32) : (a + BitVec.ofNat 32 n).toNat = a.toNat + n := by
  rw [BitVec.toNat_add, BitVec.toNat_ofNat]
  omega

theorem batchOf_length (data : List Half) (k : Nat) : (batchOf data k).length = min 8 (data.length - 8 * k) := by
  simp [batchOf, Config.batchHalves]

/-- A page of the array as the batches see it. -/
structure PageIn (cfg : Config) (fas : AddressSpace) (a : Word) : Prop where
  aligned : a.toNat % 128 = 0
  origin : cfg.flashOrigin.toNat ≤ a.toNat
  fits : a.toNat + 128 ≤ fas.endAddr.toNat
  room : fas.endAddr.toNat + 128 ≤ 2 ^ 32

theorem PageIn.inFlash {a : Word} (h : PageIn cfg fas a) : inFlash cfg fas (pageOfA a) Config.pageBytes = true := by
  rw [pageOfA_of_aligned h.aligned, inFlash_iff]
  exact ⟨h.origin, h.fits⟩

theorem OkAfter.loadLines {a : Word} {data : List Half} {rest : List Line} (hv : cfg.variant = .a)
    (hp : PageIn cfg fas a) (hm : data.length ≤ 64) (h : OkAfter cfg fas rest) :
    OkAfter cfg fas (loadLines a data ++ rest) := by
  refine OkAfter.flatMap (fun k hk r hr => ?_) h
  rw [List.mem_range] at hk
  simp only [Config.batchHalves] at hk
  have h1 := hp.aligned
  have h2 := hp.fits
  have h3 := hp.room
  have h4 := hp.origin
  have ha : (a + BitVec.ofNat 32 (16 * k)).toNat = a.toNat + 16 * k := toNat_add_ofNat (by omega)
  have hl : (packWords (batchOf data k)).length ≤ 4 := by
    rw [packWords_length, batchOf_length]
    omega
  refine OkAfter.batchLines hv ?_ ?_ ?_ (by omega) hl hr
  · rw [ha]; omega
  · rw [ha]; omega
  · rw [ha]; omega

theorem OkAfter.bufferResetLines {rest : List Line} (hv : cfg.variant = .a) (h : OkAfter cfg fas rest) :
    OkAfter cfg fas (bufferResetLines ++ rest) := fun c hc => by
  obtain ⟨per, ppg, locked, stale, pending, keyseq, addr, staged⟩ := c
  obtain ⟨rfl, rfl, rfl, rfl, h5, rfl⟩ := (Ctl.clean_iff _).mp hc
  have hr := h ⟨false, false, locked, false, .none, keyseq, addr, 0⟩ (by simpa [Ctl.clean_iff] using h5)
  simp only [Sys2Proof.Machine.bufferResetLines, List.cons_append, List.nil_append, linesOk_cons]
  cases locked <;> simp [Line.ok, Line.ends, Line.stops, Line.branch?, Ctl.after, Ctl.settle, hv, hr]

theorem OkAfter.commitLines {a : Word} {rest : List Line} (hv : cfg.variant = .a) (hp : PageIn cfg fas a)
    (h : OkAfter cfg fas rest) : OkAfter cfg fas (commitLines a ++ rest) := fun c hc => by
  obtain ⟨per, ppg, locked, stale, pending, keyseq, addr, staged⟩ := c
  obtain ⟨rfl, rfl, rfl, rfl, h5, rfl⟩ := (Ctl.clean_iff _).mp hc
  have hr := h ⟨false, false, locked, false, .none, keyseq, a, 0⟩ (by simpa [Ctl.clean_iff] using h5)
  simp only [Sys2Proof.Machine.commitLines, refreshLines, List.cons_append, List.nil_append, linesOk_cons]
  simp [Line.ok, Line.ends, Line.stops, Line.branch?, Ctl.after, Ctl.settle, hv, hp.inFlash, hr]

theorem OkAfter.statusLines {rest : List Line} (hv : cfg.variant = .a) (h : OkAfter cfg fas rest) :
    OkAfter cfg fas (statusLines ++ rest) := fun c hc => by
  have hp := Ctl.clean_pending hc
  simp only [Sys2Proof.Machine.statusLines, List.cons_append, List.nil_append, linesOk_cons]
  simp [Line.ok, Line.ends, Line.stops, Line.branch?, Ctl.after, hp, hv, hc, h c hc]

theorem pageParamBad_false {a m : Word} (h : pageParamBad a m = false) : a.toNat % 128 = 0 ∧ m.toNat ≤ 64 := by
  rw [pageParamBad, Bool.or_eq_false_iff, misalignedA_eq_false_iff, decide_eq_false_iff_not, Config.pageBufHalves] at h
  omega

theorem OkAfter.programPageLines {upper : Bool} {a m : Word} {data : List Half} {rest : List Line}
    (hv : cfg.variant = .a) (hl : data.length ≤ m.toNat) (hp : pageParamBad a m = false → PageIn cfg fas a)
    (h : OkAfter cfg fas rest) : OkAfter cfg fas (programPageLines upper a m data ++ rest) := by
  unfold Sys2Proof.Machine.programPageLines
  cases hb : pageParamBad a m with
  | true => exact OkAfter.fail_cons _ _
  | false =>
    have hpa := hp hb
    have := (pageParamBad_false hb).2
    simp only [Bool.false_eq_true, if_false, List.append_assoc]
    exact OkAfter.emit _ (OkAfter.bufferResetLines hv (OkAfter.loadLines hv hpa (by omega)
      (OkAfter.commitLines hv hpa (OkAfter.statusLines hv (OkAfter.emit _ h)))))

theorem chunkOf_length (data : List Half) (q : Nat) : (chunkOf data q).length = min 64 (data.length - 64 * q) := by
  simp [chunkOf, Config.pageBufHalves]

/-- The pages of `flash_program_array.a` from page `q` on. -/
theorem OkAfter.arrayPages {upper : Bool} {dest : Word} {data : List Half} {rest : List Line} (hv : cfg.variant = .a)
    (g : Geometry cfg) (hfas : fas = AddressSpace.latch cfg) (hd : dest.toNat % 128 = 0)
    (ho : cfg.flashOrigin.toNat ≤ dest.toNat) (h : OkAfter cfg fas rest) (n q : Nat)
    (hw : dest.toNat + 128 * q < 2 ^ 32) :
    OkAfter cfg fas ((List.range' q n).flatMap (fun q =>
      arrayPageLines upper (dest + BitVec.ofNat 32 (Config.pageBytes * q)) (chunkOf data q)) ++ rest) := by
  have hps := g.pageSizeA hv
  have hend := g.endAddr_le
  have hdv := g.endAddr_dvd
  rw [hps] at hdv hend
  rw [← hfas] at hdv hend
  induction n generalizing q with
  | zero => exact h
  | succ n ih =>
    rw [List.range'_succ, List.flatMap_cons, List.append_assoc]
    have ha : (dest + BitVec.ofNat 32 (Config.pageBytes * q)).toNat = dest.toNat + 128 * q := toNat_add_ofNat hw
    refine OkAfter.bound fun hb => ?_
    rw [ha] at hb
    have hfit : dest.toNat + 128 * q + 128 ≤ fas.endAddr.toNat :=
      page_le_of_lt (n := 128) (by omega) hdv hb
    have hp : PageIn cfg fas (dest + BitVec.ofNat 32 (Config.pageBytes * q)) :=
      { aligned := by rw [ha]; omega, origin := by rw [ha]; omega, fits := by rw [ha]; omega, room := hend }
    have hlen := chunkOf_length data q
    rw [List.append_eq, List.append_assoc, List.append_assoc]
    refine OkAfter.erasePageLines hv hp.inFlash (OkAfter.programPageLines hv ?_ (fun _ => hp)
      (OkAfter.verifyLines (ih (q + 1) (by omega)) ?_ ?_ ?_ (by omega)))
    · rw [BitVec.toNat_ofNat, Nat.mod_eq_of_lt (by omega)]
    · rw [ha]; omega
    · rw [ha]; omega
    · rw [ha]; omega

theorem OkAfter.arrayLoopA {upper : Bool} {dest : Word} {data : List Half} {rest : List Line} (hv : cfg.variant = .a)
    (g : Geometry cfg) (hfas : fas = AddressSpace.latch cfg) (hd : dest.toNat % 128 = 0)
    (ho : cfg.flashOrigin.toNat ≤ dest.toNat) (h : OkAfter cfg fas rest) :
    OkAfter cfg fas (arrayLoopA upper dest data ++ rest) := by
  rw [Sys2Proof.Machine.arrayLoopA, List.range_eq_range']
  exact OkAfter.arrayPages hv g hfas hd ho h _ 0 (by have := dest.isLt; omega)

end Sys2Proof.Machine
end

