-- ==== Sys2Proof/Laws/Exec.lean ====
section
/-!
SUPPORT. What every meaning shares: an operation is refused, or starts and runs its lines (`start_spec`); the lines of
each operation ask nothing that is not given; and the invariant is kept (`exec_sound`).
-/

namespace Sys2Proof.Machine

/-- An operation at the command port is refused, or starts and runs its lines. -/
theorem start_spec (i : Instr) (pre : Option Refusal) (lines : List Line) (s : State) :
    (s.busy = true ∧ start i pre lines s = .refused .opWrittenWhileBusy) ∨
    (s.busy = false ∧ i.wf s.cfg.variant = false ∧ start i pre lines s = .refused .absentInVariant) ∨
    (∃ r, s.busy = false ∧ i.wf s.cfg.variant = true ∧ pre = some r ∧ start i pre lines s = .refused r) ∨
    (s.busy = false ∧ i.wf s.cfg.variant = true ∧ pre = none ∧
      start i pre lines s = runLines i lines 0 (s.begin i lines)) := by
  unfold start
  cases hb : s.busy <;> cases hw : i.wf s.cfg.variant <;> cases pre <;> simp

/-- An operation whose preconditions hold starts. -/
theorem start_runs {i : Instr} {pre : Option Refusal} (lines : List Line) {s : State} (hb : s.busy = false)
    (hw : i.wf s.cfg.variant = true) (hp : pre = none) :
    start i pre lines s = runLines i lines 0 (s.begin i lines) := by
  simp [start, hb, hw, hp]

/-- The state in which an operation of a sound idle core starts. -/
theorem going_begin {s : State} (h : s.Inv) (hb : s.busy = false) {i : Instr} (hw : i.wf s.cfg.variant = true)
    {lines : List Line} (hl : OkAfter s.cfg s.fas lines) : Going i lines 0 (s.begin i lines) := by
  have hseq := h.2.2.2.2.2.2
  have harm := h.2.2.2.2.2.1
  have hidle : s.seq = .idle := by
    cases hs : s.seq with
    | idle => rfl
    | running j ls => simp [State.seqOk, hs, hb] at hseq
  rw [State.seqOk, hidle] at hseq
  simp only [Bool.and_eq_true] at hseq
  refine { base := h.base.same rfl rfl rfl rfl rfl rfl rfl, busy := rfl, wf := hw, ok := hl _ hseq.1.2, armed := ?_ }
  refine State.ArmedOr.weaken ?_ _
  rw [State.armOk, hidle] at harm
  simp only [SeqPos.midEnqueue, Bool.and_false, Bool.or_false, Bool.or_eq_true] at harm
  rcases harm with ha | ha
  · exact .inl ha
  · exact .inr (.inl ha)

/-- A meaning keeps the invariant when its lines ask nothing that is not given. -/
theorem start_sound {s : State} (h : s.Inv) {i : Instr} {pre : Option Refusal} {lines : List Line}
    (hv : i.wf s.cfg.variant = true)
    (hpre : ∀ r, pre = some r → r.hostMade = true) (hl : pre = none → OkAfter s.cfg s.fas lines) :
    outcomeSat State.Inv (fun r => r.hostMade = true) (start i pre lines s) := by
  rcases start_spec i pre lines s with ⟨-, he⟩ | ⟨-, hw, he⟩ | ⟨r, -, -, hp, he⟩ | ⟨hb, hw, hp, he⟩
  · rw [he]; rfl
  · rw [hv] at hw; cases hw
  · rw [he]; exact hpre r hp
  · rw [he]
    have hs := runLines_sound i lines 0 _ (going_begin h hb hw (hl hp))
    cases ho : runLines i lines 0 (s.begin i lines) with
    | next t => rw [ho] at hs; exact hs
    | fault r => rw [ho] at hs; exact hs
    | refused r => rw [ho] at hs; rw [hs]; rfl

/-! ## The lines of every operation -/

theorem State.Base.end_room {s : State} (h : s.Base) : s.fas.endAddr.toNat + s.cfg.pageSize.toNat ≤ 2 ^ 32 := by
  rw [h.fas]; exact h.geometry.endAddr_le

theorem okAfter_unlockG {s : State} (hv : s.cfg.variant = .g) : OkAfter s.cfg s.fas [.gUnlock, .ret 1] :=
  OkAfter.gUnlock hv (okAfter_ret 1)

theorem okAfter_lockG {s : State} (hv : s.cfg.variant = .g) : OkAfter s.cfg s.fas [.gLock, .ret 1] :=
  OkAfter.gLock hv (okAfter_ret 1)

theorem okAfter_erasePageG {s : State} (hv : s.cfg.variant = .g)
    (hp : pageInArray s (pageStart s.fas.pageSize s.a0) = true) :
    OkAfter s.cfg s.fas [.gErase s.a0, .gWait, .ret 1] := fun c hc =>
  linesOk_gErase hv (Ctl.clean_pending hc) hp (okAfter_ret 1 c hc)

theorem arrayPreG_none {s : State} (h : arrayPreG s = none) :
    s.a0.toNat % 2 = 0 ∧ s.fas.base.toNat ≤ s.a0.toNat ∧ s.a1.toNat ≤ s.src.halfWords.length := by
  unfold arrayPreG at h
  split at h
  · cases h
  · split at h
    · cases h
    · split at h
      · cases h
      · omega

theorem State.Base.origin_le_base {s : State} (h : s.Base) : s.cfg.flashOrigin.toNat ≤ s.fas.base.toNat := by
  rw [h.fas]; exact h.geometry.origin_le

theorem okAfter_arrayG {s : State} (h : s.Base) (hv : s.cfg.variant = .g) (hp : arrayPreG s = none) :
    OkAfter s.cfg s.fas (arrayLinesG s) := by
  obtain ⟨h1, h2, -⟩ := arrayPreG_none hp
  have := h.origin_le_base
  rw [arrayLinesG, List.append_assoc]
  exact OkAfter.emit _ (OkAfter.arrayLoopG hv h.geometry h.fas h1 (by omega) (okAfter_ret 1))

theorem okAfter_sessionReset {s : State} : OkAfter s.cfg s.fas [.windowEmpty, .ret 1] :=
  OkAfter.line (okAfter_ret 1) (fun c hc => by simp [Line.ok, Ctl.clean_pending hc]) (fun _ => rfl) rfl

theorem okAfter_unlockA {s : State} (hv : s.cfg.variant = .a) :
    OkAfter s.cfg s.fas
      ([.keyWrite .main s.cfg.key1, .keyWrite .main s.cfg.key2, .keyWrite .mode s.cfg.key1, .keyWrite .mode s.cfg.key2]
        ++ emit statusU ++ [.ret 1]) := OkAfter.unlockA hv (OkAfter.emit _ (okAfter_ret 1))

theorem okAfter_lockA {s : State} (hv : s.cfg.variant = .a) :
    OkAfter s.cfg s.fas ([.ctlSet .lock] ++ emit statusL ++ [.ret 1]) :=
  OkAfter.lockA hv (OkAfter.emit _ (okAfter_ret 1))

theorem okAfter_erasePageA {s : State} (hv : s.cfg.variant = .a) (hp : pageInArrayA s (pageOfA s.a0) = true) :
    OkAfter s.cfg s.fas (erasePageLines s.a0 ++ [.ret 1]) := OkAfter.erasePageLines hv hp (okAfter_ret 1)

theorem operandHalves_length_le (s : State) : s.operandHalves.length ≤ s.a1.toNat := by
  simp [State.operandHalves]

theorem pagePre_none {s : State} (h : pagePre s = none) (hb : pageParamBad s.a0 s.a1 = false) :
    pageInArrayA s s.a0 = true ∧ s.a1.toNat ≤ s.src.halfWords.length := by
  unfold pagePre at h
  rw [hb] at h
  simp only [Bool.false_eq_true, if_false] at h
  split at h
  · cases h
  · split at h
    · cases h
    · rename_i h1 h2
      exact ⟨by simpa using h2, by omega⟩

theorem pageIn_of_pagePre {s : State} (h : s.Base) (hv : s.cfg.variant = .a) (hp : pagePre s = none)
    (hb : pageParamBad s.a0 s.a1 = false) : PageIn s.cfg s.fas s.a0 := by
  have h1 := (pagePre_none hp hb).1
  have h2 := h.end_room
  rw [h.pageBytes hv] at h2
  rw [pageInArrayA, State.inArray_eq, inFlash_iff] at h1
  exact { aligned := (pageParamBad_false hb).1, origin := h1.1, fits := h1.2, room := h2 }

theorem okAfter_programPage {s : State} (h : s.Base) (hv : s.cfg.variant = .a) (hp : pagePre s = none) :
    OkAfter s.cfg s.fas (programPageLines s.cfg.hexUpper s.a0 s.a1 s.operandHalves ++ [.ret 1]) :=
  OkAfter.programPageLines hv (operandHalves_length_le s) (pageIn_of_pagePre h hv hp) (okAfter_ret 1)

theorem arrayPreA_none {s : State} (h : arrayPreA s = none) (ha : misalignedA s.a0 = false) :
    s.fas.base.toNat ≤ s.a0.toNat ∧ s.a1.toNat ≤ s.src.halfWords.length := by
  unfold arrayPreA at h
  rw [ha] at h
  simp only [Bool.false_eq_true, if_false] at h
  split at h
  · cases h
  · split at h
    · cases h
    · omega

theorem okAfter_arrayA {s : State} (h : s.Base) (hv : s.cfg.variant = .a) (hp : arrayPreA s = none) :
    OkAfter s.cfg s.fas (arrayLinesA s) := by
  rw [arrayLinesA]
  refine OkAfter.emit _ ?_
  split
  · exact okAfter_fail _
  · rename_i ha
    have ha' : misalignedA s.a0 = false := by simpa using ha
    have h1 := (arrayPreA_none hp ha').1
    have h2 := h.origin_le_base
    exact OkAfter.arrayLoopA hv h.geometry h.fas ((misalignedA_eq_false_iff _).mp ha') (by omega) (okAfter_ret 1)

theorem okAfter_getMax {s : State} : OkAfter s.cfg s.fas [.retSize] := fun c hc => by
  rw [linesOk_cons]
  simp [Line.ok, Line.ends, hc]

theorem okAfter_retForce {cfg : Config} {fas : AddressSpace} : OkAfter cfg fas [.retForce] := fun c hc => by
  rw [linesOk_cons]
  simp [Line.ok, Line.ends, hc]

theorem okAfter_trigger {s : State} :
    OkAfter s.cfg s.fas ([.bkpRead, .bkpCompare, .bkpClear] ++ buttonLines s.cfg ++ [.retForce]) := by
  have line : ∀ (l : Line) (r : List Line), (∀ c : Ctl, l.ok s.cfg s.fas r c = (c.pending == .none)) →
      (∀ c, Ctl.after s.cfg s.fas l c = c) → l.branch? = none → OkAfter s.cfg s.fas r →
      OkAfter s.cfg s.fas (l :: r) := fun l r hok ha hb h =>
    OkAfter.line h (fun c hc => by rw [hok, Ctl.clean_pending hc]; rfl) ha hb
  have hbtn : OkAfter s.cfg s.fas (buttonLines s.cfg ++ [.retForce]) := by
    unfold buttonLines
    split
    · exact line _ _ (fun _ => rfl) (fun _ => rfl) rfl (line _ _ (fun _ => rfl) (fun _ => rfl) rfl
        (line _ _ (fun _ => rfl) (fun _ => rfl) rfl (line _ _ (fun _ => rfl) (fun _ => rfl) rfl okAfter_retForce)))
    · exact okAfter_retForce
  exact line _ _ (fun _ => rfl) (fun _ => rfl) rfl (line _ _ (fun _ => rfl) (fun _ => rfl) rfl
    (line _ _ (fun _ => rfl) (fun _ => rfl) rfl hbtn))

theorem okAfter_txEnqueue {s : State} : OkAfter s.cfg s.fas (emit s.operandBytes ++ [.ret 1]) :=
  OkAfter.emit _ (okAfter_ret 1)

/-! ## Every meaning -/

theorem variant_of_wf_g {s : State} {i : Instr} (h : i.wf s.cfg.variant = true) (hi : i.variant? = some .g) :
    s.cfg.variant = .g := by
  simp only [Instr.wf, hi, beq_iff_eq] at h
  exact h.symm

theorem variant_of_wf_a {s : State} {i : Instr} (h : i.wf s.cfg.variant = true) (hi : i.variant? = some .a) :
    s.cfg.variant = .a := by
  simp only [Instr.wf, hi, beq_iff_eq] at h
  exact h.symm

/-- An operation of the instance's variant keeps the invariant, or is refused for what the host did. -/
theorem exec_sound {s : State} (h : s.Inv) (i : Instr) (hw : i.wf s.cfg.variant = true) :
    outcomeSat State.Inv (fun r => r.hostMade = true) (exec i s) := by
  have hb := h.base
  cases i with
  | flashUnlockG =>
    exact start_sound (pre := none) h hw (fun r hr => by cases hr) fun _ => okAfter_unlockG (variant_of_wf_g hw rfl)
  | flashUnlockA =>
    exact start_sound (pre := none) h hw (fun r hr => by cases hr) fun _ => okAfter_unlockA (variant_of_wf_a hw rfl)
  | flashLockG =>
    exact start_sound (pre := none) h hw (fun r hr => by cases hr) fun _ => okAfter_lockG (variant_of_wf_g hw rfl)
  | flashLockA =>
    exact start_sound (pre := none) h hw (fun r hr => by cases hr) fun _ => okAfter_lockA (variant_of_wf_a hw rfl)
  | flashErasePageG =>
    refine start_sound h hw (fun r hr => ?_) fun hp => okAfter_erasePageG (variant_of_wf_g hw rfl) ?_
    · split at hr
      · cases hr
      · cases hr; rfl
    · split at hp
      · assumption
      · cases hp
  | flashErasePageA =>
    refine start_sound h hw (fun r hr => ?_) fun hp => okAfter_erasePageA (variant_of_wf_a hw rfl) ?_
    · split at hr
      · cases hr
      · cases hr; rfl
    · split at hp
      · assumption
      · cases hp
  | flashProgramArrayG =>
    refine start_sound h hw (fun r hr => ?_) fun hp => okAfter_arrayG hb (variant_of_wf_g hw rfl) hp
    unfold arrayPreG at hr
    (repeat' split at hr) <;> cases hr <;> rfl
  | flashProgramArrayA =>
    refine start_sound h hw (fun r hr => ?_) fun hp => okAfter_arrayA hb (variant_of_wf_a hw rfl) hp
    unfold arrayPreA at hr
    (repeat' split at hr) <;> cases hr <;> rfl
  | flashProgramPage =>
    refine start_sound h hw (fun r hr => ?_) fun hp => okAfter_programPage hb (variant_of_wf_a hw rfl) hp
    unfold pagePre at hr
    (repeat' split at hr) <;> cases hr <;> rfl
  | getMaxFirmwareSize => exact start_sound (pre := none) h hw (fun r hr => by cases hr) fun _ => okAfter_getMax
  | shouldForceBootloader => exact start_sound (pre := none) h hw (fun r hr => by cases hr) fun _ => okAfter_trigger
  | txEnqueue =>
    refine start_sound h hw (fun r hr => ?_) fun _ => okAfter_txEnqueue
    split at hr
    · cases hr; rfl
    · cases hr
  | sessionReset => exact start_sound (pre := none) h hw (fun r hr => by cases hr) fun _ => okAfter_sessionReset

/-! ## Idle steps -/

theorem State.Inv.idle {s : State} (h : s.Inv) (hs : s.seq = .idle) : s.busy = false ∧ s.ctl.clean = true ∧
    s.tmp = Tmp.init := by
  have := h.2.2.2.2.2.2
  rw [State.seqOk, hs] at this
  simp only [Bool.and_eq_true, Bool.not_eq_true', beq_iff_eq] at this
  exact ⟨this.1.1, this.1.2, this.2⟩

theorem State.Inv.armedOr {s : State} (h : s.Inv) (hs : s.seq = .idle) : s.ArmedOr false := by
  have harm := h.2.2.2.2.2.1
  rw [State.armOk, hs] at harm
  simp only [SeqPos.midEnqueue, Bool.and_false, Bool.or_false, Bool.or_eq_true] at harm
  rcases harm with ha | ha
  · exact .inl ha
  · exact .inr (.inl ha)

/-- A sound idle state. -/
theorem inv_of_idle {s : State} (hb : s.Base) (hs : s.seq = .idle) (hbusy : s.busy = false) (hc : s.ctl.clean = true)
    (ht : s.tmp = Tmp.init) (ha : s.ArmedOr false) : s.Inv := by
  refine ⟨hb.cfg, hb.fas, hb.ring, hb.flash, hb.controller, ?_, ?_⟩
  · rw [State.armOk, hs]
    rcases ha with ha | ha | ⟨-, ha⟩
    · simp [ha]
    · simp [ha]
    · cases ha
  · rw [State.seqOk, hs]
    simp [hbusy, hc, ht]

/-- In the middle of an operation the lines still to come have a meaning. -/
theorem State.Inv.going {s : State} (h : s.Inv) {i : Instr} {ls : List Line} (hs : s.seq = .running i ls) :
    Going i ls 0 s := by
  have hq := h.2.2.2.2.2.2
  have ha := h.2.2.2.2.2.1
  simp only [State.seqOk, hs, Bool.and_eq_true] at hq
  refine ⟨h.base, hq.1.1, hq.1.2, hq.2, ?_⟩
  cases ls with
  | nil => simp [linesOk] at hq
  | cons l r =>
    rw [State.armOk, hs, midEnqueue_cons] at ha
    simp only [Bool.or_eq_true, Bool.and_eq_true, decide_eq_true_eq] at ha
    rcases ha with (ha | ha) | ha
    · exact .inl ha
    · exact .inr (.inl ha)
    · exact .inr (.inr ha)

/-- Between operations every turn keeps the invariant. -/
theorem State.Inv.turn {s : State} (h : s.Inv) (hs : s.seq = .idle) (x : Turn) : (State.turn x s).Inv := by
  obtain ⟨h1, h2, h3⟩ := h.idle hs
  have hb := h.base
  have ha := h.armedOr hs
  have hnb := hb.notBusy_iff.mpr (Ctl.clean_pending h2)
  cases x with
  | irq =>
    exact inv_of_idle hb.irqTurn (by simp [State.turn, hs]) (by simp [State.turn, h1])
      (by rw [State.turn, State.ctl_irqTurn]; exact h2) (by simp [State.turn, h3]) ha.irqTurn
  | uart =>
    exact inv_of_idle hb.uartShift (by simp [State.turn, hs]) (by simp [State.turn, h1])
      (by rw [State.turn, State.ctl_uartShift]; exact h2) (by simp [State.turn, h3]) ha.uartShift
  | fctl pg wp => simpa [State.turn, State.fctlTurn, hnb] using h
  | reset => exact hb.inv_coreReset
  | _ => exact h

end Sys2Proof.Machine
end

