-- ==== Sys2Proof/Laws/Plain.lean ====
section
/-!
SUPPORT. An uninterrupted operation, seen without the transmit side: `plainRun` is the run of the lines with no other
agent but `FCTL`, whose fault draws (and the pin's samples) it takes from a list. What an uninterrupted run of the model
leaves is what `plainRun` leaves, for some such list (`runLines_plain`), and what went onto the ring are prefixes of the
frames of `plainRun`.
-/

namespace Sys2Proof.Machine

/-- A state without the transmit side, the pin, the schedule, the sequencer's position and the enqueue count. -/
def State.core (s : State) : State :=
  { s with
    rb := { buf := [], rd := 0, wr := 0 }
    armed := false
    tdr := 0
    txe := false
    line := []
    btn := false
    sched := []
    seq := .idle
    tmp := { s.tmp with put := 0 } }

@[simp] theorem State.core_core (s : State) : s.core.core = s.core := rfl
@[simp] theorem State.core_cfg (s : State) : s.core.cfg = s.cfg := rfl
@[simp] theorem State.core_fas (s : State) : s.core.fas = s.fas := rfl
@[simp] theorem State.core_fc (s : State) : s.core.fc = s.fc := rfl
@[simp] theorem State.core_flash (s : State) : s.core.flash = s.flash := rfl
@[simp] theorem State.core_win (s : State) : s.core.win = s.win := rfl
@[simp] theorem State.core_ctlr (s : State) : s.core.ctlr = s.ctlr := rfl
@[simp] theorem State.core_statr (s : State) : s.core.statr = s.statr := rfl
@[simp] theorem State.core_dev (s : State) : s.core.dev = s.dev := rfl
@[simp] theorem State.core_draws (s : State) : s.core.draws = s.draws := rfl
@[simp] theorem State.core_res (s : State) : s.core.res = s.res := rfl
@[simp] theorem State.core_ctl (s : State) : s.core.ctl = s.ctl := rfl

/-- The state before a wait and after it agree but for the transmit side and what a completion did. -/
theorem State.core_irqTurn (s : State) : s.irqTurn.core = s.core := by
  unfold State.irqTurn State.txeDrain
  split
  · split <;> rfl
  · rfl

theorem State.core_uartShift (s : State) : s.uartShift.core = s.core := by
  unfold State.uartShift
  split <;> rfl

theorem State.core_complete (pg wp : Bool) (s : State) : (s.complete pg wp).core = s.core.complete pg wp := by
  unfold State.complete
  rw [State.core_fc]
  split <;> rfl

/-- A flow seen without the transmit side. -/
def Flow.core : Flow → Flow
  | .go s => .go s.core
  | .skip n s => .skip n s.core
  | .done s => .done s.core
  | .fault r => .fault r
  | .refuse r => .refuse r

/-- The lines whose effect is not a function of the core. -/
def Line.observesTx : Line → Bool
  | .enqStart => true
  | .enqByte _ _ => true
  | .enqArm => true
  | .pinSample => true
  | _ => false

theorem core_startOn (p : Word) (n : Nat) (c : Cycle) (s : State) :
    startOn p n c s.core = (startOn p n c s).core := by
  unfold startOn
  rw [show s.core.inArray p n = s.inArray p n from rfl, State.core_fc]
  split
  · rfl
  · split <;> rfl

theorem core_startBuffer (c : Cycle) (s : State) : startBuffer c s.core = (startBuffer c s).core := by
  unfold startBuffer
  rw [State.core_ctlr, State.core_fc]
  split
  · rfl
  · split <;> rfl

/-- A flash read seen without the transmit side. -/
def Got.core {α : Type} : Got α → Got α
  | .value v s => .value v s.core
  | .absent r => .absent r

theorem core_memRead16 (a : Word) (s : State) : memRead16 a s.core = (memRead16 a s).core := by
  unfold memRead16
  rw [show s.core.readStale = s.readStale from rfl, show s.core.inArray a 2 = s.inArray a 2 from rfl]
  split
  · rfl
  · split
    · rfl
    · split <;> rfl

theorem core_memRead32 (a : Word) (s : State) : memRead32 a s.core = (memRead32 a s).core := by
  unfold memRead32
  rw [show s.core.readStale = s.readStale from rfl, show s.core.inArray a 4 = s.inArray a 4 from rfl]
  split
  · rfl
  · split
    · rfl
    · split <;> rfl

theorem core_verify (d : Word) (v : Half) (s : State) : verifyHalf d v s.core = (verifyHalf d v s).core := by
  unfold verifyHalf
  rw [core_memRead16]
  cases memRead16 d s with
  | absent r => rfl
  | value got s1 =>
    simp only [Got.core]
    split <;> rfl

theorem core_refreshRead (x : Word) (s : State) : refreshRead x s.core = (refreshRead x s).core := by
  unfold refreshRead
  rw [core_memRead32]
  cases memRead32 (refreshPartner x) s <;> rfl

theorem core_startMode (s : State) : startMode s.core = (startMode s).core := by
  unfold startMode
  rw [State.core_ctlr]
  split
  · exact core_startOn _ _ _ s.setStrt
  · exact core_startOn _ _ _ s.setStrt
  · rfl
  · rfl

theorem core_writeKey (r : KeyReg) (v : Word) (s : State) : writeKey r v s.core = (writeKey r v s).core := by
  by_cases hk : expectedKey s.cfg (if s.fc.keyseq ≥ 4 then 0 else s.fc.keyseq) = (r, v)
  · rw [writeKey_eq hk, writeKey_eq (s := s.core) hk]
    rfl
  · rw [writeKey_ne hk, writeKey_ne (s := s.core) hk]
    rfl

theorem core_stageWord (a w : Word) (s : State) : stageWord a w s.core = (stageWord a w s).core := by
  unfold stageWord
  rw [show s.core.inArray a 4 = s.inArray a 4 from rfl, State.core_fc, State.core_ctlr]
  split
  · rfl
  · split
    · rfl
    · split
      · rfl
      · split
        · rfl
        · split <;> rfl

/-- The other lines see nothing of the transmit side. -/
theorem runLine_core {l : Line} (hl : l.observesTx = false) (s : State) : runLine l s.core = (runLine l s).core := by
  cases l with
  | enqStart => cases hl
  | enqByte b left => cases hl
  | enqArm => cases hl
  | pinSample => cases hl
  | gErase d => exact core_startOn _ _ _ s
  | gProg d v =>
    simp only [runLine, startHalf]
    split
    · rfl
    · exact core_startOn _ _ _ s
  | bound d =>
    simp only [runLine]
    rw [apply_ite Flow.core]
    rfl
  | windowTest d =>
    simp only [runLine]
    rw [apply_ite Flow.core]
    rfl
  | verify d v => exact core_verify d v s
  | keyWrite r v => exact core_writeKey r v s
  | ctlSet b =>
    cases b with
    | level l => rfl
    | bufRst => exact core_startBuffer _ s.setBufrst
    | bufLoad => exact core_startBuffer _ s.setBufload
    | strt => exact core_startMode s
    | lock => rfl
  | refreshRead x => exact core_refreshRead x s
  | memWrite a w => exact core_stageWord a w s
  | statusTest =>
    simp only [runLine]
    rw [show s.core.tmp.s = s.tmp.s from rfl]
    split <;> rfl
  | _ => rfl

/-! ## The plain run -/

/-- A byte joins the frame that was begun last. -/
def pushByte (b : Byte) : List (List Byte) → List (List Byte)
  | [] => []
  | f :: r => (f ++ [b]) :: r

/-- The lines run with no other agent but `FCTL`: a hold completes the pending cycle with the next pair of fault draws
of `ds` (a sample of the pin takes its level from the next pair too). `frames` are the frames handed to the ring, the
last one first. -/
def plainRun : List (Bool × Bool) → List Line → Nat → State → List (List Byte) → Option (State × List (List Byte))
  | _, [], _, _, _ => none
  | ds, _ :: r, n + 1, s, fr => plainRun ds r n s fr
  | ds, l :: r, 0, s, fr =>
    match l with
    | .enqStart => plainRun ds r 0 s ([] :: fr)
    | .enqByte b _ => plainRun ds r 0 s (pushByte b fr)
    | .enqArm => plainRun ds r 0 s fr
    | .gWait => plainRun ds.tail r 0 (if s.fc.busy then s.complete (ds.headD default).1 (ds.headD default).2 else s) fr
    | .spin => plainRun ds.tail r 0 (if s.fc.busy then s.complete (ds.headD default).1 (ds.headD default).2 else s) fr
    | .pinSample => plainRun ds.tail r 0 { s with tmp := { s.tmp with lvl := (ds.headD default).1 } } fr
    | l =>
      match runLine l s with
      | .go t => plainRun ds r 0 t fr
      | .skip n t => plainRun ds r n t fr
      | .done t => some (t, fr)
      | .fault _ => none
      | .refuse _ => none

end Sys2Proof.Machine
end

