-- ==== Sys2Proof/Laws/Ring.lean ====
section
/-!
SUPPORT. The ring as a queue (spec/10_state.md R33, spec/43_ring_transmitter.md R181, R189): an accepted byte joins the
end of the bytes held, a drained byte leaves their front for the line, nothing else moves them.
-/

namespace Sys2Proof.Machine

/-- Storage and indices of a ring of `n` slots. -/
structure RingIn (n : Nat) (r : Ring) : Prop where
  size : r.buf.length = n
  rd : r.rd < n
  wr : r.wr < n

theorem State.Base.ringIn {s : State} (h : s.Base) : RingIn s.cfg.ringN s.rb := by
  obtain ⟨h1, h2, h3⟩ := (s.ringOk_iff).mp h.ring
  exact ⟨h1, h2, h3⟩

theorem ringHeld_eq {n : Nat} {r : Ring} (h : RingIn n r) :
    ringHeld n r = if r.rd ≤ r.wr then r.wr - r.rd else r.wr + n - r.rd := by
  have h1 := h.rd
  have h2 := h.wr
  unfold ringHeld
  split
  · rw [show r.wr + n - r.rd = r.wr - r.rd + n by omega, Nat.add_mod_right, Nat.mod_eq_of_lt (by omega)]
  · exact Nat.mod_eq_of_lt (by omega)

/-- At most `RING_N - 1` bytes are held (R33 (d)). -/
theorem ringHeld_lt {n : Nat} {r : Ring} (h : RingIn n r) : ringHeld n r < n := by
  have h1 := h.rd
  have h2 := h.wr
  rw [ringHeld_eq h]
  split <;> omega

theorem ringEmpty_iff {n : Nat} {r : Ring} (h : RingIn n r) : ringEmpty r = true ↔ ringHeld n r = 0 := by
  have h1 := h.rd
  have h2 := h.wr
  rw [ringHeld_eq h, ringEmpty, beq_iff_eq]
  split <;> omega

/-- The producer's test holds exactly when no slot is free (R184 (b)). -/
theorem ringFull_iff {n : Nat} {r : Ring} (h : RingIn n r) : ringFull n r = true ↔ ringHeld n r + 1 = n := by
  have h1 := h.rd
  have h2 := h.wr
  rw [ringHeld_eq h, ringFull, beq_iff_eq, ringNext]
  split <;> split <;> omega

theorem mod_add_eq {n i k : Nat} (hi : i < n) (hk : k < n) :
    (i + k) % n = if i + k < n then i + k else i + k - n := by
  split
  · exact Nat.mod_eq_of_lt ‹_›
  · rw [Nat.mod_eq_sub_mod (by omega), Nat.mod_eq_of_lt (by omega)]

/-- The bytes held by a ring of `n` slots, oldest first. -/
def heldBytes (n : Nat) (r : Ring) : List Byte :=
  (List.range (ringHeld n r)).map fun k => r.buf.getD ((r.rd + k) % n) 0

theorem State.held_eq (s : State) : s.held = heldBytes s.cfg.ringN s.rb := rfl

theorem heldBytes_length (n : Nat) (r : Ring) : (heldBytes n r).length = ringHeld n r := by simp [heldBytes]

theorem heldBytes_empty {n : Nat} {r : Ring} (h : RingIn n r) (he : ringEmpty r = true) : heldBytes n r = [] := by
  rw [← List.length_eq_zero_iff, heldBytes_length]
  exact (ringEmpty_iff h).mp he

/-- The drained byte is the oldest (R186 lines 4, 5). -/
theorem heldBytes_drain {n : Nat} {r : Ring} (h : RingIn n r) (he : ringEmpty r = false) :
    heldBytes n r = r.buf.getD r.rd 0 :: heldBytes n { r with rd := ringNext n r.rd } := by
  have h1 := h.rd
  have h2 := h.wr
  have hne : r.rd ≠ r.wr := by simpa [ringEmpty] using he
  have hr' : RingIn n { r with rd := ringNext n r.rd } := ⟨h.size, ringNext_lt (by omega), h.wr⟩
  have hlen : ringHeld n r = ringHeld n { r with rd := ringNext n r.rd } + 1 := by
    rw [ringHeld_eq h, ringHeld_eq hr']
    simp only [ringNext]
    split <;> split <;> split <;> omega
  have hlt := ringHeld_lt h
  rw [heldBytes, hlen, List.range_succ_eq_map, List.map_cons, List.map_map]
  refine congrArg₂ List.cons ?_ ?_
  · rw [Nat.add_zero, Nat.mod_eq_of_lt h1]
  · rw [heldBytes]
    refine List.map_congr_left fun k hk => ?_
    rw [List.mem_range] at hk
    have hk' : k < n := by omega
    have hn := ringNext_lt (n := n) (i := r.rd) (by omega)
    simp only [Function.comp_apply, Nat.succ_eq_add_one]
    rw [mod_add_eq h1 (by omega : k + 1 < n), mod_add_eq hn hk']
    congr 1
    simp only [ringNext]
    split <;> split <;> split <;> omega

/-- An accepted byte joins the end (R182 line 5). -/
theorem heldBytes_store {n : Nat} {r : Ring} (h : RingIn n r) (hf : ringFull n r = false) (b : Byte) :
    heldBytes n { r with buf := r.buf.set r.wr b, wr := ringNext n r.wr } = heldBytes n r ++ [b] := by
  have h1 := h.rd
  have h2 := h.wr
  have hne : ringNext n r.wr ≠ r.rd := by simpa [ringFull] using hf
  have hr' : RingIn n { r with buf := r.buf.set r.wr b, wr := ringNext n r.wr } :=
    ⟨by simpa using h.size, h1, ringNext_lt (by omega)⟩
  have hlen : ringHeld n { r with buf := r.buf.set r.wr b, wr := ringNext n r.wr } = ringHeld n r + 1 := by
    rw [ringHeld_eq h, ringHeld_eq hr']
    simp only [ringNext] at hne ⊢
    split at hne <;> (repeat' split) <;> omega
  have hlt := ringHeld_lt h
  have hlt' := ringHeld_lt hr'
  have heq := ringHeld_eq h
  rw [heldBytes, hlen, List.range_succ, List.map_append, List.map_singleton]
  refine congrArg₂ (· ++ ·) ?_ ?_
  · rw [heldBytes]
    refine List.map_congr_left fun k hk => ?_
    rw [List.mem_range] at hk
    have hidx : (r.rd + k) % n ≠ r.wr := by
      rw [mod_add_eq h1 (by omega)]
      split at heq <;> split <;> omega
    simp only [List.getD_eq_getElem?_getD, List.getElem?_set, hidx.symm, if_false]
  · have hidx : (r.rd + ringHeld n r) % n = r.wr := by
      rw [mod_add_eq h1 hlt]
      split at heq <;> split <;> omega
    simp [hidx, h.size, h2]

/-! ## What the turns do to line and ring -/

/-- What has been sent and what is still held, in order. -/
def State.stream (s : State) : List Byte := s.line ++ s.held

theorem State.stream_congr {s t : State} (hc : t.cfg = s.cfg) (hr : t.rb = s.rb) (hl : t.line = s.line) :
    t.stream = s.stream := by
  rw [State.stream, State.stream, State.held_eq, State.held_eq, hc, hr, hl]

/-- A drain moves a byte from the ring to the line and changes nothing of the stream (R189). -/
theorem State.stream_irqTurn {s : State} (h : RingIn s.cfg.ringN s.rb) : s.irqTurn.stream = s.stream := by
  unfold State.irqTurn
  split
  · unfold State.txeDrain
    cases he : ringEmpty s.rb with
    | true => rfl
    | false =>
      simp only [Bool.false_eq_true, if_false, State.stream, State.held_eq]
      rw [heldBytes_drain h he, List.append_assoc, List.singleton_append]
  · rfl

theorem State.stream_uartShift (s : State) : s.uartShift.stream = s.stream :=
  State.stream_congr (by simp) (by simp) (by simp)

theorem State.stream_complete (pg wp : Bool) (s : State) : (s.complete pg wp).stream = s.stream :=
  State.stream_congr (by simp) (by simp) (by simp)

end Sys2Proof.Machine
end

