-- ==== Sys2Proof/Laws/Simulation.lean ====
section
/-!
SUPPORT. An uninterrupted run of lines ends, and leaves what the plain run leaves for some fault draws; of every frame
that the plain run hands to the ring a prefix is stored (`runLines_plain`).
-/

namespace Sys2Proof.Machine

/-! ## Where the bytes of an enqueue call may stand -/

/-- The next line is a byte of an enqueue call. -/
def startsWithByte : List Line → Bool
  | .enqByte _ _ :: _ => true
  | _ => false

/-- The line is the start or a byte of an enqueue call. -/
def Line.opensFrame : Line → Bool
  | .enqStart => true
  | .enqByte _ _ => true
  | _ => false

/-- Bytes of an enqueue call stand after its start or its other bytes only. -/
def framed : List Line → Bool
  | [] => true
  | l :: r => (l.opensFrame || !startsWithByte r) &&
      (match l.branch? with
       | some n => !startsWithByte (r.drop n)
       | none => true) && framed r

theorem framed_cons (l : Line) (r : List Line) : framed (l :: r) = ((l.opensFrame || !startsWithByte r) &&
    (match l.branch? with
     | some n => !startsWithByte (r.drop n)
     | none => true) && framed r) := rfl

theorem framed_tail {l : Line} {r : List Line} (h : framed (l :: r) = true) : framed r = true := by
  rw [framed_cons, Bool.and_eq_true] at h
  exact h.2

/-! ## What has been stored of the frames -/

/-- From the stream `b` on, with `sent` bytes on the line, a prefix of each frame has been stored, and all of each where
the frames fit the ring; with `whole`, all of the frame begun last. -/
def Stored (b : List Byte) (sent : Nat) (frames : List (List Byte)) (whole : Bool) (s : State) : Prop :=
  ∃ stored : List (List Byte), List.Forall₂ (· <+: ·) stored frames ∧ s.stream = b ++ stored.reverse.flatten ∧
    (whole = true → ∃ f r r', frames = f :: r ∧ stored = f :: r') ∧ sent ≤ s.line.length ∧
    (b.length + frames.flatten.length < sent + s.cfg.ringN → stored = frames)

theorem Stored.congr {b : List Byte} {k : Nat} {fr : List (List Byte)} {w : Bool} {s t : State}
    (h : Stored b k fr w s) (hs : t.stream = s.stream) (hl : s.line.length ≤ t.line.length) (hc : t.cfg = s.cfg) :
    Stored b k fr w t := by
  obtain ⟨st, h1, h2, h3, h4, h5⟩ := h
  exact ⟨st, h1, by rw [hs]; exact h2, h3, by omega, by rw [hc]; exact h5⟩

theorem Stored.weaken {b : List Byte} {k : Nat} {fr : List (List Byte)} {w : Bool} {s : State} (h : Stored b k fr w s) :
    Stored b k fr false s := by
  obtain ⟨st, h1, h2, -, h4⟩ := h
  exact ⟨st, h1, h2, (fun h => Bool.noConfusion h), h4⟩

/-- A new frame begins with nothing stored. -/
theorem Stored.start {b : List Byte} {k : Nat} {fr : List (List Byte)} {w : Bool} {s : State} (h : Stored b k fr w s) :
    Stored b k ([] :: fr) true s := by
  obtain ⟨st, h1, h2, -, h4, h5⟩ := h
  refine ⟨[] :: st, .cons (List.prefix_refl _) h1, by simpa using h2, fun _ => ⟨[], fr, st, rfl, rfl⟩, h4, fun hr => ?_⟩
  rw [h5 (by simpa using hr)]

/-- A byte stored at the end of the frame. -/
theorem Stored.push {b : List Byte} {k : Nat} {fr : List (List Byte)} {s t : State} (h : Stored b k fr true s) (x : Byte)
    (ht : t.stream = s.stream ++ [x]) (hl : t.line = s.line) (hc : t.cfg = s.cfg) :
    Stored b k (pushByte x fr) true t := by
  obtain ⟨st, h1, h2, h3, h4, h5⟩ := h
  obtain ⟨f, r, r', rfl, rfl⟩ := h3 rfl
  cases h1 with
  | cons _ h1 =>
    refine ⟨(f ++ [x]) :: r', .cons (List.prefix_refl _) h1, ?_, fun _ => ⟨_, _, _, rfl, rfl⟩, by rw [hl]; exact h4,
      fun hr => ?_⟩
    · rw [ht, h2]
      simp
    · rw [hc] at hr
      have := h5 (by
        simp only [pushByte, List.flatten_cons, List.length_append, List.length_cons, List.length_nil] at hr ⊢
        omega)
      rw [(List.cons.inj this).2]
      rfl

theorem flatten_length_le {st fr : List (List Byte)} (h : List.Forall₂ (· <+: ·) st fr) :
    st.flatten.length ≤ fr.flatten.length := by
  induction h with
  | nil => exact le_refl _
  | cons h1 _ ih =>
    have := h1.length_le
    simp only [List.flatten_cons, List.length_append]
    omega

/-- A byte of the frame that a full ring drops. -/
theorem Stored.drop {b : List Byte} {k : Nat} {fr : List (List Byte)} {w : Bool} {s : State} (h : Stored b k fr w s)
    (hr : RingIn s.cfg.ringN s.rb) (hf : ringFull s.cfg.ringN s.rb = true) (x : Byte) :
    Stored b k (pushByte x fr) false s := by
  obtain ⟨st, h1, h2, -, h4, -⟩ := h
  have hlen : s.line.length + ringHeld s.cfg.ringN s.rb = b.length + st.flatten.length := by
    have := congrArg List.length h2
    rw [State.stream, State.held_eq, List.length_append, heldBytes_length, List.length_append] at this
    simpa using this
  have hheld := (ringFull_iff hr).mp hf
  have hle := flatten_length_le h1
  refine ⟨st, ?_, h2, (fun h => Bool.noConfusion h), h4, fun hroom => ?_⟩
  · cases h1 with
    | nil => exact .nil
    | cons hx h1 => exact .cons (hx.trans (List.prefix_append _ _)) h1
  · cases h1 with
    | nil => rfl
    | cons hx h1 =>
      exfalso
      simp only [pushByte, List.flatten_cons, List.length_append, List.length_cons, List.length_nil] at *
      omega

/-! ## The wait -/

/-- While the line waits: the core is as before the wait, or the pending cycle has completed. -/
structure PlainWait (i : Instr) (l : Line) (rest : List Line) (s0 s : State) : Prop where
  waiting : Waiting i l rest s
  stream : s.stream = s0.stream
  core : s.core = s0.core ∨ (s0.fc.busy = true ∧ s.fc.busy = false ∧ ∃ pg wp, s.core = s0.core.complete pg wp)
  put : s.tmp.put = s0.tmp.put
  grow : s0.line.length ≤ s.line.length
  cfg : s.cfg = s0.cfg

theorem State.line_irqTurn (s : State) : s.line.length ≤ s.irqTurn.line.length := by
  unfold State.irqTurn State.txeDrain
  split
  · split
    · exact le_refl _
    · simp
  · exact le_refl _

theorem PlainWait.kept (i : Instr) (l : Line) (rest : List Line) (s0 : State) :
    KeptByQuiet (PlainWait i l rest s0) where
  sched s r h :=
    { waiting := (Waiting.kept_quiet i l rest).sched s r h.waiting, stream := h.stream, core := h.core, put := h.put,
      grow := h.grow, cfg := h.cfg }
  irq s h :=
    { waiting := (Waiting.kept_quiet i l rest).irq s h.waiting
      stream := by rw [State.stream_irqTurn h.waiting.base.ringIn]; exact h.stream
      core := by simpa [State.core_irqTurn] using h.core
      put := by simpa using h.put
      grow := h.grow.trans s.line_irqTurn
      cfg := by simpa using h.cfg }
  uart s h :=
    { waiting := (Waiting.kept_quiet i l rest).uart s h.waiting
      stream := by rw [State.stream_uartShift]; exact h.stream
      core := by simpa [State.core_uartShift] using h.core
      put := by simpa using h.put
      grow := by simpa using h.grow
      cfg := by simpa using h.cfg }
  pin b s h :=
    { waiting := (Waiting.kept_quiet i l rest).pin b s h.waiting, stream := h.stream, core := h.core, put := h.put,
      grow := h.grow, cfg := h.cfg }
  complete pg wp s h hb :=
    { waiting := h.waiting.complete pg wp
      stream := by rw [State.stream_complete]; exact h.stream
      core := by
        rcases h.core with hc | ⟨-, hc, -⟩
        · refine .inr ⟨?_, State.complete_fcBusy pg wp s, pg, wp, ?_⟩
          · rw [← State.core_fc s0, ← hc]; exact hb
          · rw [State.core_complete, hc]
        · rw [hb] at hc; cases hc
      put := by simpa using h.put
      grow := by simpa using h.grow
      cfg := by simpa using h.cfg }

theorem plainRun_line (ds : List (Bool × Bool)) {l : Line} (hl : l.observesTx = false) (hh : l.holds = false)
    (r : List Line) (s : State) (fr : List (List Byte)) :
    plainRun ds (l :: r) 0 s fr =
      match runLine l s with
      | .go t => plainRun ds r 0 t fr
      | .skip n t => plainRun ds r n t fr
      | .done t => some (t, fr)
      | .fault _ => none
      | .refuse _ => none := by
  cases l <;> first | rfl | exact Bool.noConfusion hl | exact Bool.noConfusion hh

theorem plainRun_hold (ds : List (Bool × Bool)) {l : Line} (hh : l.holds = true) (r : List Line) (s : State)
    (fr : List (List Byte)) :
    plainRun ds (l :: r) 0 s fr =
      plainRun ds.tail r 0 (if s.fc.busy then s.complete (ds.headD default).1 (ds.headD default).2 else s) fr := by
  rcases Line.holds_cases hh with rfl | rfl <;> rfl

/-- What an uninterrupted run of lines ends with. -/
structure PlainEnd (i : Instr) (lines : List Line) (n : Nat) (s : State) (np : Nat) (b : List Byte) (k : Nat)
    (fr : List (List Byte)) (ds : List (Bool × Bool)) (t : State) (fr' : List (List Byte)) : Prop where
  run : runLines i lines n s = .next t
  plain : plainRun ds lines np s.core fr = some (t.core, fr')
  stored : Stored b k fr' false t
  inv : t.Inv
  idle : t.seq = .idle
  quiet : t.uninterrupted = true

/-- The plain run keeps step with a run that passes over dropped bytes. -/
def InStep (s : State) (lines : List Line) (n np : Nat) : Prop :=
  n = np ∨ (np = 0 ∧ enqueueTail n lines = true ∧ ringFull s.cfg.ringN s.rb = true)

theorem startsWithByte_of_ok {l : Line} {r : List Line} (h : framed (l :: r) = true) (hl : l.opensFrame = false) :
    startsWithByte r = false := by
  rw [framed_cons, hl, Bool.false_or, Bool.and_eq_true, Bool.and_eq_true] at h
  simpa using h.1.1

theorem startsWithByte_of_branch {l : Line} {r : List Line} {n : Nat} (h : framed (l :: r) = true)
    (hb : l.branch? = some n) : startsWithByte (r.drop n) = false := by
  rw [framed_cons, hb, Bool.and_eq_true, Bool.and_eq_true] at h
  simpa using h.1.2

theorem startsWithByte_enqueueTail_drop {n : Nat} {r : List Line} (h : enqueueTail n r = true) :
    startsWithByte (r.drop n) = false := by
  induction n generalizing r with
  | zero =>
    cases r with
    | nil => rfl
    | cons l r => cases l <;> first | rfl | simp [enqueueTail] at h
  | succ n ih =>
    cases r with
    | nil => rfl
    | cons l r =>
      cases l <;> simp [enqueueTail] at h
      exact ih h.2

theorem runLine_stream {l : Line} {s t : State} (hw : Went l s t) (hl : l.inEnqueue = false) (hs : l ≠ .enqStart) :
    t.stream = s.stream := by
  have h := hw.tx hl hs
  exact State.stream_congr hw.cfg h.rb h.line

theorem runLines_ready {i : Instr} {l : Line} {rest : List Line} {s s1 : State}
    (h : await l s.sched { s with seq := .running i (l :: rest) } = .ready s1) :
    runLines i (l :: rest) 0 s =
      match runLine l s1 with
      | .go s2 => runLines i rest 0 s2
      | .skip n s2 => runLines i rest n s2
      | .done s2 => .next s2
      | .fault r => .fault r
      | .refuse r => .refused r := by
  rw [runLines, h] <;> rfl

/-- A line of an uninterrupted operation is taken after its wait. -/
theorem ready_of_going {i : Instr} {l : Line} {rest : List Line} {s : State} (h : Going i (l :: rest) 0 s)
    (hq : s.uninterrupted = true) :
    ∃ s1, await l s.sched { s with seq := .running i (l :: rest) } = .ready s1 ∧
      PlainWait i l rest { s with seq := .running i (l :: rest) } s1 ∧ lineEnabled l s1 = true ∧
      s1.uninterrupted = true := by
  obtain ⟨hq1, hq2⟩ := (s.uninterrupted_iff).mp hq
  obtain ⟨s1, h1, h2, h3, h4, -⟩ := await_ready (PlainWait.kept i l rest _) l s.sched
    { s with seq := .running i (l :: rest) } ⟨h.waiting, rfl, .inl rfl, rfl, le_refl _, rfl⟩ hq1 rfl hq2
  exact ⟨s1, h1, h2, h3, h4⟩

/-- Before a line that is no hold the wait leaves the core as it was. -/
theorem PlainWait.core_eq {i : Instr} {l : Line} {rest : List Line} {s s1 : State} (h : Going i (l :: rest) 0 s)
    (hp : PlainWait i l rest { s with seq := .running i (l :: rest) } s1) (hl : l.holds = false) :
    s1.core = s.core := by
  rcases hp.core with hc | ⟨hb, -⟩
  · exact hc
  · have := (h.base.notBusy_iff).mpr (Line.ok_pending (linesOk_head h.ok) hl)
    rw [show s.fc.busy = true from hb] at this
    cases this

theorem uninterrupted_went {l : Line} {s t : State} (hw : Went l s t) (h : s.uninterrupted = true) :
    t.uninterrupted = true := by
  rw [State.uninterrupted, hw.env.sched, hw.env.stuck]
  exact h

/-- An uninterrupted run of lines ends as the plain run does. -/
theorem runLines_plain (i : Instr) (lines : List Line) (n np : Nat) (s : State) (b : List Byte) (k : Nat)
    (fr : List (List Byte)) (h : Going i lines n s) (hq : s.uninterrupted = true) (hf : framed lines = true)
    (hi : InStep s lines n np) (hst : Stored b k fr (startsWithByte (lines.drop n)) s) :
    ∃ ds t fr', PlainEnd i lines n s np b k fr ds t fr' := by
  induction lines generalizing n np s fr with
  | nil => exact absurd h.ok (by simp [linesOk])
  | cons l rest ih =>
    have hfr := framed_tail hf
    cases n with
    | succ n =>
      rcases hi with rfl | ⟨rfl, ht, hfull⟩
      · obtain ⟨ds, t, fr', he⟩ := ih n n s fr h.skip hq hfr (.inl rfl) hst
        exact ⟨ds, t, fr', he.run, he.plain, he.stored, he.inv, he.idle, he.quiet⟩
      · cases l <;> simp [enqueueTail] at ht
        rename_i x m
        obtain ⟨rfl, ht⟩ := ht
        have hst' : Stored b k (pushByte x fr) (startsWithByte (rest.drop m)) s := by
          rw [startsWithByte_enqueueTail_drop ht]
          exact hst.drop h.base.ringIn hfull x
        obtain ⟨ds, t, fr', he⟩ := ih m 0 s (pushByte x fr) h.skip hq hfr (.inr ⟨rfl, ht, hfull⟩) hst'
        exact ⟨ds, t, fr', he.run, he.plain, he.stored, he.inv, he.idle, he.quiet⟩
    | zero =>
      have hnp : np = 0 := by
        rcases hi with h | h
        · exact h.symm
        · exact h.1
      subst hnp
      obtain ⟨s1, hready, hp, hen, hq1⟩ := ready_of_going h hq
      have hrun := runLines_ready hready
      have hstr : s1.stream = s.stream := hp.stream
      have hpend := hp.waiting.pending hen
      have hline := runLine_ok hp.waiting.base hpend (linesOk_head hp.waiting.ok)
      rw [List.drop_zero] at hst
      -- one step of the run and of the plain run, then the induction hypothesis
      have next : ∀ (m mp : Nat) (s2 : State) (fr2 : List (List Byte)), Going i rest m s2 →
          s2.uninterrupted = true → InStep s2 rest m mp → Stored b k fr2 (startsWithByte (rest.drop m)) s2 →
          runLines i (l :: rest) 0 s = runLines i rest m s2 →
          (∀ ds, ∃ ds', plainRun ds' (l :: rest) 0 s.core fr = plainRun ds rest mp s2.core fr2) →
          ∃ ds t fr', PlainEnd i (l :: rest) 0 s 0 b k fr ds t fr' := by
        intro m mp s2 fr2 hg hq2 hi2 hst2 hr hpl
        obtain ⟨ds, t, fr', he⟩ := ih m mp s2 fr2 hg hq2 hfr hi2 hst2
        obtain ⟨ds', hds'⟩ := hpl ds
        exact ⟨ds', t, fr', hr.trans he.run, hds'.trans he.plain, he.stored, he.inv, he.idle, he.quiet⟩
      cases hh : l.holds with
      | true =>
        have hgo : runLine l s1 = .go s1 := by rcases Line.holds_cases hh with rfl | rfl <;> rfl
        rw [hgo] at hline hrun
        have hopen : l.opensFrame = false := by rcases Line.holds_cases hh with rfl | rfl <;> rfl
        have hsb := startsWithByte_of_ok hf hopen
        refine next 0 0 s1 fr (hp.waiting.went hgo hline) hq1 (.inl rfl) ?_ hrun fun ds => ?_
        · rw [List.drop_zero, hsb]
          exact hst.weaken.congr hstr hp.grow hp.cfg
        · rcases hp.core with hc | ⟨hb, -, pg, wp, hc⟩
          · refine ⟨default :: ds, ?_⟩
            have hb : s.fc.busy = false := by
              have hb1 := (hp.waiting.base.notBusy_iff).mpr hpend
              rw [← State.core_fc s1, hc] at hb1
              exact hb1
            rw [plainRun_hold _ hh, State.core_fc, hb, hc]
            rfl
          · refine ⟨(pg, wp) :: ds, ?_⟩
            rw [plainRun_hold _ hh, State.core_fc, show s.fc.busy = true from hb, hc]
            rfl
      | false =>
        have hcore := hp.core_eq h hh
        cases ho : l.observesTx with
        | false =>
          have hl0 : runLine l s.core = (runLine l s1).core := by rw [← hcore, runLine_core ho]
          have hopen : l.opensFrame = false := by cases l <;> first | rfl | exact Bool.noConfusion ho
          have hin : l.inEnqueue = false := by cases l <;> first | rfl | exact Bool.noConfusion ho
          have hne : l ≠ .enqStart := by rintro rfl; cases ho
          cases hres : runLine l s1 with
          | go s2 =>
            rw [hres] at hline hrun hl0
            have hsb := startsWithByte_of_ok hf hopen
            refine next 0 0 s2 fr (hp.waiting.went hres hline) (uninterrupted_went hline hq1) (.inl rfl) ?_ hrun
              fun ds => ⟨ds, ?_⟩
            · rw [List.drop_zero, hsb]
              exact hst.weaken.congr ((runLine_stream hline hin hne).trans hstr)
                (by rw [(hline.tx hin hne).line]; exact hp.grow) (hline.cfg.trans hp.cfg)
            · rw [plainRun_line ds ho hh, hl0]
              rfl
          | skip m s2 =>
            rw [hres] at hline hrun hl0
            have hbr : Branched l s1 m s2 := hline
            obtain ⟨rfl, hb⟩ := hbr
            refine next m m s2 fr (hp.waiting.branched ⟨rfl, hb⟩) hq1 (.inl rfl) ?_ hrun fun ds => ⟨ds, ?_⟩
            · rw [startsWithByte_of_branch hf hb]
              exact hst.weaken.congr hstr hp.grow hp.cfg
            · rw [plainRun_line ds ho hh, hl0]
              rfl
          | done s2 =>
            rw [hres] at hline hrun hl0
            have hend : Ended s1 s2 := hline
            refine ⟨[], s2, fr, hrun, ?_, ?_, hp.waiting.ended hin hend, hend.seq, ?_⟩
            · rw [plainRun_line _ ho hh, hl0]
              rfl
            · exact hst.weaken.congr ((State.stream_congr hend.cfg hend.rb hend.line).trans hstr)
                (by rw [hend.line]; exact hp.grow) (hend.cfg.trans hp.cfg)
            · rw [State.uninterrupted, hend.env.sched, hend.env.stuck]
              exact hq1
          | fault r => rw [hres] at hline; exact hline.elim
          | refuse r => rw [hres] at hline; exact hline.elim
        | true =>
          cases hres : runLine l s1 with
          | fault r => rw [hres] at hline; exact hline.elim
          | refuse r => rw [hres] at hline; exact hline.elim
          | done s2 =>
            exfalso
            cases l <;> first | exact Bool.noConfusion ho | skip
            · cases hres
            · simp only [runLine, enqueueByte] at hres
              split at hres <;> cases hres
            · cases hres
            · cases hres
          | go s2 =>
            rw [hres] at hline hrun
            have hg := hp.waiting.went hres hline
            have hq2 := uninterrupted_went hline hq1
            cases l <;> first | exact Bool.noConfusion ho | skip
            · -- enqStart
              simp only [runLine, Flow.go.injEq] at hres
              subst hres
              refine next 0 0 _ ([] :: fr) hg hq2 (.inl rfl) ?_ hrun fun ds => ⟨ds, ?_⟩
              · rw [List.drop_zero]
                have : Stored b k ([] :: fr) true { s1 with tmp := { s1.tmp with put := 0 } } :=
                  (hst.start.congr (s := s) hstr hp.grow hp.cfg : Stored b k ([] :: fr) true s1)
                cases startsWithByte rest with
                | true => exact this
                | false => exact this.weaken
              · show plainRun ds rest 0 s.core ([] :: fr) = _
                rw [← hcore]
                rfl
            · -- enqByte
              rename_i x left
              simp only [runLine, enqueueByte] at hres
              split at hres
              · cases hres
              · rename_i hfull
                simp only [Flow.go.injEq] at hres
                subst hres
                have hstore := heldBytes_store hp.waiting.base.ringIn (by simpa using hfull) x
                refine next 0 0 _ (pushByte x fr) hg hq2 (.inl rfl) ?_ hrun fun ds => ⟨ds, ?_⟩
                · rw [List.drop_zero]
                  have hst1 : Stored b k fr true s1 := hst.congr hstr hp.grow hp.cfg
                  have hpush := hst1.push (t := { s1 with
                      rb := { s1.rb with buf := s1.rb.buf.set s1.rb.wr x, wr := ringNext s1.cfg.ringN s1.rb.wr }
                      tmp := { s1.tmp with put := s1.tmp.put + 1 } }) x (by
                    rw [State.stream, State.stream, State.held_eq, State.held_eq, List.append_assoc, ← hstore]) rfl rfl
                  cases startsWithByte rest with
                  | true => exact hpush
                  | false => exact hpush.weaken
                · show plainRun ds rest 0 s.core (pushByte x fr) = _
                  rw [← hcore]
                  rfl
            · -- enqArm
              simp only [runLine, Flow.go.injEq] at hres
              subst hres
              refine next 0 0 _ fr hg hq2 (.inl rfl) ?_ hrun fun ds => ⟨ds, ?_⟩
              · rw [List.drop_zero, startsWithByte_of_ok hf rfl]
                exact (hst.weaken.congr hstr hp.grow hp.cfg : Stored b k fr false s1)
              · show plainRun ds rest 0 s.core fr = _
                rw [← hcore]
                rfl
            · -- pinSample
              simp only [runLine, Flow.go.injEq] at hres
              subst hres
              refine next 0 0 _ fr hg hq2 (.inl rfl) ?_ hrun fun ds => ⟨(s1.btn, false) :: ds, ?_⟩
              · rw [List.drop_zero, startsWithByte_of_ok hf rfl]
                exact (hst.weaken.congr hstr hp.grow hp.cfg : Stored b k fr false s1)
              · show plainRun ds rest 0 { s.core with tmp := { s.core.tmp with lvl := s1.btn } } fr = _
                rw [← hcore]
                rfl
          | skip m s2 =>
            rw [hres] at hline hrun
            have hbr : Branched l s1 m s2 := hline
            obtain ⟨rfl, hb⟩ := hbr
            have hg := hp.waiting.branched ⟨rfl, hb⟩
            cases l <;> first | exact Bool.noConfusion ho | skip
            · cases hres
            · -- enqByte, dropped
              rename_i x left
              have ht := enqueueTail_of_ok (linesOk_head h.ok)
              simp only [Line.branch?, Option.some.injEq] at hb
              subst hb
              have hfull : ringFull s2.cfg.ringN s2.rb = true := by
                simp only [runLine, enqueueByte] at hres
                split at hres
                · assumption
                · cases hres
              refine next left 0 s2 (pushByte x fr) hg hq1 (.inr ⟨rfl, ht, hfull⟩) ?_ hrun fun ds => ⟨ds, ?_⟩
              · rw [startsWithByte_enqueueTail_drop ht]
                exact (hst.congr hstr hp.grow hp.cfg).drop hp.waiting.base.ringIn hfull x
              · show plainRun ds rest 0 s.core (pushByte x fr) = _
                rw [← hcore]
            · cases hres
            · cases hres

end Sys2Proof.Machine
end

