-- ==== Sys2Proof/Laws/Uninterrupted.lean ====
section
/-!
SUPPORT. The meanings under an uninterrupted schedule: the bytes of enqueue calls stand where they may in every program,
so that every operation that starts ends, as its plain run does (`start_plain`).
-/

namespace Sys2Proof.Machine

/-- The lines begin no byte of a call begun elsewhere, and are framed. -/
def FramedTail (lines : List Line) : Prop := framed lines = true ∧ startsWithByte lines = false

theorem FramedTail.cons {l : Line} {r : List Line} (h : FramedTail r) (hl : l.inEnqueue = false)
    (hb : l.branch? = none) : FramedTail (l :: r) := by
  refine ⟨?_, by cases l <;> first | rfl | exact Bool.noConfusion hl⟩
  rw [framed_cons, h.1, h.2, hb]
  simp

theorem FramedTail.branch {l : Line} {r : List Line} {n : Nat} (h : FramedTail r) (hl : l.inEnqueue = false)
    (hb : l.branch? = some n) (hd : startsWithByte (r.drop n) = false) : FramedTail (l :: r) := by
  refine ⟨?_, by cases l <;> first | rfl | exact Bool.noConfusion hl⟩
  rw [framed_cons, h.1, h.2, hb]
  simp [hd]

theorem drop_enqueueBytes (bs : List Byte) (rest : List Line) :
    (enqueueBytes bs ++ rest).drop bs.length = .enqArm :: rest := by
  induction bs with
  | nil => rfl
  | cons b bs ih => exact ih

theorem framed_enqueueBytes (bs : List Byte) {rest : List Line} (h : FramedTail rest) :
    framed (enqueueBytes bs ++ rest) = true := by
  induction bs with
  | nil => rw [enqueueBytes, List.singleton_append, framed_cons, h.1, h.2]; rfl
  | cons b bs ih =>
    rw [enqueueBytes, List.cons_append, framed_cons, ih]
    simp [Line.opensFrame, Line.branch?, drop_enqueueBytes, startsWithByte]

theorem FramedTail.emit (bs : List Byte) {rest : List Line} (h : FramedTail rest) :
    FramedTail (emit bs ++ rest) := by
  refine ⟨?_, rfl⟩
  rw [Machine.emit, List.cons_append, framed_cons, framed_enqueueBytes bs h]
  rfl

theorem framedTail_nil : FramedTail [] := ⟨rfl, rfl⟩

theorem FramedTail.append {a r : List Line} (h : FramedTail r)
    (ha : ∀ l ∈ a, l.inEnqueue = false ∧ l.branch? = none) : FramedTail (a ++ r) := by
  induction a with
  | nil => exact h
  | cons l a ih =>
    obtain ⟨h1, h2⟩ := ha l List.mem_cons_self
    exact (ih fun x hx => ha x (List.mem_cons_of_mem _ hx)).cons h1 h2

theorem FramedTail.flatMap {α : Type} {f : α → List Line} {l : List α} {rest : List Line}
    (hf : ∀ x ∈ l, ∀ r, FramedTail r → FramedTail (f x ++ r)) (h : FramedTail rest) :
    FramedTail (l.flatMap f ++ rest) := by
  induction l with
  | nil => exact h
  | cons x l ih =>
    rw [List.flatMap_cons, List.append_assoc]
    exact hf x List.mem_cons_self _ (ih fun y hy => hf y (List.mem_cons_of_mem _ hy))

theorem FramedTail.halfLinesG {d : Word} {v : Half} {r : List Line} (h : FramedTail r) :
    FramedTail (halfLinesG d v ++ r) := by
  have h1 : FramedTail (.gErase d :: .gWait :: .windowPage d :: .gProg d v :: .gWait :: .windowPast d :: .verify d v :: r) :=
    ((((((h.cons rfl rfl).cons rfl rfl).cons rfl rfl).cons rfl rfl).cons rfl rfl).cons rfl rfl).cons rfl rfl
  exact (h1.branch (l := .windowTest d) rfl rfl rfl).cons (l := .bound d) rfl rfl

theorem FramedTail.arrayLoopG {d : Word} {vs : List Half} {r : List Line} (h : FramedTail r) :
    FramedTail (arrayLoopG d vs ++ r) := by
  induction vs generalizing d with
  | nil => exact h
  | cons v vs ih => rw [Machine.arrayLoopG, List.append_assoc]; exact ih.halfLinesG

theorem FramedTail.erasePageLines {d : Word} {r : List Line} (h : FramedTail r) :
    FramedTail (erasePageLines d ++ r) := by
  rw [Machine.erasePageLines, List.append_assoc]
  refine FramedTail.append (h.emit statusE) fun l hl => ?_
  simp only [refreshLines, List.cons_append, List.nil_append, List.mem_cons, List.not_mem_nil, or_false] at hl
  rcases hl with rfl | rfl | rfl | rfl | rfl | rfl | rfl <;> exact ⟨rfl, rfl⟩

theorem memWriteLines_mem {a : Word} {ws : List Word} {l : Line} (h : l ∈ memWriteLines a ws) :
    ∃ b w, l = .memWrite b w := by
  induction ws generalizing a with
  | nil => cases h
  | cons w ws ih =>
    rcases List.mem_cons.mp h with rfl | h
    · exact ⟨_, _, rfl⟩
    · exact ih h

theorem FramedTail.batchLines {b : Word} {batch : List Half} {r : List Line} (h : FramedTail r) :
    FramedTail (batchLines b batch ++ r) := by
  refine FramedTail.append h fun l hl => ?_
  simp only [Machine.batchLines, refreshLines, List.mem_append, List.mem_cons, List.not_mem_nil, or_false] at hl
  rcases hl with ((rfl | hl) | rfl | rfl | rfl) | rfl | rfl
  · exact ⟨rfl, rfl⟩
  · obtain ⟨_, _, rfl⟩ := memWriteLines_mem hl
    exact ⟨rfl, rfl⟩
  all_goals exact ⟨rfl, rfl⟩

theorem FramedTail.statusLines {r : List Line} (h : FramedTail r) : FramedTail (statusLines ++ r) :=
  (((h.cons (l := .fail .ctrl) rfl rfl).cons (l := .clearErr) rfl rfl).branch (l := .statusTest) rfl rfl h.2).cons
    (l := .statusRead) rfl rfl

theorem FramedTail.programPageLines {upper : Bool} {a m : Word} {data : List Half} {r : List Line}
    (h : FramedTail r) : FramedTail (programPageLines upper a m data ++ r) := by
  unfold Machine.programPageLines
  split
  · exact h.cons (l := .fail .param) rfl rfl
  · simp only [List.append_assoc]
    refine FramedTail.emit _ (FramedTail.append ?_ ?_)
    · refine FramedTail.flatMap (fun k _ r hr => hr.batchLines) (FramedTail.append ?_ ?_)
      · exact (h.emit statusP).statusLines
      · intro l hl
        simp only [commitLines, refreshLines, List.mem_append, List.mem_cons, List.not_mem_nil, or_false] at hl
        rcases hl with (rfl | rfl | rfl | rfl | rfl) | rfl | rfl <;> exact ⟨rfl, rfl⟩
    · intro l hl
      simp only [bufferResetLines, List.mem_cons, List.not_mem_nil, or_false] at hl
      rcases hl with rfl | rfl | rfl | rfl <;> exact ⟨rfl, rfl⟩

theorem verifyLines_mem {d : Word} {vs : List Half} {l : Line} (h : l ∈ verifyLines d vs) : ∃ a v, l = .verify a v := by
  induction vs generalizing d with
  | nil => cases h
  | cons v vs ih =>
    rcases List.mem_cons.mp h with rfl | h
    · exact ⟨_, _, rfl⟩
    · exact ih h

theorem FramedTail.arrayPageLines {upper : Bool} {d : Word} {chunk : List Half} {r : List Line} (h : FramedTail r) :
    FramedTail (arrayPageLines upper d chunk ++ r) := by
  rw [Machine.arrayPageLines, List.cons_append, List.append_assoc, List.append_assoc]
  refine (FramedTail.erasePageLines (FramedTail.programPageLines (FramedTail.append h fun l hl => ?_))).cons rfl rfl
  obtain ⟨_, _, rfl⟩ := verifyLines_mem hl
  exact ⟨rfl, rfl⟩

theorem FramedTail.arrayLoopA {upper : Bool} {dest : Word} {data : List Half} {r : List Line} (h : FramedTail r) :
    FramedTail (arrayLoopA upper dest data ++ r) := FramedTail.flatMap (fun _ _ _ hr => hr.arrayPageLines) h

theorem framedTail_ret (v : Word) : FramedTail [.ret v] := framedTail_nil.cons rfl rfl

theorem framed_arrayG (s : State) : FramedTail (arrayLinesG s) := by
  rw [arrayLinesG, List.append_assoc]
  exact (FramedTail.arrayLoopG (framedTail_ret 1)).emit _

theorem framed_arrayA (s : State) : FramedTail (arrayLinesA s) := by
  rw [arrayLinesA]
  refine FramedTail.emit _ ?_
  split
  · exact framedTail_nil.cons rfl rfl
  · exact FramedTail.arrayLoopA (framedTail_ret 1)

theorem framed_programPage (s : State) :
    FramedTail (programPageLines s.cfg.hexUpper s.a0 s.a1 s.operandHalves ++ [.ret 1]) :=
  FramedTail.programPageLines (framedTail_ret 1)

/-! ## Operations that nothing interrupts -/

/-- An uninterrupted operation whose preconditions hold ends as its plain run does; of every frame a prefix is
stored. -/
theorem start_plain {s : State} (h : s.Inv) (hb : s.busy = false) (hq : s.uninterrupted = true) {i : Instr}
    {pre : Option Refusal} (lines : List Line) (hw : i.wf s.cfg.variant = true) (hp : pre = none)
    (hok : OkAfter s.cfg s.fas lines) (hf : FramedTail lines) :
    ∃ ds t fr, start i pre lines s = .next t ∧ plainRun ds lines 0 (s.begin i lines).core [] = some (t.core, fr) ∧
      Stored s.stream s.line.length fr false t ∧ t.Inv ∧ t.seq = .idle ∧ t.uninterrupted = true := by
  have hst : Stored s.stream s.line.length [] (startsWithByte (lines.drop 0)) (s.begin i lines) := by
    refine ⟨[], .nil, by simp [State.stream_congr (s := s) (t := s.begin i lines) rfl rfl rfl], fun hsb => ?_,
      le_refl _, fun _ => rfl⟩
    rw [List.drop_zero, hf.2] at hsb
    cases hsb
  obtain ⟨ds, t, fr, he⟩ := runLines_plain i lines 0 0 (s.begin i lines) s.stream s.line.length [] (going_begin h hb hw hok) hq hf.1
    (.inl rfl) hst
  exact ⟨ds, t, fr, (start_runs lines hb hw hp).trans he.run, he.plain, he.stored, he.inv, he.idle, he.quiet⟩

/-- What was stored of the frames, as the claims say it. -/
theorem streamed_of_stored {s t : State} {fr : List (List Byte)} (hcfg : t.cfg = s.cfg)
    (h : Stored s.stream s.line.length fr false t) :
    Streamed fr.reverse s t := by
  obtain ⟨st, h1, h2, -, -, h5⟩ := h
  refine ⟨st.reverse, List.forall₂_reverse_iff.mpr h1, h2, fun hr => ?_⟩
  rw [h5 ?_]
  have hfl : fr.reverse.flatten.length = fr.flatten.length := by simp
  have hc : t.cfg = s.cfg := hcfg
  rw [State.stream, List.length_append, hc]
  omega

/-- States that agree on the core differ on the transmit side only. -/
theorem txFrame_of_core {u t : State} (h : t.core = u.core) (hs : t.seq = u.seq) (hp : t.tmp = u.tmp) :
    TxFrame u t := by
  obtain ⟨⟩ := t
  obtain ⟨⟩ := u
  simp only [State.core, State.mk.injEq] at h hs hp
  simp only [TxFrame, State.withTx, State.mk.injEq, hs, hp]
  simp [h]

end Sys2Proof.Machine
end

