-- ==== Sys2Proof/Laws/ProgramG.lean ====
section
/-!
SUPPORT. `flash_program_array` of variant G as a function of the source half-words (`loopG`): what the plain run of
spec/40_flash_generic.md R126 leaves, for every device and every lock state.
-/

namespace Sys2Proof.Machine

/-! ## Frames and single lines in the plain run -/

theorem plainRun_enqueueBytes (ds : List (Bool × Bool)) (bs : List Byte) (rest : List Line) (s : State)
    (f : List Byte) (fr : List (List Byte)) :
    plainRun ds (enqueueBytes bs ++ rest) 0 s (f :: fr) = plainRun ds rest 0 s ((f ++ bs) :: fr) := by
  induction bs generalizing f with
  | nil => rw [List.append_nil]; rfl
  | cons b bs ih =>
    show plainRun ds (enqueueBytes bs ++ rest) 0 s ((f ++ [b]) :: fr) = _
    rw [ih, List.append_assoc, List.singleton_append]

/-- A frame handed to the ring changes nothing of the core. -/
theorem plainRun_emit (ds : List (Bool × Bool)) (bs : List Byte) (rest : List Line) (s : State)
    (fr : List (List Byte)) : plainRun ds (emit bs ++ rest) 0 s fr = plainRun ds rest 0 s (bs :: fr) :=
  plainRun_enqueueBytes ds bs rest s [] fr

/-! ## One pass of the loop -/

/-- Line 5 to 7 of R126: outside the window the page is erased and becomes the window. -/
def State.pageErased (d : Word) (s : State) : State :=
  if outsideWindow s.win d then
    { s with
      flash := if s.fc.locked then s.flash
        else Memory.erase s.flash (pageStart s.fas.pageSize d).toNat s.cfg.pageSize.toNat
      win := { start := pageStart s.fas.pageSize d, endAddr := pageEnd s.fas.pageSize d } }
  else s

/-- Lines 8, 9 of R126: the half-word is programmed and the window moves past it. -/
def State.halfProgrammed (d : Word) (v : Half) (s : State) : State :=
  { s with
    flash := if s.fc.locked then s.flash
      else Memory.writeHalf s.flash d.toNat (flashProg16 s.dev (Memory.readHalf s.flash d.toNat) v)
    win := { s.win with start := d + 2 } }

/-- Lines 5 to 9 of R126. -/
def State.passed (d : Word) (v : Half) (s : State) : State := (s.pageErased d).halfProgrammed d v

/-- The loop of R126 and its return. -/
def loopG : Word → List Half → State → State
  | _, [], s => s.finish 1
  | d, v :: vs, s =>
    if s.fas.endAddr.toNat ≤ d.toNat then s.raiseFail .param
    else if Memory.readHalf (s.passed d v).flash d.toNat = v then loopG (d + 2) vs (s.passed d v)
    else (s.passed d v).raiseFail .verify

/-- A controller of variant G at rest. -/
structure RestG (s : State) : Prop where
  variant : s.cfg.variant = .g
  busy : s.fc.busy = false
  pending : s.fc.pending = .none
  fresh : s.fc.stale = false

theorem RestG.congr {s t : State} (h : RestG s) (hc : t.cfg = s.cfg) (hf : t.fc = s.fc) : RestG t :=
  ⟨by rw [hc]; exact h.variant, by rw [hf]; exact h.busy, by rw [hf]; exact h.pending, by rw [hf]; exact h.fresh⟩

theorem RestG.rest_eq {s : State} (h : RestG s) (c : Cycle) :
    ({ s.fc with busy := true, pending := c } : Controller).rest = s.fc := by
  simp only [Controller.rest]
  rw [← h.busy, ← h.pending]

theorem RestG.completeErase {s : State} (h : RestG s) (p : Word) (pg wp : Bool) :
    (s.startCycle (.erase p)).complete pg wp =
      { s with flash := if s.fc.locked then s.flash else Memory.erase s.flash p.toNat s.cfg.pageSize.toNat } := by
  show State.mk .. = State.mk ..
  congr 1
  show ({ ({ s.fc with busy := true, pending := .erase p } : Controller).rest with
    stale := if s.cfg.variant = .a then true else s.fc.stale } : Controller) = s.fc
  rw [h.rest_eq, h.variant]
  rfl

theorem RestG.completeHalf {s : State} (h : RestG s) (a : Word) (v : Half) (pg wp : Bool) :
    (s.startCycle (.progHalf a v)).complete pg wp =
      { s with flash := if s.fc.locked then s.flash
          else Memory.writeHalf s.flash a.toNat (flashProg16 s.dev (Memory.readHalf s.flash a.toNat) v) } := by
  show State.mk .. = State.mk ..
  congr 1
  exact h.rest_eq (.progHalf a v)

theorem startOn_of {s : State} {p : Word} {n : Nat} {c : Cycle} (hin : inFlash s.cfg s.fas p n = true)
    (hb : s.fc.busy = false) : startOn p n c s = .go (s.startCycle c) := by
  rw [startOn, State.inArray_eq, hin, hb]
  rfl

theorem plainRun_gErase {s : State} (h : RestG s) {d : Word}
    (hin : inFlash s.cfg s.fas (pageStart s.fas.pageSize d) s.fas.pageSize.toNat = true) (ds : List (Bool × Bool))
    (rest : List Line) (fr : List (List Byte)) :
    plainRun ds (.gErase d :: .gWait :: rest) 0 s fr =
      plainRun ds.tail rest 0
        { s with
          flash := if s.fc.locked then s.flash
            else Memory.erase s.flash (pageStart s.fas.pageSize d).toNat s.cfg.pageSize.toNat } fr := by
  rw [plainRun_line ds rfl rfl]
  simp only [runLine, startErase]
  rw [startOn_of hin h.busy]
  simp only
  rw [plainRun_hold ds rfl]
  simp only [State.startCycle_fc, if_true]
  rw [h.completeErase]

theorem plainRun_gProg {s : State} (h : RestG s) {d : Word} {v : Half} (hd : d.toNat % 2 = 0)
    (hin : inFlash s.cfg s.fas d 2 = true) (ds : List (Bool × Bool)) (rest : List Line) (fr : List (List Byte)) :
    plainRun ds (.gProg d v :: .gWait :: rest) 0 s fr =
      plainRun ds.tail rest 0
        { s with
          flash := if s.fc.locked then s.flash
            else Memory.writeHalf s.flash d.toNat (flashProg16 s.dev (Memory.readHalf s.flash d.toNat) v) } fr := by
  rw [plainRun_line ds rfl rfl]
  simp only [runLine, startHalf]
  rw [if_neg (by simp [hd]), startOn_of hin h.busy]
  simp only
  rw [plainRun_hold ds rfl]
  simp only [State.startCycle_fc, if_true]
  rw [h.completeHalf]

theorem plainRun_verify {s : State} {d : Word} {v : Half} (hs : s.readStale = false) (hd : d.toNat % 2 = 0)
    (hin : inFlash s.cfg s.fas d 2 = true) (ds : List (Bool × Bool)) (rest : List Line) (fr : List (List Byte)) :
    plainRun ds (.verify d v :: rest) 0 s fr =
      if Memory.readHalf s.flash d.toNat = v then plainRun ds rest 0 s fr else some (s.raiseFail .verify, fr) := by
  rw [plainRun_line ds rfl rfl]
  simp only [runLine, verifyHalf]
  rw [memRead16_fresh hs hd hin]
  by_cases hv : Memory.readHalf s.flash d.toNat = v
  · simp only [hv, if_true]
  · simp only [hv, if_false]

@[simp] theorem State.pageErased_cfg (d : Word) (s : State) : (s.pageErased d).cfg = s.cfg := by
  unfold State.pageErased; split <;> rfl
@[simp] theorem State.pageErased_fas (d : Word) (s : State) : (s.pageErased d).fas = s.fas := by
  unfold State.pageErased; split <;> rfl
@[simp] theorem State.pageErased_fc (d : Word) (s : State) : (s.pageErased d).fc = s.fc := by
  unfold State.pageErased; split <;> rfl
@[simp] theorem State.pageErased_dev (d : Word) (s : State) : (s.pageErased d).dev = s.dev := by
  unfold State.pageErased; split <;> rfl
@[simp] theorem State.passed_cfg (d : Word) (v : Half) (s : State) : (s.passed d v).cfg = s.cfg :=
  State.pageErased_cfg d s
@[simp] theorem State.passed_fas (d : Word) (v : Half) (s : State) : (s.passed d v).fas = s.fas :=
  State.pageErased_fas d s
@[simp] theorem State.passed_fc (d : Word) (v : Half) (s : State) : (s.passed d v).fc = s.fc := State.pageErased_fc d s
@[simp] theorem State.passed_dev (d : Word) (v : Half) (s : State) : (s.passed d v).dev = s.dev :=
  State.pageErased_dev d s

/-- One pass of the loop, lines 4 to 10 of R126. -/
theorem plainRun_half {s : State} (h : RestG s) {d : Word} {v : Half} (hd : d.toNat % 2 = 0)
    (hin : d.toNat < s.fas.endAddr.toNat → inFlash s.cfg s.fas d 2 = true ∧
      inFlash s.cfg s.fas (pageStart s.fas.pageSize d) s.fas.pageSize.toNat = true)
    (ds : List (Bool × Bool)) (rest : List Line) (fr : List (List Byte)) :
    ∃ ds', plainRun ds (halfLinesG d v ++ rest) 0 s fr =
      if s.fas.endAddr.toNat ≤ d.toNat then some (s.raiseFail .param, fr)
      else if Memory.readHalf (s.passed d v).flash d.toNat = v then plainRun ds' rest 0 (s.passed d v) fr
      else some ((s.passed d v).raiseFail .verify, fr) := by
  have hb : plainRun ds (halfLinesG d v ++ rest) 0 s fr =
      if s.fas.endAddr.toNat ≤ d.toNat then some (s.raiseFail .param, fr)
      else plainRun ds (.windowTest d :: .gErase d :: .gWait :: .windowPage d :: .gProg d v :: .gWait ::
        .windowPast d :: .verify d v :: rest) 0 s fr := by
    show plainRun ds (.bound d :: .windowTest d :: .gErase d :: .gWait :: .windowPage d :: .gProg d v :: .gWait ::
        .windowPast d :: .verify d v :: rest) 0 s fr = _
    rw [plainRun_line ds rfl rfl]
    by_cases hend : s.fas.endAddr.toNat ≤ d.toNat
    · simp only [runLine, hend, if_true]
    · simp only [runLine, hend, if_false]
  by_cases hend : s.fas.endAddr.toNat ≤ d.toNat
  · exact ⟨ds, by rw [hb, if_pos hend, if_pos hend]⟩
  obtain ⟨hin1, hin2⟩ := hin (by omega)
  -- programming and verifying the half-word, from the state after the window test
  have hprog : ∀ (ds : List (Bool × Bool)) (u : State), u = s.pageErased d →
      plainRun ds (.gProg d v :: .gWait :: .windowPast d :: .verify d v :: rest) 0 u fr =
        if Memory.readHalf (s.passed d v).flash d.toNat = v then plainRun ds.tail rest 0 (s.passed d v) fr
        else some ((s.passed d v).raiseFail .verify, fr) := by
    intro ds u hu
    have hr : RestG u := h.congr (by rw [hu]; simp) (by rw [hu]; simp)
    rw [plainRun_gProg hr hd (by rw [hu]; simpa using hin1), plainRun_line _ rfl rfl]
    simp only [runLine]
    have hpass : ({ u with
        flash := if u.fc.locked then u.flash
          else Memory.writeHalf u.flash d.toNat (flashProg16 u.dev (Memory.readHalf u.flash d.toNat) v)
        win := { u.win with start := d + 2 } } : State) = s.passed d v := by rw [hu]; rfl
    rw [hpass]
    refine plainRun_verify ?_ hd (by simpa using hin1) _ _ _
    simp [State.readStale, h.variant]
  rw [hb, if_neg hend]
  simp only [if_neg hend]
  cases ho : outsideWindow s.win d with
  | true =>
    refine ⟨ds.tail.tail, ?_⟩
    rw [plainRun_line ds rfl rfl]
    simp only [runLine, ho, if_true]
    rw [plainRun_gErase h hin2, plainRun_line _ rfl rfl]
    simp only [runLine]
    exact hprog ds.tail _ (by simp [State.pageErased, ho])
  | false =>
    refine ⟨ds.tail, ?_⟩
    rw [plainRun_line ds rfl rfl]
    simp only [runLine, ho]
    exact hprog ds s (by simp [State.pageErased, ho])

/-! ## The loop -/

/-- The plain run of `flash_program_array.g` is `loopG`. -/
theorem plainRun_arrayLoopG {s : State} (h : RestG s) (g : Geometry s.cfg) (hfas : s.fas = AddressSpace.latch s.cfg)
    {d : Word} (vs : List Half) (hd : d.toNat % 2 = 0) (ho : s.cfg.flashOrigin.toNat ≤ d.toNat)
    (ds : List (Bool × Bool)) (fr : List (List Byte)) :
    plainRun ds (arrayLoopG d vs ++ [.ret 1]) 0 s fr = some (loopG d vs s, fr) := by
  induction vs generalizing s d ds with
  | nil => rfl
  | cons v vs ih =>
    have hpos := g.two_dvd
    have hend := g.endAddr_le
    have hed := Nat.dvd_trans hpos g.endAddr_dvd
    have hle := Nat.le_of_dvd (by have := g.pageSize_pos; omega) hpos
    rw [arrayLoopG, List.append_assoc]
    have hin : d.toNat < s.fas.endAddr.toNat → inFlash s.cfg s.fas d 2 = true ∧
        inFlash s.cfg s.fas (pageStart s.fas.pageSize d) s.fas.pageSize.toNat = true := by
      rw [hfas]
      intro hb
      rw [inFlash_iff, inFlash_iff]
      exact ⟨by omega, g.page_inFlash ho hb⟩
    obtain ⟨ds', he⟩ := plainRun_half h (v := v) hd hin ds (arrayLoopG (d + 2) vs ++ [.ret 1]) fr
    rw [he, loopG]
    by_cases hb : s.fas.endAddr.toNat ≤ d.toNat
    · rw [if_pos hb, if_pos hb]
    · rw [if_neg hb, if_neg hb]
      have h2 : (d + 2).toNat = d.toNat + 2 := by
        rw [hfas] at hb
        exact toNat_add_two (by omega)
      rw [ih (s := s.passed d v) (h.congr (by simp) (by simp)) (by simpa using g) (by simpa using hfas)
        (by rw [h2]; omega) (by rw [h2]; simp; omega)]
      split <;> rfl

end Sys2Proof.Machine
end

