-- ==== Sys2Proof/Laws/LoopG.lean ====
section
/-!
SUPPORT. What the loop of `flash_program_array.g` leaves: the bytes it does not touch, the contents it verified, its
success on a healthy unlocked controller, the window (spec/40_flash_generic.md R127 to R131).
-/

namespace Sys2Proof.Machine

/-- The registers the loop leaves alone: it writes the array, the window and what ends an operation. -/
theorem loopG_frame (d : Word) (vs : List Half) (s : State) :
    loopG d vs s = { s with
      flash := (loopG d vs s).flash
      win := (loopG d vs s).win
      res := (loopG d vs s).res
      cause := (loopG d vs s).cause
      seq := .idle
      busy := false
      tmp := Tmp.init } := by
  induction vs generalizing d s with
  | nil => rfl
  | cons v vs ih =>
    rw [loopG]
    split
    · rfl
    · have hp : s.passed d v = { s with flash := (s.passed d v).flash, win := (s.passed d v).win } := by
        unfold State.passed State.halfProgrammed State.pageErased
        split <;> rfl
      split
      · generalize hu : s.passed d v = u at hp
        have := ih (d + 2) u
        rw [this, hp]
      · rw [hp]; rfl

/-- How the loop ends: with success, or with a failure whose result is 0. -/
theorem loopG_res (d : Word) (vs : List Half) (s : State) :
    ((loopG d vs s).res = 1 ∧ (loopG d vs s).cause = s.cause) ∨
      ((loopG d vs s).res = 0 ∧ ((loopG d vs s).cause = some .param ∨ (loopG d vs s).cause = some .verify)) := by
  induction vs generalizing d s with
  | nil => exact .inl ⟨rfl, rfl⟩
  | cons v vs ih =>
    rw [loopG]
    split
    · exact .inr ⟨rfl, .inl rfl⟩
    · split
      · have hc : (s.passed d v).cause = s.cause := by
          unfold State.passed State.halfProgrammed State.pageErased
          split <;> rfl
        have := ih (d + 2) (s.passed d v)
        rwa [hc] at this
      · exact .inr ⟨rfl, .inr rfl⟩

/-! ## Bytes -/

theorem State.passed_win (d : Word) (v : Half) (s : State) : (s.passed d v).win =
    if outsideWindow s.win d then { start := d + 2, endAddr := pageEnd s.fas.pageSize d }
    else { s.win with start := d + 2 } := by
  unfold State.passed State.halfProgrammed State.pageErased
  split <;> rfl

theorem State.pageErased_flash (d : Word) (s : State) : (s.pageErased d).flash =
    if outsideWindow s.win d && !s.fc.locked then
      Memory.erase s.flash (pageStart s.fas.pageSize d).toNat s.cfg.pageSize.toNat else s.flash := by
  unfold State.pageErased
  cases outsideWindow s.win d <;> cases s.fc.locked <;> rfl

theorem State.passed_flash (d : Word) (v : Half) (s : State) : (s.passed d v).flash =
    if s.fc.locked then (s.pageErased d).flash else Memory.writeHalf (s.pageErased d).flash d.toNat
      (flashProg16 s.dev (Memory.readHalf (s.pageErased d).flash d.toNat) v) := by
  unfold State.passed State.halfProgrammed
  rw [State.pageErased_fc, State.pageErased_dev]

theorem State.passed_locked {d : Word} {v : Half} {s : State} (hl : s.fc.locked = true) :
    (s.passed d v).flash = s.flash := by
  rw [State.passed_flash, State.pageErased_flash, hl]
  simp

theorem State.wf_pageErased {d : Word} {s : State} (h : Memory.wf s.flash = true) :
    Memory.wf (s.pageErased d).flash = true := by
  rw [State.pageErased_flash]
  split
  · exact Memory.wf_erase _ _ h
  · exact h

theorem State.wf_passed {d : Word} {v : Half} {s : State} (h : Memory.wf s.flash = true) :
    Memory.wf (s.passed d v).flash = true := by
  rw [State.passed_flash]
  split
  · exact State.wf_pageErased h
  · exact Memory.wf_writeHalf _ _ (State.wf_pageErased h)

theorem State.read_pageErased (d : Word) (s : State) (a : Nat) : Memory.read (s.pageErased d).flash a =
    if (outsideWindow s.win d = true ∧ s.fc.locked = false) ∧ (pageStart s.fas.pageSize d).toNat ≤ a ∧
      a < (pageStart s.fas.pageSize d).toNat + s.cfg.pageSize.toNat then erasedByte else Memory.read s.flash a := by
  rw [State.pageErased_flash]
  cases outsideWindow s.win d <;> cases s.fc.locked <;> simp [Memory.read_erase]

/-- The bytes of a pass outside its half-word are those after the page erase. -/
theorem State.read_passed {d : Word} {v : Half} {s : State} (h : Memory.wf s.flash = true) {a : Nat}
    (ha : a < d.toNat ∨ d.toNat + 2 ≤ a) :
    Memory.read (s.passed d v).flash a = Memory.read (s.pageErased d).flash a := by
  rw [State.passed_flash]
  split
  · rfl
  · rw [Memory.read_writeHalf _ _ _ (State.wf_pageErased h), if_neg (by omega), if_neg (by omega)]

/-- With write access closed the loop changes no byte (spec/20_memory.md R77). -/
theorem loopG_locked (d : Word) (vs : List Half) {s : State} (hl : s.fc.locked = true) :
    (loopG d vs s).flash = s.flash := by
  induction vs generalizing d s with
  | nil => rfl
  | cons v vs ih =>
    rw [loopG]
    split
    · rfl
    · split
      · rw [ih (d + 2) (by simpa using hl), State.passed_locked hl]
      · exact State.passed_locked hl

theorem inPages_cons (ps p : Word) (r : List Word) (a : Nat) :
    inPages ps (p :: r) a = (decide (p.toNat ≤ a) && decide (a < p.toNat + ps.toNat) || inPages ps r a) := rfl

theorem toNat_add_two_le {d : Word} {e : Nat} (he : e + 2 ≤ 2 ^ 32) (h : d.toNat < e) :
    (d + 2).toNat = d.toNat + 2 := toNat_add_two (by omega)

/-- A byte that is neither written nor in a page that the call erases is unchanged. -/
theorem loopG_read_other (d : Word) (vs : List Half) {s : State} (hwf : Memory.wf s.flash = true)
    (hps : s.fas.pageSize = s.cfg.pageSize) (he : s.fas.endAddr.toNat + 2 ≤ 2 ^ 32) {a : Nat}
    (ha : a < d.toNat ∨ d.toNat + 2 * vs.length ≤ a)
    (hp : inPages s.fas.pageSize (erasedBy s.fas.pageSize s.win d vs.length) a = false) :
    Memory.read (loopG d vs s).flash a = Memory.read s.flash a := by
  induction vs generalizing d s with
  | nil => rfl
  | cons v vs ih =>
    rw [List.length_cons] at ha
    have hpass : Memory.read (s.passed d v).flash a = Memory.read s.flash a := by
      rw [State.read_passed hwf (by omega), State.read_pageErased, if_neg]
      rintro ⟨⟨ho, -⟩, h1, h2⟩
      simp only [erasedBy, List.length_cons, ho, if_true, inPages_cons, hps, Bool.or_eq_false_iff,
        Bool.and_eq_false_iff, decide_eq_false_iff_not] at hp
      rw [hps] at h1 h2
      omega
    rw [loopG]
    split
    · rfl
    · split
      · rename_i hb _
        have h2 : (d + 2).toNat = d.toNat + 2 := toNat_add_two_le he (by omega)
        have := ih (d + 2) (s := s.passed d v) (State.wf_passed hwf) (by simpa using hps) (by simpa using he)
          (by rw [h2]; omega) (by
            rw [State.passed_win, State.passed_fas]
            cases ho : outsideWindow s.win d with
            | true =>
              simp only [erasedBy, List.length_cons, ho, if_true, inPages_cons, Bool.or_eq_false_iff] at hp
              exact hp.2
            | false =>
              simp only [erasedBy, List.length_cons, ho, Bool.false_eq_true, if_false] at hp
              exact hp)
        rw [this, hpass]
      · exact hpass

/-- An erased byte that is not written stays erased. -/
theorem loopG_read_erased (d : Word) (vs : List Half) {s : State} (hwf : Memory.wf s.flash = true)
    (he : s.fas.endAddr.toNat + 2 ≤ 2 ^ 32) {a : Nat} (ha : a < d.toNat ∨ d.toNat + 2 * vs.length ≤ a)
    (hr : Memory.read s.flash a = erasedByte) : Memory.read (loopG d vs s).flash a = erasedByte := by
  induction vs generalizing d s with
  | nil => exact hr
  | cons v vs ih =>
    rw [List.length_cons] at ha
    have hpass : Memory.read (s.passed d v).flash a = erasedByte := by
      rw [State.read_passed hwf (by omega), State.read_pageErased]
      split
      · rfl
      · exact hr
    rw [loopG]
    split
    · exact hr
    · split
      · rename_i hb _
        have h2 : (d + 2).toNat = d.toNat + 2 := toNat_add_two_le he (by omega)
        exact ih (d + 2) (State.wf_passed hwf) (by simpa using he) (by rw [h2]; omega) hpass
      · exact hpass

/-! ## The contents that were verified -/

/-- Between two half-words of one call: the window starts at the next half-word and ends at the end of a page. -/
structure Onward (d : Word) (s : State) : Prop where
  wf : Memory.wf s.flash = true
  geometry : Geometry s.cfg
  fas : s.fas = AddressSpace.latch s.cfg
  even : d.toNat % 2 = 0
  aligned : s.win.endAddr.toNat % s.cfg.pageSize.toNat = 0
  start : s.win.start = d
  le : d.toNat ≤ s.win.endAddr.toNat

theorem Onward.passed {d : Word} {v : Half} {s : State} (hwf : Memory.wf s.flash = true) (g : Geometry s.cfg)
    (hfas : s.fas = AddressSpace.latch s.cfg) (hd : d.toNat % 2 = 0)
    (ha : s.win.endAddr.toNat % s.cfg.pageSize.toNat = 0) (ho : s.cfg.flashOrigin.toNat ≤ d.toNat)
    (hb : d.toNat < s.fas.endAddr.toNat) : Onward (d + 2) (s.passed d v) := by
  have h2 := g.two_dvd
  have hend := g.endAddr_le
  have hle := Nat.le_of_dvd g.pageSize_pos h2
  have hps : s.fas.pageSize = s.cfg.pageSize := by rw [hfas]; rfl
  rw [hfas] at hb
  have hd2 : (d + 2).toNat = d.toNat + 2 := toNat_add_two (by omega)
  obtain ⟨hp1, hp2⟩ := g.page_inFlash ho hb
  have hpe : (pageEnd s.cfg.pageSize d).toNat = (pageStart s.cfg.pageSize d).toNat + s.cfg.pageSize.toNat := by
    rw [pageEnd, BitVec.toNat_add, Nat.mod_eq_of_lt (by omega)]
  have hpst := g.pageStart_toNat d
  have hlt := Nat.mod_lt d.toNat g.pageSize_pos
  refine { wf := State.wf_passed hwf, geometry := by simpa using g, fas := by simpa using hfas, even := by omega,
           aligned := ?_, start := ?_, le := ?_ }
  · rw [State.passed_win, State.passed_cfg, hps]
    split
    · exact g.pageEnd_mod d
    · exact ha
  · rw [State.passed_win]
    split <;> rfl
  · rw [State.passed_win, hps, hd2]
    split
    · simp only [hpe, hpst]
      obtain ⟨k, hk⟩ := h2
      have := Nat.mod_add_div d.toNat s.cfg.pageSize.toNat
      have hev : d.toNat % s.cfg.pageSize.toNat % 2 = 0 := by
        rw [Nat.mod_mod_of_dvd _ ⟨k, hk⟩]; exact hd
      omega
    · rename_i hout
      simp only [outsideWindow, Bool.or_eq_true, decide_eq_true_eq, not_or, Nat.not_lt, Nat.not_le] at hout
      have : s.win.endAddr.toNat % 2 = 0 := by
        obtain ⟨j, hj⟩ := Nat.dvd_of_mod_eq_zero ha
        obtain ⟨k, hk⟩ := h2
        rw [hj, hk, Nat.mul_assoc]
        exact Nat.mul_mod_right 2 _
      simp only
      omega

/-- A pass leaves every byte below its half-word. -/
theorem Onward.read_below {d : Word} {v : Half} {s : State} (h : Onward d s) {a : Nat} (ha : a < d.toNat) :
    Memory.read (s.passed d v).flash a = Memory.read s.flash a := by
  rw [State.read_passed h.wf (.inl ha), State.read_pageErased, if_neg]
  rintro ⟨⟨ho, -⟩, h1, -⟩
  have hps : s.fas.pageSize = s.cfg.pageSize := by rw [h.fas]; rfl
  have hle := h.le
  simp only [outsideWindow, h.start, lt_irrefl, decide_false, Bool.false_or, decide_eq_true_eq] at ho
  have hmod : d.toNat % s.cfg.pageSize.toNat = 0 := by
    rw [show d.toNat = s.win.endAddr.toNat by omega]; exact h.aligned
  rw [hps, h.geometry.pageStart_toNat, hmod] at h1
  omega

/-- The rest of the loop leaves every byte below its next half-word. -/
theorem loopG_read_below (d : Word) (vs : List Half) {s : State} (h : Onward d s)
    (ho : s.cfg.flashOrigin.toNat ≤ d.toNat) {a : Nat} (ha : a < d.toNat) :
    Memory.read (loopG d vs s).flash a = Memory.read s.flash a := by
  induction vs generalizing d s with
  | nil => rfl
  | cons v vs ih =>
    rw [loopG]
    split
    · rfl
    · rename_i hb
      split
      · have hn := Onward.passed (v := v) h.wf h.geometry h.fas h.even h.aligned ho (by omega)
        have h2 : (d + 2).toNat = d.toNat + 2 := by
          refine toNat_add_two_le (e := s.fas.endAddr.toNat) ?_ (by omega)
          have := h.geometry.endAddr_le
          have := Nat.le_of_dvd h.geometry.pageSize_pos h.geometry.two_dvd
          rw [h.fas]; omega
        rw [ih (d + 2) hn (by rw [State.passed_cfg]; omega) (by omega), h.read_below ha]
      · exact h.read_below ha

/-- A call that succeeds left every half-word as the source has it, whatever the device does
(spec/42_verify_and_capacity.md R170 to R172). -/
theorem loopG_success (d : Word) (vs : List Half) {s : State} (hwf : Memory.wf s.flash = true) (g : Geometry s.cfg)
    (hfas : s.fas = AddressSpace.latch s.cfg) (hd : d.toNat % 2 = 0)
    (ha : s.win.endAddr.toNat % s.cfg.pageSize.toNat = 0) (ho : s.cfg.flashOrigin.toNat ≤ d.toNat)
    (hr : (loopG d vs s).res = 1) (i : Nat) (hi : i < vs.length) :
    Memory.readHalf (loopG d vs s).flash (d.toNat + 2 * i) = vs[i] := by
  induction vs generalizing d s i with
  | nil => simp at hi
  | cons v vs ih =>
    rw [loopG] at hr ⊢
    split at hr
    · cases hr
    · rename_i hb
      rw [if_neg hb]
      split at hr
      · rename_i hv
        rw [if_pos hv]
        have hn := Onward.passed (v := v) hwf g hfas hd ha ho (by omega)
        have h2 : (d + 2).toNat = d.toNat + 2 := by
          refine toNat_add_two_le (e := s.fas.endAddr.toNat) ?_ (by omega)
          have := g.endAddr_le
          have := Nat.le_of_dvd g.pageSize_pos g.two_dvd
          rw [hfas]; omega
        cases i with
        | zero =>
          rw [Nat.mul_zero, Nat.add_zero, List.getElem_cons_zero, Memory.readHalf,
            loopG_read_below (d + 2) vs hn (by rw [State.passed_cfg]; omega) (by omega),
            loopG_read_below (d + 2) vs hn (by rw [State.passed_cfg]; omega) (by omega)]
          exact hv
        | succ i =>
          have := ih (d + 2) (s := s.passed d v) hn.wf hn.geometry hn.fas hn.even hn.aligned
            (by rw [State.passed_cfg]; omega) hr i (by simpa using hi)
          rw [h2] at this
          rw [List.getElem_cons_succ, ← this]
          congr 1
          omega
      · cases hr

/-! ## Success on a healthy unlocked controller -/

theorem State.passed_healthy {d : Word} {v : Half} {s : State} (hwf : Memory.wf s.flash = true) (g : Geometry s.cfg)
    (hfas : s.fas = AddressSpace.latch s.cfg) (hl : s.fc.locked = false) (hh : s.dev.healthy = true)
    (hd : d.toNat % 2 = 0) (ho : s.cfg.flashOrigin.toNat ≤ d.toNat) (hb : d.toNat < s.fas.endAddr.toNat)
    (hw : s.WindowErased) :
    Memory.readHalf (s.passed d v).flash d.toNat = v ∧ (s.passed d v).WindowErased := by
  have hmod := Nat.mod_lt d.toNat g.pageSize_pos
  have hst := g.pageStart_toNat d
  have hend := g.endAddr_le
  have hdv := g.two_dvd
  have hle := Nat.le_of_dvd g.pageSize_pos hdv
  obtain ⟨k, hk⟩ := g.two_dvd
  have hps : s.fas.pageSize = s.cfg.pageSize := by rw [hfas]; rfl
  have hev : d.toNat % s.cfg.pageSize.toNat % 2 = 0 := by
    rw [Nat.mod_mod_of_dvd _ ⟨k, hk⟩]; exact hd
  rw [hfas] at hb
  obtain ⟨hp1, hp2⟩ := g.page_inFlash ho hb
  have hpe : (pageEnd s.cfg.pageSize d).toNat = (pageStart s.cfg.pageSize d).toNat + s.cfg.pageSize.toNat := by
    rw [pageEnd, BitVec.toNat_add, Nat.mod_eq_of_lt (by omega)]
  have hd2 : (d + 2).toNat = d.toNat + 2 := toNat_add_two (by omega)
  have hold : Memory.readHalf (s.pageErased d).flash d.toNat = 0xFFFF := by
    rw [State.pageErased_flash, hl]
    cases ho : outsideWindow s.win d with
    | true =>
      simp only [Bool.not_false, Bool.and_true, if_true]
      refine Memory.readHalf_erase_in ?_ ?_
      · rw [hps, hst]; omega
      · rw [hps, hst]; omega
    | false => exact hw d hd ho
  refine ⟨?_, fun x hx hin => ?_⟩
  · rw [State.passed_flash, hl, hold, flashProg16_healthy hh]
    exact Memory.readHalf_writeHalf_same _ _ (State.wf_pageErased hwf)
  · rw [State.passed_flash, hl, hold, flashProg16_healthy hh]
    simp only [Bool.false_eq_true, if_false]
    have hcase : Memory.readHalf (s.pageErased d).flash x.toNat = 0xFFFF ∧ d.toNat + 2 ≤ x.toNat := by
      rw [State.passed_win] at hin
      rw [State.pageErased_flash, hl]
      cases ho : outsideWindow s.win d with
      | true =>
        rw [ho] at hin
        simp only [if_true, outsideWindow, Bool.or_eq_false_iff, decide_eq_false_iff_not, Nat.not_lt,
          Nat.not_le, hd2, hps, hpe] at hin
        simp only [Bool.not_false, Bool.and_true, if_true]
        refine ⟨Memory.readHalf_erase_in ?_ ?_, hin.1⟩
        · rw [hps]; omega
        · rw [hps]; omega
      | false =>
        rw [ho] at hin
        simp only [Bool.false_eq_true, if_false, outsideWindow, Bool.or_eq_false_iff, decide_eq_false_iff_not,
          Nat.not_lt, Nat.not_le, hd2] at hin ho
        simp only [Bool.false_and, Bool.false_eq_true, if_false]
        refine ⟨hw x hx ?_, hin.1⟩
        simp only [outsideWindow, Bool.or_eq_false_iff, decide_eq_false_iff_not, Nat.not_lt, Nat.not_le]
        omega
    rw [Memory.readHalf_writeHalf_other _ (State.wf_pageErased hwf) (by omega)]
    exact hcase.1

/-- Below `FAS.end` the loop succeeds, and the rest of the window stays erased. -/
theorem loopG_healthy (d : Word) (vs : List Half) {s : State} (hwf : Memory.wf s.flash = true) (g : Geometry s.cfg)
    (hfas : s.fas = AddressSpace.latch s.cfg) (hl : s.fc.locked = false) (hh : s.dev.healthy = true)
    (hd : d.toNat % 2 = 0) (ho : s.cfg.flashOrigin.toNat ≤ d.toNat)
    (he : d.toNat + 2 * vs.length ≤ s.fas.endAddr.toNat) (hw : s.WindowErased) :
    (loopG d vs s).res = 1 ∧ (loopG d vs s).WindowErased := by
  induction vs generalizing d s with
  | nil => exact ⟨rfl, hw⟩
  | cons v vs ih =>
    rw [List.length_cons] at he
    have hend := g.endAddr_le
    have hle := Nat.le_of_dvd g.pageSize_pos g.two_dvd
    have h2 : (d + 2).toNat = d.toNat + 2 := by
      rw [hfas] at he
      exact toNat_add_two (by omega)
    obtain ⟨h3, h4⟩ := State.passed_healthy (v := v) hwf g hfas hl hh hd ho (by omega) hw
    rw [loopG, if_neg (by omega), if_pos h3]
    exact ih (d + 2) (State.wf_passed hwf) (by simpa using g) (by simpa using hfas) (by simpa using hl)
      (by simpa using hh) (by omega) (by simp; omega) (by simp; omega) h4

/-- A run that crosses `FAS.end` programs the half-words below it and fails at the first one there (R129 (c)). -/
theorem loopG_crossing (d : Word) (vs : List Half) {s : State} (hwf : Memory.wf s.flash = true) (g : Geometry s.cfg)
    (hfas : s.fas = AddressSpace.latch s.cfg) (hl : s.fc.locked = false) (hh : s.dev.healthy = true)
    (hd : d.toNat % 2 = 0) (ho : s.cfg.flashOrigin.toNat ≤ d.toNat)
    (ha : s.win.endAddr.toNat % s.cfg.pageSize.toNat = 0) (hle : d.toNat ≤ s.fas.endAddr.toNat)
    (he : s.fas.endAddr.toNat < d.toNat + 2 * vs.length) (hw : s.WindowErased) :
    (loopG d vs s).res = 0 ∧ (loopG d vs s).cause = some .param ∧
      ∀ i (hi : i < vs.length), d.toNat + 2 * i < s.fas.endAddr.toNat →
        Memory.readHalf (loopG d vs s).flash (d.toNat + 2 * i) = vs[i] := by
  induction vs generalizing d s with
  | nil => simp only [List.length_nil] at he; omega
  | cons v vs ih =>
    rw [List.length_cons] at he
    by_cases hb : s.fas.endAddr.toNat ≤ d.toNat
    · rw [loopG, if_pos hb]
      exact ⟨rfl, rfl, fun i _ hlt => by omega⟩
    · have hend := g.endAddr_le
      have hps := Nat.le_of_dvd g.pageSize_pos g.two_dvd
      have hed := Nat.dvd_trans g.two_dvd g.endAddr_dvd
      rw [← hfas] at hend hed
      have h2 : (d + 2).toNat = d.toNat + 2 := toNat_add_two (by omega)
      obtain ⟨h3, h4⟩ := State.passed_healthy (v := v) hwf g hfas hl hh hd ho (by omega) hw
      have hn := Onward.passed (v := v) hwf g hfas hd ha ho (by omega)
      have hf : (s.passed d v).fas = s.fas := State.passed_fas d v s
      obtain ⟨h5, h6, h7⟩ := ih (d + 2) hn.wf (by simpa using g) (by simpa using hfas) (by simpa using hl)
        (by simpa using hh) (by omega) (by rw [State.passed_cfg]; omega) hn.aligned (by rw [hf]; omega)
        (by rw [hf]; omega) h4
      rw [loopG, if_neg hb, if_pos h3]
      refine ⟨h5, h6, fun i hi hlt => ?_⟩
      cases i with
      | zero =>
        rw [Nat.mul_zero, Nat.add_zero, Memory.readHalf,
          loopG_read_below (d + 2) vs hn (by rw [State.passed_cfg]; omega) (by omega),
          loopG_read_below (d + 2) vs hn (by rw [State.passed_cfg]; omega) (by omega)]
        exact h3
      | succ i =>
        have := h7 i (by simpa using hi) (by rw [hf]; omega)
        rw [h2] at this
        rw [List.getElem_cons_succ, ← this]
        congr 1
        omega

/-- The window after a pass through the loop: past the last half-word, up to the end of its page (R127 (c)). -/
theorem loopG_window (d : Word) (vs : List Half) {s : State} (g : Geometry s.cfg)
    (hfas : s.fas = AddressSpace.latch s.cfg) (hd : d.toNat % 2 = 0)
    (ha : s.win.endAddr.toNat % s.cfg.pageSize.toNat = 0)
    (he : d.toNat + 2 * vs.length ≤ s.fas.endAddr.toNat) (hne : vs ≠ []) (hr : (loopG d vs s).res = 1)
    (hin : outsideWindow s.win d = false → s.win.endAddr = pageEnd s.cfg.pageSize d) :
    (loopG d vs s).win.start.toNat = d.toNat + 2 * vs.length ∧
      (loopG d vs s).win.endAddr =
        pageEnd s.cfg.pageSize (BitVec.ofNat 32 (d.toNat + 2 * (vs.length - 1))) := by
  induction vs generalizing d s with
  | nil => exact absurd rfl hne
  | cons v vs ih =>
    rw [List.length_cons] at he
    have hend := g.endAddr_le
    have hps := Nat.le_of_dvd g.pageSize_pos g.two_dvd
    rw [← hfas] at hend
    have h2 : (d + 2).toNat = d.toNat + 2 := toNat_add_two (by omega)
    have hpsz : s.fas.pageSize = s.cfg.pageSize := by rw [hfas]; rfl
    rw [loopG, if_neg (by omega)] at hr ⊢
    split at hr
    · rename_i hv
      rw [if_pos hv]
      have hwin : (s.passed d v).win = { start := d + 2, endAddr := pageEnd s.cfg.pageSize d } := by
        rw [State.passed_win]
        split
        · rw [hpsz]
        · rename_i ho
          show ({ start := d + 2, endAddr := s.win.endAddr } : Window) = _
          rw [hin (by simpa using ho)]
      cases vs with
      | nil =>
        show (s.passed d v).win.start.toNat = _ ∧ (s.passed d v).win.endAddr = _
        rw [hwin]
        refine ⟨h2, ?_⟩
        simp
      | cons w ws =>
        have := ih (d + 2) (s := s.passed d v) (by simpa using g) (by simpa using hfas) (by omega)
          (by rw [hwin, State.passed_cfg]; exact g.pageEnd_mod d) (by rw [State.passed_fas]; omega) (by simp) hr (by
            intro ho
            rw [hwin] at ho ⊢
            rw [State.passed_cfg]
            simp only [outsideWindow, Bool.or_eq_false_iff, decide_eq_false_iff_not, Nat.not_lt, Nat.not_le] at ho
            have h3 := g.pageStart_toNat d
            have h4 := g.pageStart_toNat (d + 2)
            have hlt := Nat.mod_lt d.toNat g.pageSize_pos
            have hpe : (pageEnd s.cfg.pageSize d).toNat =
                (pageStart s.cfg.pageSize d).toNat + s.cfg.pageSize.toNat := by
              rw [pageEnd, BitVec.toNat_add, Nat.mod_eq_of_lt (by omega)]
            have hlt2 : d.toNat % s.cfg.pageSize.toNat + 2 < s.cfg.pageSize.toNat := by
              have hml := Nat.mod_le d.toNat s.cfg.pageSize.toNat
              rw [hpe, h3] at ho
              omega
            have hmod : (d.toNat + 2) % s.cfg.pageSize.toNat = d.toNat % s.cfg.pageSize.toNat + 2 := by
              have hdm := Nat.div_add_mod d.toNat s.cfg.pageSize.toNat
              rw [show d.toNat + 2 = (d.toNat % s.cfg.pageSize.toNat + 2) +
                s.cfg.pageSize.toNat * (d.toNat / s.cfg.pageSize.toNat) by omega, Nat.add_mul_mod_self_left,
                Nat.mod_eq_of_lt hlt2]
            have : pageStart s.cfg.pageSize (d + 2) = pageStart s.cfg.pageSize d := by
              apply BitVec.eq_of_toNat_eq
              rw [h4, h2, h3, hmod]
              omega
            rw [pageEnd, pageEnd, this])
        rw [State.passed_cfg] at this
        refine ⟨?_, ?_⟩
        · rw [this.1, h2]; simp only [List.length_cons]; omega
        · rw [this.2, h2]
          simp only [List.length_cons]
          congr 2
          omega
    · cases hr

end Sys2Proof.Machine
end

