-- ==== Sys2Proof/Laws/ProgramA.lean ====
section
/-!
SUPPORT. The segments of variant A's programs as functions of the state: what the plain run of an erase
(spec/41_flash_alternate.md R146), a buffer reset, a batch, a commit and a status inspection (R150) leaves, for every
device and every lock state.
-/

namespace Sys2Proof.Machine

/-- A controller of variant A at rest, as every segment finds and leaves it. -/
structure RestA (s : State) : Prop where
  variant : s.cfg.variant = .a
  busy : s.fc.busy = false
  pending : s.fc.pending = .none
  fresh : s.fc.stale = false
  per : s.ctlr.per = false
  ppg : s.ctlr.ppg = false
  stage : s.fc.stage = []

/-- `Refresh` after a committing operation: the free word of a stale read goes to `CACHECTL`. -/
def State.refreshed (s : State) : State :=
  { s with
    tmp := { s.tmp with w := Config.freeWord s.draws }
    cachectl := Config.freeWord s.draws
    draws := s.draws + 1
    fc := { s.fc with stale := false } }

theorem plainRun_refresh {s : State} (hv : s.cfg.variant = .a) (hs : s.fc.stale = true) (x : Word)
    (ds : List (Bool × Bool)) (rest : List Line) (fr : List (List Byte)) :
    plainRun ds (refreshLines x ++ rest) 0 s fr = plainRun ds rest 0 s.refreshed fr := by
  show plainRun ds (.refreshRead x :: .refreshWrite :: rest) 0 s fr = _
  rw [plainRun_line ds rfl rfl]
  simp only [runLine, Machine.refreshRead]
  rw [memRead32_stale _ (by rw [State.readStale_eq, hv, hs]; rfl)]
  rfl

/-! ## Erase -/

/-- What `ErasePageA` leaves, but for the diagnostic byte (R146). -/
def State.erasedA (d : Word) (s : State) : State :=
  { s with
    flash := if s.fc.locked then s.flash else Memory.erase s.flash (pageOfA d).toNat s.cfg.pageSize.toNat
    ctlr := { s.ctlr with per := false, strt := Config.freeBit s.draws }
    addr := pageOfA d
    tmp := { s.tmp with w := Config.freeWord (s.draws + 1) }
    cachectl := Config.freeWord (s.draws + 1)
    draws := s.draws + 2 }

/-- `CtlSet`, `CtlClear` of a level bit. -/
def State.level (b : LevelBit) (v : Bool) (s : State) : State := { s with ctlr := setLevel b v s.ctlr }

/-- `CtlWrite(ADDR, a)`. -/
def State.withAddr (a : Word) (s : State) : State := { s with addr := a }

theorem plainRun_ctlSetLevel (ds : List (Bool × Bool)) (b : LevelBit) (rest : List Line) (s : State)
    (fr : List (List Byte)) : plainRun ds (.ctlSet (.level b) :: rest) 0 s fr =
      plainRun ds rest 0 (s.level b true) fr := rfl

theorem plainRun_ctlClear (ds : List (Bool × Bool)) (b : LevelBit) (rest : List Line) (s : State)
    (fr : List (List Byte)) : plainRun ds (.ctlClear b :: rest) 0 s fr =
      plainRun ds rest 0 (s.level b false) fr := rfl

theorem plainRun_addrWrite (ds : List (Bool × Bool)) (a : Word) (rest : List Line) (s : State)
    (fr : List (List Byte)) : plainRun ds (.addrWrite a :: rest) 0 s fr =
      plainRun ds rest 0 (s.withAddr a) fr := rfl

/-- The hold after a started cycle lets `FCTL` complete it. -/
theorem plainRun_spin (c : Cycle) (ds : List (Bool × Bool)) (rest : List Line) (s : State) (fr : List (List Byte)) :
    plainRun ds (.spin :: rest) 0 (s.startCycle c) fr =
      plainRun ds.tail rest 0 ((s.startCycle c).complete (ds.headD default).1 (ds.headD default).2) fr := by
  rw [plainRun_hold ds rfl, State.startCycle_fc, if_pos rfl]

theorem plainRun_strtErase {s : State} (hp : s.ctlr.per = true) (hq : s.ctlr.ppg = false) (hb : s.fc.busy = false)
    (hin : inFlash s.cfg s.fas (pageOfA s.addr) Config.pageBytes = true) (ds : List (Bool × Bool)) (rest : List Line)
    (fr : List (List Byte)) : plainRun ds (.ctlSet .strt :: rest) 0 s fr =
      plainRun ds rest 0 (s.setStrt.startCycle (.erase (pageOfA s.addr))) fr := by
  rw [plainRun_line ds rfl rfl]
  simp only [runLine, ctlSetBit, startMode, hp, hq]
  rw [startOn_of (s := s.setStrt) hin hb]

theorem plainRun_strtProgram {s : State} (hp : s.ctlr.per = false) (hq : s.ctlr.ppg = true) (hb : s.fc.busy = false)
    (hin : inFlash s.cfg s.fas (pageOfA s.addr) Config.pageBytes = true) (ds : List (Bool × Bool)) (rest : List Line)
    (fr : List (List Byte)) : plainRun ds (.ctlSet .strt :: rest) 0 s fr =
      plainRun ds rest 0 (s.setStrt.startCycle (.program (pageOfA s.addr))) fr := by
  rw [plainRun_line ds rfl rfl]
  simp only [runLine, ctlSetBit, startMode, hp, hq]
  rw [startOn_of (s := s.setStrt) hin hb]

theorem plainRun_bufRst {s : State} (hq : s.ctlr.ppg = true) (hb : s.fc.busy = false) (ds : List (Bool × Bool))
    (rest : List Line) (fr : List (List Byte)) : plainRun ds (.ctlSet .bufRst :: rest) 0 s fr =
      plainRun ds rest 0 (s.setBufrst.startCycle .bufReset) fr := by
  rw [plainRun_line ds rfl rfl]
  simp only [runLine, ctlSetBit, startBuffer, State.setBufrst, hq, hb]
  rfl

theorem plainRun_bufLoad {s : State} (hq : s.ctlr.ppg = true) (hb : s.fc.busy = false) (ds : List (Bool × Bool))
    (rest : List Line) (fr : List (List Byte)) : plainRun ds (.ctlSet .bufLoad :: rest) 0 s fr =
      plainRun ds rest 0 (s.setBufload.startCycle .bufLoad) fr := by
  rw [plainRun_line ds rfl rfl]
  simp only [runLine, ctlSetBit, startBuffer, State.setBufload, hq, hb]
  rfl

theorem pageOfA_pageOfA (a : Word) : pageOfA (pageOfA a) = pageOfA a :=
  pageOfA_of_aligned (by rw [pageOfA_toNat]; omega)

theorem RestA.rest_eq {s : State} (h : RestA s) (c : Cycle) :
    ({ s.fc with busy := true, pending := c } : Controller).rest = s.fc := by
  simp only [Controller.rest]
  rw [← h.busy, ← h.pending]

theorem RestA.fresh_eq {s : State} (h : RestA s) : ({ s.fc with stale := false } : Controller) = s.fc := by
  rw [← h.fresh]

/-- The completion of an erase that was started at rest. -/
theorem State.completeErase_eq {s : State} (hv : s.cfg.variant = .a) (hb : s.fc.busy = false)
    (hp : s.fc.pending = .none) (p : Word) (pg wp : Bool) :
    (s.startCycle (.erase p)).complete pg wp =
      { s with
        flash := if s.fc.locked then s.flash else Memory.erase s.flash p.toNat s.cfg.pageSize.toNat
        fc := { s.fc with stale := true } } := by
  show State.mk .. = State.mk ..
  congr 1
  show ({ ({ s.fc with busy := true, pending := .erase p } : Controller).rest with
    stale := if s.cfg.variant = .a then true else s.fc.stale } : Controller) = { s.fc with stale := true }
  rw [if_pos hv]
  simp only [Controller.rest]
  rw [← hb, ← hp]

theorem plainRun_erasePage {s : State} (h : RestA s) {d : Word}
    (hin : inFlash s.cfg s.fas (pageOfA d) Config.pageBytes = true) (ds : List (Bool × Bool)) (rest : List Line)
    (fr : List (List Byte)) :
    plainRun ds (erasePageLines d ++ rest) 0 s fr = plainRun ds.tail rest 0 (s.erasedA d) (statusE :: fr) := by
  simp only [erasePageLines, List.append_assoc, List.cons_append, List.nil_append]
  rw [plainRun_ctlSetLevel, plainRun_addrWrite,
    plainRun_strtErase (s := (s.level .per true).withAddr (pageOfA d)) rfl h.ppg h.busy
      (by simpa [State.withAddr, State.level, pageOfA_pageOfA] using hin),
    plainRun_spin, State.completeErase_eq (by exact h.variant) (by exact h.busy) (by exact h.pending),
    plainRun_ctlClear, plainRun_refresh (by exact h.variant) rfl, plainRun_emit]
  refine congrArg (fun u => plainRun ds.tail rest 0 u (statusE :: fr)) ?_
  simp only [State.refreshed, State.level, State.withAddr, State.setStrt, State.erasedA, setLevel, pageOfA_pageOfA,
    h.fresh_eq]

/-! ## Page buffer -/

/-- What the buffer reset of R150 lines 3 to 5 leaves. -/
def State.bufferResetA (s : State) : State :=
  { s with
    fc := { s.fc with pbuf := if s.fc.locked then s.fc.pbuf else List.replicate 32 0xFFFFFFFF }
    ctlr := { s.ctlr with ppg := false, bufrst := Config.freeBit s.draws }
    draws := s.draws + 1 }

theorem State.completeBufReset_eq {s : State} (hb : s.fc.busy = false) (hp : s.fc.pending = .none)
    (hst : s.fc.stage = []) (pg wp : Bool) :
    (s.startCycle .bufReset).complete pg wp =
      { s with fc := { s.fc with pbuf := if s.fc.locked then s.fc.pbuf else List.replicate 32 0xFFFFFFFF } } := by
  show ({ s with fc := _ } : State) = _
  cases hl : s.fc.locked with
  | true =>
    simp only [State.startCycle, hl, if_true, Controller.rest]
    rw [← hb, ← hp, ← hl]
  | false =>
    simp only [State.startCycle, hl, Bool.false_eq_true, if_false, Controller.rest]
    have : s.fc = { s.fc with busy := false, pending := .none, stage := [] } := by rw [← hb, ← hp, ← hst]
    rw [this]

theorem plainRun_bufferReset {s : State} (h : RestA s) (ds : List (Bool × Bool)) (rest : List Line)
    (fr : List (List Byte)) :
    plainRun ds (bufferResetLines ++ rest) 0 s fr = plainRun ds.tail rest 0 s.bufferResetA fr := by
  simp only [bufferResetLines, List.cons_append, List.nil_append]
  rw [plainRun_ctlSetLevel, plainRun_bufRst (s := s.level .ppg true) rfl h.busy, plainRun_spin,
    State.completeBufReset_eq (by exact h.busy) (by exact h.pending) (by exact h.stage), plainRun_ctlClear]
  refine congrArg (fun u => plainRun ds.tail rest 0 u fr) ?_
  simp only [State.level, State.setBufrst, State.bufferResetA, setLevel]
  rfl

/-- The pairs that the writes of a batch stage (R150 lines 10, 11). -/
def stagedFrom : Word → List Word → List (Word × Word)
  | _, [] => []
  | a, w :: ws => (a, w) :: stagedFrom (a + 4) ws

/-- The writes of a batch stage their words. -/
def State.staged (b : Word) (ws : List Word) (s : State) : State :=
  { s with fc := { s.fc with stage := if s.fc.locked then s.fc.stage else s.fc.stage ++ stagedFrom b ws } }

theorem toNat_add_four {a : Word} (h : a.toNat + 4 < 2 ^ 32) : (a + 4).toNat = a.toNat + 4 := by
  rw [BitVec.toNat_add]
  exact Nat.mod_eq_of_lt (by simpa using h)

theorem plainRun_memWrites {s : State} {b : Word} {ws : List Word} (hq : s.ctlr.ppg = true) (ha : b.toNat % 4 = 0)
    (ho : s.cfg.flashOrigin.toNat ≤ b.toNat) (hin : b.toNat + 4 * ws.length ≤ s.fas.endAddr.toNat)
    (hw : s.fas.endAddr.toNat + 4 ≤ 2 ^ 32) (hl : s.fc.stage.length + ws.length ≤ 4)
    (ds : List (Bool × Bool)) (rest : List Line) (fr : List (List Byte)) :
    plainRun ds (memWriteLines b ws ++ rest) 0 s fr = plainRun ds rest 0 (s.staged b ws) fr := by
  induction ws generalizing s b with
  | nil =>
    show plainRun ds rest 0 s fr = _
    congr 1
    simp [State.staged, stagedFrom]
  | cons w ws ih =>
    simp only [List.length_cons] at hin hl
    show plainRun ds (.memWrite b w :: (memWriteLines (b + 4) ws ++ rest)) 0 s fr = _
    have hst : stageWord b w s = .go (s.staged b [w]) := by
      have hi : s.inArray b 4 = true := by
        rw [State.inArray_eq, inFlash_iff]
        omega
      have h4 : (s.fc.stage.length ≥ Config.batchWords) = False := by
        simp only [Config.batchWords, eq_iff_iff, iff_false]
        omega
      cases hlk : s.fc.locked <;> simp [stageWord, ha, hi, hq, hlk, h4, State.staged, stagedFrom]
      rw [← hlk]
    rw [plainRun_line ds rfl rfl]
    simp only [runLine, hst]
    by_cases hnil : ws = []
    · subst hnil
      rfl
    have h1 : 0 < ws.length := List.length_pos_iff.mpr hnil
    have hb4 : (b + 4).toNat = b.toNat + 4 := toNat_add_four (by omega)
    rw [ih (s := s.staged b [w]) (b := b + 4) hq (by omega) (by rw [hb4]; exact Nat.le_add_right_of_le ho)
      (by show _ ≤ s.fas.endAddr.toNat; omega) hw]
    · congr 1
      cases hlk : s.fc.locked <;> simp [State.staged, stagedFrom, hlk]
    · cases hlk : s.fc.locked <;> simp [State.staged, stagedFrom, hlk] <;> omega

/-- What a batch at `b` leaves (R150 lines 9 to 15). -/
def State.batchA (b : Word) (batch : List Half) (s : State) : State :=
  { s with
    fc := { s.fc with
      pbuf := if s.fc.locked then s.fc.pbuf else loadStaged s.fc.pbuf (stagedFrom b (packWords batch)) }
    ctlr := { s.ctlr with ppg := false, bufload := Config.freeBit s.draws }
    tmp := { s.tmp with w := Config.freeWord (s.draws + 1) }
    cachectl := Config.freeWord (s.draws + 1)
    draws := s.draws + 2 }

theorem State.completeBufLoad_eq {s : State} (hb : s.fc.busy = false) (hp : s.fc.pending = .none) (b : Word)
    (ws : List Word) (hst : s.fc.stage = []) (pg wp : Bool) :
    ((s.staged b ws).startCycle .bufLoad).complete pg wp =
      { s with fc := { s.fc with
          pbuf := if s.fc.locked then s.fc.pbuf else loadStaged s.fc.pbuf (stagedFrom b ws)
          stale := true } } := by
  show ({ s with fc := _ } : State) = _
  cases hl : s.fc.locked with
  | true =>
    simp only [State.startCycle, State.staged, hl, if_true, Controller.rest]
    rw [← hb, ← hp, ← hl]
  | false =>
    simp only [State.startCycle, State.staged, hl, Bool.false_eq_true, if_false, Controller.rest, hst, List.nil_append]
    rw [← hb, ← hp, ← hst]

theorem plainRun_batch {s : State} (h : RestA s) {b : Word} {batch : List Half} (ha : b.toNat % 4 = 0)
    (ho : s.cfg.flashOrigin.toNat ≤ b.toNat)
    (hin : b.toNat + 4 * (packWords batch).length ≤ s.fas.endAddr.toNat)
    (hw : s.fas.endAddr.toNat + 4 ≤ 2 ^ 32) (hl : (packWords batch).length ≤ 4)
    (ds : List (Bool × Bool)) (rest : List Line) (fr : List (List Byte)) :
    plainRun ds (batchLines b batch ++ rest) 0 s fr = plainRun ds.tail rest 0 (s.batchA b batch) fr := by
  simp only [batchLines, List.append_assoc, List.cons_append, List.nil_append]
  rw [plainRun_ctlSetLevel, plainRun_memWrites (s := s.level .ppg true) rfl ha ho hin hw (by
    show s.fc.stage.length + _ ≤ 4; rw [h.stage]; simpa using hl)]
  have hload : plainRun ds (.ctlSet .bufLoad :: .spin :: .ctlClear .ppg :: (refreshLines b ++ rest)) 0
      ((s.level .ppg true).staged b (packWords batch)) fr =
      plainRun ds (.spin :: .ctlClear .ppg :: (refreshLines b ++ rest)) 0
        ((((s.level .ppg true).setBufload).staged b (packWords batch)).startCycle .bufLoad) fr :=
    plainRun_bufLoad (s := (s.level .ppg true).staged b (packWords batch)) rfl h.busy ds _ fr
  rw [hload, plainRun_spin,
    State.completeBufLoad_eq (by exact h.busy) (by exact h.pending) _ _ (by exact h.stage), plainRun_ctlClear,
    plainRun_refresh (by exact h.variant) rfl]
  refine congrArg (fun u => plainRun ds.tail rest 0 u fr) ?_
  have hf := h.fresh
  simp only [State.level, State.setBufload, State.refreshed, State.batchA, setLevel, hf]
  rfl

/-! ## Commit and status -/

/-- What the commit of the page at `a` leaves (R150 lines 17 to 20), with the fault draws `pg`, `wp`. -/
def State.committedA (pg wp : Bool) (a : Word) (s : State) : State :=
  { s with
    flash := if s.fc.locked then s.flash else commitWords s.dev s.flash (pageOfA a).toNat s.fc.pbuf
    statr := orErrFlags (!s.dev.healthy && pg) (!(s.dev.healthy && !s.fc.locked) && wp) s.statr
    fc := { s.fc with pbuf := if s.fc.locked then s.fc.pbuf else freeWords (s.draws + 3) 32 }
    ctlr := { s.ctlr with ppg := false, strt := Config.freeBit s.draws }
    addr := a
    tmp := { s.tmp with w := Config.freeWord (s.draws + 35) }
    cachectl := Config.freeWord (s.draws + 35)
    draws := s.draws + 36 }

theorem State.completeProgram_eq {s : State} (hb : s.fc.busy = false) (hp : s.fc.pending = .none) (p : Word)
    (pg wp : Bool) :
    (s.startCycle (.program p)).complete pg wp =
      { s with
        flash := if s.fc.locked then s.flash else commitWords s.dev s.flash p.toNat s.fc.pbuf
        statr := orErrFlags (!s.dev.healthy && pg) (!(s.dev.healthy && !s.fc.locked) && wp) s.statr
        fc := { s.fc with
          pbuf := if s.fc.locked then s.fc.pbuf else freeWords (s.draws + 2) 32
          stale := true }
        draws := s.draws + 34 } := by
  show ({ s with flash := _, statr := _, fc := _, draws := _ } : State) = _
  simp only [State.startCycle, Controller.rest]
  rw [← hb, ← hp]
  rfl

theorem plainRun_commit {s : State} (h : RestA s) {a : Word}
    (hin : inFlash s.cfg s.fas (pageOfA a) Config.pageBytes = true) (ds : List (Bool × Bool)) (rest : List Line)
    (fr : List (List Byte)) :
    plainRun ds (commitLines a ++ rest) 0 s fr =
      plainRun ds.tail rest 0 (s.committedA (ds.headD default).1 (ds.headD default).2 a) fr := by
  simp only [commitLines, List.cons_append, List.nil_append]
  rw [plainRun_ctlSetLevel, plainRun_addrWrite,
    plainRun_strtProgram (s := (s.level .ppg true).withAddr a) h.per rfl h.busy hin,
    plainRun_spin, State.completeProgram_eq (by exact h.busy) (by exact h.pending),
    plainRun_ctlClear, plainRun_refresh (by exact h.variant) rfl]
  refine congrArg (fun u => plainRun ds.tail rest 0 u fr) ?_
  have hf := h.fresh
  simp only [State.level, State.withAddr, State.setStrt, State.refreshed, State.committedA, setLevel, hf]
  rfl

/-- What the status inspection leaves when it finds a flag (R152). -/
def State.flagsFailed (s : State) : State :=
  ({ s with tmp := { s.tmp with s := s.statr }, statr := clearErrFlags s.statr } : State).raiseFail .ctrl

/-- What it leaves otherwise. -/
def State.flagsPassed (s : State) : State := { s with tmp := { s.tmp with s := s.statr } }

theorem plainRun_status (ds : List (Bool × Bool)) (rest : List Line) (s : State) (fr : List (List Byte)) :
    plainRun ds (statusLines ++ rest) 0 s fr =
      if statusFlagged s.statr then some (s.flagsFailed, fr) else plainRun ds rest 0 s.flagsPassed fr := by
  show plainRun ds (.statusTest :: .clearErr :: .fail .ctrl :: rest) 0 s.flagsPassed fr = _
  rw [plainRun_line ds rfl rfl]
  cases hs : statusFlagged s.statr with
  | true =>
    simp only [runLine, State.flagsPassed, hs, if_true]
    rfl
  | false =>
    simp only [runLine, State.flagsPassed, hs, Bool.false_eq_true, if_false]
    rfl

end Sys2Proof.Machine
end

