-- ==== Sys2Proof/Laws/PageA.lean ====
section
/-!
SUPPORT. The page buffer of variant A after a buffer reset and all batches of a request (spec/41_flash_alternate.md
R148, R154), and the page after its commit.
-/

namespace Sys2Proof.Machine

theorem RestA.congr {s t : State} (h : RestA s) (hc : t.cfg = s.cfg) (hb : t.fc.busy = s.fc.busy)
    (hp : t.fc.pending = s.fc.pending) (hs : t.fc.stale = s.fc.stale) (hst : t.fc.stage = s.fc.stage)
    (hper : t.ctlr.per = false) (hppg : t.ctlr.ppg = false) : RestA t :=
  { variant := by rw [hc]; exact h.variant, busy := by rw [hb]; exact h.busy, pending := by rw [hp]; exact h.pending,
    fresh := by rw [hs]; exact h.fresh, per := hper, ppg := hppg, stage := by rw [hst]; exact h.stage }

theorem RestA.erasedA {s : State} (h : RestA s) (d : Word) : RestA (s.erasedA d) := h.congr rfl rfl rfl rfl rfl rfl h.ppg

theorem RestA.bufferResetA {s : State} (h : RestA s) : RestA s.bufferResetA := h.congr rfl rfl rfl rfl rfl h.per rfl

theorem RestA.batchA {s : State} (h : RestA s) (b : Word) (l : List Half) : RestA (s.batchA b l) :=
  h.congr rfl rfl rfl rfl rfl h.per rfl

theorem RestA.committedA {s : State} (h : RestA s) (pg wp : Bool) (a : Word) : RestA (s.committedA pg wp a) :=
  h.congr rfl rfl rfl rfl rfl h.per rfl

theorem RestA.flagsPassed {s : State} (h : RestA s) : RestA s.flagsPassed := h.congr rfl rfl rfl rfl rfl h.per h.ppg

/-! ## Packing -/

theorem packWords_getElem? (l : List Half) (j : Nat) : (packWords l)[j]? =
    if 2 * j < l.length then some (wordOfHalves (l.getD (2 * j) 0xFFFF) (l.getD (2 * j + 1) 0xFFFF)) else none := by
  induction l using packWords.induct generalizing j with
  | case1 => simp [packWords]
  | case2 lo =>
    cases j with
    | zero => simp [packWords]
    | succ j => simp [packWords]
  | case3 lo hi rest ih =>
    cases j with
    | zero => simp [packWords]
    | succ j =>
      simp only [packWords, List.getElem?_cons_succ, ih, List.length_cons, show 2 * (j + 1) = 2 * j + 1 + 1 by omega,
        List.getD_cons_succ]
      simp only [Nat.add_lt_add_iff_right]

theorem batchOf_getD (data : List Half) (k j : Nat) (hj : j < 8) :
    (batchOf data k).getD j 0xFFFF = data.getD (8 * k + j) 0xFFFF := by
  simp only [batchOf, Config.batchHalves, List.getD_eq_getElem?_getD, List.getElem?_take, hj, if_true,
    List.getElem?_drop]

/-! ## Loads -/

theorem loadStaged_getElem? (p : List Word) (hp : p.length = 32) (ws : List Word) (b : Word) (o : Nat)
    (hb : b.toNat % 128 = 4 * o) (ho : o + ws.length ≤ 32) (i : Nat) :
    (loadStaged p (stagedFrom b ws))[i]? = if o ≤ i ∧ i < o + ws.length then ws[i - o]? else p[i]? := by
  induction ws generalizing p b o with
  | nil =>
    rw [List.length_nil, if_neg (by omega)]
    rfl
  | cons w ws ih =>
    rw [List.length_cons] at ho ⊢
    have hidx : (b &&& Config.pageMask).toNat / 4 = o := by
      have : (b &&& Config.pageMask).toNat = b.toNat % 128 := by
        rw [BitVec.toNat_and]
        exact Nat.and_two_pow_sub_one_eq_mod b.toNat 7
      omega
    rw [stagedFrom, loadStaged, hidx]
    by_cases hnil : ws = []
    · subst hnil
      simp only [stagedFrom, loadStaged, List.length_nil, Nat.zero_add]
      rw [List.getElem?_set]
      by_cases hi : o = i
      · subst hi
        rw [if_pos rfl, if_pos (by omega), if_pos (by omega)]
        simp
      · rw [if_neg hi, if_neg (by omega)]
    have hpos : 0 < ws.length := List.length_pos_iff.mpr hnil
    have hlt := b.isLt
    have hb4 : (b + 4).toNat = b.toNat + 4 := toNat_add_four (by omega)
    rw [ih (p.set o w) (by simpa using hp) (b + 4) (o + 1) (by omega) (by omega), List.getElem?_set]
    by_cases hi : o = i
    · subst hi
      rw [if_neg (by omega), if_pos rfl, if_pos (by omega), if_pos (by omega)]
      simp
    · by_cases h2 : o + 1 ≤ i ∧ i < o + 1 + ws.length
      · rw [if_pos h2, if_pos (by omega), show i - o = (i - (o + 1)) + 1 by omega, List.getElem?_cons_succ]
      · rw [if_neg h2, if_neg hi, if_neg (by omega)]

/-- All batches of a request (R150 lines 6 to 16). -/
def State.loadedA (a : Word) (data : List Half) (ks : List Nat) (s : State) : State :=
  ks.foldl (fun s k => s.batchA (a + BitVec.ofNat 32 (16 * k)) (batchOf data k)) s

theorem plainRun_loads {s : State} (h : RestA s) {a : Word} (hp : PageIn s.cfg s.fas a) {data : List Half}
    (hm : data.length ≤ 64) (ks : List Nat) (hk : ∀ k ∈ ks, 8 * k < data.length) (ds : List (Bool × Bool))
    (rest : List Line) (fr : List (List Byte)) :
    plainRun ds (ks.flatMap (fun k => batchLines (a + BitVec.ofNat 32 (16 * k)) (batchOf data k)) ++ rest) 0 s fr =
      plainRun (ds.drop ks.length) rest 0 (s.loadedA a data ks) fr ∧ RestA (s.loadedA a data ks) := by
  induction ks generalizing s ds with
  | nil => exact ⟨rfl, h⟩
  | cons k ks ih =>
    have hk0 := hk k List.mem_cons_self
    have h1 := hp.aligned
    have h2 := hp.fits
    have h3 := hp.room
    have h4 := hp.origin
    have ha : (a + BitVec.ofNat 32 (16 * k)).toNat = a.toNat + 16 * k := toNat_add_ofNat (by omega)
    have hl : (packWords (batchOf data k)).length ≤ 4 := by
      rw [packWords_length, batchOf_length]
      omega
    obtain ⟨h5, h6⟩ := ih (s := s.batchA (a + BitVec.ofNat 32 (16 * k)) (batchOf data k)) (h.batchA _ _) hp
      (fun x hx => hk x (List.mem_cons_of_mem _ hx)) ds.tail
    rw [List.flatMap_cons, List.append_assoc, plainRun_batch h (by rw [ha]; omega) (by rw [ha]; omega)
      (by rw [ha]; omega) (by omega) hl, h5]
    refine ⟨?_, h6⟩
    rw [List.length_cons, List.drop_tail]
    rfl

theorem State.loadedA_frame (a : Word) (data : List Half) (ks : List Nat) (s : State) :
    s.loadedA a data ks = { s with
      fc := { s.fc with pbuf := (s.loadedA a data ks).fc.pbuf }
      ctlr := (s.loadedA a data ks).ctlr
      tmp := (s.loadedA a data ks).tmp
      cachectl := (s.loadedA a data ks).cachectl
      draws := (s.loadedA a data ks).draws } := by
  induction ks generalizing s with
  | nil => rfl
  | cons k ks ih =>
    generalize hu : s.batchA (a + BitVec.ofNat 32 (16 * k)) (batchOf data k) = u
    have hs : s.loadedA a data (k :: ks) = u.loadedA a data ks := by rw [← hu]; rfl
    rw [hs, ih u, ← hu]
    rfl

theorem State.loadedA_succ (a : Word) (data : List Half) (n : Nat) (s : State) :
    s.loadedA a data (List.range (n + 1)) =
      (s.loadedA a data (List.range n)).batchA (a + BitVec.ofNat 32 (16 * n)) (batchOf data n) := by
  rw [State.loadedA, State.loadedA, List.range_succ, List.foldl_append]
  rfl

@[simp] theorem State.loadedA_locked (a : Word) (data : List Half) (ks : List Nat) (s : State) :
    (s.loadedA a data ks).fc.locked = s.fc.locked := by rw [State.loadedA_frame]

/-- Word `i` of the page buffer of a request. -/
def pageWord (data : List Half) (i : Nat) : Word :=
  wordOfHalves (data.getD (2 * i) 0xFFFF) (data.getD (2 * i + 1) 0xFFFF)

theorem pageWord_beyond {data : List Half} {i : Nat} (h : data.length ≤ 2 * i) : pageWord data i = 0xFFFFFFFF := by
  rw [pageWord, List.getD_eq_getElem?_getD, List.getD_eq_getElem?_getD, List.getElem?_eq_none h,
    List.getElem?_eq_none (by omega)]
  decide

theorem State.loadedA_pbuf {s : State} (hl : s.fc.locked = false) {a : Word} (ha : a.toNat % 128 = 0)
    (data : List Half) (hm : data.length ≤ 64) (n : Nat) (hn : n ≤ (data.length + 7) / 8) :
    (s.bufferResetA.loadedA a data (List.range n)).fc.pbuf =
      (List.range 32).map fun i => if i < 4 * n then pageWord data i else 0xFFFFFFFF := by
  induction n with
  | zero =>
    simp only [List.range_zero]
    show (if s.fc.locked then s.fc.pbuf else List.replicate 32 0xFFFFFFFF) = _
    rw [hl]
    rfl
  | succ n ih =>
    have ih := ih (by omega)
    have hlt := a.isLt
    have hb : (a + BitVec.ofNat 32 (16 * n)).toNat = a.toNat + 16 * n := toNat_add_ofNat (by omega)
    have hlen : (packWords (batchOf data n)).length = (min 8 (data.length - 8 * n) + 1) / 2 := by
      rw [packWords_length, batchOf_length]
    rw [State.loadedA_succ]
    show (if (s.bufferResetA.loadedA a data (List.range n)).fc.locked then _ else _) = _
    rw [State.loadedA_locked, show s.bufferResetA.fc.locked = s.fc.locked from rfl, hl, ih]
    simp only [Bool.false_eq_true, if_false]
    apply List.ext_getElem?
    intro i
    rw [loadStaged_getElem? _ (by simp) _ _ (4 * n) (by rw [hb]; omega) (by omega), packWords_getElem?]
    by_cases h32 : i < 32
    · rw [List.getElem?_map, List.getElem?_map, List.getElem?_range h32]
      simp only [Option.map_some]
      rw [batchOf_length]
      by_cases hin : 4 * n ≤ i ∧ i < 4 * n + (packWords (batchOf data n)).length
      · rw [if_pos hin, if_pos (by omega), if_pos (by omega), batchOf_getD _ _ _ (by omega),
          batchOf_getD _ _ _ (by omega), pageWord]
        congr 2
        · congr 1; omega
        · congr 1; omega
      · rw [if_neg hin]
        by_cases h1 : i < 4 * n
        · rw [if_pos h1, if_pos (by omega)]
        · rw [if_neg h1]
          split
          · rw [pageWord_beyond (by omega)]
          · rfl
    · rw [if_neg (by omega), List.getElem?_eq_none (by simp; omega), List.getElem?_eq_none (by simp; omega)]

/-- The page buffer at the commit (R154). -/
theorem State.loadedA_pageWords {s : State} (hl : s.fc.locked = false) {a : Word} (ha : a.toNat % 128 = 0)
    (data : List Half) (hm : data.length ≤ 64) :
    (s.bufferResetA.loadedA a data (List.range ((data.length + 7) / 8))).fc.pbuf = pageWords data := by
  rw [State.loadedA_pbuf hl ha data hm _ (le_refl _), pageWords]
  refine List.map_congr_left fun i _ => ?_
  split
  · rfl
  · exact (pageWord_beyond (by omega)).symm

theorem pageWords_length (data : List Half) : (pageWords data).length = 32 := by simp [pageWords]

/-- On a healthy device the commit of a request onto an erased page leaves its half-words, then erased ones (R154). -/
theorem readHalf_commit_pageWords {d : Device} {m : Memory} {p : Nat} {data : List Half} (hd : d.healthy = true)
    (h : Memory.wf m = true) (he : ∀ j, j < 64 → Memory.readHalf m (p + 2 * j) = 0xFFFF) (j : Nat) (hj : j < 64) :
    Memory.readHalf (commitWords d m p (pageWords data)) (p + 2 * j) = data.getD j 0xFFFF := by
  obtain ⟨h1, h2⟩ := Memory.readHalf_commitWords_erased hd h (ws := pageWords data)
    (by rw [pageWords_length]; exact he) (j / 2) (by rw [pageWords_length]; omega)
  simp only [pageWords, List.getElem_map, List.getElem_range] at h1 h2
  rw [loHalf_wordOfHalves] at h1
  rw [hiHalf_wordOfHalves] at h2
  rcases Nat.mod_two_eq_zero_or_one j with hp | hp
  · rw [show p + 2 * j = p + 4 * (j / 2) by omega]
    exact h1.trans (by congr 1; omega)
  · rw [show p + 2 * j = p + 4 * (j / 2) + 2 by omega]
    exact h2.trans (by congr 1; omega)

end Sys2Proof.Machine
end

