-- ==== Sys2Proof/Laws/LoopA.lean ====
section
/-!
SUPPORT. `flash_program_page` and `flash_program_array` of variant A as functions of the source half-words: what their
plain runs leave (spec/41_flash_alternate.md R150, R156), and the consequences R157 to R160.
-/

namespace Sys2Proof.Machine

/-! ## One page -/

/-- What `ProgramPageA` leaves before its status inspection: reset, loads, commit. -/
def State.pagedA (pg wp : Bool) (a : Word) (data : List Half) (s : State) : State :=
  (s.bufferResetA.loadedA a data (List.range ((data.length + 7) / 8))).committedA pg wp a

theorem RestA.pagedA {s : State} (h : RestA s) (pg wp : Bool) {a : Word} (hp : PageIn s.cfg s.fas a)
    {data : List Half} (hm : data.length ≤ 64) : RestA (s.pagedA pg wp a data) :=
  RestA.committedA (plainRun_loads h.bufferResetA hp hm _ (fun k hk => by rw [List.mem_range] at hk; omega) [] [] []).2
    pg wp a

theorem State.committedA_flash (pg wp : Bool) (a : Word) (s : State) : (s.committedA pg wp a).flash =
    if s.fc.locked then s.flash else commitWords s.dev s.flash (pageOfA a).toNat s.fc.pbuf := rfl

@[simp] theorem State.pagedA_cfg (pg wp : Bool) (a : Word) (data : List Half) (s : State) :
    (s.pagedA pg wp a data).cfg = s.cfg := by rw [State.pagedA, State.loadedA_frame]; rfl
@[simp] theorem State.pagedA_fas (pg wp : Bool) (a : Word) (data : List Half) (s : State) :
    (s.pagedA pg wp a data).fas = s.fas := by rw [State.pagedA, State.loadedA_frame]; rfl
@[simp] theorem State.pagedA_dev (pg wp : Bool) (a : Word) (data : List Half) (s : State) :
    (s.pagedA pg wp a data).dev = s.dev := by rw [State.pagedA, State.loadedA_frame]; rfl
@[simp] theorem State.pagedA_locked (pg wp : Bool) (a : Word) (data : List Half) (s : State) :
    (s.pagedA pg wp a data).fc.locked = s.fc.locked := by rw [State.pagedA, State.loadedA_frame]; rfl
@[simp] theorem State.pagedA_addr (pg wp : Bool) (a : Word) (data : List Half) (s : State) :
    (s.pagedA pg wp a data).addr = a := rfl
@[simp] theorem State.pagedA_statr (pg wp : Bool) (a : Word) (data : List Half) (s : State) :
    (s.pagedA pg wp a data).statr =
      orErrFlags (!s.dev.healthy && pg) (!(s.dev.healthy && !s.fc.locked) && wp) s.statr := by
  rw [State.pagedA, State.loadedA_frame]; rfl

theorem State.pagedA_flash (pg wp : Bool) {a : Word} (ha : a.toNat % 128 = 0) {data : List Half}
    (hm : data.length ≤ 64) (s : State) : (s.pagedA pg wp a data).flash =
      if s.fc.locked then s.flash else commitWords s.dev s.flash a.toNat (pageWords data) := by
  have hl : (s.bufferResetA.loadedA a data (List.range ((data.length + 7) / 8))).fc.locked = s.fc.locked := by
    rw [State.loadedA_locked]; rfl
  have hfl : (s.bufferResetA.loadedA a data (List.range ((data.length + 7) / 8))).flash = s.flash := by
    rw [State.loadedA_frame]; rfl
  have hdv : (s.bufferResetA.loadedA a data (List.range ((data.length + 7) / 8))).dev = s.dev := by
    rw [State.loadedA_frame]; rfl
  rw [State.pagedA, State.committedA_flash, hl, hfl, hdv]
  by_cases hlk : s.fc.locked = true
  · rw [if_pos hlk, if_pos hlk]
  · rw [if_neg hlk, if_neg hlk, pageOfA_of_aligned ha, State.loadedA_pageWords (by simpa using hlk) ha data hm]

/-- The plain run of a page request that is not rejected. -/
theorem plainRun_programPage {s : State} (h : RestA s) {a m : Word} (hp : PageIn s.cfg s.fas a) {data : List Half}
    (hm : data.length ≤ 64) (hb : pageParamBad a m = false) (upper : Bool) (ds : List (Bool × Bool))
    (rest : List Line) (fr : List (List Byte)) :
    ∃ pg wp ds', plainRun ds (programPageLines upper a m data ++ rest) 0 s fr =
      if statusFlagged (s.pagedA pg wp a data).statr then
        some ((s.pagedA pg wp a data).flagsFailed, addrFrame upper a m :: fr)
      else plainRun ds' rest 0 (s.pagedA pg wp a data).flagsPassed (statusP :: addrFrame upper a m :: fr) := by
  refine ⟨((ds.tail.drop ((data.length + 7) / 8)).headD default).1,
    ((ds.tail.drop ((data.length + 7) / 8)).headD default).2, (ds.tail.drop ((data.length + 7) / 8)).tail, ?_⟩
  have hk : ∀ k ∈ List.range ((data.length + 7) / 8), 8 * k < data.length := fun k hk => by
    rw [List.mem_range] at hk; omega
  have hp' : PageIn s.bufferResetA.cfg s.bufferResetA.fas a := hp
  obtain ⟨-, hr⟩ := plainRun_loads h.bufferResetA hp' hm _ hk ds.tail [] fr
  have hin : inFlash s.cfg s.fas (pageOfA a) Config.pageBytes = true := hp.inFlash
  unfold programPageLines
  simp only [hb, Bool.false_eq_true, if_false, List.append_assoc]
  rw [plainRun_emit, plainRun_bufferReset h, loadLines]
  simp only [Config.batchHalves]
  rw [(plainRun_loads h.bufferResetA hp' hm _ hk ds.tail _ _).1, plainRun_commit hr (by
      rw [State.loadedA_frame]; exact hin), plainRun_status, plainRun_emit, List.length_range]
  rfl

/-! ## Verification -/

/-- All the half-words of a chunk read as the source has them. -/
def matchesAt (m : Memory) : Word → List Half → Bool
  | _, [] => true
  | d, v :: vs => decide (Memory.readHalf m d.toNat = v) && matchesAt m (d + 2) vs

theorem matchesAt_iff (m : Memory) (d : Word) (vs : List Half) (h : d.toNat + 2 * vs.length < 2 ^ 32) :
    matchesAt m d vs = true ↔ ∀ i (hi : i < vs.length), Memory.readHalf m (d.toNat + 2 * i) = vs[i] := by
  induction vs generalizing d with
  | nil => simp [matchesAt]
  | cons v vs ih =>
    rw [List.length_cons] at h
    have h2 : (d + 2).toNat = d.toNat + 2 := toNat_add_two (by omega)
    rw [matchesAt, Bool.and_eq_true, decide_eq_true_eq, ih (d + 2) (by omega), h2]
    constructor
    · rintro ⟨h0, hs⟩ i hi
      cases i with
      | zero => simpa using h0
      | succ i =>
        have := hs i (by simpa using hi)
        rw [List.getElem_cons_succ, ← this]
        congr 1
        omega
    · intro hs
      refine ⟨hs 0 (by simp), fun i hi => ?_⟩
      have := hs (i + 1) (by simpa using hi)
      rw [List.getElem_cons_succ] at this
      rw [← this]
      congr 1
      omega

theorem plainRun_verifyLines {s : State} (hs : s.readStale = false) {d : Word} {vs : List Half}
    (hd : d.toNat % 2 = 0) (ho : s.cfg.flashOrigin.toNat ≤ d.toNat)
    (he : d.toNat + 2 * vs.length ≤ s.fas.endAddr.toNat) (hw : s.fas.endAddr.toNat + 2 ≤ 2 ^ 32)
    (ds : List (Bool × Bool)) (rest : List Line) (fr : List (List Byte)) :
    plainRun ds (verifyLines d vs ++ rest) 0 s fr =
      if matchesAt s.flash d vs then plainRun ds rest 0 s fr else some (s.raiseFail .verify, fr) := by
  induction vs generalizing d with
  | nil => rfl
  | cons v vs ih =>
    rw [List.length_cons] at he
    rw [verifyLines, List.cons_append, plainRun_verify hs hd (by rw [inFlash_iff]; omega), matchesAt]
    by_cases hv : Memory.readHalf s.flash d.toNat = v
    · have h2 : (d + 2).toNat = d.toNat + 2 ∨ vs = [] := by
        by_cases hn : vs = []
        · exact .inr hn
        · have := List.length_pos_iff.mpr hn
          exact .inl (toNat_add_two (by omega))
      rw [if_pos hv]
      rcases h2 with h2 | rfl
      · rw [ih (by omega) (by omega) (by omega)]
        simp [hv]
      · simp [matchesAt, hv, verifyLines]
    · rw [if_neg hv]
      simp [hv]

/-! ## The array loop -/

/-- The loop of R156 lines 4 to 13 over the pages and their chunks, with the fault draws of each commit. -/
def loopA (upper : Bool) : List (Bool × Bool) → List (Word × List Half) → State → List (List Byte) →
    State × List (List Byte)
  | _, [], s, fr => (s.finish 1, fr)
  | ds, (d, c) :: r, s, fr =>
    let u := (s.erasedA d).pagedA (ds.headD default).1 (ds.headD default).2 d c
    let f := addrFrame upper d (BitVec.ofNat 32 c.length) :: statusE :: fr
    if s.fas.endAddr.toNat ≤ d.toNat then (s.raiseFail .param, fr)
    else if statusFlagged u.statr then (u.flagsFailed, f)
    else if matchesAt u.flash d c then loopA upper ds.tail r u.flagsPassed (statusP :: f)
    else (u.flagsPassed.raiseFail .verify, statusP :: f)

/-- The pages of a request from page `q` on. -/
def pagesFrom (dest : Word) (data : List Half) (q n : Nat) : List (Word × List Half) :=
  (List.range' q n).map fun q => (dest + BitVec.ofNat 32 (128 * q), chunkOf data q)

theorem plainRun_arrayPages {upper : Bool} {s : State} (h : RestA s) (g : Geometry s.cfg)
    (hfas : s.fas = AddressSpace.latch s.cfg) {dest : Word} {data : List Half} (hd : dest.toNat % 128 = 0)
    (ho : s.cfg.flashOrigin.toNat ≤ dest.toNat) (n q : Nat) (hw : dest.toNat + 128 * q < 2 ^ 32)
    (ds : List (Bool × Bool)) (fr : List (List Byte)) :
    ∃ ds', plainRun ds ((List.range' q n).flatMap (fun q =>
        arrayPageLines upper (dest + BitVec.ofNat 32 (Config.pageBytes * q)) (chunkOf data q)) ++ [.ret 1]) 0 s fr =
      some (loopA upper ds' (pagesFrom dest data q n) s fr) := by
  have hps := g.pageSizeA h.variant
  have hend := g.endAddr_le
  have hdv := g.endAddr_dvd
  rw [hps] at hdv hend
  rw [← hfas] at hdv hend
  induction n generalizing q s ds fr with
  | zero => exact ⟨[], rfl⟩
  | succ n ih =>
    have ha : (dest + BitVec.ofNat 32 (128 * q)).toNat = dest.toNat + 128 * q := toNat_add_ofNat hw
    have hlen := chunkOf_length data q
    rw [List.range'_succ, List.flatMap_cons, List.append_assoc, arrayPageLines, List.cons_append,
      plainRun_line ds rfl rfl]
    simp only [Config.pageBytes]
    simp only [runLine]
    by_cases hb : s.fas.endAddr.toNat ≤ (dest + BitVec.ofNat 32 (128 * q)).toNat
    · refine ⟨[], ?_⟩
      simp only [if_pos hb, pagesFrom, List.range'_succ, List.map_cons, loopA]
    · have hfit : dest.toNat + 128 * q + 128 ≤ s.fas.endAddr.toNat :=
        page_le_of_lt (n := 128) (by omega) hdv (by omega)
      have hp : PageIn s.cfg s.fas (dest + BitVec.ofNat 32 (128 * q)) :=
        { aligned := by rw [ha]; omega, origin := by rw [ha]; omega, fits := by rw [ha]; omega, room := hend }
      simp only [if_neg hb, List.append_assoc]
      rw [plainRun_erasePage h hp.inFlash]
      generalize hD : dest + BitVec.ofNat 32 (128 * q) = D at *
      have hpe : PageIn (s.erasedA D).cfg (s.erasedA D).fas D := hp
      have hbad : pageParamBad D (BitVec.ofNat 32 (chunkOf data q).length) = false := by
        rw [pageParamBad, Bool.or_eq_false_iff, misalignedA_eq_false_iff, decide_eq_false_iff_not, Config.pageBufHalves,
          BitVec.toNat_ofNat]
        omega
      obtain ⟨pg, wp, ds1, he⟩ := plainRun_programPage (h.erasedA D) hpe (data := chunkOf data q) (by omega) hbad upper
        ds.tail (verifyLines D (chunkOf data q) ++ ((List.range' (q + 1) n).flatMap (fun q =>
          arrayPageLines upper (dest + BitVec.ofNat 32 (128 * q)) (chunkOf data q)) ++ [.ret 1])) (statusE :: fr)
      rw [he]
      have hru : RestA ((s.erasedA D).pagedA pg wp D (chunkOf data q)).flagsPassed :=
        ((h.erasedA D).pagedA pg wp hpe (by omega)).flagsPassed
      have hcfg : ((s.erasedA D).pagedA pg wp D (chunkOf data q)).flagsPassed.cfg = s.cfg :=
        State.pagedA_cfg pg wp D (chunkOf data q) (s.erasedA D)
      have hfs : ((s.erasedA D).pagedA pg wp D (chunkOf data q)).flagsPassed.fas = s.fas :=
        State.pagedA_fas pg wp D (chunkOf data q) (s.erasedA D)
      rw [plainRun_verifyLines (by rw [State.readStale_eq, hru.fresh, Bool.and_false]) (by rw [ha]; omega)
        (by rw [hcfg, ha]; omega) (by rw [hfs, ha]; omega) (by rw [hfs]; omega)]
      obtain ⟨ds2, h2⟩ := ih (s := ((s.erasedA D).pagedA pg wp D (chunkOf data q)).flagsPassed) hru (by rw [hcfg]; exact g)
        (by rw [hcfg, hfs]; exact hfas) (by rw [hcfg]; exact ho) (q + 1) (by omega) ds1
        (statusP :: addrFrame upper D (BitVec.ofNat 32 (chunkOf data q).length) :: statusE :: fr)
        (by rw [hcfg]; exact hps) (by rw [hfs]; exact hend) (by rw [hfs]; exact hdv)
      simp only [Config.pageBytes] at h2
      rw [h2]
      refine ⟨(pg, wp) :: ds2, ?_⟩
      simp only [pagesFrom, List.range'_succ, List.map_cons, hD, loopA, List.headD_cons, List.tail_cons]
      rw [if_neg hb]
      by_cases hfl : statusFlagged ((s.erasedA D).pagedA pg wp D (chunkOf data q)).statr = true
      · rw [if_pos hfl]
        exact congrArg some (if_pos hfl).symm
      · rw [if_neg hfl]
        by_cases hma : matchesAt ((s.erasedA D).pagedA pg wp D (chunkOf data q)).flash D (chunkOf data q) = true
        · rw [if_pos (by exact hma)]
          exact congrArg some ((if_neg hfl).trans (if_pos hma)).symm
        · rw [if_neg (by exact hma)]
          exact congrArg some ((if_neg hfl).trans (if_neg hma)).symm

/-- The plain run of `flash_program_array.a` past its alignment test is `loopA`. -/
theorem plainRun_arrayLoopA {upper : Bool} {s : State} (h : RestA s) (g : Geometry s.cfg)
    (hfas : s.fas = AddressSpace.latch s.cfg) {dest : Word} {data : List Half} (hd : dest.toNat % 128 = 0)
    (ho : s.cfg.flashOrigin.toNat ≤ dest.toNat) (ds : List (Bool × Bool)) (fr : List (List Byte)) :
    ∃ ds', plainRun ds (arrayLoopA upper dest data ++ [.ret 1]) 0 s fr =
      some (loopA upper ds' (pagesFrom dest data 0 (pagesOf data.length)) s fr) := by
  rw [arrayLoopA, List.range_eq_range']
  exact plainRun_arrayPages h g hfas hd ho _ 0 (by have := dest.isLt; omega) ds fr

end Sys2Proof.Machine
end

