-- ==== Sys2Proof/Laws/ArrayA.lean ====
section
/-!
SUPPORT. What the loop of `flash_program_array.a` leaves (spec/41_flash_alternate.md R157 to R160): the components it
does not touch, the bytes it does not touch, the contents it verified, its success on a healthy unlocked controller, and
the frames it emits.
-/

namespace Sys2Proof.Machine

/-! ## Components -/

/-- What a page leaves alone. -/
theorem State.page_frame {s : State} (hper : s.ctlr.per = false) (hppg : s.ctlr.ppg = false) (pg wp : Bool) (d : Word)
    (c : List Half) : (s.erasedA d).pagedA pg wp d c = { s with
      flash := ((s.erasedA d).pagedA pg wp d c).flash
      fc := { s.fc with pbuf := ((s.erasedA d).pagedA pg wp d c).fc.pbuf }
      ctlr := { s.ctlr with
        bufrst := ((s.erasedA d).pagedA pg wp d c).ctlr.bufrst
        bufload := ((s.erasedA d).pagedA pg wp d c).ctlr.bufload
        strt := ((s.erasedA d).pagedA pg wp d c).ctlr.strt }
      addr := d
      statr := orErrFlags (!s.dev.healthy && pg) (!(s.dev.healthy && !s.fc.locked) && wp) s.statr
      tmp := ((s.erasedA d).pagedA pg wp d c).tmp
      cachectl := ((s.erasedA d).pagedA pg wp d c).cachectl
      draws := ((s.erasedA d).pagedA pg wp d c).draws } := by
  have hctlr : ∀ (ks : List Nat) (u : State), (u.loadedA d c ks).ctlr = { u.ctlr with
      ppg := (u.loadedA d c ks).ctlr.ppg
      bufload := (u.loadedA d c ks).ctlr.bufload } := by
    intro ks
    induction ks with
    | nil => intro u; rfl
    | cons k ks ih =>
      intro u
      generalize hv : u.batchA (d + BitVec.ofNat 32 (16 * k)) (batchOf c k) = v
      have hs : u.loadedA d c (k :: ks) = v.loadedA d c ks := by rw [← hv]; rfl
      rw [hs, ih v, ← hv]
      rfl
  unfold State.pagedA
  rw [State.loadedA_frame]
  generalize hL : (s.erasedA d).bufferResetA.loadedA d c (List.range ((c.length + 7) / 8)) = L
  have hc := hctlr (List.range ((c.length + 7) / 8)) (s.erasedA d).bufferResetA
  rw [hL] at hc
  simp only [State.committedA, State.bufferResetA, State.erasedA] at hc ⊢
  simp only [State.mk.injEq, Ctlr.mk.injEq, true_and, and_true]
  rw [hc]
  exact ⟨hper.symm, hppg.symm, rfl, rfl⟩

/-- The components the loop leaves alone. -/
theorem loopA_frame (upper : Bool) (ds : List (Bool × Bool)) (l : List (Word × List Half)) (s : State)
    (fr : List (List Byte)) (hper : s.ctlr.per = false) (hppg : s.ctlr.ppg = false) :
    (loopA upper ds l s fr).1 = { s with
      flash := (loopA upper ds l s fr).1.flash
      fc := { s.fc with pbuf := (loopA upper ds l s fr).1.fc.pbuf }
      ctlr := { s.ctlr with
        bufrst := (loopA upper ds l s fr).1.ctlr.bufrst
        bufload := (loopA upper ds l s fr).1.ctlr.bufload
        strt := (loopA upper ds l s fr).1.ctlr.strt }
      addr := (loopA upper ds l s fr).1.addr
      statr := { s.statr with
        pgerr := (loopA upper ds l s fr).1.statr.pgerr
        wrprterr := (loopA upper ds l s fr).1.statr.wrprterr }
      cachectl := (loopA upper ds l s fr).1.cachectl
      draws := (loopA upper ds l s fr).1.draws
      res := (loopA upper ds l s fr).1.res
      cause := (loopA upper ds l s fr).1.cause
      seq := .idle
      busy := false
      tmp := Tmp.init } := by
  induction l generalizing ds s fr with
  | nil => rfl
  | cons p r ih =>
    obtain ⟨d, c⟩ := p
    have hp := State.page_frame hper hppg (ds.headD default).1 (ds.headD default).2 d c
    generalize hu : (s.erasedA d).pagedA (ds.headD default).1 (ds.headD default).2 d c = u at hp
    by_cases hb : s.fas.endAddr.toNat ≤ d.toNat
    · rw [loopA]
      simp only [if_pos hb]
      rfl
    · have hl : loopA upper ds ((d, c) :: r) s fr =
          if statusFlagged u.statr then
            (u.flagsFailed, addrFrame upper d (BitVec.ofNat 32 c.length) :: statusE :: fr)
          else if matchesAt u.flash d c then loopA upper ds.tail r u.flagsPassed
            (statusP :: addrFrame upper d (BitVec.ofNat 32 c.length) :: statusE :: fr)
          else (u.flagsPassed.raiseFail .verify,
            statusP :: addrFrame upper d (BitVec.ofNat 32 c.length) :: statusE :: fr) := by
        rw [loopA, hu]
        simp only [if_neg hb]
      rw [hl]
      by_cases hf : statusFlagged u.statr = true
      · rw [if_pos hf, hp]
        rfl
      · rw [if_neg hf]
        by_cases hm : matchesAt u.flash d c = true
        · rw [if_pos hm]
          have hq : u.flagsPassed.ctlr.per = false ∧ u.flagsPassed.ctlr.ppg = false := by
            rw [hp]; exact ⟨hper, hppg⟩
          rw [ih _ _ _ hq.1 hq.2]
          generalize loopA upper ds.tail r u.flagsPassed _ = w
          rw [hp]
          rfl
        · rw [if_neg hm, hp]
          rfl

/-! ## Bytes -/

/-- The array after a page is erased and its commit done. -/
theorem State.page_flash {s : State} (pg wp : Bool) {d : Word} (hd : d.toNat % 128 = 0) {c : List Half}
    (hc : c.length ≤ 64) : ((s.erasedA d).pagedA pg wp d c).flash =
      if s.fc.locked then s.flash
      else commitWords s.dev (Memory.erase s.flash d.toNat s.cfg.pageSize.toNat) d.toNat (pageWords c) := by
  rw [State.pagedA_flash pg wp hd hc]
  show (if s.fc.locked then (s.erasedA d).flash else commitWords s.dev (s.erasedA d).flash d.toNat (pageWords c)) = _
  have : (s.erasedA d).flash = if s.fc.locked then s.flash
      else Memory.erase s.flash (pageOfA d).toNat s.cfg.pageSize.toNat := rfl
  rw [this, pageOfA_of_aligned hd]
  by_cases hl : s.fc.locked = true
  · simp only [if_pos hl]
  · simp only [if_neg hl]

theorem State.wf_page {s : State} (hwf : Memory.wf s.flash = true) (pg wp : Bool) {d : Word}
    (hd : d.toNat % 128 = 0) {c : List Half} (hc : c.length ≤ 64) :
    Memory.wf ((s.erasedA d).pagedA pg wp d c).flash = true := by
  rw [State.page_flash pg wp hd hc]
  split
  · exact hwf
  · exact Memory.wf_commitWords _ _ _ (Memory.wf_erase _ _ hwf)

/-- A page leaves every byte outside it. -/
theorem State.read_page_other {s : State} (hwf : Memory.wf s.flash = true) (hps : s.cfg.pageSize.toNat = 128)
    (pg wp : Bool) {d : Word} (hd : d.toNat % 128 = 0) {c : List Half} (hc : c.length ≤ 64) {a : Nat}
    (ha : a < d.toNat ∨ d.toNat + 128 ≤ a) :
    Memory.read ((s.erasedA d).pagedA pg wp d c).flash a = Memory.read s.flash a := by
  rw [State.page_flash pg wp hd hc]
  split
  · rfl
  · rw [Memory.read_commitWords_other (Memory.wf_erase _ _ hwf) (by rw [pageWords_length]; omega), Memory.read_erase,
      if_neg (by omega)]

/-- On a healthy unlocked controller a page holds its half-words, then erased ones. -/
theorem State.readHalf_page_healthy {s : State} (hwf : Memory.wf s.flash = true) (hps : s.cfg.pageSize.toNat = 128)
    (hl : s.fc.locked = false) (hh : s.dev.healthy = true) (pg wp : Bool) {d : Word} (hd : d.toNat % 128 = 0)
    {c : List Half} (hc : c.length ≤ 64) (j : Nat) (hj : j < 64) :
    Memory.readHalf ((s.erasedA d).pagedA pg wp d c).flash (d.toNat + 2 * j) = c.getD j 0xFFFF := by
  rw [State.page_flash pg wp hd hc, if_neg (by simp [hl])]
  exact readHalf_commit_pageWords hh (Memory.wf_erase _ _ hwf)
    (fun j hj => Memory.readHalf_erase_in (by omega) (by omega)) j hj

/-! ## The loop -/

/-- One pass of the loop: its page, then the rest. -/
theorem loopA_cons (upper : Bool) (ds : List (Bool × Bool)) (d : Word) (c : List Half) (r : List (Word × List Half))
    (s : State) (fr : List (List Byte)) : ∃ u, u = (s.erasedA d).pagedA (ds.headD default).1 (ds.headD default).2 d c ∧
      loopA upper ds ((d, c) :: r) s fr =
        if s.fas.endAddr.toNat ≤ d.toNat then (s.raiseFail .param, fr)
        else if statusFlagged u.statr then
          (u.flagsFailed, addrFrame upper d (BitVec.ofNat 32 c.length) :: statusE :: fr)
        else if matchesAt u.flash d c then loopA upper ds.tail r u.flagsPassed
          (statusP :: addrFrame upper d (BitVec.ofNat 32 c.length) :: statusE :: fr)
        else (u.flagsPassed.raiseFail .verify,
          statusP :: addrFrame upper d (BitVec.ofNat 32 c.length) :: statusE :: fr) := ⟨_, rfl, rfl⟩

/-- What a pass of the loop asks of the state, for the page `q` of a request at `dest`. -/
structure LoopIn (dest : Word) (q : Nat) (s : State) : Prop where
  wf : Memory.wf s.flash = true
  pageSize : s.cfg.pageSize.toNat = 128
  endMod : s.fas.endAddr.toNat % 128 = 0
  endLe : s.fas.endAddr.toNat + 128 ≤ 2 ^ 32
  aligned : dest.toNat % 128 = 0
  lt : dest.toNat + 128 * q < 2 ^ 32

theorem LoopIn.addr {dest : Word} {q : Nat} {s : State} (h : LoopIn dest q s) :
    (dest + BitVec.ofNat 32 (128 * q)).toNat = dest.toNat + 128 * q := toNat_add_ofNat h.lt

theorem LoopIn.next {dest : Word} {q : Nat} {s : State} (h : LoopIn dest q s) (pg wp : Bool) {c : List Half}
    (hc : c.length ≤ 64) (hb : ¬ s.fas.endAddr.toNat ≤ (dest + BitVec.ofNat 32 (128 * q)).toNat) :
    LoopIn dest (q + 1) ((s.erasedA (dest + BitVec.ofNat 32 (128 * q))).pagedA pg wp
      (dest + BitVec.ofNat 32 (128 * q)) c).flagsPassed := by
  have ha := h.addr
  have hm := h.endMod
  have hd := h.aligned
  have he := h.endLe
  have hf : ((s.erasedA (dest + BitVec.ofNat 32 (128 * q))).pagedA pg wp
      (dest + BitVec.ofNat 32 (128 * q)) c).flagsPassed.fas = s.fas := State.pagedA_fas pg wp _ c (s.erasedA _)
  have hcf : ((s.erasedA (dest + BitVec.ofNat 32 (128 * q))).pagedA pg wp
      (dest + BitVec.ofNat 32 (128 * q)) c).flagsPassed.cfg = s.cfg := State.pagedA_cfg pg wp _ c (s.erasedA _)
  exact { wf := State.wf_page h.wf pg wp (by omega) hc, pageSize := by rw [hcf]; exact h.pageSize,
          endMod := by rw [hf]; exact hm, endLe := by rw [hf]; exact he, aligned := hd, lt := by omega }

theorem pagesFrom_succ (dest : Word) (data : List Half) (q n : Nat) : pagesFrom dest data q (n + 1) =
    (dest + BitVec.ofNat 32 (128 * q), chunkOf data q) :: pagesFrom dest data (q + 1) n := by
  simp [pagesFrom, List.range'_succ]

/-- A byte outside the pages of the request is unchanged (R160). -/
theorem loopA_read_other (upper : Bool) {dest : Word} {data : List Half} (n q : Nat) {s : State} (h : LoopIn dest q s)
    (ds : List (Bool × Bool)) (fr : List (List Byte)) {a : Nat}
    (ha : a < dest.toNat + 128 * q ∨ dest.toNat + 128 * (q + n) ≤ a) :
    Memory.read (loopA upper ds (pagesFrom dest data q n) s fr).1.flash a = Memory.read s.flash a := by
  induction n generalizing q s ds fr with
  | zero => rfl
  | succ n ih =>
    have hadr := h.addr
    have hlen := chunkOf_length data q
    have hd := h.aligned
    rw [pagesFrom_succ]
    obtain ⟨u, hu, he⟩ := loopA_cons upper ds (dest + BitVec.ofNat 32 (128 * q)) (chunkOf data q)
      (pagesFrom dest data (q + 1) n) s fr
    rw [he]
    by_cases hb : s.fas.endAddr.toNat ≤ (dest + BitVec.ofNat 32 (128 * q)).toNat
    · rw [if_pos hb]
      rfl
    · rw [if_neg hb]
      have hr : Memory.read u.flash a = Memory.read s.flash a := by
        rw [hu]
        exact State.read_page_other h.wf h.pageSize _ _ (by omega) (by omega) (by omega)
      split
      · exact hr
      · split
        · rw [hu]
          rw [ih (q + 1) (h.next _ _ (by omega) hb) _ _ (by omega), ← hu]
          exact hr
        · exact hr

/-- With write access closed the loop changes no byte (spec/20_memory.md R77). -/
theorem loopA_locked (upper : Bool) {dest : Word} {data : List Half} (n q : Nat) {s : State} (h : LoopIn dest q s)
    (hl : s.fc.locked = true) (ds : List (Bool × Bool)) (fr : List (List Byte)) :
    (loopA upper ds (pagesFrom dest data q n) s fr).1.flash = s.flash := by
  induction n generalizing q s ds fr with
  | zero => rfl
  | succ n ih =>
    have hadr := h.addr
    have hlen := chunkOf_length data q
    have hd := h.aligned
    rw [pagesFrom_succ]
    obtain ⟨u, hu, he⟩ := loopA_cons upper ds (dest + BitVec.ofNat 32 (128 * q)) (chunkOf data q)
      (pagesFrom dest data (q + 1) n) s fr
    rw [he]
    by_cases hb : s.fas.endAddr.toNat ≤ (dest + BitVec.ofNat 32 (128 * q)).toNat
    · rw [if_pos hb]
      rfl
    · rw [if_neg hb]
      have hr : u.flash = s.flash := by
        rw [hu, State.page_flash _ _ (by omega) (by omega), if_pos hl]
      split
      · exact hr
      · split
        · have hn := h.next (ds.headD default).1 (ds.headD default).2 (c := chunkOf data q) (by omega) hb
          rw [← hu] at hn
          rw [ih (q + 1) hn (by show u.fc.locked = true; rw [hu, State.pagedA_locked]; exact hl)]
          exact hr
        · exact hr

theorem chunkOf_getElem (data : List Half) (q i : Nat) (hi : i < data.length) (hq : 64 * q ≤ i) (hq' : i < 64 * q + 64) :
    (chunkOf data q).getD (i - 64 * q) 0xFFFF = data[i] := by
  simp only [chunkOf, Config.pageBufHalves, List.getD_eq_getElem?_getD, List.getElem?_take, List.getElem?_drop]
  rw [if_pos (by omega), show 64 * q + (i - 64 * q) = i by omega, List.getElem?_eq_getElem hi]
  rfl

/-- A call that succeeds left every half-word as the source has it, whatever the device does
(spec/42_verify_and_capacity.md R170 to R172). -/
theorem loopA_success (upper : Bool) {dest : Word} {data : List Half} (n q : Nat) {s : State} (h : LoopIn dest q s)
    (ds : List (Bool × Bool)) (fr : List (List Byte))
    (hr : (loopA upper ds (pagesFrom dest data q n) s fr).1.res = 1) (i : Nat) (hi : i < data.length)
    (h1 : 64 * q ≤ i) (h2 : i < 64 * (q + n)) :
    Memory.readHalf (loopA upper ds (pagesFrom dest data q n) s fr).1.flash (dest.toNat + 2 * i) = data[i] := by
  induction n generalizing q s ds fr with
  | zero => omega
  | succ n ih =>
    have hadr := h.addr
    have hlen := chunkOf_length data q
    have hd := h.aligned
    have hee := h.endLe
    rw [pagesFrom_succ] at hr ⊢
    obtain ⟨u, hu, he⟩ := loopA_cons upper ds (dest + BitVec.ofNat 32 (128 * q)) (chunkOf data q)
      (pagesFrom dest data (q + 1) n) s fr
    rw [he] at hr ⊢
    by_cases hb : s.fas.endAddr.toNat ≤ (dest + BitVec.ofNat 32 (128 * q)).toNat
    · rw [if_pos hb] at hr
      cases hr
    · rw [if_neg hb] at hr ⊢
      have hn := h.next (ds.headD default).1 (ds.headD default).2 (c := chunkOf data q) (by omega) hb
      rw [← hu] at hn
      by_cases hf : statusFlagged u.statr = true
      · rw [if_pos hf] at hr
        cases hr
      · rw [if_neg hf] at hr ⊢
        by_cases hm : matchesAt u.flash (dest + BitVec.ofNat 32 (128 * q)) (chunkOf data q) = true
        · rw [if_pos hm] at hr ⊢
          by_cases hq : i < 64 * q + 64
          · have hmod := h.endMod
            have hread := (matchesAt_iff u.flash _ _ (by omega)).mp hm (i - 64 * q) (by omega)
            rw [hadr, show dest.toNat + 128 * q + 2 * (i - 64 * q) = dest.toNat + 2 * i by omega] at hread
            have hd1 : (chunkOf data q)[i - 64 * q]'(by omega) = data[i] := by
              have := chunkOf_getElem data q i hi h1 hq
              rw [List.getD_eq_getElem?_getD, List.getElem?_eq_getElem (by omega)] at this
              exact this
            rw [hd1] at hread
            rw [Memory.readHalf, loopA_read_other upper n (q + 1) hn _ _ (by omega),
              loopA_read_other upper n (q + 1) hn _ _ (by omega)]
            exact hread
          · exact ih (q + 1) hn _ _ hr (by omega) (by omega)
        · rw [if_neg hm] at hr
          cases hr

/-! ## Success on a healthy unlocked controller -/

/-- The frames of the pages of a request, in order (R159). -/
def pageFrames (upper : Bool) (dest : Word) (data : List Half) (q n : Nat) : List (List Byte) :=
  (pagesFrom dest data q n).flatMap fun p => [statusE, addrFrame upper p.1 (BitVec.ofNat 32 p.2.length), statusP]

theorem orErrFlags_false (s : Statr) : orErrFlags false false s = s := by
  simp [orErrFlags]

/-- Below `FAS.end`, with the flags clear, the loop succeeds, leaves the pages as R160 says and emits the frames of
R159. -/
theorem loopA_healthy (upper : Bool) {dest : Word} {data : List Half} (n q : Nat) {s : State} (h : LoopIn dest q s)
    (hl : s.fc.locked = false) (hh : s.dev.healthy = true) (hflags : statusFlagged s.statr = false)
    (he : dest.toNat + 128 * (q + n) ≤ s.fas.endAddr.toNat)
    (ds : List (Bool × Bool)) (fr : List (List Byte)) :
    (loopA upper ds (pagesFrom dest data q n) s fr).1.res = 1 ∧
    (loopA upper ds (pagesFrom dest data q n) s fr).1.statr = s.statr ∧
    (loopA upper ds (pagesFrom dest data q n) s fr).2 = (pageFrames upper dest data q n).reverse ++ fr ∧
    ∀ i, 64 * q ≤ i → i < 64 * (q + n) →
      Memory.readHalf (loopA upper ds (pagesFrom dest data q n) s fr).1.flash (dest.toNat + 2 * i) =
        data.getD i 0xFFFF := by
  induction n generalizing q s ds fr with
  | zero => exact ⟨rfl, rfl, rfl, fun i _ _ => by omega⟩
  | succ n ih =>
    have hadr := h.addr
    have hlen := chunkOf_length data q
    have hd := h.aligned
    have hee := h.endLe
    have hfr : pageFrames upper dest data q (n + 1) =
        [statusE, addrFrame upper (dest + BitVec.ofNat 32 (128 * q)) (BitVec.ofNat 32 (chunkOf data q).length), statusP] ++
          pageFrames upper dest data (q + 1) n := by
      rw [pageFrames, pagesFrom_succ, List.flatMap_cons]
      rfl
    have hb : ¬ s.fas.endAddr.toNat ≤ (dest + BitVec.ofNat 32 (128 * q)).toNat := by omega
    rw [hfr, pagesFrom_succ]
    obtain ⟨u, hu, he'⟩ := loopA_cons upper ds (dest + BitVec.ofNat 32 (128 * q)) (chunkOf data q)
      (pagesFrom dest data (q + 1) n) s fr
    have hn := h.next (ds.headD default).1 (ds.headD default).2 (c := chunkOf data q) (by omega) hb
    rw [← hu] at hn
    have hst : u.statr = s.statr := by
      rw [hu, State.pagedA_statr, show (s.erasedA _).dev = s.dev from rfl, show (s.erasedA _).fc = s.fc from rfl, hh, hl]
      exact orErrFlags_false _
    have hpage : ∀ j, j < 64 → Memory.readHalf u.flash (dest.toNat + 128 * q + 2 * j) =
        (chunkOf data q).getD j 0xFFFF := by
      intro j hj
      have := State.readHalf_page_healthy h.wf h.pageSize hl hh (ds.headD default).1 (ds.headD default).2
        (d := dest + BitVec.ofNat 32 (128 * q)) (by omega) (c := chunkOf data q) (by omega) j hj
      rw [← hu, hadr] at this
      exact this
    have hm : matchesAt u.flash (dest + BitVec.ofNat 32 (128 * q)) (chunkOf data q) = true := by
      rw [matchesAt_iff _ _ _ (by omega)]
      intro j hj
      rw [hadr, hpage j (by omega), List.getD_eq_getElem?_getD, List.getElem?_eq_getElem hj]
      rfl
    rw [he', if_neg hb, if_neg (by rw [hst, hflags]; simp), if_pos hm]
    obtain ⟨h1, h2, h3, h4⟩ := ih (q + 1) (s := u.flagsPassed) hn
      (by show u.fc.locked = false; rw [hu, State.pagedA_locked]; exact hl)
      (by show u.dev.healthy = true; rw [hu, State.pagedA_dev]; exact hh)
      (by show statusFlagged u.statr = false; rw [hst]; exact hflags)
      (by show _ ≤ u.fas.endAddr.toNat; rw [hu, State.pagedA_fas]; show _ ≤ s.fas.endAddr.toNat; omega) ds.tail
      (statusP :: addrFrame upper (dest + BitVec.ofNat 32 (128 * q)) (BitVec.ofNat 32 (chunkOf data q).length) ::
        statusE :: fr)
    refine ⟨h1, h2.trans hst, by rw [h3]; simp, fun i hi1 hi2 => ?_⟩
    by_cases hq : i < 64 * (q + 1)
    · rw [Memory.readHalf, loopA_read_other upper n (q + 1) hn _ _ (by omega),
        loopA_read_other upper n (q + 1) hn _ _ (by omega)]
      have := hpage (i - 64 * q) (by omega)
      rw [show dest.toNat + 128 * q + 2 * (i - 64 * q) = dest.toNat + 2 * i by omega] at this
      refine Eq.trans this ?_
      simp only [chunkOf, Config.pageBufHalves, List.getD_eq_getElem?_getD, List.getElem?_take, List.getElem?_drop]
      rw [if_pos (by omega), show 64 * q + (i - 64 * q) = i by omega]
    · exact h4 i (by omega) (by omega)

/-- A run that crosses `FAS.end` completes every page below it and fails at the first one there (R158 (c)). -/
theorem loopA_crossing (upper : Bool) {dest : Word} {data : List Half} (n q : Nat) {s : State} (h : LoopIn dest q s)
    (hl : s.fc.locked = false) (hh : s.dev.healthy = true) (hflags : statusFlagged s.statr = false)
    (he : s.fas.endAddr.toNat < dest.toNat + 128 * (q + n)) (hle : dest.toNat + 128 * q ≤ s.fas.endAddr.toNat)
    (ds : List (Bool × Bool)) (fr : List (List Byte)) :
    (loopA upper ds (pagesFrom dest data q n) s fr).1.res = 0 ∧
    (loopA upper ds (pagesFrom dest data q n) s fr).1.cause = some .param ∧
    (loopA upper ds (pagesFrom dest data q n) s fr).1.statr = s.statr ∧
    ∀ i, 64 * q ≤ i → dest.toNat + 2 * i < s.fas.endAddr.toNat →
      Memory.readHalf (loopA upper ds (pagesFrom dest data q n) s fr).1.flash (dest.toNat + 2 * i) =
        data.getD i 0xFFFF := by
  induction n generalizing q s ds fr with
  | zero => omega
  | succ n ih =>
    have hadr := h.addr
    have hlen := chunkOf_length data q
    have hd := h.aligned
    have hee := h.endLe
    have hem := h.endMod
    rw [pagesFrom_succ]
    obtain ⟨u, hu, he'⟩ := loopA_cons upper ds (dest + BitVec.ofNat 32 (128 * q)) (chunkOf data q)
      (pagesFrom dest data (q + 1) n) s fr
    rw [he']
    by_cases hb : s.fas.endAddr.toNat ≤ (dest + BitVec.ofNat 32 (128 * q)).toNat
    · rw [if_pos hb]
      exact ⟨rfl, rfl, rfl, fun i _ _ => by omega⟩
    · rw [if_neg hb]
      have hn := h.next (ds.headD default).1 (ds.headD default).2 (c := chunkOf data q) (by omega) hb
      rw [← hu] at hn
      have hst : u.statr = s.statr := by
        rw [hu, State.pagedA_statr, show (s.erasedA _).dev = s.dev from rfl, show (s.erasedA _).fc = s.fc from rfl, hh,
          hl]
        exact orErrFlags_false _
      have hfas : u.fas = s.fas := by rw [hu, State.pagedA_fas]; rfl
      have hpage : ∀ j, j < 64 → Memory.readHalf u.flash (dest.toNat + 128 * q + 2 * j) =
          (chunkOf data q).getD j 0xFFFF := by
        intro j hj
        have := State.readHalf_page_healthy h.wf h.pageSize hl hh (ds.headD default).1 (ds.headD default).2
          (d := dest + BitVec.ofNat 32 (128 * q)) (by omega) (c := chunkOf data q) (by omega) j hj
        rw [← hu, hadr] at this
        exact this
      have hm : matchesAt u.flash (dest + BitVec.ofNat 32 (128 * q)) (chunkOf data q) = true := by
        rw [matchesAt_iff _ _ _ (by omega)]
        intro j hj
        rw [hadr, hpage j (by omega), List.getD_eq_getElem?_getD, List.getElem?_eq_getElem hj]
        rfl
      rw [if_neg (by rw [hst, hflags]; simp), if_pos hm]
      obtain ⟨h1, h2, h3, h4⟩ := ih (q + 1) (s := u.flagsPassed) hn
        (by show u.fc.locked = false; rw [hu, State.pagedA_locked]; exact hl)
        (by show u.dev.healthy = true; rw [hu, State.pagedA_dev]; exact hh)
        (by show statusFlagged u.statr = false; rw [hst]; exact hflags)
        (by show u.fas.endAddr.toNat < _; rw [hfas]; omega)
        (by show _ ≤ u.fas.endAddr.toNat; rw [hfas]; omega) ds.tail
        (statusP :: addrFrame upper (dest + BitVec.ofNat 32 (128 * q)) (BitVec.ofNat 32 (chunkOf data q).length) ::
          statusE :: fr)
      refine ⟨h1, h2, h3.trans hst, fun i hi1 hi2 => ?_⟩
      by_cases hq : i < 64 * (q + 1)
      · rw [Memory.readHalf, loopA_read_other upper n (q + 1) hn _ _ (by omega),
          loopA_read_other upper n (q + 1) hn _ _ (by omega)]
        have := hpage (i - 64 * q) (by omega)
        rw [show dest.toNat + 128 * q + 2 * (i - 64 * q) = dest.toNat + 2 * i by omega] at this
        refine Eq.trans this ?_
        simp only [chunkOf, Config.pageBufHalves, List.getD_eq_getElem?_getD, List.getElem?_take, List.getElem?_drop]
        rw [if_pos (by omega), show 64 * q + (i - 64 * q) = i by omega]
      · exact h4 i (by omega) (by show _ < u.fas.endAddr.toNat; rw [hfas]; omega)

end Sys2Proof.Machine
end

