-- ==== Sys2Proof/Laws/Frames.lean ====
section
/-!
SUPPORT. The digits of the diagnostic frames (spec/30_encoding.md R102): each below its base, the value theirs, and no
more of them than the field or the value needs.
-/

namespace Sys2Proof.Machine

/-- The value of digits, most significant first. -/
theorem foldl_digits_append (b : Nat) (l : List Nat) (d : Nat) :
    (l ++ [d]).foldl (fun n x => n * b + x) 0 = l.foldl (fun n x => n * b + x) 0 * b + d := by
  rw [List.foldl_append]
  rfl

theorem foldl_zeros (b k : Nat) (l : List Nat) :
    (List.replicate k 0 ++ l).foldl (fun n x => n * b + x) 0 = l.foldl (fun n x => n * b + x) 0 := by
  induction k with
  | zero => rfl
  | succ k ih => simpa [List.replicate_succ] using ih

/-- The unpadded digits of a value that `fuel` digits can hold. -/
theorem digits_numeral {b : Nat} (hb : 2 ≤ b) (fuel v : Nat) (hv : v < b ^ fuel) :
    (∀ d ∈ digits b fuel v, d < b) ∧ (digits b fuel v).foldl (fun n x => n * b + x) 0 = v ∧
      (digits b fuel v).length ≤ fuel ∧ (2 ≤ (digits b fuel v).length → b ^ ((digits b fuel v).length - 1) ≤ v) := by
  induction fuel generalizing v with
  | zero =>
    rw [Nat.pow_zero] at hv
    obtain rfl : v = 0 := by omega
    simp [digits]
  | succ fuel ih =>
    rw [digits]
    split
    · rename_i h
      simp [h]
    · rename_i h
      have hq : v / b < b ^ fuel := Nat.div_lt_of_lt_mul (by rwa [Nat.pow_succ, Nat.mul_comm] at hv)
      obtain ⟨h1, h2, h3, h4⟩ := ih (v / b) hq
      have hmod := Nat.div_add_mod v b
      have hlt := Nat.mod_lt v (by omega : b > 0)
      refine ⟨?_, ?_, by simpa using h3, fun _ => ?_⟩
      · intro d hd
        rcases List.mem_append.mp hd with hd | hd
        · exact h1 d hd
        · rwa [List.mem_singleton.mp hd]
      · rw [foldl_digits_append, h2, Nat.mul_comm]
        exact hmod
      · rw [List.length_append, List.length_singleton, Nat.add_sub_cancel]
        by_cases hl : 2 ≤ (digits b fuel (v / b)).length
        · have h5 := Nat.mul_le_mul_left b (h4 hl)
          rw [show b * b ^ ((digits b fuel (v / b)).length - 1) = b ^ (digits b fuel (v / b)).length by
            rw [← Nat.pow_succ', Nat.succ_eq_add_one]; congr 1; omega] at h5
          omega
        · have h6 : b ^ (digits b fuel (v / b)).length ≤ b ^ 1 := Nat.pow_le_pow_right (by omega) (by omega)
          rw [Nat.pow_one] at h6
          omega

/-- A padded field of digits. -/
theorem padDigits_numeral {b : Nat} (hb : 2 ≤ b) {fuel v w : Nat} (hw : 1 ≤ w) (hv : v < b ^ fuel) :
    IsNumeral b w v (padDigits w (digits b fuel v)) := by
  obtain ⟨h1, h2, -, h4⟩ := digits_numeral hb fuel v hv
  rw [IsNumeral, padDigits, foldl_zeros, List.length_append, List.length_replicate]
  refine ⟨by omega, ?_, h2, fun h => ?_⟩
  · intro d hd
    rcases List.mem_append.mp hd with hd | hd
    · rw [List.eq_of_mem_replicate hd]
      omega
    · exact h1 d hd
  · have := h4 (by omega)
    rwa [show w - (digits b fuel v).length + (digits b fuel v).length - 1 = (digits b fuel v).length - 1 by omega]

/-- A padded field holds more digits than its width only if the value needs them. -/
theorem IsNumeral.length_eq {b w v : Nat} {ds : List Nat} (h : IsNumeral b w v ds) (hb : 2 ≤ b) (hv : v < b ^ w) :
    ds.length = w := by
  obtain ⟨h1, -, -, h4⟩ := h
  by_contra hne
  have h5 := h4 (by omega)
  have h6 := Nat.pow_le_pow_right (n := b) (by omega) (show w ≤ ds.length - 1 by omega)
  omega

end Sys2Proof.Machine
end

