-- ==== Sys2Proof/Laws/PerInstr.lean ====
section
/-!
SUPPORT. The statement that is made of each operation as syntax: its command word decodes to it in every variant that has
it, and to another operation or to an illegal command in a variant that has not (spec/30_encoding.md R92, R93, R96).
-/

namespace Sys2Proof.Laws.EncodeDecode

/-- The command word of the operation stands for it exactly in the variants that have it. -/
def Statement (i : Instr) : Prop := ∀ v : Variant, decode v (encode i) = .op i ↔ i.wf v = true

theorem flashUnlockG : Statement .flashUnlockG := by intro v; cases v <;> decide
theorem flashUnlockA : Statement .flashUnlockA := by intro v; cases v <;> decide
theorem flashLockG : Statement .flashLockG := by intro v; cases v <;> decide
theorem flashLockA : Statement .flashLockA := by intro v; cases v <;> decide
theorem flashErasePageG : Statement .flashErasePageG := by intro v; cases v <;> decide
theorem flashErasePageA : Statement .flashErasePageA := by intro v; cases v <;> decide
theorem flashProgramArrayG : Statement .flashProgramArrayG := by intro v; cases v <;> decide
theorem flashProgramArrayA : Statement .flashProgramArrayA := by intro v; cases v <;> decide
theorem flashProgramPage : Statement .flashProgramPage := by intro v; cases v <;> decide
theorem getMaxFirmwareSize : Statement .getMaxFirmwareSize := by intro v; cases v <;> decide
theorem shouldForceBootloader : Statement .shouldForceBootloader := by intro v; cases v <;> decide
theorem txEnqueue : Statement .txEnqueue := by intro v; cases v <;> decide
theorem sessionReset : Statement .sessionReset := by intro v; cases v <;> decide

end Sys2Proof.Laws.EncodeDecode
end

