-- ==== Sys2Proof/Laws/Results.lean ====
section
/-!
SUPPORT. The three programming operations under an uninterrupted schedule, as their loops: which state they end in, up to
the transmit side, and which frames they handed to the ring.
-/

namespace Sys2Proof.Machine

theorem State.Inv.idle_of_notBusy {s : State} (h : s.Inv) (hb : s.busy = false) : s.seq = .idle := by
  have := h.2.2.2.2.2.2
  cases hs : s.seq with
  | idle => rfl
  | running i ls => simp [State.seqOk, hs, hb] at this

theorem State.Inv.restG {s : State} (h : s.Inv) (hb : s.busy = false) (hv : s.cfg.variant = .g) : RestG s := by
  obtain ⟨-, hc, -⟩ := h.idle (h.idle_of_notBusy hb)
  have hp := Ctl.clean_pending hc
  exact ⟨hv, (h.base.notBusy_iff).mpr hp, hp, (h.base.facts.inG hv).1⟩

theorem State.Inv.restA {s : State} (h : s.Inv) (hb : s.busy = false) (hv : s.cfg.variant = .a) : RestA s := by
  obtain ⟨-, hc, -⟩ := h.idle (h.idle_of_notBusy hb)
  have hp := Ctl.clean_pending hc
  simp only [Ctl.clean, State.ctl, Bool.and_eq_true, Bool.not_eq_true', beq_iff_eq] at hc
  obtain ⟨⟨⟨⟨⟨h1, h2⟩, -⟩, h3⟩, -⟩, h4⟩ := hc
  exact ⟨hv, (h.base.notBusy_iff).mpr hp, hp, h3, h1, h2, List.length_eq_zero_iff.mp h4⟩

theorem RestG.begin {s : State} (h : RestG s) (i : Instr) (ls : List Line) : RestG (s.begin i ls).core :=
  h.congr rfl rfl

theorem RestA.begin {s : State} (h : RestA s) (i : Instr) (ls : List Line) : RestA (s.begin i ls).core :=
  h.congr rfl rfl rfl rfl rfl h.per h.ppg

theorem State.operandHalves_length {s : State} (h : s.a1.toNat ≤ s.src.halfWords.length) :
    s.operandHalves.length = s.a1.toNat := by
  rw [State.operandHalves, List.length_take]
  omega

/-- `flash_program_array.g` ends as its loop does. -/
theorem arrayG_ends {s : State} (h : s.ReadyIn .g) (hp : arrayPreG s = none) :
    ∃ t, exec .flashProgramArrayG s = .next t ∧
      t.core = loopG s.a0 s.operandHalves (s.begin .flashProgramArrayG (arrayLinesG s)).core ∧ t.cfg = s.cfg ∧
      Streamed [addrFrame s.cfg.hexUpper s.a0 s.a1] s t ∧ t.Inv ∧ t.seq = .idle ∧ t.uninterrupted = true := by
  obtain ⟨hi, hb, hv, hq⟩ := h
  obtain ⟨h1, h2, -⟩ := arrayPreG_none hp
  have ho := hi.base.origin_le_base
  obtain ⟨ds, t, fr, hrun, hpl, hst, hti, hid, htq⟩ := start_plain hi hb hq (i := .flashProgramArrayG) (arrayLinesG s)
    (by rw [hv]; rfl) hp (okAfter_arrayG hi.base hv hp) (framed_arrayG s)
  have hl : arrayLinesG s = emit (addrFrame s.cfg.hexUpper s.a0 s.a1) ++ (arrayLoopG s.a0 s.operandHalves ++ [.ret 1]) := by
    rw [arrayLinesG, List.append_assoc]
  have hpl' : plainRun ds (arrayLinesG s) 0 (s.begin .flashProgramArrayG (arrayLinesG s)).core [] =
      some (loopG s.a0 s.operandHalves (s.begin .flashProgramArrayG (arrayLinesG s)).core,
        [addrFrame s.cfg.hexUpper s.a0 s.a1]) := by
    conv_lhs => rw [hl]
    rw [plainRun_emit]
    exact plainRun_arrayLoopG ((hi.restG hb hv).begin _ _) hi.base.geometry hi.base.fas _ h1
      (by show s.cfg.flashOrigin.toNat ≤ _; omega) ds _
  rw [hpl'] at hpl
  obtain ⟨hc, rfl⟩ := Prod.mk.inj (Option.some.inj hpl)
  have hcfg : t.cfg = s.cfg := by
    rw [← State.core_cfg, ← hc, loopG_frame]
    rfl
  exact ⟨t, hrun, hc.symm, hcfg, streamed_of_stored hcfg hst, hti, hid, htq⟩

/-- `flash_program_array.a` on an aligned destination ends as its loop does. -/
theorem arrayA_ends {s : State} (h : s.ReadyIn .a) (hp : arrayPreA s = none) (ha : misalignedA s.a0 = false) :
    ∃ t ds, exec .flashProgramArrayA s = .next t ∧
      t.core = (loopA s.cfg.hexUpper ds (pagesFrom s.a0 s.operandHalves 0 (pagesOf s.a1.toNat))
        (s.begin .flashProgramArrayA (arrayLinesA s)).core [sessionFrame s.a1]).1 ∧ t.cfg = s.cfg ∧
      Streamed (loopA s.cfg.hexUpper ds (pagesFrom s.a0 s.operandHalves 0 (pagesOf s.a1.toNat))
        (s.begin .flashProgramArrayA (arrayLinesA s)).core [sessionFrame s.a1]).2.reverse s t ∧
      t.Inv ∧ t.seq = .idle ∧ t.uninterrupted = true := by
  obtain ⟨hi, hb, hv, hq⟩ := h
  obtain ⟨h1, h2⟩ := arrayPreA_none hp ha
  have ho := hi.base.origin_le_base
  obtain ⟨ds, t, fr, hrun, hpl, hst, hti, hid, htq⟩ := start_plain hi hb hq (i := .flashProgramArrayA) (arrayLinesA s)
    (by rw [hv]; rfl) hp (okAfter_arrayA hi.base hv hp) (framed_arrayA s)
  have hl : arrayLinesA s = emit (sessionFrame s.a1) ++ (arrayLoopA s.cfg.hexUpper s.a0 s.operandHalves ++ [.ret 1]) := by
    rw [arrayLinesA, if_neg (by simp [ha])]
  have hrest := (hi.restA hb hv).begin .flashProgramArrayA (arrayLinesA s)
  obtain ⟨ds', he⟩ := plainRun_arrayLoopA (upper := s.cfg.hexUpper) hrest hi.base.geometry hi.base.fas
    (data := s.operandHalves) ((misalignedA_eq_false_iff _).mp ha)
    (by show s.cfg.flashOrigin.toNat ≤ _; omega) ds [sessionFrame s.a1]
  rw [State.operandHalves_length h2] at he
  have hpl' : plainRun ds (arrayLinesA s) 0 (s.begin .flashProgramArrayA (arrayLinesA s)).core [] =
      some (loopA s.cfg.hexUpper ds' (pagesFrom s.a0 s.operandHalves 0 (pagesOf s.a1.toNat))
        (s.begin .flashProgramArrayA (arrayLinesA s)).core [sessionFrame s.a1]) := by
    conv_lhs => rw [hl]
    rw [plainRun_emit]
    exact he
  rw [hpl'] at hpl
  obtain ⟨hc, hfr⟩ := Prod.ext_iff.mp (Option.some.inj hpl)
  simp only at hc hfr
  have hcfg : t.cfg = s.cfg := by
    rw [← State.core_cfg, ← hc, loopA_frame _ _ _ _ _ hrest.per hrest.ppg]
    rfl
  refine ⟨t, ds', hrun, hc.symm, hcfg, ?_, hti, hid, htq⟩
  rw [hfr]
  exact streamed_of_stored hcfg hst

/-- The state in which `flash_program_page` leaves its status inspection. -/
def pageEnd150 (u : State) (a : List Byte) : State × List (List Byte) :=
  if statusFlagged u.statr then (u.flagsFailed, [a]) else (u.flagsPassed.finish 1, [a, statusP])

/-- `flash_program_page` on accepted parameters ends after its status inspection. -/
theorem programPage_ends {s : State} (h : s.ReadyIn .a) (hp : pagePre s = none)
    (hb : pageParamBad s.a0 s.a1 = false) :
    ∃ t pg wp, exec .flashProgramPage s = .next t ∧
      t.core = (pageEnd150 ((s.begin .flashProgramPage (programPageLines s.cfg.hexUpper s.a0 s.a1 s.operandHalves
        ++ [.ret 1])).core.pagedA pg wp s.a0 s.operandHalves) (addrFrame s.cfg.hexUpper s.a0 s.a1)).1 ∧
      t.cfg = s.cfg ∧
      Streamed (pageEnd150 ((s.begin .flashProgramPage (programPageLines s.cfg.hexUpper s.a0 s.a1 s.operandHalves
        ++ [.ret 1])).core.pagedA pg wp s.a0 s.operandHalves) (addrFrame s.cfg.hexUpper s.a0 s.a1)).2 s t ∧
      t.Inv ∧ t.seq = .idle ∧ t.uninterrupted = true := by
  obtain ⟨hi, hby, hv, hq⟩ := h
  obtain ⟨h1, h2⟩ := pagePre_none hp hb
  obtain ⟨ds, t, fr, hrun, hpl, hst, hti, hid, htq⟩ := start_plain hi hby hq (i := .flashProgramPage)
    (programPageLines s.cfg.hexUpper s.a0 s.a1 s.operandHalves ++ [.ret 1]) (by rw [hv]; rfl) hp
    (okAfter_programPage hi.base hv hp) (framed_programPage s)
  generalize hls : programPageLines s.cfg.hexUpper s.a0 s.a1 s.operandHalves ++ [.ret 1] = ls at *
  have hm : s.operandHalves.length ≤ 64 := by
    have := operandHalves_length_le s
    have := (pageParamBad_false hb).2
    omega
  have hpin : PageIn s.cfg s.fas s.a0 := pageIn_of_pagePre hi.base hv hp hb
  obtain ⟨pg, wp, ds', he⟩ := plainRun_programPage (a := s.a0) (m := s.a1) ((hi.restA hby hv).begin .flashProgramPage ls)
    hpin hm hb s.cfg.hexUpper ds [.ret 1] []
  rw [hls] at he
  rw [he] at hpl
  have hfin : some (t.core, fr) = some ((pageEnd150 ((s.begin .flashProgramPage ls).core.pagedA pg wp s.a0 s.operandHalves)
      (addrFrame s.cfg.hexUpper s.a0 s.a1)).1, (pageEnd150 ((s.begin .flashProgramPage ls).core.pagedA pg wp s.a0
        s.operandHalves) (addrFrame s.cfg.hexUpper s.a0 s.a1)).2.reverse) := by
    rw [← hpl]
    unfold pageEnd150
    split <;> rfl
  obtain ⟨hc, hfr⟩ := Prod.mk.inj (Option.some.inj hfin)
  have hcfg : t.cfg = s.cfg := by
    rw [← State.core_cfg, hc]
    unfold pageEnd150
    split
    · exact State.pagedA_cfg pg wp s.a0 s.operandHalves _
    · exact State.pagedA_cfg pg wp s.a0 s.operandHalves _
  refine ⟨t, pg, wp, by rw [← hls] at hrun; exact hrun, hc, hcfg, ?_, hti, hid, htq⟩
  have := streamed_of_stored hcfg hst
  rw [hfr, List.reverse_reverse] at this
  exact this

end Sys2Proof.Machine
end

