-- ==== Sys2Proof/Laws/Whole.lean ====
section
/-!
SUPPORT. What a whole operation, and a whole step, keeps under every schedule: a property that every turn and every line
keeps, the run keeps (`runLines_always`, `exec_always`, `step_always`); where the sequencer stands afterwards
(`runLines_onPath`) and what has joined the stream (`runLines_grown`).
-/

namespace Sys2Proof.Machine

/-- What the two non-refusing ends of a wait answer. -/
def Awaited.Always (P : State → Prop) : Awaited → Prop
  | .ready t => P t
  | .ended t => P t
  | .refused _ => True

/-- What a line leads to, whether it ends the operation or not. -/
def Flow.Always (P : State → Prop) : Flow → Prop
  | .go t => P t
  | .skip _ t => P t
  | .done t => P t
  | .fault _ => True
  | .refuse _ => True

theorem Flow.Always.imp {P Q : State → Prop} {f : Flow} (h : Flow.Always P f) (hi : ∀ t, P t → Q t) :
    Flow.Always Q f := by
  cases f <;> first | trivial | exact hi _ h

/-- A component that no turn writes. -/
theorem keptByTurns_of_field {α : Type} (f : State → α) (a : α) (hs : ∀ s r, f { s with sched := r } = f s)
    (hi : ∀ s, f s.irqTurn = f s) (hu : ∀ s, f s.uartShift = f s) (hc : ∀ pg wp s, f (s.complete pg wp) = f s)
    (hb : ∀ s b, f { s with btn := b } = f s) (hk : ∀ s, f { s with fctlStuck := true } = f s) :
    KeptByTurns fun s => f s = a where
  sched s r h := (hs s r).trans h
  irq s h := (hi s).trans h
  uart s h := (hu s).trans h
  fctl pg wp s h := by
    unfold State.fctlTurn
    split
    · exact (hc pg wp s).trans h
    · exact h
  pin b s h := (hb s b).trans h
  stick s h := (hk s).trans h
  free s h _ := (hc _ _ s).trans h

/-- No reset is left in the schedule, or a reset keeps the property. -/
def ResetSafe (P : State → Prop) (sched : List Turn) : Prop :=
  (∀ x ∈ sched, x.isReset = false) ∨ ∀ s, P s → P s.coreReset

theorem ResetSafe.tail {P : State → Prop} {x : Turn} {r : List Turn} (h : ResetSafe P (x :: r)) : ResetSafe P r := by
  rcases h with h | h
  · exact .inl fun y hy => h y (List.mem_cons_of_mem _ hy)
  · exact .inr h

theorem ResetSafe.suffix {P : State → Prop} {a b : List Turn} (h : ResetSafe P b) (hs : a <:+ b) : ResetSafe P a := by
  rcases h with h | h
  · exact .inl fun y hy => h y (hs.subset hy)
  · exact .inr h

/-- A wait keeps what the turns keep, and leaves a rest of the schedule. -/
theorem await_always {P : State → Prop} (hP : KeptByTurns P) (l : Line) (sched : List Turn) (s : State) (h : P s)
    (hr : ResetSafe P sched) (hs : s.sched = sched) :
    (await l sched s).Always fun t => P t ∧ t.sched <:+ sched := by
  induction sched generalizing s with
  | nil =>
    rw [await]
    split
    · exact ⟨h, by rw [hs]⟩
    · rename_i hl
      split
      · exact ⟨h, by rw [hs]⟩
      · exact ⟨hP.free s h (lineEnabled_false hl), by simp [hs]⟩
  | cons t r ih =>
    have step : ∀ u : State, P u → u.sched = r → (await l r u).Always fun t' => P t' ∧ t'.sched <:+ t :: r := by
      intro u hu hur
      have := ih u hu hr.tail hur
      cases ha : await l r u with
      | ready t' => rw [ha] at this; exact ⟨this.1, this.2.trans (List.suffix_cons _ _)⟩
      | ended t' => rw [ha] at this; exact ⟨this.1, this.2.trans (List.suffix_cons _ _)⟩
      | refused q => trivial
    cases t with
    | seq =>
      rw [await]
      split
      · exact ⟨hP.sched s r h, List.suffix_cons _ _⟩
      · exact step _ (hP.sched s r h) rfl
    | irq => exact step _ (hP.irq _ (hP.sched s r h)) (by simp [State.turn])
    | uart => exact step _ (hP.uart _ (hP.sched s r h)) (by simp [State.turn])
    | fctl pg wp => exact step _ (hP.fctl pg wp _ (hP.sched s r h)) (by simp [State.turn])
    | pin b => exact step _ (hP.pin b _ (hP.sched s r h)) rfl
    | host =>
      rw [await]
      split
      · exact step _ (hP.sched s r h) rfl
      · trivial
    | reset =>
      refine ⟨?_, List.suffix_cons _ _⟩
      rcases hr with hr | hr
      · exact absurd (hr .reset List.mem_cons_self) (by simp [Turn.isReset])
      · exact hr _ (hP.sched s r h)
    | stick => exact step _ (hP.stick _ (hP.sched s r h)) rfl
    | yield => exact ⟨hP.sched s r h, List.suffix_cons _ _⟩

/-- The lines that write the persisted cell. -/
def Line.writesBkp : Line → Bool
  | .bkpClear => true
  | _ => false

/-- The lines that write the ErasedWindow (spec/10_state.md R31). -/
def Line.writesWin : Line → Bool
  | .windowPage _ => true
  | .windowPast _ => true
  | .windowEmpty => true
  | _ => false

/-- The lines that write ring slots and `RB.wr`. -/
def Line.writesRing : Line → Bool
  | .enqByte _ _ => true
  | _ => false

/-- What no line writes, and what only the named lines write. -/
structure LineFrame (l : Line) (s t : State) : Prop where
  cfg : t.cfg = s.cfg
  fas : t.fas = s.fas
  seq : t.seq = s.seq ∨ t.seq = .idle
  operands : t.op = s.op ∧ t.a0 = s.a0 ∧ t.a1 = s.a1 ∧ t.src = s.src
  ill : t.ill = s.ill
  rd : t.rb.rd = s.rb.rd
  flash : t.flash = s.flash
  pbuf : t.fc.pbuf = s.fc.pbuf
  transmit : t.tdr = s.tdr ∧ t.txe = s.txe ∧ t.line = s.line
  outside : t.btn = s.btn ∧ t.inbox = s.inbox ∧ t.sched = s.sched ∧ t.dev = s.dev ∧ t.fctlStuck = s.fctlStuck
  bkp : l.writesBkp = false → t.bkp = s.bkp
  win : l.writesWin = false → t.win = s.win
  ring : l.writesRing = false → t.rb = s.rb

theorem lineFrame_same {l : Line} {s t : State} (h : t = { s with
    res := t.res, busy := t.busy, seq := t.seq, tmp := t.tmp, armed := t.armed, keyr := t.keyr, modekeyr := t.modekeyr
    fc := t.fc, ctlr := t.ctlr, addr := t.addr, statr := t.statr, cachectl := t.cachectl, cause := t.cause
    draws := t.draws }) (hp : t.fc.pbuf = s.fc.pbuf)
    (hq : t.seq = s.seq ∨ t.seq = .idle := by first | exact .inl rfl | exact .inr rfl) : LineFrame l s t := by
  rw [h] at hp ⊢
  exact ⟨rfl, rfl, hq, ⟨rfl, rfl, rfl, rfl⟩, rfl, rfl, rfl, hp, ⟨rfl, rfl, rfl⟩, ⟨rfl, rfl, rfl, rfl, rfl⟩, fun _ => rfl,
    fun _ => rfl, fun _ => rfl⟩

theorem memRead16_frame {a : Word} {s u : State} {v : Half} (h : memRead16 a s = .value v u) :
    u = { s with draws := u.draws } := by
  unfold memRead16 at h
  (repeat' split at h) <;> cases h <;> rfl

theorem memRead32_frame {a : Word} {s u : State} {v : Word} (h : memRead32 a s = .value v u) :
    u = { s with draws := u.draws } := by
  unfold memRead32 at h
  (repeat' split at h) <;> cases h <;> rfl

theorem startOn_frame (l : Line) (p : Word) (n : Nat) (c : Cycle) {s u : State}
    (hu : u = { s with ctlr := u.ctlr, draws := u.draws }) : (startOn p n c u).Always (LineFrame l s) := by
  unfold startOn
  split
  · trivial
  · split
    · trivial
    · rw [hu]
      exact lineFrame_same rfl rfl

theorem startBuffer_frame (l : Line) (c : Cycle) {s u : State} (hu : u = { s with ctlr := u.ctlr, draws := u.draws }) :
    (startBuffer c u).Always (LineFrame l s) := by
  unfold startBuffer
  split
  · trivial
  · split
    · trivial
    · rw [hu]
      exact lineFrame_same rfl rfl

/-- What a line leaves as it was. -/
theorem runLine_frame (l : Line) (s : State) : (runLine l s).Always (LineFrame l s) := by
  cases l with
  | enqByte b left =>
    simp only [runLine, enqueueByte]
    split
    · exact lineFrame_same rfl rfl
    · exact ⟨rfl, rfl, .inl rfl, ⟨rfl, rfl, rfl, rfl⟩, rfl, rfl, rfl, rfl, ⟨rfl, rfl, rfl⟩, ⟨rfl, rfl, rfl, rfl, rfl⟩,
        fun _ => rfl, fun _ => rfl, fun h => Bool.noConfusion h⟩
  | gErase d => exact startOn_frame _ _ _ _ rfl
  | gProg d v =>
    simp only [runLine, startHalf]
    split
    · trivial
    · exact startOn_frame _ _ _ _ rfl
  | bound d => simp only [runLine]; split <;> exact lineFrame_same rfl rfl
  | windowTest d => simp only [runLine]; split <;> exact lineFrame_same rfl rfl
  | windowPage d =>
    exact ⟨rfl, rfl, .inl rfl, ⟨rfl, rfl, rfl, rfl⟩, rfl, rfl, rfl, rfl, ⟨rfl, rfl, rfl⟩, ⟨rfl, rfl, rfl, rfl, rfl⟩,
      fun _ => rfl, fun h => Bool.noConfusion h, fun _ => rfl⟩
  | windowPast d =>
    exact ⟨rfl, rfl, .inl rfl, ⟨rfl, rfl, rfl, rfl⟩, rfl, rfl, rfl, rfl, ⟨rfl, rfl, rfl⟩, ⟨rfl, rfl, rfl, rfl, rfl⟩,
      fun _ => rfl, fun h => Bool.noConfusion h, fun _ => rfl⟩
  | windowEmpty =>
    exact ⟨rfl, rfl, .inl rfl, ⟨rfl, rfl, rfl, rfl⟩, rfl, rfl, rfl, rfl, ⟨rfl, rfl, rfl⟩, ⟨rfl, rfl, rfl, rfl, rfl⟩,
      fun _ => rfl, fun h => Bool.noConfusion h, fun _ => rfl⟩
  | bkpClear =>
    exact ⟨rfl, rfl, .inl rfl, ⟨rfl, rfl, rfl, rfl⟩, rfl, rfl, rfl, rfl, ⟨rfl, rfl, rfl⟩, ⟨rfl, rfl, rfl, rfl, rfl⟩,
      fun h => Bool.noConfusion h, fun _ => rfl, fun _ => rfl⟩
  | verify d v =>
    simp only [runLine, verifyHalf]
    split
    · rename_i got s1 hm
      rw [memRead16_frame hm]
      split <;> exact lineFrame_same rfl rfl
    · trivial
  | keyWrite r v =>
    by_cases hk : expectedKey s.cfg (if s.fc.keyseq ≥ 4 then 0 else s.fc.keyseq) = (r, v)
    · simp only [runLine, writeKey_eq hk]
      exact lineFrame_same rfl (by simp only [State.keyed]; split <;> rfl)
    · simp only [runLine, writeKey_ne hk]
      trivial
  | ctlSet b =>
    cases b with
    | level l => exact lineFrame_same rfl rfl
    | bufRst => exact startBuffer_frame _ _ (u := s.setBufrst) rfl
    | bufLoad => exact startBuffer_frame _ _ (u := s.setBufload) rfl
    | strt =>
      show (startMode s).Always _
      unfold startMode
      split
      · exact startOn_frame _ _ _ _ (u := s.setStrt) rfl
      · exact startOn_frame _ _ _ _ (u := s.setStrt) rfl
      · trivial
      · trivial
    | lock => exact lineFrame_same rfl rfl
  | refreshRead x =>
    simp only [runLine, refreshRead]
    split
    · rename_i w s1 hm
      rw [memRead32_frame hm]
      exact lineFrame_same rfl rfl
    · trivial
  | memWrite a w =>
    simp only [runLine, stageWord]
    (repeat' split) <;> first | trivial | exact lineFrame_same rfl rfl
  | statusTest => simp only [runLine]; split <;> exact lineFrame_same rfl rfl
  | _ => exact lineFrame_same rfl rfl

/-- The lines do not touch the schedule. -/
theorem runLine_sched (l : Line) (s : State) : (runLine l s).Always fun t => t.sched = s.sched := by
  have h := runLine_frame l s
  revert h
  cases runLine l s <;> intro h <;> first | trivial | exact h.outside.2.2.1

/-- A run of lines keeps what the turns, the lines and the sequencer's position keep. -/
theorem runLines_always {P : State → Prop} (hP : KeptByTurns P) (hq : ∀ s q, P s → P { s with seq := q }) (i : Instr)
    (lines : List Line) (hl : ∀ l ∈ lines, ∀ s, P s → (runLine l s).Always P) (n : Nat) (s t : State) (h : P s)
    (hr : ResetSafe P s.sched) (ht : runLines i lines n s = .next t) : P t := by
  induction lines generalizing n s with
  | nil =>
    cases ht
    exact h
  | cons l rest ih =>
    have hrest : ∀ l ∈ rest, ∀ s, P s → (runLine l s).Always P := fun x hx => hl x (List.mem_cons_of_mem _ hx)
    cases n with
    | succ n => exact ih hrest n s h hr ht
    | zero =>
      have ha := await_always hP l s.sched { s with seq := .running i (l :: rest) } (hq _ _ h) hr rfl
      rw [runLines] at ht
      split at ht
      · rename_i s1 hs1
        rw [hs1] at ha
        obtain ⟨h1, hsuf⟩ := ha
        have hf := hl l List.mem_cons_self s1 h1
        have hsch := runLine_sched l s1
        have hr1 : ResetSafe P s1.sched := hr.suffix hsuf
        split at ht
        · rename_i s2 h2
          rw [h2] at hf hsch
          exact ih hrest 0 s2 hf (by rw [show s2.sched = s1.sched from hsch]; exact hr1) ht
        · rename_i m s2 h2
          rw [h2] at hf hsch
          exact ih hrest m s2 hf (by rw [show s2.sched = s1.sched from hsch]; exact hr1) ht
        · rename_i s2 h2
          rw [h2] at hf
          cases ht
          exact hf
        · cases ht
        · cases ht
      · rename_i s1 hs1
        rw [hs1] at ha
        cases ht
        exact ha.1
      · cases ht

/-! ## The lines of each operation -/

/-- The violated precondition of an operation on its operands, if any. -/
def opPre (i : Instr) (s : State) : Option Refusal :=
  match i with
  | .flashUnlockG => none
  | .flashUnlockA => none
  | .flashLockG => none
  | .flashLockA => none
  | .flashErasePageG => if pageInArray s (pageStart s.fas.pageSize s.a0) then none else some .pageOutsideFlash
  | .flashErasePageA => if pageInArrayA s (pageOfA s.a0) then none else some .pageOutsideFlash
  | .flashProgramArrayG => arrayPreG s
  | .flashProgramArrayA => arrayPreA s
  | .flashProgramPage => pagePre s
  | .getMaxFirmwareSize => none
  | .shouldForceBootloader => none
  | .txEnqueue => if s.src.byteSeq.length < s.a1.toNat then some .sourceTooShort else none
  | .sessionReset => none

/-- Every meaning is a start of its lines. -/
theorem exec_start (i : Instr) (s : State) : exec i s = start i (opPre i s) (opLines i s) s := by
  cases i <;> rfl

/-- An operation that answers a next state has started and run its lines. -/
theorem exec_runs {i : Instr} {s t : State} (h : exec i s = .next t) :
    s.busy = false ∧ i.wf s.cfg.variant = true ∧
      runLines i (opLines i s) 0 (s.begin i (opLines i s)) = .next t := by
  rw [exec_start] at h
  rcases start_spec i (opPre i s) (opLines i s) s with ⟨-, h1⟩ | ⟨-, -, h1⟩ | ⟨r, -, -, -, h1⟩ | ⟨hb, hw, -, h1⟩
  · rw [h] at h1; cases h1
  · rw [h] at h1; cases h1
  · rw [h] at h1; cases h1
  · exact ⟨hb, hw, by rw [← h1, h]⟩

/-- An operation keeps what its start, the turns and its lines keep. -/
theorem exec_always {P : State → Prop} (hP : KeptByTurns P) (hq : ∀ s q, P s → P { s with seq := q }) {i : Instr}
    {s t : State} (hl : ∀ l ∈ opLines i s, ∀ s, P s → (runLine l s).Always P) (h : P (s.begin i (opLines i s)))
    (hr : ResetSafe P s.sched) (ht : exec i s = .next t) : P t := by
  obtain ⟨-, -, hrun⟩ := exec_runs ht
  exact runLines_always hP hq i _ hl 0 _ t h hr hrun

/-! ## Which lines an operation has -/

/-- The lines of an enqueue call. -/
def Line.isEnqueue : Line → Bool
  | .enqStart => true
  | .enqByte _ _ => true
  | .enqArm => true
  | _ => false

/-- The lines that write a key register. -/
def Line.writesKey : Line → Bool
  | .keyWrite _ _ => true
  | _ => false

/-- The lines by which variant A erases, programs and verifies (spec/41_flash_alternate.md R146, R150, R156). -/
def Line.worksA : Line → Bool
  | .bound _ => true
  | .verify _ _ => true
  | .ctlSet (.level _) => true
  | .ctlSet .bufRst => true
  | .ctlSet .bufLoad => true
  | .ctlSet .strt => true
  | .ctlClear _ => true
  | .addrWrite _ => true
  | .spin => true
  | .refreshRead _ => true
  | .refreshWrite => true
  | .memWrite _ _ => true
  | .statusRead => true
  | .statusTest => true
  | .clearErr => true
  | .ret _ => true
  | .fail _ => true
  | _ => false

/-- The lines of the loop of `flash_program_array.g` (spec/40_flash_generic.md R126). -/
def Line.worksG : Line → Bool
  | .bound _ => true
  | .windowTest _ => true
  | .gErase _ => true
  | .gWait => true
  | .windowPage _ => true
  | .gProg _ _ => true
  | .windowPast _ => true
  | .verify _ _ => true
  | .ret _ => true
  | _ => false

/-- The lines of `flash_erase_page.g` (R123). -/
def Line.erasesG : Line → Bool
  | .gErase _ => true
  | .gWait => true
  | .ret _ => true
  | _ => false

/-- The lines of the trigger (spec/44_boot_trigger.md R201). -/
def Line.worksTrigger : Line → Bool
  | .bkpRead => true
  | .bkpCompare => true
  | .bkpClear => true
  | .delay _ => true
  | .pinSample => true
  | .pinPressed => true
  | .pinOr => true
  | .retForce => true
  | _ => false

theorem emit_mem {bs : List Byte} {l : Line} (h : l ∈ emit bs) : l.isEnqueue = true := by
  rw [emit, List.mem_cons] at h
  rcases h with rfl | h
  · rfl
  · induction bs with
    | nil =>
      rw [enqueueBytes, List.mem_singleton] at h
      rw [h]
      rfl
    | cons b bs ih =>
      rw [enqueueBytes, List.mem_cons] at h
      rcases h with rfl | h
      · rfl
      · exact ih h

theorem erasePageLines_mem {d : Word} {l : Line} (h : l ∈ erasePageLines d) :
    l.isEnqueue = true ∨ l.worksA = true := by
  simp only [erasePageLines, refreshLines, List.mem_append, List.mem_cons, List.not_mem_nil, or_false] at h
  rcases h with ((rfl | rfl | rfl | rfl | rfl) | rfl | rfl) | h
  all_goals first | exact .inr rfl | exact .inl (emit_mem h)

theorem batchLines_mem {b : Word} {c : List Half} {l : Line} (h : l ∈ batchLines b c) : l.worksA = true := by
  simp only [batchLines, refreshLines, List.mem_append, List.mem_cons, List.not_mem_nil, or_false] at h
  rcases h with ((rfl | h) | rfl | rfl | rfl) | rfl | rfl
  all_goals first | rfl | (obtain ⟨_, _, rfl⟩ := memWriteLines_mem h; rfl)

theorem programPageLines_mem {upper : Bool} {a m : Word} {data : List Half} {l : Line}
    (h : l ∈ programPageLines upper a m data) : l.isEnqueue = true ∨ l.worksA = true := by
  unfold programPageLines at h
  split at h
  · rw [List.mem_singleton] at h
    rw [h]
    exact .inr rfl
  · simp only [List.mem_append, loadLines, List.mem_flatMap] at h
    rcases h with ((((h | h) | ⟨k, -, h⟩) | h) | h) | h
    · exact .inl (emit_mem h)
    · simp only [bufferResetLines, List.mem_cons, List.not_mem_nil, or_false] at h
      rcases h with rfl | rfl | rfl | rfl <;> exact .inr rfl
    · exact .inr (batchLines_mem h)
    · simp only [commitLines, refreshLines, List.mem_append, List.mem_cons, List.not_mem_nil, or_false] at h
      rcases h with (rfl | rfl | rfl | rfl | rfl) | rfl | rfl <;> exact .inr rfl
    · simp only [statusLines, List.mem_cons, List.not_mem_nil, or_false] at h
      rcases h with rfl | rfl | rfl | rfl <;> exact .inr rfl
    · exact .inl (emit_mem h)

theorem arrayLinesA_mem {s : State} {l : Line} (h : l ∈ arrayLinesA s) : l.isEnqueue = true ∨ l.worksA = true := by
  rw [arrayLinesA, List.mem_append] at h
  rcases h with h | h
  · exact .inl (emit_mem h)
  · split at h
    · rw [List.mem_singleton] at h
      rw [h]
      exact .inr rfl
    · simp only [List.mem_append, arrayLoopA, List.mem_flatMap, arrayPageLines, List.mem_cons, List.not_mem_nil,
        or_false] at h
      rcases h with ⟨q, -, rfl | (h | h) | h⟩ | rfl
      · exact .inr rfl
      · exact erasePageLines_mem h
      · exact programPageLines_mem h
      · obtain ⟨_, _, rfl⟩ := verifyLines_mem h
        exact .inr rfl
      · exact .inr rfl

theorem arrayLoopG_mem {d : Word} {vs : List Half} {l : Line} (h : l ∈ arrayLoopG d vs) : l.worksG = true := by
  induction vs generalizing d with
  | nil => cases h
  | cons v vs ih =>
    rw [arrayLoopG, List.mem_append] at h
    rcases h with h | h
    · simp only [halfLinesG, List.mem_cons, List.not_mem_nil, or_false] at h
      rcases h with rfl | rfl | rfl | rfl | rfl | rfl | rfl | rfl | rfl <;> rfl
    · exact ih h

theorem arrayLinesG_mem {s : State} {l : Line} (h : l ∈ arrayLinesG s) : l.isEnqueue = true ∨ l.worksG = true := by
  simp only [arrayLinesG, List.mem_append, List.mem_singleton] at h
  rcases h with (h | h) | rfl
  · exact .inl (emit_mem h)
  · exact .inr (arrayLoopG_mem h)
  · exact .inr rfl

/-- The lines an operation may have. -/
def Line.allowed (i : Instr) (l : Line) : Bool :=
  match i with
  | .flashUnlockG => l == .gUnlock || l == .ret 1
  | .flashUnlockA => l.isEnqueue || l == .ret 1 || l.writesKey
  | .flashLockG => l == .gLock || l == .ret 1
  | .flashLockA => l.isEnqueue || l == .ctlSet .lock || l == .ret 1
  | .flashErasePageG => l.erasesG
  | .flashErasePageA => l.isEnqueue || l.worksA
  | .flashProgramArrayG => l.isEnqueue || l.worksG
  | .flashProgramArrayA => l.isEnqueue || l.worksA
  | .flashProgramPage => l.isEnqueue || l.worksA
  | .getMaxFirmwareSize => l == .retSize
  | .shouldForceBootloader => l.worksTrigger
  | .txEnqueue => l.isEnqueue || l == .ret 1
  | .sessionReset => l == .windowEmpty || l == .ret 1

theorem opLines_allowed {i : Instr} {s : State} {l : Line} (h : l ∈ opLines i s) : l.allowed i = true := by
  have hor : ∀ {a b : Bool}, a = true ∨ b = true → (a || b) = true := fun h => by simpa using h
  cases i with
  | flashUnlockG =>
    simp only [opLines, List.mem_cons, List.not_mem_nil, or_false] at h
    rcases h with rfl | rfl <;> rfl
  | flashUnlockA =>
    simp only [opLines, List.mem_append, List.mem_cons, List.not_mem_nil, or_false] at h
    rcases h with ((rfl | rfl | rfl | rfl) | h) | rfl
    all_goals first | rfl | (rw [Line.allowed, emit_mem h]; rfl)
  | flashLockG =>
    simp only [opLines, List.mem_cons, List.not_mem_nil, or_false] at h
    rcases h with rfl | rfl <;> rfl
  | flashLockA =>
    simp only [opLines, List.mem_append, List.mem_singleton] at h
    rcases h with (rfl | h) | rfl
    all_goals first | rfl | (rw [Line.allowed, emit_mem h]; rfl)
  | flashErasePageG =>
    simp only [opLines, List.mem_cons, List.not_mem_nil, or_false] at h
    rcases h with rfl | rfl | rfl <;> rfl
  | flashErasePageA =>
    simp only [opLines, List.mem_append, List.mem_singleton] at h
    rcases h with h | rfl
    · exact hor (erasePageLines_mem h)
    · rfl
  | flashProgramArrayG => exact hor (arrayLinesG_mem h)
  | flashProgramArrayA => exact hor (arrayLinesA_mem h)
  | flashProgramPage =>
    simp only [opLines, List.mem_append, List.mem_singleton] at h
    rcases h with h | rfl
    · exact hor (programPageLines_mem h)
    · rfl
  | getMaxFirmwareSize =>
    simp only [opLines, List.mem_singleton] at h
    rw [h]
    rfl
  | shouldForceBootloader =>
    simp only [opLines, buttonLines, List.mem_append, List.mem_cons, List.not_mem_nil, or_false] at h
    rcases h with ((rfl | rfl | rfl) | h) | rfl
    · rfl
    · rfl
    · rfl
    · split at h
      · simp only [List.mem_cons, List.not_mem_nil, or_false] at h
        rcases h with rfl | rfl | rfl | rfl <;> rfl
      · cases h
    · rfl
  | txEnqueue =>
    simp only [opLines, List.mem_append, List.mem_singleton] at h
    rcases h with h | rfl
    · rw [Line.allowed, emit_mem h]; rfl
    · rfl
  | sessionReset =>
    simp only [opLines, List.mem_cons, List.not_mem_nil, or_false] at h
    rcases h with rfl | rfl <;> rfl

/-- Only the trigger has a line that writes the persisted cell. -/
theorem allowed_writesBkp {i : Instr} {l : Line} (h : l.allowed i = true) (hw : l.writesBkp = true) :
    i = .shouldForceBootloader := by
  cases l with
  | bkpClear => cases i <;> first | rfl | exact Bool.noConfusion h
  | _ => exact Bool.noConfusion hw

/-- Only two operations have lines that write the window. -/
theorem allowed_writesWin {i : Instr} {l : Line} (h : l.allowed i = true) (hw : l.writesWin = true) :
    i = .flashProgramArrayG ∨ i = .sessionReset := by
  cases l with
  | windowPage d => cases i <;> first | exact .inl rfl | exact .inr rfl | exact Bool.noConfusion h
  | windowPast d => cases i <;> first | exact .inl rfl | exact .inr rfl | exact Bool.noConfusion h
  | windowEmpty => cases i <;> first | exact .inl rfl | exact .inr rfl | exact Bool.noConfusion h
  | _ => exact Bool.noConfusion hw

/-- The lines that open write access. -/
def Line.unlocks : Line → Bool
  | .gUnlock => true
  | .keyWrite _ _ => true
  | _ => false

/-- Only the two `flash_unlock` have lines that open write access. -/
theorem allowed_unlocks {i : Instr} {l : Line} (h : l.allowed i = true) (hw : l.unlocks = true) :
    i = .flashUnlockG ∨ i = .flashUnlockA := by
  cases l with
  | gUnlock => cases i <;> first | exact .inl rfl | exact .inr rfl | exact Bool.noConfusion h
  | keyWrite r v => cases i <;> first | exact .inl rfl | exact .inr rfl | exact Bool.noConfusion h
  | _ => exact Bool.noConfusion hw

/-- On a locked controller a line that does not open write access leaves it closed and the staging slots as they were
(spec/20_memory.md R77). -/
theorem runLine_locked {l : Line} {s : State} (hl : l.unlocks = false) (hk : s.fc.locked = true) :
    (runLine l s).Always fun t => t.fc.locked = true ∧ t.fc.stage = s.fc.stage := by
  have on : ∀ (p : Word) (n : Nat) (c : Cycle) (u : State), u.fc = s.fc →
      (startOn p n c u).Always fun t => t.fc.locked = true ∧ t.fc.stage = s.fc.stage := fun p n c u hu => by
    unfold startOn
    (repeat' split) <;> first | trivial | simp [Flow.Always, State.startCycle, hu, hk]
  have buf : ∀ (c : Cycle) (u : State), u.fc = s.fc →
      (startBuffer c u).Always fun t => t.fc.locked = true ∧ t.fc.stage = s.fc.stage := fun c u hu => by
    unfold startBuffer
    (repeat' split) <;> first | trivial | simp [Flow.Always, State.startCycle, hu, hk]
  cases l with
  | gUnlock => cases hl
  | keyWrite r v => cases hl
  | gErase d => exact on _ _ _ _ rfl
  | gProg d v =>
    simp only [runLine, startHalf]
    split
    · trivial
    · exact on _ _ _ _ rfl
  | ctlSet b =>
    cases b with
    | strt =>
      show (startMode s).Always _
      unfold startMode
      split <;> first | trivial | exact on _ _ _ s.setStrt rfl
    | bufRst => exact buf _ s.setBufrst rfl
    | bufLoad => exact buf _ s.setBufload rfl
    | level l => exact ⟨hk, rfl⟩
    | lock => exact ⟨rfl, rfl⟩
  | enqByte b left => simp only [runLine, enqueueByte]; split <;> exact ⟨hk, rfl⟩
  | bound d => simp only [runLine]; split <;> exact ⟨hk, rfl⟩
  | windowTest d => simp only [runLine]; split <;> exact ⟨hk, rfl⟩
  | statusTest => simp only [runLine]; split <;> exact ⟨hk, rfl⟩
  | verify d v =>
    simp only [runLine, verifyHalf]
    split
    · rename_i got s1 hm
      rw [memRead16_frame hm]
      split <;> exact ⟨hk, rfl⟩
    · trivial
  | refreshRead x =>
    simp only [runLine, refreshRead]
    split
    · rename_i w s1 hm
      rw [memRead32_frame hm]
      exact ⟨hk, rfl⟩
    · trivial
  | memWrite a w =>
    simp only [runLine, stageWord, hk, if_true]
    (repeat' split) <;> trivial
  | gLock => exact ⟨rfl, rfl⟩
  | _ => exact ⟨hk, rfl⟩

/-! ## Whole steps -/

/-- What a step that answers a next state has done. -/
theorem step_cases {s t : State} (h : step s = .next t) :
    (∃ i lines, s.seq = .running i lines ∧ runLines i lines 0 s = .next t) ∨
    (s.seq = .idle ∧ ∃ c rest i, s.inbox = c :: rest ∧ decode s.cfg.variant c.op = .op i ∧
      exec i (s.accept c rest) = .next t) ∨
    (s.seq = .idle ∧ ∃ c rest why, s.inbox = c :: rest ∧ decode s.cfg.variant c.op = .illegal why ∧
      t = (s.accept c rest).illegal) ∨
    (s.seq = .idle ∧ s.inbox = [] ∧ t = s.idleStep) := by
  rw [step, State.poll] at h
  by_cases hw : s.cfg.wf = true
  · rw [if_neg (by simp [hw])] at h
    cases hs : s.seq with
    | running i lines => rw [hs] at h; exact .inl ⟨i, lines, rfl, h⟩
    | idle =>
      rw [hs] at h
      cases hi : s.inbox with
      | nil => rw [hi] at h; cases h; exact .inr (.inr (.inr ⟨rfl, rfl, rfl⟩))
      | cons c rest =>
        rw [hi] at h
        cases hd : decode s.cfg.variant c.op with
        | op i => simp only [hd] at h; exact .inr (.inl ⟨rfl, c, rest, i, rfl, hd, h⟩)
        | illegal why => simp only [hd] at h; cases h; exact .inr (.inr (.inl ⟨rfl, c, rest, why, rfl, hd, rfl⟩))
  · rw [if_pos (by simp [hw])] at h
    cases h

/-- A program depends on the parameters and the operands only. -/
theorem opLines_congr {s t : State} (hc : t.cfg = s.cfg) (h0 : t.a0 = s.a0) (h1 : t.a1 = s.a1) (hs : t.src = s.src)
    (i : Instr) : opLines i t = opLines i s := by
  cases i <;> simp only [opLines, arrayLinesG, arrayLinesA, State.operandHalves, State.operandBytes, hc, h0, h1, hs]

theorem State.onProgram_running {s : State} {i : Instr} {lines : List Line} (h : s.onProgram = true)
    (hs : s.seq = .running i lines) : lines <:+ opLines i s := by
  rw [State.onProgram, hs] at h
  exact List.isSuffixOf_iff_suffix.mp h

/-- What the command port and the sequencer's position must not spoil. -/
structure KeptByPort (P : State → Prop) : Prop where
  seq : ∀ s q, P s → P { s with seq := q }
  accept : ∀ c r s, P s → P (s.accept c r)
  start : ∀ i ls s, P s → P (s.begin i ls)
  illegal : ∀ s, P s → P s.illegal

/-- A step keeps what the turns, the command port and its lines keep. -/
theorem step_always {P : State → Prop} (hP : KeptByTurns P) (hp : KeptByPort P) {s t : State}
    (hl : ∀ l ∈ s.program, ∀ s, P s → (runLine l s).Always P) (h : P s) (hr : ResetSafe P s.sched)
    (ht : step s = .next t) : P t := by
  rcases step_cases ht with ⟨i, lines, hs, hrun⟩ | ⟨hs, c, rest, i, hi, hd, hex⟩ | ⟨hs, c, rest, why, hi, hd, rfl⟩ |
    ⟨hs, hi, rfl⟩
  · rw [State.program, hs] at hl
    exact runLines_always hP hp.seq i lines hl 0 s t h hr hrun
  · simp only [State.program, hs, hi, hd] at hl
    exact exec_always hP hp.seq hl (hp.start _ _ _ (hp.accept c rest s h)) hr hex
  · exact hp.illegal _ (hp.accept c rest s h)
  · unfold State.idleStep
    split
    · rename_i x r hx
      have h' : P { s with sched := r } := hP.sched s r h
      rw [hx] at hr
      cases x with
      | seq => exact h'
      | irq => exact hP.irq _ h'
      | uart => exact hP.uart _ h'
      | fctl pg wp => exact hP.fctl pg wp _ h'
      | pin b => exact hP.pin b _ h'
      | host => exact h'
      | reset =>
        rcases hr with hr | hr
        · exact absurd (hr .reset List.mem_cons_self) (by simp [Turn.isReset])
        · exact hr _ h'
      | stick => exact hP.stick _ h'
      | yield => exact h'
    · split
      · have := hP.irq s h
        rw [State.irqTurn, if_pos ‹_›] at this
        exact this
      · exact hP.uart s h

/-- The lines of a step are lines of its operation. -/
theorem program_allowed {s : State} (h : s.onProgram = true) {l : Line} (hl : l ∈ s.program) :
    ∃ i, s.operation = some i ∧ l.allowed i = true := by
  cases hs : s.seq with
  | running i lines =>
    simp only [State.program, State.operation, hs] at hl ⊢
    exact ⟨i, rfl, opLines_allowed ((s.onProgram_running h hs).subset hl)⟩
  | idle =>
    cases hi : s.inbox with
    | nil => simp [State.program, hs, hi] at hl
    | cons c rest =>
      cases hd : decode s.cfg.variant c.op with
      | op i =>
        simp only [State.program, State.operation, hs, hi, hd] at hl ⊢
        exact ⟨i, rfl, opLines_allowed hl⟩
      | illegal why => simp [State.program, hs, hi, hd] at hl

/-! ## The position -/

/-- The parameters and operands are those of `s0`. -/
def SameOperands (s0 s : State) : Prop :=
  s.cfg = s0.cfg ∧ s.op = s0.op ∧ s.a0 = s0.a0 ∧ s.a1 = s0.a1 ∧ s.src = s0.src

/-- The operation has ended, or its lines to come are an end of `full`. -/
def OnPath (i : Instr) (full : List Line) (s : State) : Prop :=
  s.seq = .idle ∨ ∃ ls, s.seq = .running i ls ∧ ls <:+ full

theorem SameOperands.line {s0 s t : State} {l : Line} (h : SameOperands s0 s) (hl : LineFrame l s t) :
    SameOperands s0 t := by
  obtain ⟨h0, h1, h2, h3⟩ := hl.operands
  rwa [SameOperands, hl.cfg, h0, h1, h2, h3]

theorem OnPath.line {i : Instr} {full : List Line} {s t : State} {l : Line} (h : OnPath i full s)
    (hl : LineFrame l s t) : OnPath i full t := by
  rcases hl.seq with hq | hq
  · rwa [OnPath, hq]
  · exact .inl hq

theorem onPath_kept (i : Instr) (full : List Line) (s0 : State) :
    KeptByTurns fun s => OnPath i full s ∧ SameOperands s0 s where
  sched _ _ h := h
  irq _ h := by simpa [OnPath, SameOperands] using h
  uart _ h := by simpa [OnPath, SameOperands] using h
  fctl _ _ _ h := by simpa [OnPath, SameOperands] using h
  pin _ _ h := h
  stick _ h := h
  free _ h _ := by simpa [OnPath, SameOperands] using h

/-- A run of lines ends, or stands before one of them; without a reset its operands are unchanged. -/
theorem runLines_onPath {i : Instr} {full lines : List Line} (hf : lines <:+ full) {n : Nat} {s0 s t : State}
    (h : OnPath i full s ∧ SameOperands s0 s) (ht : runLines i lines n s = .next t) :
    t.seq = .idle ∨ OnPath i full t ∧ SameOperands s0 t := by
  induction lines generalizing n s with
  | nil => cases ht; exact .inr h
  | cons l rest ih =>
    have hrest : rest <:+ full := (List.suffix_cons l rest).trans hf
    cases n with
    | succ n => exact ih hrest h ht
    | zero =>
      have ha := await_keeps (onPath_kept i full s0) l s.sched { s with seq := .running i (l :: rest) }
        ⟨.inr ⟨_, rfl, hf⟩, h.2⟩
      rw [runLines] at ht
      split at ht
      · rename_i s1 hs1
        rw [hs1] at ha
        have hl := runLine_frame l s1
        split at ht
        · rename_i s2 h2
          rw [h2] at hl
          exact ih hrest ⟨ha.1.1.line hl, ha.1.2.line hl⟩ ht
        · rename_i m s2 h2
          rw [h2] at hl
          exact ih hrest ⟨ha.1.1.line hl, ha.1.2.line hl⟩ ht
        · rename_i s2 h2
          rw [h2] at hl
          cases ht
          exact .inr ⟨ha.1.1.line hl, ha.1.2.line hl⟩
        · cases ht
        · cases ht
      · rename_i s1 hs1
        rw [hs1] at ha
        cases ht
        rcases ha with ha | ⟨u, -, rfl⟩
        · exact .inr ha
        · exact .inl rfl
      · cases ht

/-! ## The stream -/

/-- From `s0` on, `stored` has joined the stream, and the line has only grown. -/
structure Grown (s0 : State) (stored : List Byte) (s : State) : Prop where
  cfg : s.cfg = s0.cfg
  ring : RingIn s.cfg.ringN s.rb
  stream : s.stream = s0.stream ++ stored
  line : s0.line <+: s.line

theorem Grown.congr {s0 s t : State} {b : List Byte} (h : Grown s0 b s) (hc : t.cfg = s.cfg) (hr : t.rb = s.rb)
    (hl : t.line = s.line) : Grown s0 b t :=
  ⟨hc.trans h.cfg, by rw [hc, hr]; exact h.ring, (State.stream_congr hc hr hl).trans h.stream, by rw [hl]; exact h.line⟩

theorem Grown.irqTurn {s0 s : State} {b : List Byte} (h : Grown s0 b s) : Grown s0 b s.irqTurn := by
  refine ⟨by simpa using h.cfg, ?_, by rw [State.stream_irqTurn h.ring]; exact h.stream, ?_⟩
  · rw [State.irqTurn_cfg, State.irqTurn, State.txeDrain]
    (repeat' split) <;> first
      | exact h.ring
      | exact ⟨h.ring.size, ringNext_lt (Nat.lt_of_le_of_lt (Nat.zero_le _) h.ring.rd), h.ring.wr⟩
  · rw [State.irqTurn, State.txeDrain]
    (repeat' split) <;> first
      | exact h.line
      | exact h.line.trans (List.prefix_append _ _)

theorem grown_kept (s0 : State) (b : List Byte) : KeptByTurns (Grown s0 b) where
  sched _ _ h := h.congr rfl rfl rfl
  irq _ h := h.irqTurn
  uart _ h := h.congr (by simp) (by simp) (by simp)
  fctl _ _ _ h := h.congr (by simp) (by simp) (by simp)
  pin _ _ h := h.congr rfl rfl rfl
  stick _ h := h.congr rfl rfl rfl
  free _ h _ := h.congr (by simp) (by simp) (by simp)

/-- A byte of an enqueue call joins the stream, or the ring is full. -/
theorem Grown.enqueueByte {s0 s : State} {b : List Byte} (h : Grown s0 b s) (x : Byte) (left : Nat) :
    enqueueByte x left s = .skip left s ∨ ∃ t, enqueueByte x left s = .go t ∧ t.sched = s.sched ∧ Grown s0 (b ++ [x]) t := by
  unfold Machine.enqueueByte
  cases hf : ringFull s.cfg.ringN s.rb with
  | true => exact .inl rfl
  | false =>
    refine .inr ⟨_, rfl, rfl, h.cfg, ⟨by simpa using h.ring.size, h.ring.rd,
      ringNext_lt (Nat.lt_of_le_of_lt (Nat.zero_le _) h.ring.rd)⟩, ?_, h.line⟩
    have hs := h.stream
    rw [State.stream, State.held_eq] at hs ⊢
    show s.line ++ heldBytes s.cfg.ringN _ = _
    rw [heldBytes_store h.ring hf, ← List.append_assoc, hs, List.append_assoc]

theorem offeredBytes_tail_sublist {l : Line} {r : List Line} {stored : List Byte}
    (h : stored.Sublist (offeredBytes r)) : stored.Sublist (offeredBytes (l :: r)) :=
  h.trans ((List.sublist_cons_self l r).filterMap _)

/-- A run of lines without a reset: what joins the stream are bytes that the lines offer, in their order. -/
theorem runLines_grown (i : Instr) (lines : List Line) (n : Nat) {s0 s t : State} {b : List Byte} (h : Grown s0 b s)
    (hr : ∀ x ∈ s.sched, x.isReset = false) (ht : runLines i lines n s = .next t) :
    ∃ stored, stored.Sublist (offeredBytes lines) ∧ Grown s0 (b ++ stored) t := by
  induction lines generalizing n s b with
  | nil =>
    cases ht
    exact ⟨[], List.nil_sublist _, by rwa [List.append_nil]⟩
  | cons l rest ih =>
    cases n with
    | succ n =>
      obtain ⟨x, hx, hg⟩ := ih n h hr ht
      exact ⟨x, offeredBytes_tail_sublist hx, hg⟩
    | zero =>
      have ha := await_always (grown_kept s0 b) l s.sched { s with seq := .running i (l :: rest) }
        (h.congr rfl rfl rfl) (.inl hr) rfl
      rw [runLines] at ht
      split at ht
      · rename_i s1 hs1
        rw [hs1] at ha
        obtain ⟨h1, hsuf⟩ := ha
        have hr1 : ∀ x ∈ s1.sched, x.isReset = false := fun x hx => hr x (hsuf.subset hx)
        cases hb : l.byte? with
        | some x =>
          cases l <;> simp only [Line.byte?, reduceCtorEq, Option.some.injEq] at hb
          rename_i x' left
          subst hb
          rcases h1.enqueueByte x' left with he | ⟨s2, he, hsch, hg⟩
          · simp only [runLine, he] at ht
            obtain ⟨y, hy, hg⟩ := ih left h1 hr1 ht
            exact ⟨y, offeredBytes_tail_sublist hy, hg⟩
          · simp only [runLine, he] at ht
            obtain ⟨y, hy, hg⟩ := ih 0 hg (by rwa [hsch]) ht
            exact ⟨x' :: y, by simpa [offeredBytes, Line.byte?] using hy, by simpa using hg⟩
        | none =>
          have hw : l.writesRing = false := by cases l <;> first | rfl | simp [Line.byte?] at hb
          have hl := runLine_frame l s1
          have go : ∀ s2, LineFrame l s1 s2 → Grown s0 b s2 := fun s2 hf =>
            h1.congr hf.cfg (hf.ring hw) hf.transmit.2.2
          split at ht
          · rename_i s2 h2
            rw [h2] at hl
            obtain ⟨y, hy, hg⟩ := ih 0 (go s2 hl) (by rwa [hl.outside.2.2.1]) ht
            exact ⟨y, offeredBytes_tail_sublist hy, hg⟩
          · rename_i m s2 h2
            rw [h2] at hl
            obtain ⟨y, hy, hg⟩ := ih m (go s2 hl) (by rwa [hl.outside.2.2.1]) ht
            exact ⟨y, offeredBytes_tail_sublist hy, hg⟩
          · rename_i s2 h2
            rw [h2] at hl
            cases ht
            exact ⟨[], List.nil_sublist _, by rw [List.append_nil]; exact go _ hl⟩
          · cases ht
          · cases ht
      · rename_i s1 hs1
        rw [hs1] at ha
        cases ht
        exact ⟨[], List.nil_sublist _, by rw [List.append_nil]; exact ha.1⟩
      · cases ht

/-! ## A controller that is stuck -/

theorem TxFrame.trans {s t u : State} (h : TxFrame s t) (k : TxFrame t u) : TxFrame s u := by
  rw [TxFrame, State.withTx] at *
  rw [k, h]

/-- Of a stuck controller that is busy, every turn but a reset and `HOST`'s changes the transmit side and the pin only. -/
theorem txFrame_turn {x : Turn} {s : State} (hx : x.isReset = false) (hs : s.fctlStuck = true) :
    TxFrame s (s.turn x) := by
  cases x with
  | reset => cases hx
  | irq =>
    simp only [State.turn, State.irqTurn, State.txeDrain]
    (repeat' split) <;> rfl
  | uart => simp only [State.turn, State.uartShift]; split <;> rfl
  | fctl pg wp => rw [State.turn, State.fctlTurn, if_neg (by simp [hs])]; rfl
  | stick => show TxFrame s { s with fctlStuck := true }; rw [← hs]; rfl
  | _ => rfl

/-- The wait before a hold on a stuck busy controller ends at the hold, whatever the other agents do. -/
theorem await_hung {l : Line} (hl : l.holds = true) (sched : List Turn) {s : State} (hb : s.fc.busy = true)
    (hk : s.fctlStuck = true) (hq : ∀ x ∈ sched, x.isReset = false ∧ x ≠ .host) (hs : s.sched = sched) :
    ∃ t, await l sched s = .ended t ∧ TxFrame s t := by
  have hdis : lineEnabled l s = false := by simp [lineEnabled, hl, State.statrBsy, hb]
  induction sched generalizing s with
  | nil => exact ⟨s, by simp [await, hdis, hk], rfl⟩
  | cons x r ih =>
    have hr : ∀ y ∈ r, y.isReset = false ∧ y ≠ .host := fun y hy => hq y (List.mem_cons_of_mem _ hy)
    obtain ⟨hx, hx'⟩ := hq x List.mem_cons_self
    have go : ∀ u : State, TxFrame s u → u.sched = r → ∃ t, await l r u = .ended t ∧ TxFrame s t := fun u hu hur => by
      have hfc : u.fc = s.fc := by rw [hu]; rfl
      have hst : u.fctlStuck = s.fctlStuck := by rw [hu]; rfl
      obtain ⟨t, ht, hf⟩ := ih (s := u) (by rw [hfc]; exact hb) (by rw [hst]; exact hk) hr hur
        (by simp [lineEnabled, hl, State.statrBsy, hfc, hb])
      exact ⟨t, ht, hu.trans hf⟩
    have h0 : TxFrame s { s with sched := r } := rfl
    have turned : ∀ x : Turn, x.isReset = false → TxFrame s (State.turn x { s with sched := r }) := fun x hx =>
      h0.trans (txFrame_turn hx hk)
    cases x with
    | seq =>
      rw [await, if_neg (by simp [hdis])]
      exact go _ h0 rfl
    | yield => exact ⟨_, rfl, h0⟩
    | reset => cases hx
    | host => exact absurd rfl hx'
    | irq => exact go _ (turned .irq rfl) (by simp [State.turn])
    | uart => exact go _ (turned .uart rfl) (by simp [State.turn])
    | fctl pg wp => exact go _ (turned (.fctl pg wp) rfl) (by simp [State.turn])
    | pin b => exact go _ (turned (.pin b) rfl) rfl
    | stick => exact go _ (turned .stick rfl) rfl

end Sys2Proof.Machine
end

