-- ==== Sys2Proof/Tests/Slice0.lean ====
section
/-!
SUPPORT. The model's own tests: each a named theorem about one step on a small state. Expected values are those of
spec/95_test_vectors.md, whose vector is named, or of the rule named. After them, a witness for the hypotheses of each
statement of Certificates/Slice0/Obligations.lean.
-/

namespace Sys2Proof.Tests

open Sys2Proof.Machine

/-! ## Helpers -/

/-- The outcome is a next state, of which `p` holds. -/
def answers (o : Outcome) (p : State → Bool) : Bool :=
  match o with
  | .next t => p t
  | .fault _ => false
  | .refused _ => false

/-- The outcome is this refusal. -/
def refuses (o : Outcome) (r : Refusal) : Bool :=
  match o with
  | .next _ => false
  | .fault _ => false
  | .refused q => q == r

/-- The state of a next outcome. -/
def nextState (o : Outcome) : State :=
  match o with
  | .next t => t
  | .fault _ => State.reset
  | .refused _ => State.reset

/-- An outcome of which something holds is a next state. -/
theorem next_of_answers {o : Outcome} {p : State → Bool} (h : answers o p = true) : ∃ t, o = .next t ∧ p t = true := by
  cases o with
  | next t => exact ⟨t, rfl, h⟩
  | fault r => cases h
  | refused r => cases h

/-- Variant A after `flash_unlock`, the array erased, its frame drained. -/
def unlockedA : State :=
  let s := State.resetOf Config.reference 0x544F [] false Device.reference
  { s with fc := { s.fc with locked := false, keyseq := 4 }, ctlr := { s.ctlr with lock := false } }

/-- Variant G after `flash_unlock`, the array erased. -/
def unlockedG : State :=
  let s := State.resetOf Config.referenceG 0x544F [] false Device.reference
  { s with fc := { s.fc with locked := false } }

/-- The operands of an operation. -/
def with3 (s : State) (a0 a1 : Word) (src : Source) : State := { s with a0 := a0, a1 := a1, src := src }

/-- A ring of eight slots that holds `held` from slot 0 on. -/
def ring8 (s : State) (held : List Byte) (armed : Bool) : State :=
  { s with
    cfg := { s.cfg with ringN := 8 }
    rb := { buf := held ++ List.replicate (8 - held.length) 0, rd := 0, wr := held.length }
    armed := armed }

/-! ## Well-formedness: a row of the other variant is refused -/

theorem test_wf_unlockG_in_a : Instr.wf .a .flashUnlockG = false := by decide
theorem test_wf_unlockA_in_g : Instr.wf .g .flashUnlockA = false := by decide
theorem test_wf_lockG_in_a : Instr.wf .a .flashLockG = false := by decide
theorem test_wf_lockA_in_g : Instr.wf .g .flashLockA = false := by decide
theorem test_wf_eraseG_in_a : Instr.wf .a .flashErasePageG = false := by decide
theorem test_wf_eraseA_in_g : Instr.wf .g .flashErasePageA = false := by decide
theorem test_wf_arrayG_in_a : Instr.wf .a .flashProgramArrayG = false := by decide
theorem test_wf_arrayA_in_g : Instr.wf .g .flashProgramArrayA = false := by decide
theorem test_wf_page_in_g : Instr.wf .g .flashProgramPage = false := by decide
theorem test_wf_both : Instr.wf .g .sessionReset = true ∧ Instr.wf .a .sessionReset = true := by decide
theorem test_absent_refused : refuses (exec .flashProgramPage unlockedG) .absentInVariant = true := by decide

/-- R8, U13: each constraint, broken alone. -/
theorem test_config_refused :
    ({ Config.referenceG with pageSize := 1023 }).wf = false ∧ ({ Config.referenceG with pageSize := 1 }).wf = false ∧
    ({ Config.reference with pageSize := 256 }).wf = false ∧
    ({ Config.reference with appBase := 0x08002001 }).wf = false ∧
    ({ Config.reference with flashOrigin := 0x08000040 }).wf = false ∧
    ({ Config.reference with appBase := 0x07FFFF80 }).wf = false ∧
    ({ Config.reference with sizeOverride := some 65 }).wf = false ∧
    ({ Config.reference with capacity := 0xF8000000 }).wf = false ∧
    ({ Config.reference with ringN := 1 }).wf = false ∧ ({ Config.reference with forceCmd := 0 }).wf = false := by
  decide

theorem test_config_zero_capacity_allowed : ({ Config.reference with capacity := 0x1000 }).wf = true := by decide

/-! ## Decoding (vectors E1 to E11): the word bit by bit, bits 31 to 8 reserved, bits 7 to 0 the opcode -/

theorem test_decode_unlock : decode .g 0b00000000000000000000000000000001#32 = .op .flashUnlockG ∧
    decode .a 0b00000000000000000000000000000001#32 = .op .flashUnlockA := by decide
theorem test_decode_lock : decode .g 0b00000000000000000000000000000010#32 = .op .flashLockG ∧
    decode .a 0b00000000000000000000000000000010#32 = .op .flashLockA := by decide
theorem test_decode_erase : decode .g 0b00000000000000000000000000000011#32 = .op .flashErasePageG ∧
    decode .a 0b00000000000000000000000000000011#32 = .op .flashErasePageA := by decide
theorem test_decode_array : decode .g 0b00000000000000000000000000000100#32 = .op .flashProgramArrayG ∧
    decode .a 0b00000000000000000000000000000100#32 = .op .flashProgramArrayA := by decide
theorem test_decode_page : decode .a 0b00000000000000000000000000000101#32 = .op .flashProgramPage ∧
    decode .g 0b00000000000000000000000000000101#32 = .illegal .absentInVariant := by decide
theorem test_decode_size : decode .g 0b00000000000000000000000000000110#32 = .op .getMaxFirmwareSize := by decide
theorem test_decode_trigger : decode .a 0b00000000000000000000000000000111#32 = .op .shouldForceBootloader := by decide
theorem test_decode_enqueue : decode .g 0b00000000000000000000000000001000#32 = .op .txEnqueue := by decide
theorem test_decode_session : decode .a 0b00000000000000000000000000001001#32 = .op .sessionReset := by decide
theorem test_decode_illegal : decode .g 0x00000000 = .illegal .unassignedOpcode ∧
    decode .a 0x0000000A = .illegal .unassignedOpcode ∧ decode .g 0x00000104 = .illegal .reservedBits ∧
    decode .a 0xFFFFFFFF = .illegal .reservedBits := by decide
theorem test_table_word : decodeTableWord 32 5 = some .flashProgramPage ∧ decodeTableWord 32 9 = some .sessionReset ∧
    decodeTableWord 32 0x10A = none := by decide
/-- R98: one length, 32 bits; the value 9 is no command word of 8, 16 or 64 bits, nor is a value above 32 bits. -/
theorem test_table_word_length : decodeTableWord 8 9 = none ∧ decodeTableWord 16 9 = none ∧
    decodeTableWord 64 9 = none ∧ decodeTableWord 32 0x100000009 = none := by decide

/-! ## Frames (F1 to F10), packing (K1 to K7), refresh addresses (X1 to X4) -/

theorem test_frame_F1 : addrFrame true 0x08002000 3 =
    [0x41, 0x3D, 0x30, 0x38, 0x30, 0x30, 0x32, 0x30, 0x30, 0x30, 0x2C, 0x43, 0x3D, 0x30, 0x30, 0x30, 0x33, 0x0A] := by
  decide
theorem test_frame_F2 : addrFrame true 0x0801FF80 64 =
    [0x41, 0x3D, 0x30, 0x38, 0x30, 0x31, 0x46, 0x46, 0x38, 0x30, 0x2C, 0x43, 0x3D, 0x30, 0x30, 0x34, 0x30, 0x0A] := by
  decide
theorem test_frame_F3 : addrFrame false 0x0801FF80 0xAB =
    [0x41, 0x3D, 0x30, 0x38, 0x30, 0x31, 0x66, 0x66, 0x38, 0x30, 0x2C, 0x43, 0x3D, 0x30, 0x30, 0x61, 0x62, 0x0A] := by
  decide
theorem test_frame_F4 : addrFrame true 0 0 =
    [0x41, 0x3D, 0x30, 0x30, 0x30, 0x30, 0x30, 0x30, 0x30, 0x30, 0x2C, 0x43, 0x3D, 0x30, 0x30, 0x30, 0x30, 0x0A] := by
  decide
theorem test_frame_F5 : (addrFrame true 0x08002000 0x12345).drop 13 = [0x31, 0x32, 0x33, 0x34, 0x35, 0x0A] := by decide
theorem test_frame_F6 : sessionFrame 3 = [0x53, 0x30, 0x30, 0x30, 0x30, 0x30, 0x33, 0x7C] := by decide
theorem test_frame_F7 : sessionFrame 130 = [0x53, 0x30, 0x30, 0x30, 0x31, 0x33, 0x30, 0x7C] := by decide
theorem test_frame_F8 : sessionFrame 0 = [0x53, 0x30, 0x30, 0x30, 0x30, 0x30, 0x30, 0x7C] := by decide
theorem test_frame_F9 : sessionFrame 1000000 = [0x53, 0x31, 0x30, 0x30, 0x30, 0x30, 0x30, 0x30, 0x7C] := by decide
theorem test_frame_F10 : statusU = [0x55] ∧ statusL = [0x4C] ∧ statusE = [0x45] ∧ statusP = [0x50] := by decide

theorem test_pack_K1 : packWords [0x1111, 0x2222, 0x3333] = [0x22221111, 0xFFFF3333] := by decide
theorem test_pack_K2 : packWords [1, 2, 3, 4, 5, 6, 7, 8] = [0x00020001, 0x00040003, 0x00060005, 0x00080007] := by
  decide
theorem test_pack_K3 : packWords [0xABCD] = [0xFFFFABCD] := by decide
theorem test_load_K4 : (loadLines 0x08002000 [0xA0, 0xA1, 0xA2, 0xA3, 0xA4, 0xA5, 0xA6, 0xA7, 0xA8, 0xA9, 0xAA]).filter
      (fun l => match l with
        | .memWrite _ _ => true
        | .refreshRead _ => true
        | _ => false) =
    [.memWrite 0x08002000 0x00A100A0, .memWrite 0x08002004 0x00A300A2, .memWrite 0x08002008 0x00A500A4,
      .memWrite 0x0800200C 0x00A700A6, .refreshRead 0x08002000, .memWrite 0x08002010 0x00A900A8,
      .memWrite 0x08002014 0xFFFF00AA, .refreshRead 0x08002010] := by decide
theorem test_load_K6 : loadLines 0x08002000 [] = [] := by decide
theorem test_refresh_X : refreshPartner 0x08002000 = 0x08002100 ∧ refreshPartner 0x08002100 = 0x08002000 ∧
    refreshPartner 0x08002080 = 0x08002180 ∧ refreshPartner 0x08002190 = 0x08002090 := by decide

/-! ## Variant G -/

/-- G12. -/
theorem test_unlockG : answers (exec .flashUnlockG { unlockedG with fc := { unlockedG.fc with locked := true } })
    (fun t => !t.fc.locked && t.res == 1 && t.rb.wr == 0) = true := by decide
/-- G12. -/
theorem test_lockG : answers (exec .flashLockG unlockedG) (fun t => t.fc.locked && t.res == 1 && t.rb.wr == 0) = true := by
  decide
/-- G9: the address is masked; the window stays. -/
theorem test_eraseG : answers (exec .flashErasePageG
      { with3 unlockedG 0x08002406 0 (.halves []) with
        flash := [(0x080023FF, 1), (0x08002400, 2), (0x080027FF, 3), (0x08002800, 4)] })
    (fun t => t.flash == [(0x080023FF, 1), (0x08002800, 4)] && t.res == 1 && t.win == unlockedG.win && t.rb.wr == 0) =
      true := by decide
/-- G1. -/
theorem test_arrayG_G1 : answers (exec .flashProgramArrayG (with3 unlockedG 0x08002000 3 (.halves [0x1111, 0x2222, 0x3333])))
    (fun t => t.res == 1 && t.win == { start := 0x08002006, endAddr := 0x08002400 } &&
      t.flash == [(0x08002000, 0x11), (0x08002001, 0x11), (0x08002002, 0x22), (0x08002003, 0x22),
        (0x08002004, 0x33), (0x08002005, 0x33)] && t.rb.buf.take t.rb.wr == addrFrame true 0x08002000 3) = true := by
  decide
/-- G14: a device on which one cell takes another value. -/
theorem test_arrayG_G14 : answers (exec .flashProgramArrayG
      { with3 unlockedG 0x08002000 3 (.halves [0x1111, 0x2222, 0x3333]) with
        dev := { healthy := false, prog16 := [((0xFFFF, 0x1111), 0x1111), ((0xFFFF, 0x2222), 0x2223)], prog32 := [] } })
    (fun t => t.res == 0 && t.cause == some .verify && t.win == { start := 0x08002004, endAddr := 0x08002400 } &&
      Memory.readHalf t.flash 0x08002000 == 0x1111 && Memory.readHalf t.flash 0x08002002 == 0x2223 &&
      Memory.readHalf t.flash 0x08002004 == 0xFFFF) = true := by decide
/-- G13. -/
theorem test_sessionReset_G13 : answers (exec .sessionReset
      { unlockedG with win := { start := 0x08002006, endAddr := 0x08002400 } })
    (fun t => t.win == { start := 0, endAddr := 0 } && t.res == 1) = true := by decide
/-- E7: no effect in variant A. -/
theorem test_sessionReset_E7 : answers (exec .sessionReset unlockedA)
    (fun t => decide (t = { unlockedA with res := 1 })) = true := by decide

/-! ## Variant A -/

/-- A13, first half. -/
theorem test_unlockA : answers (exec .flashUnlockA State.reset)
    (fun t => !t.fc.locked && !t.ctlr.lock && t.keyr == 0xCDEF89AB && t.modekeyr == 0xCDEF89AB && t.res == 1 &&
      t.rb.buf.take t.rb.wr == [0x55] && t.armed) = true := by decide
/-- A13, second half. -/
theorem test_lockA : answers (exec .flashLockA unlockedA)
    (fun t => t.fc.locked && t.ctlr.lock && t.res == 1 && t.rb.buf.take t.rb.wr == [0x4C]) = true := by decide
/-- A1, the whole sequence of accesses. -/
theorem test_eraseA_lines : erasePageLines 0x080020C4 =
    [.ctlSet (.level .per), .addrWrite 0x08002080, .ctlSet .strt, .spin, .ctlClear .per, .refreshRead 0x08002080,
      .refreshWrite, .enqStart, .enqByte 0x45 0, .enqArm] := by decide
/-- A1. -/
theorem test_eraseA : answers (exec .flashErasePageA
      { with3 unlockedA 0x080020C4 0 (.halves []) with
        flash := [(0x0800207F, 1), (0x08002080, 2), (0x080020FF, 3), (0x08002100, 4)] })
    (fun t => t.flash == [(0x0800207F, 1), (0x08002100, 4)] && t.addr == 0x08002080 && !t.fc.stale && !t.ctlr.per &&
      t.res == 1 && t.rb.buf.take t.rb.wr == [0x45]) = true := by decide
/-- A2. -/
theorem test_page_A2 : answers (exec .flashProgramPage (with3 unlockedA 0x08002000 3 (.halves [0x1111, 0x2222, 0x3333])))
    (fun t => t.res == 1 && t.addr == 0x08002000 && t.flash == [(0x08002000, 0x11), (0x08002001, 0x11),
      (0x08002002, 0x22), (0x08002003, 0x22), (0x08002004, 0x33), (0x08002005, 0x33)] &&
      t.rb.buf.take t.rb.wr == addrFrame true 0x08002000 3 ++ [0x50]) = true := by decide +kernel
/-- A11: a flag left over. -/
theorem test_page_A11 : answers (exec .flashProgramPage
      { with3 unlockedA 0x08002000 1 (.halves [0x5A5A]) with statr := { unlockedA.statr with pgerr := true } })
    (fun t => t.res == 0 && t.cause == some .ctrl && !t.statr.pgerr && !t.statr.wrprterr &&
      Memory.readHalf t.flash 0x08002000 == 0x5A5A && t.rb.buf.take t.rb.wr == addrFrame true 0x08002000 1) = true := by
  decide +kernel
/-- A5. -/
theorem test_arrayA_A5 : answers (exec .flashProgramArrayA (with3 unlockedA 0x08002000 3 (.halves [0x1111, 0x2222, 0x3333])))
    (fun t => t.res == 1 && Memory.readHalf t.flash 0x08002004 == 0x3333 && !t.fc.stale && t.rb.buf.take t.rb.wr ==
      sessionFrame 3 ++ [0x45] ++ addrFrame true 0x08002000 3 ++ [0x50]) = true := by decide +kernel
/-- A12: a write-protect error drawn at the commit, the fourth cycle, of a device that is not healthy. -/
theorem test_arrayA_A12 : answers (exec .flashProgramArrayA
      { with3 unlockedA 0x08002000 2 (.halves [1, 2]) with
        dev := { healthy := false, prog16 := [],
                 prog32 := [((0xFFFFFFFF, 0x00020001), 0x00020001), ((0xFFFFFFFF, 0xFFFFFFFF), 0xFFFFFFFF)] }
        sched := List.replicate 14 .seq ++ [.fctl false false] ++ List.replicate 29 .seq ++ [.fctl false false] ++
          List.replicate 5 .seq ++ [.fctl false false] ++ List.replicate 7 .seq ++ [.fctl false true] })
    (fun t => t.res == 0 && t.cause == some .ctrl && !t.statr.pgerr && !t.statr.wrprterr && t.sched.isEmpty &&
      Memory.readHalf t.flash 0x08002002 == 2 && t.rb.buf.take t.rb.wr ==
      sessionFrame 2 ++ [0x45] ++ addrFrame true 0x08002000 2) = true := by decide +kernel

/-! ## Both variants -/

/-- V4. -/
theorem test_size_V4 : answers (exec .getMaxFirmwareSize unlockedG) (fun t => t.res == 0x0001E000) = true := by decide

/-- A core whose flash ends below its application base (V6, G11). -/
def zeroCapacity (v : Variant) : State :=
  let c := { (if v = .g then Config.referenceG else Config.reference) with capacity := 0x1000 }
  { State.resetOf c 0 [] false Device.reference with a0 := 0x08002000, a1 := 1, src := .halves [1] }

/-- V6. -/
theorem test_size_V6 : answers (exec .getMaxFirmwareSize (zeroCapacity .a)) (fun t => t.res == 0) = true := by decide

/-- A core with a button. -/
def withButton (bkp : Half) (activeHigh level : Bool) : State :=
  State.resetOf { Config.reference with haveButton := true, buttonActiveHigh := activeHigh } bkp [] level Device.reference

/-- T1, T3, T4, T10. -/
theorem test_trigger_cell :
    ([0x544F, 0x544E, 0xFFFF, 0x4F54].map fun b : Half =>
      answers (exec .shouldForceBootloader { unlockedA with bkp := b }) fun t =>
        t.bkp == 0 && t.res == (if b = 0x544F then 1 else 0)) = [true, true, true, true] := by decide
/-- T5 to T9. -/
theorem test_trigger_button :
    (([(0, true, true, 1), (0, true, false, 0), (0, false, false, 1), (0, false, true, 0), (0x544F, false, true, 1)] :
      List (Half × Bool × Bool × Word)).map fun r =>
        answers (exec .shouldForceBootloader (withButton r.1 r.2.1 r.2.2.1)) fun t => t.bkp == 0 && t.res == r.2.2.2) =
      [true, true, true, true, true] := by decide

/-- Q1. -/
theorem test_enqueue_Q1 : answers (exec .txEnqueue (with3 (ring8 unlockedA [] false) 0 10
      (.bytes [0x30, 0x31, 0x32, 0x33, 0x34, 0x35, 0x36, 0x37, 0x38, 0x39])))
    (fun t => t.res == 1 && t.rb.rd == 0 && t.rb.wr == 7 && t.armed &&
      t.rb.buf.take 7 == [0x30, 0x31, 0x32, 0x33, 0x34, 0x35, 0x36]) = true := by decide
/-- Q5: room appears during a call. -/
theorem test_enqueue_Q5 : answers (exec .txEnqueue
      { with3 unlockedA 0 4 (.bytes [2, 3, 4, 5]) with
        cfg := { Config.reference with ringN := 4 }
        rb := { buf := [1, 0, 0, 0], rd := 0, wr := 1 }
        armed := true
        sched := [.seq, .seq, .seq, .irq] })
    (fun t => t.rb == { buf := [1, 2, 3, 4], rd := 1, wr := 0 } && t.armed && t.line == [1] && !t.txe) = true := by decide

/-- Q3: the first firing sends, the one that finds the ring empty disarms. -/
theorem test_drain : (ring8 unlockedA [0x30] true).irqTurn.line = [0x30] ∧
    (ring8 unlockedA [0x30] true).irqTurn.armed = true ∧
    (ring8 unlockedA [0x30] true).irqTurn.uartShift.irqTurn.armed = false := by decide
/-- Q11: no firing while `TXE` is 0. -/
theorem test_drain_masked : { ring8 unlockedA [0x30] true with txe := false }.irqTurn.line = [] := by decide

/-- R55 on some of the state. -/
theorem test_reset : State.reset.fas = { base := 0x08002000, pageSize := 128, endAddr := 0x08020000 } ∧
    State.reset.txe = true ∧ State.reset.fc.locked = true ∧ State.reset.ctlr.lock = true ∧ State.reset.armed = false := by
  decide
/-- R53, U12: a short source is refused before the sequencer's own test could fail. -/
theorem test_sourceTooShort :
    refuses (exec .flashProgramPage (with3 unlockedA 0x08002000 65 (.halves [1]))) .sourceTooShort = true ∧
    refuses (exec .flashProgramArrayA (with3 unlockedA 0x08002040 2 (.halves [1]))) .sourceTooShort = true := by decide
/-- R256, U12. -/
theorem test_overrun : refuses (exec .sessionReset { unlockedA with busy := true }) .opWrittenWhileBusy = true := by decide

/-! ## Witnesses: for each statement that has hypotheses, a state and operands that meet all of them together -/

/-- The array operation of variant G on three half-words at `FAS.base`, the drain running now and then. -/
def callG (a0 a1 : Word) (src : List Half) : State :=
  { with3 unlockedG a0 a1 (.halves src) with sched := [.seq, .irq, .uart, .pin true, .seq, .fctl true true] }

/-- The same in variant A. -/
def callA (a0 a1 : Word) (src : List Half) : State :=
  { with3 unlockedA a0 a1 (.halves src) with sched := [.seq, .irq, .uart, .pin true, .seq, .fctl true true] }

theorem witness_DecodeEncode : Instr.wf .g .flashErasePageG = true ∧ Instr.wf .a .flashProgramPage = true := by decide
theorem witness_DecodedIsTableWord : decode .g 3 = .op .flashErasePageG ∧ decode .a 9 = .op .sessionReset := by decide

/-- R96 at the edges of its ranges: the first clause's two sides on `0x00`, `0x05` in both variants, `0x09`, `0x0A`, bit 8. -/
theorem witness_IllegalCommand_words : decode .a 0 = .illegal .unassignedOpcode ∧
    decode .g 5 = .illegal .absentInVariant ∧ decode .a 5 = .op .flashProgramPage ∧ decode .g 9 = .op .sessionReset ∧
    decode .g 0x0A = .illegal .unassignedOpcode ∧ decode .g 0x101 = .illegal .reservedBits := by decide
theorem witness_IllegalCommand_report : State.reset.cfg.wf = true ∧ State.reset.seq = .idle ∧
    State.reset.busy = false ∧
    ({ State.reset with inbox := [{ op := 0x0A, a0 := 0, a1 := 0, src := .halves [] }] }).inbox =
      [{ op := 0x0A, a0 := 0, a1 := 0, src := .halves [] }] ∧
    decode State.reset.cfg.variant 0x0A = .illegal .unassignedOpcode := by decide
theorem witness_IllegalCommand_legal : ∃ t, exec .sessionReset { unlockedG with ill := true } = .next t ∧
    (!t.busy) = true :=
  next_of_answers (p := fun t => !t.busy) (by decide)

theorem witness_StepRunsDecoded_issue : Config.reference.wf = true ∧
    ({ State.reset with inbox := [{ op := 6, a0 := 0, a1 := 0, src := .halves [] }] }).seq = .idle ∧
    decode State.reset.cfg.variant 6 = .op .getMaxFirmwareSize := by decide
theorem witness_StepRunsDecoded_resume :
    ({ State.reset with busy := true, seq := .running .sessionReset [.ret 1] }).seq = .running .sessionReset [.ret 1] ∧
    State.reset.cfg.wf = true := by decide
theorem witness_StepRunsDecoded_idle : State.reset.cfg.wf = true ∧ State.reset.seq = .idle ∧ State.reset.inbox = [] := by
  decide
theorem witness_StepRunsDecoded_fetch : State.reset.cfg.wf = true ∧ 9 < 2 ^ 32 ∧
    decode State.reset.cfg.variant (BitVec.ofNat 32 9) = .op .sessionReset := by decide

theorem witness_CutAndResume : unlockedA.Inv ∧ Instr.wf unlockedA.cfg.variant .flashLockA = true ∧
    [Turn.seq, .seq, .irq].all Turn.quiet = true ∧
    ∃ t, exec .flashLockA { unlockedA with sched := [.seq, .seq, .irq] ++ .yield :: [.uart] } = .next t ∧ t.busy = true :=
  ⟨by decide, by decide, by decide, next_of_answers (by decide)⟩

theorem witness_ResetInv : Config.referenceG.wf = true ∧
    (State.resetOf Config.referenceG 0 [(0x08000000, 1), (0x0801FFFF, 2)] true Device.reference).flashOk = true := by
  decide

/-- A sound state in the middle of an operation: an erase holds, its page in the array. -/
def erasing : State := nextState (exec .flashErasePageG { callG 0x0801FC00 0 [] with sched := [.seq, .yield, .irq] })

theorem witness_StepKeepsInv_running : erasing.Inv ∧ ∃ t, step erasing = .next t ∧ (!t.busy) = true :=
  ⟨by decide +kernel, next_of_answers (p := fun t => !t.busy) (by decide +kernel)⟩
theorem witness_StepKeepsInv_idle : State.reset.Inv ∧ ∃ t, step State.reset = .next t ∧ (!t.busy) = true :=
  ⟨by decide, next_of_answers (p := fun t => !t.busy) (by decide)⟩
/-- Both ends of the statement occur: a next state, and a refusal that the host brought about. -/
theorem witness_StepStopsOnlyForHost : unlockedG.Inv ∧ answers (step unlockedG) (fun _ => true) = true ∧
    ({ unlockedG with inbox := [{ op := 4, a0 := 0x08002001, a1 := 0, src := .halves [] }] }).Inv ∧
    refuses (step { unlockedG with inbox := [{ op := 4, a0 := 0x08002001, a1 := 0, src := .halves [] }] })
      .oddDestination = true := by decide
/-- In the middle of an erase. -/
theorem witness_StepKeepsProgram : erasing.onProgram = true ∧ erasing.sched.all (fun x => !x.isReset) = true ∧
    (∃ lines, erasing.seq = .running .flashErasePageG lines) ∧ ∃ t, step erasing = .next t ∧ (!t.busy) = true :=
  ⟨by decide +kernel, by decide +kernel, ⟨_, rfl⟩, next_of_answers (p := fun t => !t.busy) (by decide +kernel)⟩

theorem witness_FasImmutable : State.reset.cfg.sizeOverride = none ∧
    ({ Config.reference with sizeOverride := some 0x00010000 }).sizeOverride = some 0x00010000 ∧
    State.reset.sched.all (fun x => !x.isReset) = true ∧ ∃ t, step State.reset = .next t ∧ (!t.busy) = true :=
  ⟨by decide, by decide, by decide, next_of_answers (p := fun t => !t.busy) (by decide)⟩

theorem witness_BkpWriter : (∃ t, exec .sessionReset unlockedG = .next t ∧ (!t.busy) = true) ∧
    Instr.sessionReset ≠ .shouldForceBootloader ∧
    (∃ t, exec .shouldForceBootloader { unlockedG with sched := [.seq, .seq, .reset] } = .next t ∧ (!t.busy) = true) :=
  ⟨next_of_answers (p := fun t => !t.busy) (by decide), by decide, next_of_answers (p := fun t => !t.busy) (by decide)⟩
/-- A step that resumes an operation, and an idle turn that resets. -/
theorem witness_BkpWriter_step : erasing.onProgram = true ∧ erasing.operation ≠ some .shouldForceBootloader ∧
    (∃ t, step erasing = .next t ∧ (!t.busy) = true) ∧ ({ unlockedG with sched := [.reset] }).onProgram = true ∧
    ({ unlockedG with sched := [.reset] }).operation = none ∧
    ∃ t, step { unlockedG with sched := [.reset] } = .next t ∧ (!t.busy) = true :=
  ⟨by decide +kernel, by decide +kernel, next_of_answers (p := fun t => !t.busy) (by decide +kernel), by decide,
    by decide, next_of_answers (p := fun t => !t.busy) (by decide)⟩

theorem witness_WindowWriters : (callG 0x08002000 0 []).sched.all (fun x => !x.isReset) = true ∧
    (∃ t, exec .flashErasePageG (callG 0x08002000 0 []) = .next t ∧ (!t.busy) = true) ∧
    Instr.flashErasePageG ≠ .flashProgramArrayG ∧ Instr.flashErasePageG ≠ .sessionReset :=
  ⟨by decide, next_of_answers (p := fun t => !t.busy) (by decide), by decide, by decide⟩
theorem witness_WindowWriters_step : erasing.onProgram = true ∧ erasing.sched.all (fun x => !x.isReset) = true ∧
    erasing.operation ≠ some .flashProgramArrayG ∧ erasing.operation ≠ some .sessionReset ∧
    ∃ t, step erasing = .next t ∧ (!t.busy) = true :=
  ⟨by decide +kernel, by decide +kernel, by decide +kernel, by decide +kernel,
    next_of_answers (p := fun t => !t.busy) (by decide +kernel)⟩

/-- A next state, a fault (of a state that no run reaches) and a refusal. -/
theorem witness_CauseIsGhost : (∃ t, step State.reset = .next t ∧ (!t.busy) = true) ∧
    step { State.reset with busy := true, seq := .running .flashProgramArrayA [.verify 1 0] } =
      .fault .flashMisaligned ∧
    step { unlockedG with inbox := [{ op := 4, a0 := 0x08002001, a1 := 0, src := .halves [] }] } =
      .refused .oddDestination :=
  ⟨next_of_answers (p := fun t => !t.busy) (by decide), by rfl, by rfl⟩

/-- No cycle pending, and one pending. -/
theorem witness_StateAfterReset : State.reset.fc.pending = .none ∧ erasing.fc.pending = .erase 0x0801FC00 := by
  decide +kernel
theorem witness_ResetDuringCycle : erasing.Inv ∧ erasing.pendingUnit = (0x0801FC00, 1024) := by decide +kernel

theorem witness_TxeDrain : ¬ (State.reset.txe = true ∧ State.reset.armed = true) ∧
    ((ring8 unlockedA [] true).txe = true ∧ (ring8 unlockedA [] true).armed = true ∧
      (ring8 unlockedA [] true).rb.rd = (ring8 unlockedA [] true).rb.wr) ∧
    ({ ring8 unlockedA [0x41] true with rb := { buf := List.replicate 8 7, rd := 7, wr := 0 } }).rb.rd ≠ 0 ∧
    (List.replicate 8 (7 : Byte))[7]? = some 7 := by decide

theorem witness_SingleWriter :
    (runLine (.enqByte 0x41 0) (ring8 unlockedA [] false) = .go { ring8 unlockedA [] false with
      rb := { buf := 0x41 :: List.replicate 7 0, rd := 0, wr := 1 }, tmp := { Tmp.init with put := 1 } }) ∧
    (runLine (.enqByte 0x41 2) (ring8 unlockedA [1, 2, 3, 4, 5, 6, 7] true) =
      .skip 2 (ring8 unlockedA [1, 2, 3, 4, 5, 6, 7] true)) ∧
    (runLine (.ret 1) unlockedA = .done (unlockedA.finish 1)) ∧ Turn.isReset .irq = false ∧ Turn.isIrq .uart = false := by
  decide

theorem witness_DrainsToEmpty :
    ((ring8 unlockedA [1, 2, 3, 4, 5, 6, 7] true).Inv ∧ (ring8 unlockedA [1, 2, 3, 4, 5, 6, 7] true).busy = false ∧
      (ring8 unlockedA [1, 2, 3, 4, 5, 6, 7] true).inbox = [] ∧
      (ring8 unlockedA [1, 2, 3, 4, 5, 6, 7] true).sched = [] ∧
      (ring8 unlockedA [1, 2, 3, 4, 5, 6, 7] true).armed = true) ∧
    ((ring8 unlockedA [] true).Inv ∧ (ring8 unlockedA [] true).armed = true) := by decide

/-- A ring with a free slot and a full one; a line and a turn; a step. -/
theorem witness_StreamGrows_lines : (ring8 unlockedA [1] true).ringOk = true ∧
    ringFull 8 (ring8 unlockedA [1] true).rb = false ∧ ringFull 8 (ring8 unlockedA [1, 2, 3, 4, 5, 6, 7] true).rb = true ∧
    (ring8 unlockedA [1, 2, 3, 4, 5, 6, 7] true).ringOk = true ∧ Line.byte? .enqArm = none ∧
    runLine (.ret 1) unlockedA = .done (unlockedA.finish 1) ∧ Turn.isReset .irq = false := by decide
theorem witness_StreamGrows : ({ ring8 unlockedA [1] true with sched := [.irq] }).Inv ∧
    [Turn.irq].all (fun x => !x.isReset) = true ∧
    ∃ t, step { ring8 unlockedA [1] true with sched := [.irq] } = .next t ∧ (t.line == [1]) = true :=
  ⟨by decide, by decide, next_of_answers (p := fun t => t.line == [1]) (by decide)⟩

theorem witness_QuiescentIsEmpty : State.reset.Inv ∧
    (∀ i l rest, State.reset.seq = .running i (l :: rest) → lineEnabled l State.reset = false) ∧
    State.reset.txeRequest = false ∧ State.reset.fc.busy = false ∧ State.reset.txe = true :=
  ⟨by decide, fun _ _ _ h => SeqPos.noConfusion h, by decide, by decide, by decide⟩

/-- A call of `tx_enqueue` of three bytes. -/
def enqueueCall (sched : List Turn) : State :=
  { with3 (ring8 unlockedA [1, 2, 3, 4, 5] true) 0 3 (.bytes [6, 7, 8]) with sched := sched }

theorem witness_EnqueueStream : (enqueueCall [.seq, .irq, .uart]).Ready ∧
    (enqueueCall [.seq, .irq, .uart]).a1.toNat ≤ (enqueueCall [.seq, .irq, .uart]).src.byteSeq.length := by decide
theorem witness_EnqueueDropsTail : (enqueueCall [.seq, .uart]).Ready ∧
    (enqueueCall [.seq, .uart]).sched.all (fun x => !x.isIrq) = true ∧
    (enqueueCall [.seq, .uart]).a1.toNat ≤ (enqueueCall [.seq, .uart]).src.byteSeq.length := by decide

theorem witness_FrameFormat : (0xFFFF : Word).toNat ≤ 0xFFFF ∧ (999999 : Word).toNat ≤ 999999 := by decide
theorem witness_Packing : ([1, 2, 3] : List Half)[2 * 0]? = some 1 ∧ ([1, 2, 3] : List Half)[2 * 1]? = some 3 := by decide
theorem witness_FlashRead : unlockedA.readStale = false ∧ (0x0801FFFE : Word).toNat % 2 = 0 ∧
    unlockedA.inArray 0x0801FFFE 2 = true ∧ (0x0801FFFC : Word).toNat % 4 = 0 ∧
    unlockedA.inArray 0x0801FFFC 4 = true ∧
    ({ unlockedA with fc := { unlockedA.fc with stale := true } }).readStale = true := by decide
theorem witness_Refresh : runLine (.refreshRead 0x08002000) unlockedA =
    .go { unlockedA with tmp := { unlockedA.tmp with w := 0xFFFFFFFF } } := by decide
theorem witness_HoldWaitsForNotBusy : Line.holds .spin = true ∧ Line.holds .gWait = true ∧
    await .spin unlockedA.sched unlockedA = .ready unlockedA := by decide

theorem witness_FirmwareSize : (callG 0x08002000 0 []).Ready ∧ (zeroCapacity .g).Ready := by decide
theorem witness_TriggerTruth : (callA 0x08002000 0 []).Ready ∧
    ({ withButton 0 true false with sched := [.pin true, .seq, .pin false] }).Ready ∧ (withButton 0 false false).Ready ∧
    (withButton 0 false false).sched.all (fun x => !x.isPin) = true := by decide
theorem witness_TriggerOneShot : (withButton 0x544F true true).Ready ∧
    (withButton 0x544F true true).sched.all (fun x => !x.isPin) = true ∧ (callA 0 0 []).cfg.haveButton = false ∧
    (callA 0 0 []).Ready ∧
    ∃ t, exec .shouldForceBootloader (withButton 0x544F true true) = .next t ∧
      answers (exec .shouldForceBootloader t) (fun u => u.res == 1) = true :=
  ⟨by decide, by decide, by decide, by decide,
    next_of_answers (p := fun t => answers (exec .shouldForceBootloader t) (fun u => u.res == 1)) (by decide)⟩

theorem witness_SessionReset : (callG 0 0 []).Ready ∧ (callA 0 0 []).Ready := by decide
theorem witness_UnlockLockG : (callG 0 0 []).ReadyIn .g ∧ State.ReadyIn .g { unlockedG with
    fc := { unlockedG.fc with locked := true } } := by decide
theorem witness_UnlockA : State.reset.ReadyIn .a ∧ (callA 0 0 []).ReadyIn .a := by decide
theorem witness_LockA : (callA 0 0 []).ReadyIn .a := by decide
theorem witness_LockedChangesNothing : State.reset.fc.locked = true ∧
    [Turn.seq, .stick, .yield].all (fun x => !x.isReset) = true ∧ Instr.flashErasePageA ≠ .flashUnlockG ∧
    Instr.flashErasePageA ≠ .flashUnlockA ∧
    ∃ t, exec .flashErasePageA { with3 State.reset 0x08002000 0 (.halves []) with sched := [.seq, .stick, .yield] } =
      .next t ∧ t.busy = true :=
  ⟨by decide, by decide, by decide, by decide, next_of_answers (by decide)⟩
/-- An erase on a locked controller that was cut and is resumed. -/
theorem witness_LockedChangesNothing_step :
    let s := { erasing with fc := { erasing.fc with locked := true } }
    s.onProgram = true ∧ s.fc.locked = true ∧ s.sched.all (fun x => !x.isReset) = true ∧
      s.operation = some .flashErasePageG ∧ answers (step s) (fun t => !t.busy) = true := by decide +kernel

/-- The first page of the array, and an address in the last. -/
theorem witness_ErasePageG : (callG 0x08000000 0 []).ReadyIn .g ∧
    (callG 0x08000000 0 []).inArray (pageStart 1024 0x08000000) 1024 = true ∧ (callG 0x0801FFFF 0 []).ReadyIn .g ∧
    (callG 0x0801FFFF 0 []).inArray (pageStart 1024 0x0801FFFF) 1024 = true := by decide
theorem witness_ErasePageA : (callA 0x08000000 0 []).ReadyIn .a ∧
    (callA 0x08000000 0 []).inArray (pageOfA 0x08000000) 128 = true ∧ (callA 0x0801FFFF 0 []).ReadyIn .a ∧
    (callA 0x0801FFFF 0 []).inArray (pageOfA 0x0801FFFF) 128 = true := by decide

/-- Each clause just beyond what the operation accepts. -/
theorem witness_Preconditions : unlockedG.busy = false ∧ unlockedA.busy = false ∧ unlockedG.cfg.variant = .g ∧
    unlockedA.cfg.variant = .a ∧ (0x08002001 : Word).toNat % 2 = 1 ∧ (0x08001FFE : Word).toNat % 2 = 0 ∧
    (0x08001FFE : Word).toNat < unlockedG.fas.base.toNat ∧ (0x08001F80 : Word).toNat % 128 = 0 ∧
    (0x08001F80 : Word).toNat < unlockedA.fas.base.toNat ∧
    unlockedG.inArray (pageStart unlockedG.fas.pageSize 0x08020000) unlockedG.fas.pageSize.toNat = false ∧
    unlockedG.inArray (pageStart unlockedG.fas.pageSize 0x07FFFFFF) unlockedG.fas.pageSize.toNat = false ∧
    unlockedA.inArray (pageOfA 0x08020000) 128 = false ∧ unlockedA.inArray (pageOfA 0x07FFFFFF) 128 = false ∧
    (Source.bytes [1]).byteSeq.length < (2 : Word).toNat := by decide
theorem witness_Preconditions_source : (Source.halves [1]).halfWords.length < (2 : Word).toNat ∧
    (1 : Word).toNat ≤ (Source.halves [1]).halfWords.length ∧ (0x08002000 : Word).toNat % 2 = 0 ∧
    unlockedG.fas.base.toNat ≤ (0x08002000 : Word).toNat ∧ (0x08020000 : Word).toNat % 128 = 0 ∧
    (1 : Word).toNat ≤ 64 ∧ unlockedA.inArray 0x08020000 128 = false := by decide

theorem witness_ArrayGFrame : (callG 0x08002000 3 [1, 2, 3]).ReadyIn .g ∧ (0x08002000 : Word).toNat % 2 = 0 ∧
    (callG 0x08002000 3 [1, 2, 3]).fas.base.toNat ≤ (0x08002000 : Word).toNat ∧
    (3 : Word).toNat ≤ (Source.halves [1, 2, 3]).halfWords.length := by decide

/-- The empty window is erased. -/
theorem windowErased_empty {s : State} (h : s.win = { start := 0, endAddr := 0 }) : s.WindowErased := by
  intro d _ hd
  simp [h, outsideWindow] at hd

/-- An array that lists nothing is erased. -/
theorem erased_empty {m : Memory} (h : m = []) (a : Nat) : Memory.readHalf m a = 0xFFFF := by
  rw [h]
  show halfOfBytes 0xFF 0xFF = 0xFFFF
  decide

/-- The last two half-words of the region, from an empty window. -/
theorem witness_ArrayGRoundTrip : (callG 0x0801FFFC 2 [1, 2]).ReadyIn .g ∧ (0x0801FFFC : Word).toNat % 2 = 0 ∧
    (callG 0x0801FFFC 2 [1, 2]).fas.base.toNat ≤ (0x0801FFFC : Word).toNat ∧
    (0x0801FFFC : Word).toNat + 2 * (2 : Word).toNat ≤ (callG 0x0801FFFC 2 [1, 2]).fas.endAddr.toNat ∧
    (2 : Word).toNat ≤ (Source.halves [1, 2]).halfWords.length ∧ (callG 0x0801FFFC 2 [1, 2]).fc.locked = false ∧
    (callG 0x0801FFFC 2 [1, 2]).dev.healthy = true ∧ (callG 0x0801FFFC 2 [1, 2]).WindowErased :=
  ⟨by decide, by decide, by decide, by decide, by decide, by decide, by decide, windowErased_empty (by decide)⟩
/-- A window that is not empty, over an erased array. -/
theorem witness_ArrayGRoundTrip_window :
    ({ callG 0x08002006 1 [7] with win := { start := 0x08002006, endAddr := 0x08002400 } }).ReadyIn .g ∧
    ({ callG 0x08002006 1 [7] with win := { start := 0x08002006, endAddr := 0x08002400 } }).WindowErased :=
  ⟨by decide, fun _ _ _ => erased_empty rfl _⟩
theorem witness_ArrayGVerified : (callG 0x08002000 2 [1, 2]).ReadyIn .g ∧
    ({ callG 0x08002000 2 [1, 2] with dev := { healthy := false, prog16 := [], prog32 := [] } }).ReadyIn .g ∧
    (0x08002000 : Word).toNat % 2 = 0 ∧ (callG 0x08002000 2 [1, 2]).fas.base.toNat ≤ (0x08002000 : Word).toNat ∧
    (2 : Word).toNat ≤ (Source.halves [1, 2]).halfWords.length := by decide
theorem witness_ArrayGNothingDone : (callG 0x08020000 0 []).ReadyIn .g ∧ (callG 0x08020000 1 [7]).ReadyIn .g ∧
    (0x08020000 : Word).toNat % 2 = 0 ∧ (callG 0x08020000 1 [7]).fas.base.toNat ≤ (0x08020000 : Word).toNat ∧
    (1 : Word).toNat ≤ (Source.halves [7]).halfWords.length ∧ (1 : Word) ≠ 0 ∧
    (callG 0x08020000 1 [7]).fas.endAddr.toNat ≤ (0x08020000 : Word).toNat := by decide
theorem witness_ArrayGCrossing : (callG 0x0801FFFE 2 [1, 2]).ReadyIn .g ∧ (0x0801FFFE : Word).toNat % 2 = 0 ∧
    (callG 0x0801FFFE 2 [1, 2]).fas.base.toNat ≤ (0x0801FFFE : Word).toNat ∧
    (0x0801FFFE : Word).toNat ≤ (callG 0x0801FFFE 2 [1, 2]).fas.endAddr.toNat ∧
    (callG 0x0801FFFE 2 [1, 2]).fas.endAddr.toNat < (0x0801FFFE : Word).toNat + 2 * (2 : Word).toNat ∧
    (2 : Word).toNat ≤ (Source.halves [1, 2]).halfWords.length ∧ (callG 0x0801FFFE 2 [1, 2]).fc.locked = false ∧
    (callG 0x0801FFFE 2 [1, 2]).dev.healthy = true ∧ (callG 0x0801FFFE 2 [1, 2]).WindowErased :=
  ⟨by decide, by decide, by decide, by decide, by decide, by decide, by decide, by decide,
    windowErased_empty (by decide)⟩
theorem witness_ArrayGWindow : (callG 0x0801FFFE 1 [7]).ReadyIn .g ∧ (0x0801FFFE : Word).toNat % 2 = 0 ∧
    (callG 0x0801FFFE 1 [7]).fas.base.toNat ≤ (0x0801FFFE : Word).toNat ∧
    (0x0801FFFE : Word).toNat + 2 * (1 : Word).toNat ≤ (callG 0x0801FFFE 1 [7]).fas.endAddr.toNat ∧
    (1 : Word).toNat ≤ (Source.halves [7]).halfWords.length ∧ (1 : Word) ≠ 0 ∧
    (callG 0x0801FFFE 1 [7]).win.endAddr.toNat ≤
      (callG 0x0801FFFE 1 [7]).win.start.toNat + (callG 0x0801FFFE 1 [7]).cfg.pageSize.toNat ∧
    answers (exec .flashProgramArrayG (callG 0x0801FFFE 1 [7])) (fun t => t.res == 1) = true := by decide
/-- Locked: one call whose source the array holds, one whose source it does not hold. -/
theorem witness_ArrayGLocked :
    let s := { callG 0x08002000 1 [0xFFFF] with fc := { unlockedG.fc with locked := true } }
    let u := { callG 0x08002000 1 [0x1234] with fc := { unlockedG.fc with locked := true } }
    s.ReadyIn .g ∧ u.ReadyIn .g ∧ s.a0.toNat % 2 = 0 ∧ s.fas.base.toNat ≤ s.a0.toNat ∧
      s.a0.toNat + 2 * s.a1.toNat ≤ s.fas.endAddr.toNat ∧ s.a1.toNat ≤ s.src.halfWords.length ∧ s.fc.locked = true ∧
      answers (exec .flashProgramArrayG s) (fun t => t.res == 1) = true ∧
      answers (exec .flashProgramArrayG u) (fun t => t.res == 0) = true := by decide

theorem witness_PageRejected : (callA 0x0800207F 3 [1, 2, 3]).ReadyIn .a ∧ (0x0800207F : Word).toNat % 128 ≠ 0 ∧
    (3 : Word).toNat ≤ (Source.halves [1, 2, 3]).halfWords.length ∧
    (callA 0x08002000 65 (List.replicate 65 7)).ReadyIn .a ∧ 64 < (65 : Word).toNat ∧
    (65 : Word).toNat ≤ (Source.halves (List.replicate 65 7)).halfWords.length := by decide +kernel
/-- The last page of the array; no half-words, and the most a page takes. -/
theorem witness_PageProgrammed : (callA 0x0801FF80 0 []).ReadyIn .a ∧
    (callA 0x0801FF80 64 (List.replicate 64 7)).ReadyIn .a ∧ (0x0801FF80 : Word).toNat % 128 = 0 ∧
    (64 : Word).toNat ≤ 64 ∧ (callA 0x0801FF80 0 []).inArray 0x0801FF80 128 = true ∧
    (64 : Word).toNat ≤ (Source.halves (List.replicate 64 7)).halfWords.length := by decide +kernel
theorem witness_PageHealthy : (callA 0x08002000 1 [7]).ReadyIn .a ∧ (0x08002000 : Word).toNat % 128 = 0 ∧
    (1 : Word).toNat ≤ 64 ∧ (callA 0x08002000 1 [7]).inArray 0x08002000 128 = true ∧
    (1 : Word).toNat ≤ (Source.halves [7]).halfWords.length ∧ (callA 0x08002000 1 [7]).fc.locked = false ∧
    (callA 0x08002000 1 [7]).dev.healthy = true ∧
    (∀ j, j < 64 → Memory.readHalf (callA 0x08002000 1 [7]).flash ((0x08002000 : Word).toNat + 2 * j) = 0xFFFF) :=
  ⟨by decide, by decide, by decide, by decide, by decide, by decide, by decide, fun _ _ => erased_empty rfl _⟩

theorem witness_ArrayAFrame : (callA 0x08002000 3 [1, 2, 3]).ReadyIn .a ∧ (0x08002000 : Word).toNat % 128 = 0 ∧
    (callA 0x08002000 3 [1, 2, 3]).fas.base.toNat ≤ (0x08002000 : Word).toNat ∧
    (3 : Word).toNat ≤ (Source.halves [1, 2, 3]).halfWords.length := by decide
/-- A whole last page. -/
theorem witness_ArrayARoundTrip :
    let s := callA 0x0801FF80 64 (List.replicate 64 7)
    s.ReadyIn .a ∧ s.a0.toNat % 128 = 0 ∧ s.fas.base.toNat ≤ s.a0.toNat ∧
      s.a0.toNat + 2 * s.a1.toNat ≤ s.fas.endAddr.toNat ∧ s.a1.toNat ≤ s.src.halfWords.length ∧ s.fc.locked = false ∧
      s.dev.healthy = true ∧ s.statr.pgerr = false ∧ s.statr.wrprterr = false := by decide +kernel
theorem witness_ArrayAVerified :
    let s := { callA 0x08002000 2 [1, 2] with dev := { healthy := false, prog16 := [], prog32 := [] } }
    s.ReadyIn .a ∧ s.a0.toNat % 128 = 0 ∧ s.fas.base.toNat ≤ s.a0.toNat ∧ s.a1.toNat ≤ s.src.halfWords.length := by
  decide
theorem witness_ArrayANothingDone : (callA 0x08002040 1 [1]).ReadyIn .a ∧ (0x08002040 : Word).toNat % 128 ≠ 0 ∧
    (callA 0x08020000 0 []).ReadyIn .a ∧ (0x08020000 : Word).toNat % 128 = 0 ∧
    (callA 0x08020000 0 []).fas.base.toNat ≤ (0x08020000 : Word).toNat ∧ (callA 0x08020000 1 [1]).ReadyIn .a ∧
    (1 : Word) ≠ 0 ∧ (1 : Word).toNat ≤ (Source.halves [1]).halfWords.length ∧
    (callA 0x08020000 1 [1]).fas.endAddr.toNat ≤ (0x08020000 : Word).toNat := by decide
theorem witness_ArrayACrossing :
    let s := callA 0x0801FF80 65 (List.replicate 65 7)
    s.ReadyIn .a ∧ s.a0.toNat % 128 = 0 ∧ s.fas.base.toNat ≤ s.a0.toNat ∧ s.a0.toNat ≤ s.fas.endAddr.toNat ∧
      s.fas.endAddr.toNat < s.a0.toNat + 2 * s.a1.toNat ∧ s.a1.toNat ≤ s.src.halfWords.length ∧ s.fc.locked = false ∧
      s.dev.healthy = true ∧ s.statr.pgerr = false ∧ s.statr.wrprterr = false := by decide +kernel

theorem witness_ZeroCapacity : (zeroCapacity .g).Ready ∧ (zeroCapacity .a).Ready ∧
    (zeroCapacity .g).fas.endAddr.toNat < (zeroCapacity .g).fas.base.toNat ∧ (1 : Word) ≠ 0 ∧
    (zeroCapacity .g).a1.toNat ≤ (zeroCapacity .g).src.halfWords.length ∧
    (zeroCapacity .g).fas.base.toNat ≤ (zeroCapacity .g).a0.toNat ∧ (zeroCapacity .g).a0.toNat % 2 = 0 ∧
    (zeroCapacity .g).cfg.variant = .g ∧ (zeroCapacity .a).cfg.variant = .a := by decide

theorem witness_TransmitIndependence : (callA 0x08002000 0 []).Ready ∧
    (State.withTx { unlockedA with armed := true, line := [1] } (callA 0x08002000 0 [])).Ready ∧
    (callA 0x08002000 0 []).fc.locked = false ∧ (callA 0x08002000 0 []).dev.healthy = true ∧
    (callG 0x08002000 0 []).cfg.variant = .g ∧ (callA 0x08002000 0 []).cfg.haveButton = false ∧
    ∃ t, exec .flashErasePageA (callA 0x08002000 0 []) = .next t ∧ (!t.busy) = true :=
  ⟨by decide, by decide, by decide, by decide, by decide, by decide,
    next_of_answers (p := fun t => !t.busy) (by decide)⟩

/-- Every operation that starts a cycle, the drain and the transmitter moving: each is held. -/
theorem witness_HangUntilReset :
    let s := { callG 0x0801FFFE 1 [7] with fctlStuck := true }
    let u := { callA 0x0801FF80 1 [7] with fctlStuck := true }
    let held := fun t : State => t.busy && t.fc.busy && t.seq != .idle
    (s.Inv ∧ s.busy = false ∧ s.fctlStuck = true ∧ s.sched.all Turn.quiet = true ∧
      s.inArray (pageStart s.fas.pageSize s.a0) s.fas.pageSize.toNat = true ∧ s.a0.toNat % 2 = 0 ∧
      s.fas.base.toNat ≤ s.a0.toNat ∧ s.a0.toNat < s.fas.endAddr.toNat ∧ s.a1 ≠ 0 ∧
      s.a1.toNat ≤ s.src.halfWords.length) ∧
    (u.Inv ∧ u.busy = false ∧ u.fctlStuck = true ∧ u.sched.all Turn.quiet = true ∧ u.inArray (pageOfA u.a0) 128 = true ∧
      u.inArray u.a0 128 = true ∧ u.a0.toNat % 128 = 0 ∧ u.a1.toNat ≤ 64 ∧ u.fas.base.toNat ≤ u.a0.toNat ∧
      u.a0.toNat < u.fas.endAddr.toNat ∧ u.a1 ≠ 0 ∧ u.a1.toNat ≤ u.src.halfWords.length) ∧
    [answers (exec .flashErasePageG s) held, answers (exec .flashProgramArrayG s) held,
      answers (exec .flashErasePageA u) held, answers (exec .flashProgramArrayA u) held,
      answers (exec .flashProgramPage u) held] = [true, true, true, true, true] := by decide +kernel
/-- A held erase, with turns to come and with a reset to come. -/
theorem witness_HangUntilReset_held :
    let s := { erasing with fctlStuck := true, sched := [.irq, .uart, .fctl true false, .pin true, .seq] }
    s.cfg.wf = true ∧ s.seq = .running .flashErasePageG [.gWait, .ret 1] ∧ Line.holds .gWait = true ∧
      s.fc.busy = true ∧ s.fctlStuck = true ∧ s.sched.all (fun x => !x.isReset && x != .host) = true ∧
      s.sched.all Turn.quiet = true := by decide +kernel

end Sys2Proof.Tests
end

section
/-! ## What decoding and the command port keep -/

namespace Sys2Proof.Machine

/-- A decoded operation exists in the decoder's variant (spec/30_encoding.md R93). -/
theorem wf_of_decode {v : Variant} {w : Word} {i : Instr} (h : decode v w = .op i) : i.wf v = true := by
  unfold decode at h
  split at h
  · unfold decodeOpc at h
    cases v <;> (split at h <;> cases h <;> rfl)
  · cases h

/-- Writing a command's registers touches nothing that the invariant reads. -/
theorem State.Inv.accept {s : State} (h : s.Inv) (c : Command) (rest : List Command) : (s.accept c rest).Inv := h

/-- An illegal command word leaves a sound idle core sound and idle (R96). -/
theorem State.Inv.illegal {s : State} (h : s.Inv) (hs : s.seq = .idle) : s.illegal.Inv := by
  obtain ⟨-, hclean, htmp⟩ := h.idle hs
  exact inv_of_idle (h.base.same rfl rfl rfl rfl rfl rfl rfl) rfl rfl hclean htmp
    ((h.armedOr hs).congr rfl rfl rfl)

/-- A step with nothing to do for `SEQ` and `HOST` is one turn, the schedule's next or, with none left, the drain's or
the transmitter's (log 2). -/
theorem State.idleStep_eq_turn (s : State) : ∃ x r, s.idleStep = State.turn x { s with sched := r } := by
  unfold State.idleStep
  split
  · exact ⟨_, _, rfl⟩
  · split
    · rename_i hreq
      exact ⟨.irq, s.sched, by rw [State.turn, State.irqTurn, if_pos hreq]⟩
    · exact ⟨.uart, s.sched, rfl⟩

/-- No turn starts an operation. -/
theorem State.turn_seq_of_idle {s : State} (hs : s.seq = .idle) (x : Turn) : (State.turn x s).seq = .idle := by
  cases x <;> simp [State.turn, hs]

end Sys2Proof.Machine

/-! ## The invariant -/

namespace Sys2Proof.Machine

theorem next_of_outcomeSat {P : State → Prop} {Q : Refusal → Prop} {o : Outcome} {t : State} (h : outcomeSat P Q o)
    (ho : o = .next t) : P t := by
  rw [ho] at h
  exact h

/-- Settles O8, by the four kinds of step: a resumed run of lines, an operation that starts, an illegal command, a turn. -/
theorem stepKeepsInv : Obligations.StepKeepsInv := by
  unfold Obligations.StepKeepsInv
  intro s t h ht
  rcases step_cases ht with ⟨i, lines, hs, hrun⟩ | ⟨-, c, rest, i, -, hd, hex⟩ | ⟨hs, c, rest, why, -, -, rfl⟩ |
    ⟨hs, -, rfl⟩
  · exact next_of_outcomeSat (runLines_sound i lines 0 s (h.going hs)) hrun
  · exact next_of_outcomeSat (exec_sound (h.accept c rest) i (wf_of_decode hd)) hex
  · exact (h.accept c rest).illegal hs
  · obtain ⟨x, r, hx⟩ := s.idleStep_eq_turn
    rw [hx]
    exact State.Inv.turn (s := { s with sched := r }) h hs x

end Sys2Proof.Machine

/-! ## The position on the program -/

namespace Sys2Proof.Machine

theorem State.onProgram_of_idle {s : State} (hs : s.seq = .idle) : s.onProgram = true := by
  rw [State.onProgram, hs]

/-- Where a run of an operation's lines has stopped, the position is on the operation's program. -/
theorem State.onProgram_of_onPath {s t : State} {i : Instr} (h : OnPath i (opLines i s) t) (ho : SameOperands s t) :
    t.onProgram = true := by
  rcases h with hs | ⟨ls, hs, hsuf⟩
  · exact State.onProgram_of_idle hs
  · obtain ⟨hcfg, -, h0, h1, hsrc⟩ := ho
    simp only [State.onProgram, hs, opLines_congr hcfg h0 h1 hsrc i]
    exact List.isSuffixOf_iff_suffix.mpr hsuf

/-- A run of lines of an operation's program ends on that program. -/
theorem runLines_onProgram {i : Instr} {lines : List Line} {s t : State} (hs : s.seq = .running i lines)
    (hsuf : lines <:+ opLines i s) (hrun : runLines i lines 0 s = .next t) : t.onProgram = true := by
  have hstart : OnPath i (opLines i s) s ∧ SameOperands s s := ⟨.inr ⟨lines, hs, hsuf⟩, rfl, rfl, rfl, rfl, rfl⟩
  rcases runLines_onPath hsuf hstart hrun with hidle | ⟨hpath, hsame⟩
  · exact State.onProgram_of_idle hidle
  · exact State.onProgram_of_onPath hpath hsame

theorem exec_onProgram {i : Instr} {s t : State} (h : exec i s = .next t) : t.onProgram = true := by
  obtain ⟨-, -, hrun⟩ := exec_runs h
  exact runLines_onProgram (s := s.begin i (opLines i s)) rfl
    (by rw [opLines_congr (s := s) rfl rfl rfl rfl]; exact List.suffix_refl _) hrun

theorem sameOperands_kept (s0 : State) : KeptByTurns (SameOperands s0) where
  sched _ _ h := h
  irq _ h := by simpa [SameOperands] using h
  uart _ h := by simpa [SameOperands] using h
  fctl _ _ _ h := by simpa [SameOperands] using h
  pin _ _ h := h
  stick _ h := h
  free _ h _ := by simpa [SameOperands] using h

/-- The schedule of a step without a reset. -/
theorem resetSafe_of_all {P : State → Prop} {sched : List Turn} (h : sched.all (fun x => !x.isReset) = true) :
    ResetSafe P sched := .inl fun x hx => by simpa using List.all_eq_true.mp h x hx

/-- A run of lines without a reset leaves the operands. -/
theorem runLines_sameOperands {i : Instr} {lines : List Line} {s t : State}
    (hr : s.sched.all (fun x => !x.isReset) = true) (hrun : runLines i lines 0 s = .next t) : SameOperands s t :=
  runLines_always (sameOperands_kept s) (fun _ _ h => h) i lines
    (fun l _ u h => (runLine_frame l u).imp fun _ hl => h.line hl) 0 s t ⟨rfl, rfl, rfl, rfl, rfl⟩
    (resetSafe_of_all hr) hrun

/-- Settles O9: `runLines_onPath` keeps a run on the program, every other step ends idle; a run without a reset leaves
the operands. -/
theorem stepKeepsProgram : Obligations.StepKeepsProgram := by
  unfold Obligations.StepKeepsProgram
  constructor
  · intro s t h ht
    rcases step_cases ht with ⟨i, lines, hs, hrun⟩ | ⟨-, c, rest, i, -, -, hex⟩ | ⟨-, c, rest, why, -, -, rfl⟩ |
      ⟨hs, -, rfl⟩
    · exact runLines_onProgram hs (s.onProgram_running h hs) hrun
    · exact exec_onProgram hex
    · exact State.onProgram_of_idle rfl
    · obtain ⟨x, r, hx⟩ := s.idleStep_eq_turn
      rw [hx]
      exact State.onProgram_of_idle (State.turn_seq_of_idle (s := { s with sched := r }) hs x)
  · intro s t i lines hs hr ht
    rcases step_cases ht with ⟨j, ls, -, hrun⟩ | ⟨hidle, -⟩ | ⟨hidle, -⟩ | ⟨hidle, -⟩
    · exact (runLines_sameOperands hr hrun).2
    all_goals rw [hs] at hidle; cases hidle

end Sys2Proof.Machine
end

section
/-! ## One component under every schedule -/

namespace Sys2Proof.Machine

theorem KeptByTurns.or {P Q : State → Prop} (hP : KeptByTurns P) (hQ : KeptByTurns Q) :
    KeptByTurns fun s => P s ∨ Q s where
  sched s r := Or.imp (hP.sched s r) (hQ.sched s r)
  irq s := Or.imp (hP.irq s) (hQ.irq s)
  uart s := Or.imp (hP.uart s) (hQ.uart s)
  fctl pg wp s := Or.imp (hP.fctl pg wp s) (hQ.fctl pg wp s)
  pin b s := Or.imp (hP.pin b s) (hQ.pin b s)
  stick s := Or.imp (hP.stick s) (hQ.stick s)
  free s h hb := h.imp (hP.free s · hb) (hQ.free s · hb)

theorem fasCfg_kept (f : AddressSpace) (c : Config) : KeptByTurns fun s => s.fas = f ∧ s.cfg = c where
  sched _ _ h := h
  irq _ h := by simpa using h
  uart _ h := by simpa using h
  fctl _ _ _ h := by simpa using h
  pin _ _ h := h
  stick _ h := h
  free _ h _ := by simpa using h

theorem bkp_kept (b : Half) : KeptByTurns fun s => s.bkp = b :=
  keptByTurns_of_field State.bkp b (fun _ _ => rfl) (by simp) (by simp) (by simp) (fun _ _ => rfl) fun _ => rfl

theorem win_kept (w : Window) : KeptByTurns fun s => s.win = w :=
  keptByTurns_of_field State.win w (fun _ _ => rfl) (by simp) (by simp) (by simp) (fun _ _ => rfl) fun _ => rfl

/-- The command port writes none of the parameters, `FAS`, `BKP` and `WIN`. -/
theorem keptByPort_of_registers (P : Config → AddressSpace → Half → Window → Prop) :
    KeptByPort fun s => P s.cfg s.fas s.bkp s.win where
  seq _ _ h := h
  accept _ _ _ h := h
  start _ _ _ h := h
  illegal _ h := h

/-! ## `FAS` -/

/-- What reset latches (spec/10_state.md R27). -/
theorem AddressSpace.latch_endAddr_override {c : Config} {n : Word} (h : c.sizeOverride = some n) :
    (AddressSpace.latch c).endAddr = c.flashOrigin + n := by
  simp [AddressSpace.latch, Config.size, h]

theorem AddressSpace.latch_endAddr_capacity {c : Config} (h : c.sizeOverride = none) :
    (AddressSpace.latch c).endAddr = c.flashOrigin + c.capacity := by
  simp [AddressSpace.latch, Config.size, h]

/-- Settles O11: reset latches `FAS`, and neither a line nor a turn but a reset writes it or a parameter. -/
theorem fasImmutable : Obligations.FasImmutable := by
  unfold Obligations.FasImmutable
  constructor
  · exact fun s => ⟨rfl, rfl, fun n hn => AddressSpace.latch_endAddr_override hn, AddressSpace.latch_endAddr_capacity⟩
  · intro s t hr ht
    exact step_always (fasCfg_kept s.fas s.cfg) (keptByPort_of_registers fun c f _ _ => f = s.fas ∧ c = s.cfg)
      (fun l _ u h => (runLine_frame l u).imp fun _ hl => ⟨hl.fas.trans h.1, hl.cfg.trans h.2⟩) ⟨rfl, rfl⟩
      (resetSafe_of_all hr) ht

/-! ## `BKP` -/

/-- A line that does not write the persisted cell leaves it. -/
theorem runLine_bkp_same {l : Line} (hl : l.writesBkp = false) {b : Half} {s : State} (h : s.bkp = b) :
    (runLine l s).Always fun t => t.bkp = b :=
  (runLine_frame l s).imp fun _ hf => (hf.bkp hl).trans h

/-- A line leaves the persisted cell or clears it (spec/44_boot_trigger.md R201). -/
theorem runLine_bkp {l : Line} {b : Half} {s : State} (h : s.bkp = b ∨ s.bkp = 0x0000) :
    (runLine l s).Always fun t => t.bkp = b ∨ t.bkp = 0x0000 := by
  cases hl : l.writesBkp with
  | false => exact (runLine_frame l s).imp fun _ hf => by rw [hf.bkp hl]; exact h
  | true =>
    cases l with
    | bkpClear => exact .inr rfl
    | _ => cases hl

/-- Of an operation other than the trigger no line writes the persisted cell. -/
theorem writesBkp_of_allowed {i : Instr} {l : Line} (h : l.allowed i = true) (hi : i ≠ .shouldForceBootloader) :
    l.writesBkp = false :=
  Bool.eq_false_iff.mpr fun hw => hi (allowed_writesBkp h hw)

/-- Settles O12: `bkpClear` is the one line that writes `BKP`, only the trigger's program has it, and a reset keeps
`BKP`. -/
theorem bkpWriter : Obligations.BkpWriter := by
  unfold Obligations.BkpWriter
  refine ⟨fun i s t hex hi => ?_, fun s t hon hop ht => ?_, fun s t ht => ?_⟩
  · exact exec_always (bkp_kept s.bkp) (fun _ _ h => h)
      (fun l hl u h => runLine_bkp_same (writesBkp_of_allowed (opLines_allowed hl) hi) h) rfl (.inr fun _ h => h) hex
  · refine step_always (bkp_kept s.bkp) (keptByPort_of_registers fun _ _ b _ => b = s.bkp) (fun l hl u h => ?_) rfl
      (.inr fun _ h => h) ht
    obtain ⟨i, hi, ha⟩ := program_allowed hon hl
    exact runLine_bkp_same (writesBkp_of_allowed ha fun he => hop (he ▸ hi)) h
  · exact step_always ((bkp_kept s.bkp).or (bkp_kept 0x0000))
      (keptByPort_of_registers fun _ _ b _ => b = s.bkp ∨ b = 0x0000) (fun _ _ _ h => runLine_bkp h) (.inl rfl)
      (.inr fun _ h => h) ht

/-! ## `WIN` -/

/-- A line that does not write the window leaves it. -/
theorem runLine_win_same {l : Line} (hl : l.writesWin = false) {w : Window} {s : State} (h : s.win = w) :
    (runLine l s).Always fun t => t.win = w :=
  (runLine_frame l s).imp fun _ hf => (hf.win hl).trans h

/-- Of an operation other than `flash_program_array.g` and `session_reset` no line writes the window. -/
theorem writesWin_of_allowed {i : Instr} {l : Line} (h : l.allowed i = true) (hg : i ≠ .flashProgramArrayG)
    (hs : i ≠ .sessionReset) : l.writesWin = false :=
  Bool.eq_false_iff.mpr fun hw => (allowed_writesWin h hw).elim hg hs

/-- Settles O13: only the programs of the two operations have lines that write the window. -/
theorem windowWriters : Obligations.WindowWriters := by
  unfold Obligations.WindowWriters
  refine ⟨fun i s t hr hex hg hs => ?_, fun s t hon hr hg hs ht => ?_⟩
  · exact exec_always (win_kept s.win) (fun _ _ h => h)
      (fun l hl u h => runLine_win_same (writesWin_of_allowed (opLines_allowed hl) hg hs) h) rfl (resetSafe_of_all hr) hex
  · refine step_always (win_kept s.win) (keptByPort_of_registers fun _ _ _ w => w = s.win) (fun l hl u h => ?_) rfl
      (resetSafe_of_all hr) ht
    obtain ⟨i, hi, ha⟩ := program_allowed hon hl
    exact runLine_win_same (writesWin_of_allowed ha (fun he => hg (he ▸ hi)) fun he => hs (he ▸ hi)) h

/-! ## `RB` -/

/-- What a line that answers a state leaves as it was. -/
theorem lineFrame_of_runLine {l : Line} {s t : State} {n : Nat}
    (h : runLine l s = .go t ∨ runLine l s = .skip n t ∨ runLine l s = .done t) : LineFrame l s t := by
  have hf := runLine_frame l s
  rcases h with h | h | h <;> (rw [h] at hf; exact hf)

theorem Line.writesRing_false {l : Line} (h : ∀ b left, l ≠ .enqByte b left) : l.writesRing = false := by
  cases l with
  | enqByte b left => exact absurd rfl (h b left)
  | _ => rfl

/-- The drain moves the read index only. -/
theorem State.txeDrain_producer (s : State) : s.txeDrain.rb.wr = s.rb.wr ∧ s.txeDrain.rb.buf = s.rb.buf := by
  unfold State.txeDrain
  split <;> exact ⟨rfl, rfl⟩

theorem State.irqTurn_producer (s : State) : s.irqTurn.rb.wr = s.rb.wr ∧ s.irqTurn.rb.buf = s.rb.buf := by
  unfold State.irqTurn
  split
  · exact s.txeDrain_producer
  · exact ⟨rfl, rfl⟩

/-- Only the consumer's turn and a reset touch the ring. -/
theorem State.turn_rb {x : Turn} (hr : x.isReset = false) (hi : x.isIrq = false) (s : State) :
    (s.turn x).rb = s.rb := by
  cases x with
  | irq => cases hi
  | reset => cases hr
  | _ => simp [State.turn]

/-- Settles O18: the ring's part of `LineFrame` for the lines, and the turns one by one. -/
theorem singleWriter : Obligations.SingleWriter := by
  unfold Obligations.SingleWriter
  constructor
  · intro l s t n h
    have hf := lineFrame_of_runLine h
    exact ⟨hf.rd, fun hl => hf.ring (Line.writesRing_false hl)⟩
  · intro x s hr
    cases hi : x.isIrq with
    | true =>
      cases x with
      | irq =>
        obtain ⟨hwr, hbuf⟩ := s.irqTurn_producer
        exact ⟨hwr, hbuf, fun h => by cases h⟩
      | _ => cases hi
    | false =>
      have hrb := State.turn_rb hr hi s
      exact ⟨by rw [hrb], by rw [hrb], fun _ => hrb⟩

end Sys2Proof.Machine
end

section
/-! ## The step -/

namespace Sys2Proof.Machine

theorem State.poll_running {s : State} (hw : s.cfg.wf = true) {i : Instr} {lines : List Line}
    (hs : s.seq = .running i lines) : s.poll = .resume i lines := by
  simp [State.poll, hw, hs]

theorem State.poll_issue {s : State} (hw : s.cfg.wf = true) (hs : s.seq = .idle) {c : Command} {rest : List Command}
    (hi : s.inbox = c :: rest) : s.poll = .issue (decode s.cfg.variant c.op) (s.accept c rest) := by
  simp [State.poll, hw, hs, hi]

theorem State.poll_idle {s : State} (hw : s.cfg.wf = true) (hs : s.seq = .idle) (hi : s.inbox = []) :
    s.poll = .idle s.idleStep := by
  simp [State.poll, hw, hs, hi]

/-- A step with a decoded command waiting is the command's meaning. -/
theorem step_issue {s : State} (hw : s.cfg.wf = true) (hs : s.seq = .idle) {c : Command} {rest : List Command}
    {i : Instr} (hi : s.inbox = c :: rest) (hd : decode s.cfg.variant c.op = .op i) :
    step s = exec i (s.accept c rest) := by
  rw [step, State.poll_issue hw hs hi, hd]

/-- Settles O5, by the four cases of `State.poll`; a word put in from outside is the next command. -/
theorem stepRunsDecoded : Obligations.StepRunsDecoded := by
  unfold Obligations.StepRunsDecoded
  refine ⟨fun s c rest i hw hs hi hd => step_issue hw hs hi hd, fun s i lines hw hs => ?_, fun s hw hs hi => ?_,
    fun s w i hw hlt hd => ?_⟩
  · rw [step, State.poll_running hw hs]
  · rw [step, State.poll_idle hw hs hi]
  · have hmod : w % 2 ^ 32 = w := Nat.mod_eq_of_lt hlt
    have hop : decode s.cfg.variant (BitVec.ofNat 32 (w % 2 ^ 32)) = .op i := by rw [hmod]; exact hd
    rw [step_issue (s := s.withFetchWord 32 w) hw rfl rfl hop]
    simp only [State.withFetchWord, State.accept, hmod]

/-! ## Reset -/

/-- A configuration of R8 and a sound array make a sound machine after reset, apart from the sequencer. -/
theorem State.base_resetOf {c : Config} {bkp : Half} {flash : Memory} {btn : Bool} {dev : Device} (hc : c.wf = true)
    (hf : (State.resetOf c bkp flash btn dev).flashOk = true) : (State.resetOf c bkp flash btn dev).Base where
  cfg := hc
  fas := rfl
  ring := by
    have := (Config.geometry hc).ring
    rw [State.ringOk_iff]
    exact ⟨List.length_replicate, by simp [State.resetOf]; omega, by simp [State.resetOf]; omega⟩
  flash := hf
  controller := (State.controllerOk_iff _).mpr
    { busy_iff := by simp [State.resetOf], pending := rfl, keyseq := Nat.zero_le _, pbuf := List.length_replicate,
      stage := Nat.zero_le _, inG := fun _ => ⟨rfl, rfl, rfl, rfl, Nat.zero_mod _⟩, inA := fun _ => ⟨rfl, rfl⟩ }

theorem State.inv_resetOf {c : Config} {bkp : Half} {flash : Memory} {btn : Bool} {dev : Device} (hc : c.wf = true)
    (hf : (State.resetOf c bkp flash btn dev).flashOk = true) : (State.resetOf c bkp flash btn dev).Inv :=
  inv_of_idle (State.base_resetOf hc hf) rfl rfl rfl rfl (.inl rfl)

/-- Settles O7: `State.resetOf` is idle and at rest, and `State.reset` is one `State.resetOf`. -/
theorem resetInv : Obligations.ResetInv := by
  unfold Obligations.ResetInv
  refine ⟨fun c bkp flash btn dev hc hf => ⟨State.inv_resetOf hc hf, State.onProgram_of_idle rfl⟩,
    State.inv_resetOf ?_ rfl, State.onProgram_of_idle rfl⟩
  decide

theorem outsideWindow_empty (d : Word) : outsideWindow { start := 0, endAddr := 0 } d = true := by
  simp [outsideWindow]

/-- With no cycle pending a reset leaves the array (spec/70_reset_and_hazards.md R242). -/
theorem State.coreReset_flash_of_none {s : State} (h : s.fc.pending = .none) : s.coreReset.flash = s.flash := by
  simp [State.coreReset, State.resetOf, State.pendingUnit, h, Memory.fillFree]

/-- Settles O15: every component is as `State.resetOf` has it. -/
theorem stateAfterReset : Obligations.StateAfterReset := by
  unfold Obligations.StateAfterReset
  intro s
  exact ⟨rfl, rfl, rfl, rfl, rfl, rfl, rfl, rfl, rfl, rfl, rfl, rfl, rfl, rfl, rfl, outsideWindow_empty, rfl, rfl, rfl,
    rfl, rfl, rfl, rfl, rfl, rfl, State.coreReset_flash_of_none⟩

/-! ## Preconditions -/

/-- An operation whose precondition is broken is refused. -/
theorem exec_refused {i : Instr} {s : State} {r : Refusal} (hb : s.busy = false) (hw : i.wf s.cfg.variant = true)
    (hp : opPre i s = some r) : exec i s = .refused r := by
  rw [exec_start]
  simp [start, hb, hw, hp]

theorem arrayPreG_odd {s : State} (ho : s.a0.toNat % 2 = 1) : arrayPreG s = some .oddDestination := by
  simp [arrayPreG, ho]

theorem arrayPreG_below {s : State} (he : s.a0.toNat % 2 = 0) (hlt : s.a0.toNat < s.fas.base.toNat) :
    arrayPreG s = some .destinationBelowBase := by
  simp [arrayPreG, he, hlt]

theorem arrayPreG_short {s : State} (he : s.a0.toNat % 2 = 0) (hle : s.fas.base.toNat ≤ s.a0.toNat)
    (hs : s.src.halfWords.length < s.a1.toNat) : arrayPreG s = some .sourceTooShort := by
  simp [arrayPreG, he, Nat.not_lt.mpr hle, hs]

theorem arrayPreG_met {s : State} (he : s.a0.toNat % 2 = 0) (hle : s.fas.base.toNat ≤ s.a0.toNat)
    (hs : s.a1.toNat ≤ s.src.halfWords.length) : arrayPreG s = none := by
  simp [arrayPreG, he, Nat.not_lt.mpr hle, Nat.not_lt.mpr hs]

theorem arrayPreA_short {s : State} (hs : s.src.halfWords.length < s.a1.toNat) :
    arrayPreA s = some .sourceTooShort := by
  simp [arrayPreA, hs]

theorem arrayPreA_below {s : State} (hs : s.a1.toNat ≤ s.src.halfWords.length) (ha : s.a0.toNat % 128 = 0)
    (hlt : s.a0.toNat < s.fas.base.toNat) : arrayPreA s = some .destinationBelowBase := by
  simp [arrayPreA, Nat.not_lt.mpr hs, (misalignedA_eq_false_iff _).mpr ha, hlt]

theorem arrayPreA_met {s : State} (hs : s.a1.toNat ≤ s.src.halfWords.length) (hle : s.fas.base.toNat ≤ s.a0.toNat) :
    arrayPreA s = none := by
  simp [arrayPreA, Nat.not_lt.mpr hs, Nat.not_lt.mpr hle]

theorem pageParamBad_eq_false {a m : Word} (ha : a.toNat % 128 = 0) (hm : m.toNat ≤ 64) :
    pageParamBad a m = false := by
  rw [pageParamBad, (misalignedA_eq_false_iff _).mpr ha, Bool.false_or]
  exact decide_eq_false (Nat.not_lt.mpr hm)

theorem pagePre_short {s : State} (hs : s.src.halfWords.length < s.a1.toNat) : pagePre s = some .sourceTooShort := by
  simp [pagePre, hs]

theorem pagePre_outside {s : State} (hs : s.a1.toNat ≤ s.src.halfWords.length) (ha : s.a0.toNat % 128 = 0)
    (hm : s.a1.toNat ≤ 64) (hp : pageInArrayA s s.a0 = false) : pagePre s = some .pageOutsideFlash := by
  simp [pagePre, Nat.not_lt.mpr hs, pageParamBad_eq_false ha hm, hp]

/-- Settles O39: in each case the precondition names the refusal, and `exec_refused` gives it. -/
theorem preconditions : Obligations.Preconditions := by
  unfold Obligations.Preconditions
  intro s hb
  have inG {i : Instr} {r : Refusal} (hv : s.cfg.variant = .g) (hi : i.wf .g = true) (hp : opPre i s = some r) :
      exec i s = .refused r := exec_refused hb (hv ▸ hi) hp
  have inA {i : Instr} {r : Refusal} (hv : s.cfg.variant = .a) (hi : i.wf .a = true) (hp : opPre i s = some r) :
      exec i s = .refused r := exec_refused hb (hv ▸ hi) hp
  refine ⟨fun hv ho => inG hv rfl (arrayPreG_odd ho), fun hv he hlt => inG hv rfl (arrayPreG_below he hlt),
    fun hv he hle hs => inG hv rfl (arrayPreG_short he hle hs), fun hv hs => inA hv rfl (arrayPreA_short hs),
    fun hv hs ha hlt => inA hv rfl (arrayPreA_below hs ha hlt), fun hv hs => inA hv rfl (pagePre_short hs),
    fun hv hs ha hm hp => inA hv rfl (pagePre_outside hs ha hm hp), fun hv hp => inG hv rfl ?_,
    fun hv hp => inA hv rfl ?_, fun hs => exec_refused hb rfl ?_⟩
  · exact if_neg (by simp [pageInArray, hp])
  · exact if_neg (by simp [pageInArrayA, Config.pageBytes, hp])
  · exact if_pos hs

end Sys2Proof.Machine
end

section
/-! ## Operations that end as their plain run does -/

namespace Sys2Proof.Machine

/-- The same state with the sequencer at rest. -/
def State.rested (s : State) : State := { s with seq := .idle, busy := false, tmp := Tmp.init }

theorem State.rested_eq {s : State} (hs : s.seq = .idle) (hb : s.busy = false) (ht : s.tmp = Tmp.init) :
    s.rested = s := by
  obtain ⟨⟩ := s
  subst hs hb ht
  rfl

/-- Between operations the sequencer is at rest. -/
theorem State.Inv.idle_fields {s : State} (h : s.Inv) (hb : s.busy = false) : s.seq = .idle ∧ s.tmp = Tmp.init :=
  ⟨h.idle_of_notBusy hb, (h.idle (h.idle_of_notBusy hb)).2.2⟩

/-- An uninterrupted operation whose plain run, for all fault draws, leaves `u` and hands `frames` to the ring, ends as
`u` up to the transmit side. -/
theorem exec_ends {s u : State} {i : Instr} {frames : List (List Byte)} (h : s.Ready)
    (hw : i.wf s.cfg.variant = true) (hp : opPre i s = none) (hok : OkAfter s.cfg s.fas (opLines i s))
    (hf : FramedTail (opLines i s)) (hu : u.cfg = s.cfg ∧ u.seq = s.seq ∧ u.busy = s.busy ∧ u.tmp = s.tmp)
    (hrun : ∀ ds, plainRun ds (opLines i s) 0 (s.begin i (opLines i s)).core [] =
      some (u.rested.core, frames.reverse)) :
    ∃ t, exec i s = .next t ∧ Streamed frames s t ∧ TxFrame u t := by
  obtain ⟨hinv, hb, hq⟩ := h
  obtain ⟨hcfg, hseq, hbusy, htmp⟩ := hu
  obtain ⟨hs0, ht0⟩ := hinv.idle_fields hb
  obtain ⟨ds, t, fr, ht, hplain, hstored, htinv, htseq, -⟩ := start_plain hinv hb hq (opLines i s) hw hp hok hf
  rw [hrun ds, State.rested_eq (hseq.trans hs0) (hbusy.trans hb) (htmp.trans ht0), Option.some.injEq,
    Prod.mk.injEq] at hplain
  obtain ⟨hcore, rfl⟩ := hplain
  have htcfg : t.cfg = s.cfg := by rw [← State.core_cfg t, ← hcore, State.core_cfg, hcfg]
  have hst := streamed_of_stored htcfg hstored
  rw [List.reverse_reverse] at hst
  have httmp : t.tmp = u.tmp := (htinv.idle htseq).2.2.trans (htmp.trans ht0).symm
  exact ⟨t, by rw [exec_start]; exact ht, hst, txFrame_of_core hcore.symm (htseq.trans (hseq.trans hs0).symm) httmp⟩

theorem TxFrame.res {s t : State} (h : TxFrame s t) : t.res = s.res := by rw [h]; rfl

theorem TxFrame.flash {s t : State} (h : TxFrame s t) : t.flash = s.flash := by rw [h]; rfl

/-! ## Lock and unlock, variant A -/

/-- Between operations no key sequence is half written (spec/10_state.md R47). -/
theorem State.Inv.keyseq_rest {s : State} (h : s.Inv) (hb : s.busy = false) : s.fc.keyseq = 0 ∨ s.fc.keyseq = 4 := by
  obtain ⟨-, hclean, -⟩ := h.idle (h.idle_of_notBusy hb)
  obtain ⟨-, -, -, -, hkey, -⟩ := s.ctl.clean_iff.mp hclean
  exact hkey

theorem plainRun_keyWrite {s : State} {r : KeyReg} {v : Word}
    (hk : expectedKey s.cfg (if s.fc.keyseq ≥ 4 then 0 else s.fc.keyseq) = (r, v)) (ds : List (Bool × Bool))
    (rest : List Line) (fr : List (List Byte)) :
    plainRun ds (.keyWrite r v :: rest) 0 s fr = plainRun ds rest 0 (s.keyed r v) fr := by
  rw [plainRun_line ds rfl rfl, runLine, writeKey_eq hk]

/-- The four key writes of `flash_unlock` (spec/41_flash_alternate.md R141). -/
def keyLines (c : Config) : List Line :=
  [.keyWrite .main c.key1, .keyWrite .main c.key2, .keyWrite .mode c.key1, .keyWrite .mode c.key2]

/-- The state after them. -/
def State.unlockedA (s : State) : State :=
  { s with
    keyr := s.cfg.key2
    modekeyr := s.cfg.key2
    fc := { s.fc with locked := false, keyseq := 4 }
    ctlr := { s.ctlr with lock := false } }

/-- From the start of a key sequence each of the four keys is the expected one (spec/10_state.md R47). -/
theorem plainRun_keyLines {s : State} (hk : s.fc.keyseq = 0 ∨ s.fc.keyseq = 4) (ds : List (Bool × Bool))
    (rest : List Line) (fr : List (List Byte)) :
    plainRun ds (keyLines s.cfg ++ rest) 0 s fr = plainRun ds rest 0 s.unlockedA fr := by
  simp only [keyLines, List.cons_append, List.nil_append]
  rcases hk with hk | hk
  all_goals
    rw [plainRun_keyWrite (by simp [expectedKey, hk]), plainRun_keyWrite (by simp [expectedKey, State.keyed, hk]),
      plainRun_keyWrite (by simp [expectedKey, State.keyed, hk]),
      plainRun_keyWrite (by simp [expectedKey, State.keyed, hk])]
    simp [State.keyed, State.unlockedA, hk]

/-- Settles O34: from rest the four keys unlock the controller, and the frame of one byte follows. -/
theorem unlockA : Obligations.UnlockA := by
  unfold Obligations.UnlockA
  intro s ⟨hinv, hb, hv, hq⟩
  have hframed : FramedTail (keyLines s.cfg ++ (emit statusU ++ [.ret 1])) :=
    ((framedTail_ret 1).emit statusU).append (by simp [keyLines, Line.inEnqueue, Line.branch?])
  refine exec_ends ⟨hinv, hb, hq⟩ (by rw [hv]; rfl) rfl (okAfter_unlockA hv) hframed ⟨rfl, rfl, rfl, rfl⟩ fun ds => ?_
  have hkeys := plainRun_keyLines (s := (s.begin .flashUnlockA (opLines .flashUnlockA s)).core) (hinv.keyseq_rest hb) ds
    (emit statusU ++ [.ret 1]) []
  exact hkeys.trans (plainRun_emit ds statusU [.ret 1] _ [])

/-- Settles O35: the lock bit is set, and the frame of one byte follows. -/
theorem lockA : Obligations.LockA := by
  unfold Obligations.LockA
  intro s ⟨hinv, hb, hv, hq⟩
  have hframed : FramedTail (.ctlSet .lock :: (emit statusL ++ [.ret 1])) :=
    ((framedTail_ret 1).emit statusL).cons rfl rfl
  exact exec_ends ⟨hinv, hb, hq⟩ (by rw [hv]; rfl) rfl (okAfter_lockA hv) hframed ⟨rfl, rfl, rfl, rfl⟩ fun ds =>
    plainRun_emit ds statusL [.ret 1] _ []

/-! ## No capacity -/

/-- With `FAS.end` below `FAS.base` the size is 0 (spec/10_state.md R28, spec/42_verify_and_capacity.md R174). -/
theorem getMax_zero {s : State} (h : s.Ready) (he : s.fas.endAddr.toNat < s.fas.base.toNat) :
    ∃ t, exec .getMaxFirmwareSize s = .next t ∧ t.res = 0 := by
  obtain ⟨t, ht, -, hframe⟩ := exec_ends (i := .getMaxFirmwareSize) (frames := [])
    (u := { s with res := firmwareSize s.fas, ill := false, cause := none }) h rfl rfl okAfter_getMax
    (framedTail_nil.cons rfl rfl) ⟨rfl, rfl, rfl, rfl⟩ fun ds => rfl
  exact ⟨t, ht, hframe.res.trans (if_neg (Nat.not_le.mpr he))⟩

/-- A first half-word at or beyond `FAS.end` fails before the array is touched (spec/40_flash_generic.md R126 line 4). -/
theorem loopG_beyond {d : Word} {vs : List Half} {s : State} (hv : vs ≠ []) (he : s.fas.endAddr.toNat ≤ d.toNat) :
    loopG d vs s = s.raiseFail .param := by
  cases vs with
  | nil => exact absurd rfl hv
  | cons v vs => rw [loopG, if_pos he]

/-- A first page at or beyond `FAS.end` fails before the array is touched (spec/41_flash_alternate.md R156 line 6). -/
theorem loopA_beyond {upper : Bool} {ds : List (Bool × Bool)} {dest : Word} {data : List Half} {n : Nat} {s : State}
    (hn : n ≠ 0) (he : s.fas.endAddr.toNat ≤ dest.toNat) (fr : List (List Byte)) :
    loopA upper ds (pagesFrom dest data 0 n) s fr = (s.raiseFail .param, fr) := by
  cases n with
  | zero => exact absurd rfl hn
  | succ n => rw [pagesFrom_succ, loopA, if_pos (by simpa using he)]

theorem pagesOf_ne_zero {n : Nat} (hn : n ≠ 0) : pagesOf n ≠ 0 := by
  rw [pagesOf, Config.pageBufHalves]
  omega

theorem toNat_ne_zero_of_ne {w : Word} (h : w ≠ 0) : w.toNat ≠ 0 := fun h0 => h (BitVec.eq_of_toNat_eq h0)

/-- A request of variant G at or beyond `FAS.end` fails with the array as it was. -/
theorem arrayG_beyond {s : State} (h : s.ReadyIn .g) (hp : arrayPreG s = none) (h1 : s.a1 ≠ 0)
    (he : s.fas.endAddr.toNat ≤ s.a0.toNat) :
    ∃ t, exec .flashProgramArrayG s = .next t ∧ t.res = 0 ∧ t.flash = s.flash := by
  obtain ⟨-, -, hlen⟩ := arrayPreG_none hp
  have hne : s.operandHalves ≠ [] := by
    rw [ne_eq, ← List.length_eq_zero_iff, State.operandHalves_length hlen]
    exact toNat_ne_zero_of_ne h1
  obtain ⟨t, ht, hcore, -⟩ := arrayG_ends h hp
  rw [loopG_beyond (s := (s.begin .flashProgramArrayG (arrayLinesG s)).core) hne he] at hcore
  exact ⟨t, ht, (congrArg State.res hcore :), (congrArg State.flash hcore :)⟩

/-- An aligned request of variant A at or beyond `FAS.end` fails with the array as it was. -/
theorem arrayA_beyond {s : State} (h : s.ReadyIn .a) (hp : arrayPreA s = none) (ha : misalignedA s.a0 = false)
    (h1 : s.a1 ≠ 0) (he : s.fas.endAddr.toNat ≤ s.a0.toNat) :
    ∃ t, exec .flashProgramArrayA s = .next t ∧ t.res = 0 ∧ t.flash = s.flash := by
  obtain ⟨t, ds, ht, hcore, -⟩ := arrayA_ends h hp ha
  rw [loopA_beyond (s := (s.begin .flashProgramArrayA (arrayLinesA s)).core) (pagesOf_ne_zero (toNat_ne_zero_of_ne h1)) he]
    at hcore
  exact ⟨t, ht, (congrArg State.res hcore :), (congrArg State.flash hcore :)⟩

/-- A misaligned request of variant A fails with the array as it was (spec/20_memory.md R64). -/
theorem arrayA_misaligned {s : State} (h : s.ReadyIn .a) (hp : arrayPreA s = none) (ha : misalignedA s.a0 = true) :
    ∃ t, exec .flashProgramArrayA s = .next t ∧ Streamed [sessionFrame s.a1] s t ∧
      TxFrame { s with res := 0, ill := false, cause := some .param } t := by
  obtain ⟨hinv, hb, hv, hq⟩ := h
  refine exec_ends ⟨hinv, hb, hq⟩ (by rw [hv]; rfl) hp (okAfter_arrayA hinv.base hv hp) (framed_arrayA s)
    ⟨rfl, rfl, rfl, rfl⟩ fun ds => ?_
  have hlines : opLines .flashProgramArrayA s = emit (sessionFrame s.a1) ++ [.fail .param] := by
    rw [opLines, arrayLinesA, if_pos ha]
  rw [hlines]
  exact plainRun_emit ds (sessionFrame s.a1) [.fail .param] _ []

/-- Settles O55: the size is 0 by `firmwareSize`, and a destination from `FAS.base` on is beyond `FAS.end`. -/
theorem zeroCapacity : Obligations.ZeroCapacity := by
  unfold Obligations.ZeroCapacity
  intro s h he
  obtain ⟨hinv, hb, hq⟩ := h
  refine ⟨getMax_zero ⟨hinv, hb, hq⟩ he, fun h1 hlen hdest => ⟨fun hv heven => ?_, fun hv => ?_⟩⟩
  · exact arrayG_beyond ⟨hinv, hb, hv, hq⟩ (arrayPreG_met heven hdest hlen) h1 (by omega)
  · have hp := arrayPreA_met hlen hdest
    cases ha : misalignedA s.a0 with
    | false => exact arrayA_beyond ⟨hinv, hb, hv, hq⟩ hp ha h1 (by omega)
    | true =>
      obtain ⟨t, ht, -, hframe⟩ := arrayA_misaligned ⟨hinv, hb, hv, hq⟩ hp ha
      exact ⟨t, ht, hframe.res, hframe.flash⟩

end Sys2Proof.Machine
end

section
/-! ## A locked controller -/

namespace Sys2Proof.Machine

/-- The controller is locked, and the array, the page buffer and the staging slots are those of `s0`. -/
def LockedAs (s0 s : State) : Prop :=
  s.flash = s0.flash ∧ s.fc.pbuf = s0.fc.pbuf ∧ s.fc.stage = s0.fc.stage ∧ s.fc.locked = true

theorem LockedAs.congr {s0 s t : State} (h : LockedAs s0 s) (hf : t.flash = s.flash) (hc : t.fc = s.fc) :
    LockedAs s0 t := by
  rwa [LockedAs, hf, hc]

/-- On a locked controller a cycle completes and changes nothing (spec/20_memory.md R77). -/
theorem LockedAs.complete {s0 s : State} (h : LockedAs s0 s) (pg wp : Bool) : LockedAs s0 (s.complete pg wp) := by
  obtain ⟨hflash, hpbuf, hstage, hlocked⟩ := h
  unfold State.complete
  cases s.fc.pending with
  | none => exact ⟨hflash, hpbuf, hstage, hlocked⟩
  | erase p => exact ⟨(if_pos hlocked).trans hflash, hpbuf, hstage, hlocked⟩
  | progHalf a v => exact ⟨(if_pos hlocked).trans hflash, hpbuf, hstage, hlocked⟩
  | bufReset =>
    rw [State.completeBufReset, if_pos hlocked]
    exact ⟨hflash, hpbuf, hstage, hlocked⟩
  | bufLoad =>
    rw [State.completeBufLoad, if_pos hlocked]
    exact ⟨hflash, hpbuf, hstage, hlocked⟩
  | program p => exact ⟨(if_pos hlocked).trans hflash, (if_pos hlocked).trans hpbuf, hstage, hlocked⟩

theorem LockedAs.fctlTurn {s0 s : State} (h : LockedAs s0 s) (pg wp : Bool) : LockedAs s0 (s.fctlTurn pg wp) := by
  unfold State.fctlTurn
  split
  · exact h.complete pg wp
  · exact h

theorem lockedAs_kept (s0 : State) : KeptByTurns (LockedAs s0) where
  sched _ _ h := h
  irq _ h := h.congr (by simp) (by simp)
  uart _ h := h.congr (by simp) (by simp)
  fctl pg wp _ h := h.fctlTurn pg wp
  pin _ _ h := h
  stick _ h := h
  free _ h _ := h.complete _ _

theorem lockedAs_keptByPort (s0 : State) : KeptByPort (LockedAs s0) where
  seq _ _ h := h
  accept _ _ _ h := h
  start _ _ _ h := h
  illegal _ h := h

theorem Flow.Always.and {P Q : State → Prop} {f : Flow} (hP : f.Always P) (hQ : f.Always Q) :
    f.Always fun t => P t ∧ Q t := by
  cases f with
  | go t => exact ⟨hP, hQ⟩
  | skip n t => exact ⟨hP, hQ⟩
  | done t => exact ⟨hP, hQ⟩
  | fault r => trivial
  | refuse r => trivial

/-- No line writes the array or the page buffer; on a locked controller none but an unlock writes the rest. -/
theorem LockedAs.runLine {l : Line} {s0 s : State} (h : LockedAs s0 s) (hl : l.unlocks = false) :
    (runLine l s).Always (LockedAs s0) := by
  obtain ⟨hflash, hpbuf, hstage, hlocked⟩ := h
  refine ((runLine_frame l s).and (runLine_locked hl hlocked)).imp fun t ⟨hframe, hlocked', hstage'⟩ => ?_
  exact ⟨hframe.flash.trans hflash, hframe.pbuf.trans hpbuf, hstage'.trans hstage, hlocked'⟩

/-- Of an operation other than the two `flash_unlock` no line opens write access. -/
theorem unlocks_of_allowed {i : Instr} {l : Line} (h : l.allowed i = true) (hg : i ≠ .flashUnlockG)
    (ha : i ≠ .flashUnlockA) : l.unlocks = false :=
  Bool.eq_false_iff.mpr fun hu => (allowed_unlocks h hu).elim hg ha

/-- Settles O36: neither a completion nor a line of another operation changes what a locked controller guards. -/
theorem lockedChangesNothing : Obligations.LockedChangesNothing := by
  unfold Obligations.LockedChangesNothing
  refine ⟨fun i s t hk hr hg ha hex => ?_, fun s t hon hk hr hg ha ht => ?_⟩
  · exact exec_always (lockedAs_kept s) (lockedAs_keptByPort s).seq
      (fun l hl u hu => hu.runLine (unlocks_of_allowed (opLines_allowed hl) hg ha)) ⟨rfl, rfl, rfl, hk⟩
      (resetSafe_of_all hr) hex
  · refine step_always (lockedAs_kept s) (lockedAs_keptByPort s) (fun l hl u hu => ?_) ⟨rfl, rfl, rfl, hk⟩
      (resetSafe_of_all hr) ht
    obtain ⟨i, hi, hallowed⟩ := program_allowed hon hl
    exact hu.runLine (unlocks_of_allowed hallowed (fun he => hg (he ▸ hi)) fun he => ha (he ▸ hi))

end Sys2Proof.Machine
end

section
/-! ## What stops a step, and what ends a wait -/

namespace Sys2Proof.Machine

theorem outcomeSat.imp {P P' : State → Prop} {Q Q' : Refusal → Prop} {o : Outcome} (h : outcomeSat P Q o)
    (hP : ∀ t, P t → P' t) (hQ : ∀ r, Q r → Q' r) : outcomeSat P' Q' o := by
  cases o with
  | next t => exact hP t h
  | fault r => exact h
  | refused r => exact hQ r h

/-- From a sound state a step answers a state, or a refusal that the host has brought about. -/
theorem step_sound {s : State} (h : s.Inv) : outcomeSat (fun _ => True) (fun r => r.hostMade = true) (step s) := by
  have hw := h.base.cfg
  cases hs : s.seq with
  | running i lines =>
    rw [step, State.poll_running hw hs]
    exact (runLines_sound i lines 0 s (h.going hs)).imp (fun _ _ => trivial) fun r hr => by rw [hr]; rfl
  | idle =>
    cases hi : s.inbox with
    | nil =>
      rw [step, State.poll_idle hw hs hi]
      trivial
    | cons c rest =>
      rw [step, State.poll_issue hw hs hi]
      cases hd : decode s.cfg.variant c.op with
      | op i => exact (exec_sound (h.accept c rest) i (wf_of_decode hd)).imp (fun _ _ => trivial) fun _ hr => hr
      | illegal why => trivial

/-- Settles O10, by `step_sound`. -/
theorem stepStopsOnlyForHost : Obligations.StepStopsOnlyForHost := by
  unfold Obligations.StepStopsOnlyForHost
  intro s h
  have hsat := step_sound h
  cases hstep : step s with
  | next t => exact .inl ⟨t, rfl⟩
  | fault r =>
    rw [hstep] at hsat
    exact hsat.elim
  | refused r =>
    rw [hstep] at hsat
    exact .inr ⟨r, rfl, hsat⟩

theorem true_kept : KeptByTurns fun _ => True where
  sched _ _ _ := trivial
  irq _ _ := trivial
  uart _ _ := trivial
  fctl _ _ _ _ := trivial
  pin _ _ _ := trivial
  stick _ _ := trivial
  free _ _ _ := trivial

/-- A line that is taken after its wait is enabled there. -/
theorem lineEnabled_of_ready {l : Line} {sched : List Turn} {s t : State} (h : await l sched s = .ready t) :
    lineEnabled l t = true := by
  have hend := await_keeps true_kept l sched s trivial
  rw [h] at hend
  exact hend.2

/-- Settles O28: a hold is enabled only with the busy flag 0. -/
theorem holdWaitsForNotBusy : Obligations.HoldWaitsForNotBusy := by
  unfold Obligations.HoldWaitsForNotBusy
  intro l s t hl ht
  simpa [lineEnabled, State.statrBsy, hl] using lineEnabled_of_ready ht

end Sys2Proof.Machine
end

section
/-! ## Flash reads -/

namespace Sys2Proof.Machine

theorem memRead16_stale {s : State} (a : Word) (hs : s.readStale = true) :
    memRead16 a s = .value (Config.freeHalf s.draws) { s with draws := s.draws + 1 } := by
  rw [memRead16, if_pos hs]

theorem memRead32_fresh {s : State} {a : Word} (hs : s.readStale = false) (ha : a.toNat % 4 = 0)
    (hin : s.inArray a 4 = true) : memRead32 a s = .value (Memory.readWord s.flash a.toNat) s := by
  simp [memRead32, hs, ha, hin]

theorem halfOfBytes_setWidth (b0 b1 : Byte) :
    (halfOfBytes b0 b1).setWidth 32 = b0.setWidth 32 ||| (b1.setWidth 32 <<< 8) := by
  ext i hi
  simp only [halfOfBytes, BitVec.getElem_setWidth, BitVec.getLsbD_or, BitVec.getLsbD_setWidth, BitVec.getLsbD_shiftLeft,
    BitVec.getElem_or, BitVec.getElem_shiftLeft]
  by_cases h8 : i < 8
  · simp [h8]
    omega
  · have h0 : b0.getLsbD i = false := BitVec.getLsbD_of_ge _ _ (by omega)
    by_cases h16 : i < 16
    · simp [h8, h16, h0, show i - 8 < 16 by omega]
    · simp [h8, h16, h0, BitVec.getLsbD_of_ge b1 (i - 8) (by omega)]

/-- A word is its four bytes, the one at the lowest address first (spec/20_memory.md R61). -/
theorem wordOfHalves_halfOfBytes (b0 b1 b2 b3 : Byte) :
    wordOfHalves (halfOfBytes b0 b1) (halfOfBytes b2 b3) =
      (b0.setWidth 32 ||| (b1.setWidth 32 <<< 8) ||| (b2.setWidth 32 <<< 16) ||| (b3.setWidth 32 <<< 24)) := by
  rw [wordOfHalves, halfOfBytes_setWidth, halfOfBytes_setWidth, BitVec.shiftLeft_or_distrib, ← BitVec.shiftLeft_add,
    BitVec.or_comm, BitVec.or_assoc (_ ||| _)]

/-- Settles O26: a fresh read is the array's bytes, a stale one the next free value. -/
theorem flashRead : Obligations.FlashRead := by
  unfold Obligations.FlashRead
  refine ⟨fun s a hs ha hin => memRead16_fresh hs ha hin, fun s a hs ha hin => ?_,
    fun s a hs => ⟨memRead16_stale a hs, memRead32_stale a hs⟩⟩
  rw [memRead32_fresh hs ha hin, Memory.readWord, Memory.readHalf, Memory.readHalf, wordOfHalves_halfOfBytes]

/-- Settles O27: `refreshRead` reads at the partner address, and a read changes nothing but the count of draws. -/
theorem refresh : Obligations.Refresh := by
  unfold Obligations.Refresh
  intro x s t h
  refine ⟨?_, rfl⟩
  rw [runLine, refreshRead] at h
  cases hm : memRead32 (refreshPartner x) s with
  | absent r =>
    rw [hm] at h
    cases h
  | value w u =>
    rw [hm] at h
    have hu := memRead32_frame hm
    refine ⟨w, u, hm, hu, ?_⟩
    rw [← Flow.go.inj h, hu]

end Sys2Proof.Machine
end

section
/-! ## Erase -/

namespace Sys2Proof.Machine

/-- The bytes after an erase, which a locked controller ignores (spec/20_memory.md R72, R77). -/
theorem Memory.read_erase_unlessLocked (locked : Bool) (m : Memory) (p n a : Nat) :
    Memory.read (if locked then m else Memory.erase m p n) a =
      if locked = false ∧ p ≤ a ∧ a < p + n then 0xFF else Memory.read m a := by
  cases locked with
  | true => simp
  | false => simp [Memory.read_erase, erasedByte]

/-- Settles O37: the plain run is one erase cycle of the page, then the return. -/
theorem erasePageG : Obligations.ErasePageG := by
  unfold Obligations.ErasePageG
  intro s ⟨hinv, hb, hv, hq⟩ hin
  have hpre : opPre .flashErasePageG s = none := if_pos hin
  obtain ⟨t, ht, hst, hframe⟩ := exec_ends (i := .flashErasePageG) (frames := [])
    (u := { s with
      flash := if s.fc.locked then s.flash
        else Memory.erase s.flash (pageStart s.fas.pageSize s.a0).toNat s.cfg.pageSize.toNat
      res := 1, ill := false, cause := none })
    ⟨hinv, hb, hq⟩ (by rw [hv]; rfl) hpre (okAfter_erasePageG hv hin)
    (((framedTail_ret 1).cons rfl rfl).cons rfl rfl) ⟨rfl, rfl, rfl, rfl⟩ fun ds =>
      plainRun_gErase ((hinv.restG hb hv).begin _ _) hin ds [.ret 1] []
  have hflash := hframe.flash
  refine ⟨t, ht, hst, by rw [hflash]; exact hframe, fun a => ?_⟩
  rw [hflash, hinv.base.fasPageSize]
  exact Memory.read_erase_unlessLocked _ _ _ _ _

/-- Settles O38: the plain run is `ErasePageA` (R146), then the return. -/
theorem erasePageA : Obligations.ErasePageA := by
  unfold Obligations.ErasePageA
  intro s ⟨hinv, hb, hv, hq⟩ hin
  have hpre : opPre .flashErasePageA s = none := if_pos hin
  have hrest := hinv.restA hb hv
  have hctlr : ({ s.ctlr with strt := Config.freeBit s.draws } : Ctlr) =
      { s.ctlr with per := false, strt := Config.freeBit s.draws } := by simp only [hrest.per]
  obtain ⟨t, ht, hst, hframe⟩ := exec_ends (i := .flashErasePageA) (frames := [statusE])
    (u := { s with
      flash := if s.fc.locked then s.flash else Memory.erase s.flash (pageOfA s.a0).toNat s.cfg.pageSize.toNat
      ctlr := { s.ctlr with strt := Config.freeBit s.draws }
      addr := pageOfA s.a0, cachectl := Config.freeWord (s.draws + 1), draws := s.draws + 2
      res := 1, ill := false, cause := none })
    ⟨hinv, hb, hq⟩ (by rw [hv]; rfl) hpre (okAfter_erasePageA hv hin)
    (framedTail_ret 1).erasePageLines ⟨rfl, rfl, rfl, rfl⟩ fun ds => by
      rw [hctlr]
      exact plainRun_erasePage (hrest.begin _ _) hin ds [.ret 1] []
  have hflash := hframe.flash
  refine ⟨t, ht, hst, ?_, fun a => ?_⟩
  · rw [hframe]
    rfl
  · rw [hflash, hinv.base.pageBytes hv]
    exact Memory.read_erase_unlessLocked _ _ _ _ _

/-! ## The loop of variant G on a locked controller -/

/-- On a locked controller each pass compares the half-word that is there (spec/40_flash_generic.md R129 (h)). -/
theorem loopG_locked_res {d : Word} {vs : List Half} {s : State} (hl : s.fc.locked = true)
    (he : d.toNat + 2 * vs.length ≤ s.fas.endAddr.toNat) (hroom : s.fas.endAddr.toNat + 2 ≤ 2 ^ 32) :
    (loopG d vs s).res = 1 ↔ matchesAt s.flash d vs = true := by
  induction vs generalizing d s with
  | nil => exact ⟨fun _ => rfl, fun _ => rfl⟩
  | cons v vs ih =>
    rw [List.length_cons] at he
    have hd : (d + 2).toNat = d.toNat + 2 := toNat_add_two (by omega)
    rw [loopG, if_neg (by omega), State.passed_locked hl, matchesAt]
    by_cases hv : Memory.readHalf s.flash d.toNat = v
    · rw [if_pos hv, ih (s := s.passed d v) (by simpa using hl) (by rw [hd, State.passed_fas]; omega)
        (by simpa using hroom), State.passed_locked hl]
      simp [hv]
    · rw [if_neg hv]
      simp [hv, State.raiseFail, State.finish]

/-- Settles O46: the call ends as its loop does, which leaves the array and compares it with the source. -/
theorem arrayGLocked : Obligations.ArrayGLocked := by
  unfold Obligations.ArrayGLocked
  intro s h heven hbase hend hlen hl
  obtain ⟨t, ht, hcore, -⟩ := arrayG_ends h (arrayPreG_met heven hbase hlen)
  have hflash : t.flash = s.flash := (congrArg State.flash hcore).trans (loopG_locked _ _ hl)
  have hroom := h.1.base.end_room
  have hpage := h.1.base.geometry.pageSize_pos
  have htwo := Nat.le_of_dvd hpage h.1.base.geometry.two_dvd
  have hn := State.operandHalves_length hlen
  have hres : t.res = 1 ↔ matchesAt s.flash s.a0 s.operandHalves = true :=
    (congrArg (fun u => State.res u = 1) hcore).to_iff.trans
      (loopG_locked_res hl (by rw [hn]; exact hend) (show s.fas.endAddr.toNat + 2 ≤ 2 ^ 32 by omega))
  refine ⟨t, ht, hflash, hres.trans ((matchesAt_iff _ _ _ (by omega)).trans ⟨fun hm i v hv => ?_, fun hm i hi => ?_⟩)⟩
  · obtain ⟨hi, rfl⟩ := List.getElem?_eq_some_iff.mp hv
    exact hm i hi
  · exact hm i _ (List.getElem?_eq_getElem hi)

/-! ## Variant A: requests that end before the array is touched -/

theorem pageParamBad_of {a m : Word} (h : a.toNat % 128 ≠ 0 ∨ 64 < m.toNat) : pageParamBad a m = true := by
  rw [pageParamBad, Bool.or_eq_true, misalignedA_iff, decide_eq_true_eq]
  exact h

theorem pagePre_rejected {s : State} (hlen : s.a1.toNat ≤ s.src.halfWords.length) (hbad : pageParamBad s.a0 s.a1 = true) :
    pagePre s = none := by
  rw [pagePre, if_neg (Nat.not_lt.mpr hlen), if_pos hbad]

/-- Settles O47: the parameter test fails and nothing else runs (spec/41_flash_alternate.md R150 line 1). -/
theorem pageRejected : Obligations.PageRejected := by
  unfold Obligations.PageRejected
  intro s ⟨hinv, hb, hv, hq⟩ hparam hlen
  have hbad := pageParamBad_of hparam
  have hpre := pagePre_rejected hlen hbad
  have hlines : opLines .flashProgramPage s = [.fail .param, .ret 1] := by
    rw [opLines, programPageLines, if_pos hbad]
    rfl
  refine exec_ends (i := .flashProgramPage) ⟨hinv, hb, hq⟩ (by rw [hv]; rfl) hpre (okAfter_programPage hinv.base hv hpre)
    (framed_programPage s) ⟨rfl, rfl, rfl, rfl⟩ fun ds => ?_
  rw [hlines]
  rfl

theorem arrayPreA_misaligned {s : State} (hlen : s.a1.toNat ≤ s.src.halfWords.length) (ha : misalignedA s.a0 = true) :
    arrayPreA s = none := by
  rw [arrayPreA, if_neg (Nat.not_lt.mpr hlen), if_pos ha]

theorem State.operandHalves_of_zero {s : State} (h : s.a1 = 0) : s.operandHalves = [] := by
  rw [State.operandHalves, h]
  rfl

/-- With no half-words the loop is empty (spec/41_flash_alternate.md R158 (a)). -/
theorem arrayA_empty {s : State} (h : s.ReadyIn .a) (hp : arrayPreA s = none) (ha : misalignedA s.a0 = false)
    (h1 : s.a1 = 0) :
    ∃ t, exec .flashProgramArrayA s = .next t ∧ Streamed [sessionFrame s.a1] s t ∧
      TxFrame { s with res := 1, ill := false, cause := none } t := by
  obtain ⟨hinv, hb, hv, hq⟩ := h
  have hlines : opLines .flashProgramArrayA s = emit (sessionFrame s.a1) ++ [.ret 1] := by
    rw [opLines, arrayLinesA, if_neg (by simp [ha]), State.operandHalves_of_zero h1]
    rfl
  refine exec_ends ⟨hinv, hb, hq⟩ (by rw [hv]; rfl) hp (okAfter_arrayA hinv.base hv hp) (framed_arrayA s)
    ⟨rfl, rfl, rfl, rfl⟩ fun ds => ?_
  rw [hlines]
  exact plainRun_emit ds (sessionFrame s.a1) [.ret 1] _ []

/-- A state that an operation has ended in is known up to the transmit side by its core. -/
theorem State.Inv.txFrame_of_core {t u : State} (h : t.Inv) (ht : t.seq = .idle) (hc : t.core = u.core)
    (hu : u.seq = .idle ∧ u.tmp = Tmp.init) : TxFrame u t :=
  Machine.txFrame_of_core hc (ht.trans hu.1.symm) ((h.idle ht).2.2.trans hu.2.symm)

/-- A first page at or beyond `FAS.end` fails (spec/41_flash_alternate.md R158 (c)). -/
theorem arrayA_beyond_frame {s : State} (h : s.ReadyIn .a) (hp : arrayPreA s = none) (ha : misalignedA s.a0 = false)
    (h1 : s.a1 ≠ 0) (he : s.fas.endAddr.toNat ≤ s.a0.toNat) :
    ∃ t, exec .flashProgramArrayA s = .next t ∧ Streamed [sessionFrame s.a1] s t ∧
      TxFrame { s with res := 0, ill := false, cause := some .param } t := by
  obtain ⟨hs0, ht0⟩ := h.1.idle_fields h.2.1
  have hrested := State.rested_eq (s := { s with res := 0, ill := false, cause := some .param }) hs0 h.2.1 ht0
  obtain ⟨t, ds, ht, hcore, -, hst, htinv, htseq, -⟩ := arrayA_ends h hp ha
  rw [loopA_beyond (s := (s.begin .flashProgramArrayA (arrayLinesA s)).core) (pagesOf_ne_zero (toNat_ne_zero_of_ne h1)) he]
    at hcore hst
  refine ⟨t, ht, hst, htinv.txFrame_of_core htseq (hcore.trans ?_) ⟨hs0, ht0⟩⟩
  exact congrArg State.core hrested

/-- Settles O53, case by case: the test of alignment, the empty loop, the first page's bound. -/
theorem arrayANothingDone : Obligations.ArrayANothingDone := by
  unfold Obligations.ArrayANothingDone
  intro s h hlen
  refine ⟨fun hmis => ?_, fun hal hbase h1 => ?_, fun hal hbase h1 he => ?_⟩
  · have ha := (misalignedA_iff _).mpr hmis
    exact arrayA_misaligned h (arrayPreA_misaligned hlen ha) ha
  · exact arrayA_empty h (arrayPreA_met hlen hbase) ((misalignedA_eq_false_iff _).mpr hal) h1
  · exact arrayA_beyond_frame h (arrayPreA_met hlen hbase) ((misalignedA_eq_false_iff _).mpr hal) h1 he

end Sys2Proof.Machine
end

section
/-! ## `flash_program_page` on accepted parameters -/

namespace Sys2Proof.Machine

/-- The loads of a page request write two bits of `CTLR`. -/
theorem State.loadedA_ctlr (a : Word) (data : List Half) (ks : List Nat) (s : State) :
    (s.loadedA a data ks).ctlr = { s.ctlr with
      ppg := (s.loadedA a data ks).ctlr.ppg
      bufload := (s.loadedA a data ks).ctlr.bufload } := by
  induction ks generalizing s with
  | nil => rfl
  | cons k ks ih => exact ih (s.batchA (a + BitVec.ofNat 32 (16 * k)) (batchOf data k))

/-- `s` but for what a page request at `a` may write, which is as in `e`; the error flags are clear
(spec/41_flash_alternate.md R150, R152). -/
def State.withPage (e : State) (a : Word) (s : State) : State :=
  { s with
    flash := e.flash, addr := a, fc := { s.fc with pbuf := e.fc.pbuf }
    ctlr := { s.ctlr with bufrst := e.ctlr.bufrst, bufload := e.ctlr.bufload, strt := e.ctlr.strt }
    statr := { s.statr with pgerr := false, wrprterr := false }
    cachectl := e.cachectl, draws := e.draws, res := e.res, ill := false, cause := e.cause }

/-- A page request leaves alone what `State.withPage` does not name, beside the error flags and the temporaries. -/
theorem State.pagedA_frame {s : State} (h : RestA s) (pg wp : Bool) (a : Word) (data : List Half) :
    s.pagedA pg wp a data = { s with
      flash := (s.pagedA pg wp a data).flash, addr := a
      fc := { s.fc with pbuf := (s.pagedA pg wp a data).fc.pbuf }
      ctlr := { s.ctlr with
        bufrst := (s.pagedA pg wp a data).ctlr.bufrst
        bufload := (s.pagedA pg wp a data).ctlr.bufload
        strt := (s.pagedA pg wp a data).ctlr.strt }
      statr := { s.statr with
        pgerr := (s.pagedA pg wp a data).statr.pgerr
        wrprterr := (s.pagedA pg wp a data).statr.wrprterr }
      tmp := (s.pagedA pg wp a data).tmp
      cachectl := (s.pagedA pg wp a data).cachectl
      draws := (s.pagedA pg wp a data).draws } := by
  have hctlr := s.bufferResetA.loadedA_ctlr a data (List.range ((data.length + 7) / 8))
  unfold State.pagedA
  rw [State.loadedA_frame]
  generalize s.bufferResetA.loadedA a data (List.range ((data.length + 7) / 8)) = u at hctlr ⊢
  simp only [State.committedA, State.bufferResetA, orErrFlags] at hctlr ⊢
  simp only [State.mk.injEq, Ctlr.mk.injEq, true_and, and_true]
  rw [hctlr]
  exact ⟨rfl, h.ppg.symm, rfl, rfl⟩

theorem State.pagedA_cause (pg wp : Bool) (a : Word) (data : List Half) (s : State) :
    (s.pagedA pg wp a data).cause = s.cause := by
  rw [State.pagedA, State.loadedA_frame]
  rfl

theorem pageEnd150_failed {u : State} (a : List Byte) (h : statusFlagged u.statr = true) :
    pageEnd150 u a = (u.flagsFailed, [a]) := if_pos h

theorem pageEnd150_passed {u : State} (a : List Byte) (h : statusFlagged u.statr = false) :
    pageEnd150 u a = (u.flagsPassed.finish 1, [a, statusP]) := by
  rw [pageEnd150, h]
  rfl

/-- Of the core that a page request starts from, its two endings write what `State.withPage` names. -/
theorem pageEnd150_frame {s : State} (h : RestA s) (hs : s.rested = s) (i : Instr) (ls : List Line) (pg wp : Bool)
    (a : Word) (data : List Half) (f : List Byte) :
    (pageEnd150 ((s.begin i ls).core.pagedA pg wp a data) f).1 =
      (State.withPage (pageEnd150 ((s.begin i ls).core.pagedA pg wp a data) f).1 a s).core := by
  have hframe := State.pagedA_frame (h.begin i ls) pg wp a data
  generalize (s.begin i ls).core.pagedA pg wp a data = u at hframe ⊢
  conv_rhs => rw [← hs]
  cases hflag : statusFlagged u.statr with
  | true =>
    rw [pageEnd150_failed f hflag, hframe]
    rfl
  | false =>
    obtain ⟨hpg, hwp⟩ : u.statr.pgerr = false ∧ u.statr.wrprterr = false := by simpa [statusFlagged] using hflag
    rw [hpg, hwp] at hframe
    rw [pageEnd150_passed f hflag, hframe]
    rfl

theorem pageEnd150_flash (u : State) (f : List Byte) : (pageEnd150 u f).1.flash = u.flash := by
  unfold pageEnd150
  split <;> rfl

theorem pagePre_met {s : State} (hlen : s.a1.toNat ≤ s.src.halfWords.length) (hin : s.inArray s.a0 128 = true) :
    pagePre s = none := by
  simp [pagePre, Nat.not_lt.mpr hlen, pageInArrayA, Config.pageBytes, hin]

/-- The bytes outside the page of a commit, which a locked controller ignores (spec/20_memory.md R75, R77). -/
theorem Memory.read_commit_unlessLocked {locked : Bool} {d : Device} {m : Memory} {p a : Nat} {data : List Half}
    (h : Memory.wf m = true) (ha : a < p ∨ p + 128 ≤ a) :
    Memory.read (if locked then m else commitWords d m p (pageWords data)) a = Memory.read m a := by
  cases locked with
  | true => rfl
  | false =>
    rw [if_neg Bool.false_ne_true]
    exact Memory.read_commitWords_other h (by rw [pageWords_length]; omega)

/-- How a page request ends: `P` after the address frame, or the failure `CTRL` (spec/41_flash_alternate.md R152). -/
theorem pageEnd150_cases {u : State} {a : List Byte} (hc : u.cause = none) :
    ((pageEnd150 u a).1.res = 1 ∧ (pageEnd150 u a).1.cause = none ∧ (pageEnd150 u a).2 = [a, statusP]) ∨
      ((pageEnd150 u a).1.res = 0 ∧ (pageEnd150 u a).1.cause = some .ctrl ∧ (pageEnd150 u a).2 = [a]) := by
  cases hflag : statusFlagged u.statr with
  | true =>
    rw [pageEnd150_failed a hflag]
    exact .inr ⟨rfl, rfl, rfl⟩
  | false =>
    rw [pageEnd150_passed a hflag]
    exact .inl ⟨rfl, hc, rfl⟩

/-- Settles O48: the page request's end (`programPage_ends`) component by component. -/
theorem pageProgrammed : Obligations.PageProgrammed := by
  unfold Obligations.PageProgrammed
  intro s h hal hm hin hlen
  have hrest := h.1.restA h.2.1 h.2.2.1
  obtain ⟨hs0, ht0⟩ := h.1.idle_fields h.2.1
  have hlen64 : s.operandHalves.length ≤ 64 := (operandHalves_length_le s).trans hm
  obtain ⟨t, pg, wp, ht, hcore, -, hst, htinv, htseq, -⟩ :=
    programPage_ends h (pagePre_met hlen hin) (pageParamBad_eq_false hal hm)
  generalize programPageLines s.cfg.hexUpper s.a0 s.a1 s.operandHalves ++ [.ret 1] = ls at hcore hst
  have hframe : TxFrame (State.withPage t s.a0 s) t := by
    refine htinv.txFrame_of_core htseq ?_ ⟨hs0, ht0⟩
    show t.core = (State.withPage t.core s.a0 s).core
    rw [hcore]
    exact pageEnd150_frame hrest (State.rested_eq hs0 h.2.1 ht0) _ _ _ _ _ _ _
  have hflash : t.flash = if s.fc.locked then s.flash
      else commitWords s.dev s.flash s.a0.toNat (pageWords s.operandHalves) :=
    (congrArg State.flash hcore).trans ((pageEnd150_flash _ _).trans (State.pagedA_flash pg wp hal hlen64 _))
  have hstatr : t.statr = { s.statr with pgerr := false, wrprterr := false } := by
    rw [hframe]
    rfl
  refine ⟨t, ht, hflash, fun a ha => ?_, by rw [hstatr], by rw [hstatr], hframe, ?_⟩
  · rw [hflash]
    exact Memory.read_commit_unlessLocked ((s.flashOk_iff).mp h.1.base.flash).1 ha
  · have hres := congrArg State.res hcore
    have hcause := congrArg State.cause hcore
    rcases pageEnd150_cases (State.pagedA_cause pg wp s.a0 s.operandHalves (s.begin .flashProgramPage ls).core)
      with ⟨hr, hc, hf⟩ | ⟨hr, hc, hf⟩
    · rw [hf] at hst
      exact .inl ⟨hres.trans hr, hcause.trans hc, hst⟩
    · rw [hf] at hst
      exact .inr ⟨hres.trans hr, hcause.trans hc, hst⟩

end Sys2Proof.Machine
end

section
/-! ## What an operation does not take from the transmit side -/

namespace Sys2Proof.Machine

/-! ### The lines of every operation -/

/-- The lines of an operation whose precondition holds ask nothing that is not given. -/
theorem okAfter_opLines {s : State} (h : s.Base) {i : Instr} (hw : i.wf s.cfg.variant = true) (hp : opPre i s = none) :
    OkAfter s.cfg s.fas (opLines i s) := by
  cases i with
  | flashUnlockG => exact okAfter_unlockG (variant_of_wf_g hw rfl)
  | flashUnlockA => exact okAfter_unlockA (variant_of_wf_a hw rfl)
  | flashLockG => exact okAfter_lockG (variant_of_wf_g hw rfl)
  | flashLockA => exact okAfter_lockA (variant_of_wf_a hw rfl)
  | flashErasePageG => exact okAfter_erasePageG (variant_of_wf_g hw rfl) (by simpa [opPre] using hp)
  | flashErasePageA => exact okAfter_erasePageA (variant_of_wf_a hw rfl) (by simpa [opPre] using hp)
  | flashProgramArrayG => exact okAfter_arrayG h (variant_of_wf_g hw rfl) hp
  | flashProgramArrayA => exact okAfter_arrayA h (variant_of_wf_a hw rfl) hp
  | flashProgramPage => exact okAfter_programPage h (variant_of_wf_a hw rfl) hp
  | getMaxFirmwareSize => exact okAfter_getMax
  | shouldForceBootloader => exact okAfter_trigger
  | txEnqueue => exact okAfter_txEnqueue
  | sessionReset => exact okAfter_sessionReset

theorem framedTail_of_worksTrigger {lines : List Line} (h : ∀ l ∈ lines, l.worksTrigger = true) : FramedTail lines := by
  have hf := FramedTail.append (a := lines) framedTail_nil fun l hl => by
    have hw := h l hl
    cases l <;> first | exact ⟨rfl, rfl⟩ | cases hw
  rwa [List.append_nil] at hf

/-- In every program the bytes of enqueue calls stand where they may. -/
theorem framed_opLines (i : Instr) (s : State) : FramedTail (opLines i s) := by
  have hret := framedTail_ret 1
  cases i with
  | flashUnlockG => exact hret.cons rfl rfl
  | flashUnlockA => exact ((((hret.emit statusU).cons rfl rfl).cons rfl rfl).cons rfl rfl).cons rfl rfl
  | flashLockG => exact hret.cons rfl rfl
  | flashLockA => exact (hret.emit statusL).cons rfl rfl
  | flashErasePageG => exact (hret.cons rfl rfl).cons rfl rfl
  | flashErasePageA => exact hret.erasePageLines
  | flashProgramArrayG => exact framed_arrayG s
  | flashProgramArrayA => exact framed_arrayA s
  | flashProgramPage => exact framed_programPage s
  | getMaxFirmwareSize => exact framedTail_nil.cons rfl rfl
  | shouldForceBootloader => exact framedTail_of_worksTrigger fun _ hl => opLines_allowed hl
  | txEnqueue => exact hret.emit _
  | sessionReset => exact hret.cons rfl rfl

/-- An operation that answers a next state had its precondition. -/
theorem opPre_of_exec {i : Instr} {s t : State} (h : exec i s = .next t) : opPre i s = none := by
  rw [exec_start] at h
  rcases start_spec i (opPre i s) (opLines i s) s with ⟨-, h1⟩ | ⟨-, -, h1⟩ | ⟨r, -, -, -, h1⟩ | ⟨-, -, hp, -⟩
  · rw [h] at h1; cases h1
  · rw [h] at h1; cases h1
  · rw [h] at h1; cases h1
  · exact hp

theorem opPre_withTx (i : Instr) (e s : State) : opPre i (State.withTx e s) = opPre i s := by
  cases i <;> rfl

/-! ### Where the fault draws have no effect -/

/-- Where `P` holds a completion does not depend on its fault draws, and it keeps `P`. -/
structure DrawFree (P : State → Prop) : Prop where
  same : ∀ {s : State}, P s → ∀ pg wp pg' wp', s.complete pg wp = s.complete pg' wp'
  kept : ∀ {s : State}, P s → ∀ pg wp, P (s.complete pg wp)

/-- No commit is pending. -/
def State.noCommit (s : State) : Prop := ∀ p, s.fc.pending ≠ .program p

theorem State.noCommit_of_none {s : State} (h : s.fc.pending = .none) : s.noCommit := fun p hp => by
  rw [h] at hp
  cases hp

/-- Only a commit takes fault draws (spec/20_memory.md R75). -/
theorem drawFree_noCommit : DrawFree State.noCommit where
  same := by
    intro s h pg wp pg' wp'
    unfold State.complete
    cases hp : s.fc.pending with
    | program p => exact absurd hp (h p)
    | _ => rfl
  kept := fun _ pg wp => State.noCommit_of_none (State.complete_pending pg wp _)

/-- On an unlocked healthy controller both draws count as 0 (spec/20_memory.md R75, R77). -/
theorem drawFree_healthy : DrawFree fun s => s.fc.locked = false ∧ s.dev.healthy = true where
  same := by
    intro s ⟨hl, hd⟩ pg wp pg' wp'
    unfold State.complete
    cases s.fc.pending with
    | program p => simp [State.completeProgram, hl, hd]
    | _ => rfl
  kept := by
    intro s ⟨hl, hd⟩ pg wp
    exact ⟨(State.complete_locked pg wp s).trans hl, by simpa using hd⟩

/-- Where the fault draws have no effect and no line samples the pin, the plain run does not depend on its list. -/
theorem plainRun_drawFree {P : State → Prop} (hP : DrawFree P) {lines : List Line}
    (hl : ∀ l ∈ lines, l ≠ .pinSample ∧ ∀ s, P s → (runLine l s).Always P) (ds ds' : List (Bool × Bool)) (n : Nat)
    {s : State} (h : P s) (fr : List (List Byte)) : plainRun ds lines n s fr = plainRun ds' lines n s fr := by
  induction lines generalizing ds ds' n s fr with
  | nil => rfl
  | cons l rest ih =>
    have hrest : ∀ l ∈ rest, l ≠ .pinSample ∧ ∀ s, P s → (runLine l s).Always P :=
      fun x hx => hl x (List.mem_cons_of_mem _ hx)
    obtain ⟨hpin, hline⟩ := hl l List.mem_cons_self
    cases n with
    | succ n => exact ih hrest ds ds' n h fr
    | zero =>
      cases hh : l.holds with
      | true =>
        rw [plainRun_hold ds hh, plainRun_hold ds' hh]
        cases hb : s.fc.busy with
        | true =>
          rw [if_pos rfl, if_pos rfl, hP.same h _ _ (ds'.headD default).1 (ds'.headD default).2]
          exact ih hrest _ _ 0 (hP.kept h _ _) fr
        | false => exact ih hrest _ _ 0 h fr
      | false =>
        cases ho : l.observesTx with
        | false =>
          rw [plainRun_line ds ho hh, plainRun_line ds' ho hh]
          have hnext := hline s h
          cases hr : runLine l s with
          | go t => rw [hr] at hnext; exact ih hrest ds ds' 0 hnext fr
          | skip m t => rw [hr] at hnext; exact ih hrest ds ds' m hnext fr
          | done t => rfl
          | fault r => rfl
          | refuse r => rfl
        | true =>
          cases l with
          | enqStart => exact ih hrest ds ds' 0 h _
          | enqByte b left => exact ih hrest ds ds' 0 h _
          | enqArm => exact ih hrest ds ds' 0 h _
          | pinSample => exact absurd rfl hpin
          | _ => cases ho

/-! ### What the lines do to the lock and to the pending cycle -/

/-- The lines that open or close write access. -/
def Line.writesLock : Line → Bool
  | .gUnlock => true
  | .gLock => true
  | .keyWrite _ _ => true
  | .ctlSet .lock => true
  | _ => false

/-- Which lines write the lock, and which may start a commit. -/
structure CycleFrame (l : Line) (s t : State) : Prop where
  locked : l.writesLock = false → t.fc.locked = s.fc.locked
  commit : l ≠ .ctlSet .strt → s.noCommit → t.noCommit

theorem cycleFrame_same {l : Line} {s t : State} (hl : t.fc.locked = s.fc.locked) (hp : t.fc.pending = s.fc.pending) :
    CycleFrame l s t := ⟨fun _ => hl, fun _ h p hp' => h p (hp.symm.trans hp')⟩

theorem startOn_cycleFrame {l : Line} {p : Word} {n : Nat} {c : Cycle} {s u : State} (hu : u.fc = s.fc)
    (hc : l ≠ .ctlSet .strt → ∀ p, c ≠ .program p) : (startOn p n c u).Always (CycleFrame l s) := by
  unfold startOn
  split
  · trivial
  · split
    · trivial
    · exact ⟨fun _ => by rw [← hu]; rfl, fun hl _ => hc hl⟩

theorem startBuffer_cycleFrame {l : Line} {c : Cycle} {s u : State} (hu : u.fc = s.fc) (hc : ∀ p, c ≠ .program p) :
    (startBuffer c u).Always (CycleFrame l s) := by
  unfold startBuffer
  split
  · trivial
  · split
    · trivial
    · exact ⟨fun _ => by rw [← hu]; rfl, fun _ _ => hc⟩

theorem runLine_cycleFrame (l : Line) (s : State) : (runLine l s).Always (CycleFrame l s) := by
  cases l with
  | gUnlock => exact ⟨fun h => (by cases h), fun _ h => h⟩
  | gLock => exact ⟨fun h => (by cases h), fun _ h => h⟩
  | keyWrite r v =>
    by_cases hk : expectedKey s.cfg (if s.fc.keyseq ≥ 4 then 0 else s.fc.keyseq) = (r, v)
    · rw [runLine, writeKey_eq hk]
      refine ⟨fun h => (by cases h), fun _ h => ?_⟩
      unfold State.noCommit State.keyed
      split <;> exact h
    · rw [runLine, writeKey_ne hk]
      trivial
  | gErase d => exact startOn_cycleFrame rfl fun _ _ => Cycle.noConfusion
  | gProg d v =>
    simp only [runLine, startHalf]
    split
    · trivial
    · exact startOn_cycleFrame rfl fun _ _ => Cycle.noConfusion
  | ctlSet b =>
    cases b with
    | level l => exact cycleFrame_same rfl rfl
    | bufRst => exact startBuffer_cycleFrame (u := s.setBufrst) rfl fun _ => Cycle.noConfusion
    | bufLoad => exact startBuffer_cycleFrame (u := s.setBufload) rfl fun _ => Cycle.noConfusion
    | strt =>
      show (startMode s).Always _
      unfold startMode
      split
      · exact startOn_cycleFrame (u := s.setStrt) rfl fun h => absurd rfl h
      · exact startOn_cycleFrame (u := s.setStrt) rfl fun h => absurd rfl h
      · trivial
      · trivial
    | lock => exact ⟨fun h => (by cases h), fun _ h => h⟩
  | enqByte b left => simp only [runLine, enqueueByte]; split <;> exact cycleFrame_same rfl rfl
  | bound d => simp only [runLine]; split <;> exact cycleFrame_same rfl rfl
  | windowTest d => simp only [runLine]; split <;> exact cycleFrame_same rfl rfl
  | statusTest => simp only [runLine]; split <;> exact cycleFrame_same rfl rfl
  | verify d v =>
    simp only [runLine, verifyHalf]
    split
    · rename_i got s1 hm
      rw [memRead16_frame hm]
      split <;> exact cycleFrame_same rfl rfl
    · trivial
  | refreshRead x =>
    simp only [runLine, refreshRead]
    split
    · rename_i w s1 hm
      rw [memRead32_frame hm]
      exact cycleFrame_same rfl rfl
    · trivial
  | memWrite a w =>
    simp only [runLine, stageWord]
    (repeat' split) <;> first | trivial | exact cycleFrame_same rfl rfl
  | _ => exact cycleFrame_same rfl rfl

/-- Only three operations of variant A have a line that may start a commit. -/
theorem allowed_strt {i : Instr} (h : (Line.ctlSet .strt).allowed i = true) :
    i = .flashErasePageA ∨ i = .flashProgramArrayA ∨ i = .flashProgramPage := by
  cases i with
  | flashErasePageA => exact .inl rfl
  | flashProgramArrayA => exact .inr (.inl rfl)
  | flashProgramPage => exact .inr (.inr rfl)
  | _ => exact Bool.noConfusion h

/-- Those three have no line that writes the lock. -/
theorem allowed_writesLock {i : Instr} {l : Line} (h : l.allowed i = true)
    (hi : i = .flashErasePageA ∨ i = .flashProgramArrayA ∨ i = .flashProgramPage) : l.writesLock = false := by
  have hworks : (l.isEnqueue || l.worksA) = true := by rcases hi with rfl | rfl | rfl <;> exact h
  cases l with
  | gUnlock => cases hworks
  | gLock => cases hworks
  | keyWrite r v => cases hworks
  | ctlSet b =>
    cases b with
    | lock => cases hworks
    | _ => rfl
  | _ => rfl

/-- Only the trigger samples the pin, and only with a button configured (spec/44_boot_trigger.md R203). -/
theorem opLines_pinSample {i : Instr} {s : State} (hi : i = .shouldForceBootloader → s.cfg.haveButton = false)
    {l : Line} (h : l ∈ opLines i s) : l ≠ .pinSample := by
  rintro rfl
  have ha := opLines_allowed h
  cases i with
  | shouldForceBootloader => simp [opLines, buttonLines, hi rfl] at h
  | _ => exact Bool.noConfusion ha

/-- The plain run of an operation does not depend on its list of draws: in variant G and outside the three operations no
commit is pending, and theirs takes no draw on an unlocked healthy controller. -/
theorem plainRun_opLines_drawFree {i : Instr} {s c : State} (hw : i.wf s.cfg.variant = true)
    (hd : s.cfg.variant = .g ∨ (c.fc.locked = false ∧ c.dev.healthy = true)) (hc : c.noCommit)
    (hi : i = .shouldForceBootloader → s.cfg.haveButton = false) (ds ds' : List (Bool × Bool))
    (fr : List (List Byte)) : plainRun ds (opLines i s) 0 c fr = plainRun ds' (opLines i s) 0 c fr := by
  by_cases hA : i = .flashErasePageA ∨ i = .flashProgramArrayA ∨ i = .flashProgramPage
  · have hva : s.cfg.variant = .a := variant_of_wf_a hw (by rcases hA with rfl | rfl | rfl <;> rfl)
    have hcA : c.fc.locked = false ∧ c.dev.healthy = true := hd.resolve_left (by rw [hva]; exact Variant.noConfusion)
    refine plainRun_drawFree drawFree_healthy (fun l hl => ⟨opLines_pinSample hi hl, fun u ⟨hul, huh⟩ => ?_⟩) ds ds' 0 hcA
      fr
    refine ((runLine_frame l u).and (runLine_cycleFrame l u)).imp fun t ⟨hf, hcf⟩ => ?_
    obtain ⟨-, -, -, hdev, -⟩ := hf.outside
    exact ⟨(hcf.locked (allowed_writesLock (opLines_allowed hl) hA)).trans hul, by rw [hdev]; exact huh⟩
  · refine plainRun_drawFree drawFree_noCommit (fun l hl => ⟨opLines_pinSample hi hl, fun u hu => ?_⟩) ds ds' 0 hc fr
    refine (runLine_cycleFrame l u).imp fun t hcf => hcf.commit ?_ hu
    rintro rfl
    exact hA (allowed_strt (opLines_allowed hl))

/-! ### Two runs -/

/-- An uninterrupted operation that starts ends as its plain run does, in an idle sound state. -/
theorem exec_plain {i : Instr} {s : State} (h : s.Ready) (hw : i.wf s.cfg.variant = true) (hp : opPre i s = none) :
    ∃ ds t fr, exec i s = .next t ∧ plainRun ds (opLines i s) 0 (s.begin i (opLines i s)).core [] = some (t.core, fr) ∧
      t.Inv ∧ t.seq = .idle := by
  obtain ⟨hinv, hb, hq⟩ := h
  obtain ⟨ds, t, fr, ht, hplain, -, htinv, htseq, -⟩ := start_plain hinv hb hq (opLines i s) hw hp
    (okAfter_opLines hinv.base hw hp) (framed_opLines i s)
  exact ⟨ds, t, fr, (exec_start i s).trans ht, hplain, htinv, htseq⟩

/-- Settles O56: both runs end as the plain run of the same core, whose draws have no effect. -/
theorem transmitIndependence : Obligations.TransmitIndependence := by
  unfold Obligations.TransmitIndependence
  intro i s e t hs he hd hi hex
  obtain ⟨-, hw, -⟩ := exec_runs hex
  have hp := opPre_of_exec hex
  obtain ⟨ds, t', fr, ht, hplain, htinv, htseq⟩ := exec_plain hs hw hp
  obtain rfl : t' = t := Host.Outcome.next.inj (ht.symm.trans hex)
  obtain ⟨ds', u, fr', hu, hplain', huinv, huseq⟩ := exec_plain he hw ((opPre_withTx i e s).trans hp)
  have hlines : opLines i (State.withTx e s) = opLines i s := opLines_congr rfl rfl rfl rfl i
  have hclean : s.ctl.clean = true := (hs.1.idle (hs.1.idle_of_notBusy hs.2.1)).2.1
  rw [hlines] at hplain'
  have hdraws := plainRun_opLines_drawFree (c := (s.begin i (opLines i s)).core) hw hd
    (State.noCommit_of_none (Ctl.clean_pending hclean)) hi ds ds' []
  have hcore : t'.core = u.core :=
    (Prod.mk.inj (Option.some.inj (hplain.symm.trans (hdraws.trans hplain')))).1
  exact ⟨u, hu, huinv.txFrame_of_core huseq hcore.symm ⟨htseq, (htinv.idle htseq).2.2⟩⟩

end Sys2Proof.Machine
end

section
/-! ## Command words -/

namespace Sys2Proof

/-- Past the last row of the opcode map nothing is assigned (spec/30_encoding.md R92). -/
theorem decodeOpc_of_ge (v : Variant) {n : Nat} (h : 10 ≤ n) : decodeOpc v n = .illegal .unassignedOpcode := by
  obtain ⟨k, rfl⟩ := Nat.exists_eq_add_of_le' h
  rfl

/-- An opcode that stands for an operation is that of the operation's command word. -/
theorem encode_toNat_of_decodeOpc {v : Variant} {n : Nat} {i : Instr} (h : decodeOpc v n = .op i) :
    (encode i).toNat = n := by
  unfold decodeOpc at h
  cases v <;> (split at h <;> cases h <;> rfl)

/-- Which opcodes are illegal (spec/30_encoding.md R96). -/
theorem decodeOpc_illegal_iff (v : Variant) (n : Nat) :
    (∃ why, decodeOpc v n = .illegal why) ↔ (n = 0 ∨ 10 ≤ n ∨ (n = 5 ∧ v = .g)) := by
  by_cases h : 10 ≤ n
  · simp [decodeOpc_of_ge v h, h]
  · cases v <;> interval_cases n <;> simp [decodeOpc]

theorem decode_of_rsvField_eq {w : Word} (h : rsvField w = 0) (v : Variant) : decode v w = decodeOpc v (opcField w) :=
  if_pos h

theorem decode_of_rsvField_ne {w : Word} (h : rsvField w ≠ 0) (v : Variant) : decode v w = .illegal .reservedBits :=
  if_neg h

/-- A word is its two fields (spec/30_encoding.md R90). -/
theorem toNat_eq_fields (w : Word) : w.toNat = 256 * rsvField w + opcField w :=
  (Nat.div_add_mod w.toNat 256).symm

theorem toNat_extractLsb'_opc (w : Word) : (w.extractLsb' 0 8).toNat = opcField w := by
  simp [opcField]

theorem toNat_extractLsb'_rsv (w : Word) : (w.extractLsb' 8 24).toNat = rsvField w := by
  have := w.isLt
  simp only [BitVec.extractLsb'_toNat, Nat.shiftRight_eq_div_pow, rsvField]
  omega

theorem extractLsb'_rsv_eq_zero_iff (w : Word) : w.extractLsb' 8 24 = 0 ↔ rsvField w = 0 := by
  rw [← BitVec.toNat_inj, toNat_extractLsb'_rsv]
  rfl

theorem extractLsb'_opc_eq_iff (w : Word) (b : BitVec 8) : w.extractLsb' 0 8 = b ↔ opcField w = b.toNat := by
  rw [← BitVec.toNat_inj, toNat_extractLsb'_opc]

/-- Which command words are illegal, by their fields (spec/30_encoding.md R96). -/
theorem decode_illegal_iff (v : Variant) (w : Word) : (∃ why, decode v w = .illegal why) ↔
    (rsvField w ≠ 0 ∨ opcField w = 0 ∨ 10 ≤ opcField w ∨ (opcField w = 5 ∧ v = .g)) := by
  by_cases h : rsvField w = 0
  · simp only [decode_of_rsvField_eq h, decodeOpc_illegal_iff, h, ne_eq, not_true, false_or]
  · simp [decode_of_rsvField_ne h, h]

/-- A word that decodes to an operation has no reserved bit set, so it is its opcode. -/
theorem eq_encode_of_decode {v : Variant} {w : Word} {i : Instr} (h : decode v w = .op i) : w = encode i := by
  by_cases hr : rsvField w = 0
  · rw [decode_of_rsvField_eq hr] at h
    have hw := toNat_eq_fields w
    exact BitVec.eq_of_toNat_eq (by rw [encode_toNat_of_decodeOpc h]; omega)
  · rw [decode_of_rsvField_ne hr] at h
    cases h

/-- Each row of the opcode map (spec/30_encoding.md R92, R93). -/
theorem Laws.EncodeDecode.statement (i : Instr) : Statement i := by
  cases i with
  | flashUnlockG => exact flashUnlockG
  | flashUnlockA => exact flashUnlockA
  | flashLockG => exact flashLockG
  | flashLockA => exact flashLockA
  | flashErasePageG => exact flashErasePageG
  | flashErasePageA => exact flashErasePageA
  | flashProgramArrayG => exact flashProgramArrayG
  | flashProgramArrayA => exact flashProgramArrayA
  | flashProgramPage => exact flashProgramPage
  | getMaxFirmwareSize => exact getMaxFirmwareSize
  | shouldForceBootloader => exact shouldForceBootloader
  | txEnqueue => exact txEnqueue
  | sessionReset => exact sessionReset

/-- Settles O2: the word by `eq_encode_of_decode`, the variant by `wf_of_decode`. -/
theorem decodedIsTableWord : Obligations.DecodedIsTableWord := by
  unfold Obligations.DecodedIsTableWord
  exact fun v w i h => ⟨eq_encode_of_decode h, Machine.wf_of_decode h⟩

/-- Settles O1, row by row of the opcode map. -/
theorem decodeEncode : Obligations.DecodeEncode := by
  unfold Obligations.DecodeEncode
  exact fun v i h => (Laws.EncodeDecode.statement i v).mpr h

/-- Settles O3: the words of operations by `decodeEncode`, the others by the field that makes them illegal. -/
theorem sampleWords : Obligations.SampleWords := by
  unfold Obligations.SampleWords
  refine ⟨decodeEncode .g .flashUnlockG rfl, decodeEncode .a .flashUnlockA rfl, decodeEncode .g .flashProgramArrayG rfl,
    decodeEncode .a .flashProgramArrayA rfl, decodeEncode .a .flashProgramPage rfl, by decide, fun v => ?_⟩
  exact ⟨decodeEncode v .sessionReset rfl, decode_of_rsvField_eq (by decide) v,
    (decode_of_rsvField_eq (by decide) v).trans (decodeOpc_of_ge v (by decide)),
    decode_of_rsvField_ne (by decide) v, decode_of_rsvField_ne (by decide) v⟩

end Sys2Proof

/-! ## The report of an illegal command -/

namespace Sys2Proof.Machine

/-- Between operations an illegal command writes its report and nothing else (spec/30_encoding.md R96). -/
theorem State.illegal_eq_of_idle {s : State} (hs : s.seq = .idle) (hb : s.busy = false) :
    s.illegal = { s with ill := true, res := 0 } := by
  rw [State.illegal, ← hs, ← hb]

/-- A step with an illegal command waiting is its report. -/
theorem step_illegal {s : State} (hw : s.cfg.wf = true) (hs : s.seq = .idle) {c : Command} {rest : List Command}
    {why : Illegal} (hi : s.inbox = c :: rest) (hd : decode s.cfg.variant c.op = .illegal why) :
    step s = .next (s.accept c rest).illegal := by
  rw [step, State.poll_issue hw hs hi, hd]

theorem ill_kept (b : Bool) : KeptByTurns fun s => s.ill = b :=
  keptByTurns_of_field State.ill b (fun _ _ => rfl) (by simp) (by simp) (by simp) (fun _ _ => rfl) fun _ => rfl

/-- An operation starts with `ILL` 0, and neither its lines nor the other agents set it. -/
theorem exec_ill {i : Instr} {s t : State} (h : exec i s = .next t) : t.ill = false :=
  exec_always (ill_kept false) (fun _ _ h => h) (fun l _ u hu => (runLine_frame l u).imp fun _ hf => hf.ill.trans hu)
    rfl (.inr fun u _ => u.coreReset_ill) h

/-- Settles O4: the words by their fields, the report by `step_illegal`, a legal command by `exec_ill`. -/
theorem illegalCommand : Obligations.IllegalCommand := by
  unfold Obligations.IllegalCommand
  refine ⟨fun v w => ?_, fun s c rest why hw hs hb hi hd => ?_, fun i s t h => exec_ill h⟩
  · rw [decode_illegal_iff, ne_eq, ne_eq, extractLsb'_rsv_eq_zero_iff, extractLsb'_opc_eq_iff, extractLsb'_opc_eq_iff,
      toNat_extractLsb'_opc]
    rfl
  · exact (step_illegal hw hs hi hd).trans
      (congrArg Host.Outcome.next (State.illegal_eq_of_idle (s := s.accept c rest) hs hb))

end Sys2Proof.Machine
end

section
/-! ## Frames and packing -/

namespace Sys2Proof.Machine

/-- Eight hexadecimal digits hold a word. -/
theorem hexDigits_numeral (v : Word) {w : Nat} (hw : 1 ≤ w) :
    IsNumeral 16 w v.toNat (padDigits w (digits 16 8 v.toNat)) :=
  padDigits_numeral (by decide) hw v.isLt

/-- Ten decimal digits hold a word. -/
theorem decDigits_numeral (v : Word) {w : Nat} (hw : 1 ≤ w) :
    IsNumeral 10 w v.toNat (padDigits w (digits 10 10 v.toNat)) :=
  padDigits_numeral (by decide) hw (v.isLt.trans (by decide))

theorem hexField_length {upper : Bool} {v : Word} {w : Nat} (hw : 1 ≤ w) (hv : v.toNat < 16 ^ w) :
    (hexField upper v w).length = w := by
  rw [hexField, List.length_map, (hexDigits_numeral v hw).length_eq (by decide) hv]

theorem decField_length {v : Word} {w : Nat} (hw : 1 ≤ w) (hv : v.toNat < 10 ^ w) : (decField v w).length = w := by
  rw [decField, List.length_map, (decDigits_numeral v hw).length_eq (by decide) hv]

theorem addrFrame_length {upper : Bool} {a c : Word} (hc : c.toNat ≤ 0xFFFF) : (addrFrame upper a c).length = 18 := by
  have haddr : (hexField upper a 8).length = 8 := hexField_length (by decide) a.isLt
  have hcount : (hexField upper c 4).length = 4 := hexField_length (by decide) (by omega)
  simp [addrFrame, haddr, hcount]

theorem sessionFrame_length {n : Word} (hn : n.toNat ≤ 999999) : (sessionFrame n).length = 8 := by
  have hcount : (decField n 6).length = 6 := decField_length (by decide) (by omega)
  simp [sessionFrame, hcount]

/-- Settles O24: the fields are padded digits (`padDigits_numeral`), their lengths those of the fields. -/
theorem frameFormat : Obligations.FrameFormat := by
  unfold Obligations.FrameFormat
  refine ⟨by decide, by decide, fun upper a c => ?_, fun n => ?_, fun _ _ _ hc => addrFrame_length hc,
    fun _ hn => sessionFrame_length hn⟩
  · have haddr := hexDigits_numeral a (w := 8) (by decide)
    exact ⟨_, _, rfl, haddr, haddr.length_eq (by decide) a.isLt, hexDigits_numeral c (by decide)⟩
  · exact ⟨_, rfl, decDigits_numeral n (by decide)⟩

/-- Settles O25: word `j` by `packWords_getElem?`, its low half given. -/
theorem packing : Obligations.Packing := by
  unfold Obligations.Packing
  refine fun l j => ⟨packWords_length l, fun lo h => ?_⟩
  obtain ⟨hlt, -⟩ := List.getElem?_eq_some_iff.mp h
  rw [packWords_getElem?, if_pos hlt, List.getD_eq_getElem?_getD (i := 2 * j), h, Option.getD_some, wordOfHalves]

end Sys2Proof.Machine
end

section
/-! ## Session, and the lock of variant G -/

namespace Sys2Proof.Machine

/-- Settles O32: the one line writes the window as the variant has it. -/
theorem sessionReset : Obligations.SessionReset := by
  unfold Obligations.SessionReset
  intro s h
  exact exec_ends h rfl rfl okAfter_sessionReset (framed_opLines _ s) ⟨rfl, rfl, rfl, rfl⟩ fun _ => rfl

/-- Settles O33: each operation is one write of the lock bit. -/
theorem unlockLockG : Obligations.UnlockLockG := by
  unfold Obligations.UnlockLockG
  intro s ⟨hinv, hb, hv, hq⟩
  constructor
  · exact exec_ends ⟨hinv, hb, hq⟩ (by rw [hv]; rfl) rfl (okAfter_unlockG hv) (framed_opLines _ s)
      ⟨rfl, rfl, rfl, rfl⟩ fun _ => rfl
  · exact exec_ends ⟨hinv, hb, hq⟩ (by rw [hv]; rfl) rfl (okAfter_lockG hv) (framed_opLines _ s)
      ⟨rfl, rfl, rfl, rfl⟩ fun _ => rfl

end Sys2Proof.Machine
end

section
/-! ## The bytes and the window of `flash_program_array`, variant G -/

namespace Sys2Proof.Machine

/-- On an unlocked controller a successful loop leaves erased what lies in a page it erased and outside its half-words
(spec/40_flash_generic.md R131). -/
theorem loopG_read_erasedPage (d : Word) (vs : List Half) {s : State} (hwf : Memory.wf s.flash = true)
    (hps : s.fas.pageSize = s.cfg.pageSize) (hroom : s.fas.endAddr.toNat + 2 ≤ 2 ^ 32) (hl : s.fc.locked = false)
    {a : Nat} (ha : a < d.toNat ∨ d.toNat + 2 * vs.length ≤ a) (hr : (loopG d vs s).res = 1)
    (hp : inPages s.fas.pageSize (erasedBy s.fas.pageSize s.win d vs.length) a = true) :
    Memory.read (loopG d vs s).flash a = erasedByte := by
  induction vs generalizing d s with
  | nil => cases hp
  | cons v vs ih =>
    rw [List.length_cons] at ha
    by_cases hend : s.fas.endAddr.toNat ≤ d.toNat
    · rw [loopG, if_pos hend] at hr
      cases hr
    by_cases hv : Memory.readHalf (s.passed d v).flash d.toNat = v
    · rw [loopG, if_neg hend, if_pos hv] at hr ⊢
      have h2 : (d + 2).toNat = d.toNat + 2 := toNat_add_two_le hroom (by omega)
      have hrest : inPages s.fas.pageSize (erasedBy s.fas.pageSize (s.passed d v).win (d + 2) vs.length) a = true →
          Memory.read (loopG (d + 2) vs (s.passed d v)).flash a = erasedByte := fun hin =>
        ih (d + 2) (State.wf_passed hwf) (by simpa using hps) (by simpa using hroom) (by simpa using hl)
          (by omega) hr (by rw [State.passed_fas]; exact hin)
      rw [List.length_cons, erasedBy] at hp
      rw [State.passed_win] at hrest
      cases ho : outsideWindow s.win d with
      | false =>
        rw [ho] at hp hrest
        exact hrest hp
      | true =>
        rw [ho, if_pos rfl, inPages_cons, Bool.or_eq_true] at hp
        rw [ho] at hrest
        refine hp.elim (fun hpage => ?_) hrest
        simp only [Bool.and_eq_true, decide_eq_true_eq, hps] at hpage
        refine loopG_read_erased (d + 2) vs (State.wf_passed hwf) (by simpa using hroom) (by omega) ?_
        rw [State.read_passed hwf (by omega), State.read_pageErased, hps]
        exact if_pos ⟨⟨ho, hl⟩, hpage⟩
    · rw [loopG, if_neg hend, if_neg hv] at hr
      cases hr

theorem Memory.read_above {m : Memory} {e a : Nat} (h : ∀ c ∈ m, c.1 < e) (ha : e ≤ a) :
    Memory.read m a = erasedByte := by
  induction m with
  | nil => rfl
  | cons c m ih =>
    obtain ⟨k, v⟩ := c
    have hk : k < e := h (k, v) List.mem_cons_self
    rw [Memory.read, if_neg (by omega)]
    exact ih fun c hc => h c (List.mem_cons_of_mem _ hc)

/-- The array ends at `FAS.end` (spec/10_state.md R40). -/
theorem State.Base.read_beyond {s : State} (h : s.Base) {a : Nat} (ha : s.fas.endAddr.toNat ≤ a) :
    Memory.read s.flash a = erasedByte :=
  Memory.read_above (fun c hc => (((s.flashOk_iff).mp h.flash).2 c hc).2) ha

/-- A window of at most a page that ends with a page is inside that page (spec/40_flash_generic.md R127). -/
theorem pageEnd_of_inside {c : Config} (g : Geometry c) {w : Window} {d : Word}
    (ha : w.endAddr.toNat % c.pageSize.toNat = 0) (hw : w.endAddr.toNat ≤ w.start.toNat + c.pageSize.toNat)
    (hin : outsideWindow w d = false) : w.endAddr = pageEnd c.pageSize d := by
  simp only [outsideWindow, Bool.or_eq_false_iff, decide_eq_false_iff_not, Nat.not_lt, Nat.not_le] at hin
  obtain ⟨hstart, hend⟩ := hin
  obtain ⟨k, hk⟩ := Nat.dvd_of_mod_eq_zero ha
  obtain ⟨j, rfl⟩ : ∃ j, k = j + 1 := Nat.exists_eq_succ_of_ne_zero (by rintro rfl; omega)
  rw [Nat.mul_succ] at hk
  have hmod : d.toNat % c.pageSize.toNat = d.toNat - c.pageSize.toNat * j := by
    rw [← Nat.sub_mul_mod (show c.pageSize.toNat * j ≤ d.toNat by omega), Nat.mod_eq_of_lt (by omega)]
  have hps := g.pageStart_toNat d
  have hlt := w.endAddr.isLt
  apply BitVec.eq_of_toNat_eq
  rw [pageEnd, BitVec.toNat_add, Nat.mod_eq_of_lt (by omega)]
  omega

end Sys2Proof.Machine
end

section
/-! ## `flash_program_array`, variant G -/

namespace Sys2Proof.Machine

theorem TxFrame.win {s t : State} (h : TxFrame s t) : t.win = s.win := by rw [h]; rfl

theorem TxFrame.cause {s t : State} (h : TxFrame s t) : t.cause = s.cause := by rw [h]; rfl

theorem TxFrame.fas {s t : State} (h : TxFrame s t) : t.fas = s.fas := by rw [h]; rfl

/-- A call that the host may issue, with its preconditions (spec/20_memory.md R63, R65, spec/10_state.md R53). -/
structure ArrayGCall (s : State) : Prop where
  ready : s.ReadyIn .g
  even : s.a0.toNat % 2 = 0
  base_le : s.fas.base.toNat ≤ s.a0.toNat
  source : s.a1.toNat ≤ s.src.halfWords.length

/-- The core in which the loop of a call begins. -/
def State.arrayGCore (s : State) : State := (s.begin .flashProgramArrayG (arrayLinesG s)).core

/-- The core in which it ends. -/
def State.arrayGEnd (s : State) : State := loopG s.a0 s.operandHalves s.arrayGCore

/-- `s` but for what a call may write, which is as in `e` (spec/40_flash_generic.md R126, R128). -/
def State.withArrayG (e s : State) : State :=
  { s with flash := e.flash, win := e.win, res := e.res, ill := false, cause := e.cause }

theorem State.arrayGEnd_frame {s : State} (hs : s.rested = s) :
    s.arrayGEnd = (State.withArrayG s.arrayGEnd s).core := by
  conv_rhs => rw [← hs]
  exact loopG_frame _ _ _

namespace ArrayGCall

variable {s : State} (c : ArrayGCall s)
include c

theorem base : s.Base := c.ready.1.base

theorem geometry : Geometry s.cfg := c.base.geometry

theorem wf : Memory.wf s.flash = true := ((s.flashOk_iff).mp c.base.flash).1

theorem window_aligned : s.win.endAddr.toNat % s.cfg.pageSize.toNat = 0 := by
  obtain ⟨-, -, hv, -⟩ := c.ready
  obtain ⟨-, -, -, -, haligned⟩ := c.base.facts.inG hv
  exact haligned

theorem origin_le : s.cfg.flashOrigin.toNat ≤ s.a0.toNat := c.base.origin_le_base.trans c.base_le

theorem room : s.fas.endAddr.toNat + 2 ≤ 2 ^ 32 := by
  have hend := c.base.end_room
  have htwo := Nat.le_of_dvd c.geometry.pageSize_pos c.geometry.two_dvd
  omega

theorem length : s.operandHalves.length = s.a1.toNat := State.operandHalves_length c.source

theorem operandHalves_ne_nil (h1 : s.a1 ≠ 0) : s.operandHalves ≠ [] := by
  rw [ne_eq, ← List.length_eq_zero_iff, c.length]
  exact toNat_ne_zero_of_ne h1

/-- The call ends as its loop does, and leaves the rest of the state. -/
theorem ends : ∃ t, exec .flashProgramArrayG s = .next t ∧
    Streamed [addrFrame s.cfg.hexUpper s.a0 s.a1] s t ∧ TxFrame (State.withArrayG s.arrayGEnd s) t ∧ t.Inv := by
  obtain ⟨hinv, hb, -⟩ := c.ready
  obtain ⟨hs0, ht0⟩ := hinv.idle_fields hb
  obtain ⟨t, ht, hcore, -, hst, htinv, htseq, -⟩ := arrayG_ends c.ready (arrayPreG_met c.even c.base_le c.source)
  have hend := State.arrayGEnd_frame (State.rested_eq hs0 hb ht0)
  exact ⟨t, ht, hst, htinv.txFrame_of_core htseq (hcore.trans hend) ⟨hs0, ht0⟩, htinv⟩

/-- A byte that is neither written nor in a page that the call erases is unchanged. -/
theorem read_other {a : Nat} (ha : a < s.a0.toNat ∨ s.a0.toNat + 2 * s.a1.toNat ≤ a)
    (hp : inPages s.fas.pageSize (erasedBy s.fas.pageSize s.win s.a0 s.a1.toNat) a = false) :
    Memory.read s.arrayGEnd.flash a = Memory.read s.flash a := by
  rw [← c.length] at ha hp
  exact loopG_read_other s.a0 s.operandHalves (s := s.arrayGCore) c.wf c.base.fasPageSize c.room ha hp

/-- After a success the range holds the source (spec/42_verify_and_capacity.md R170, R172). -/
theorem readHalf_of_success (hr : s.arrayGEnd.res = 1) {i : Nat} {v : Half} (hv : s.operandHalves[i]? = some v) :
    Memory.readHalf s.arrayGEnd.flash (s.a0.toNat + 2 * i) = v := by
  obtain ⟨hi, rfl⟩ := List.getElem?_eq_some_iff.mp hv
  exact loopG_success s.a0 s.operandHalves (s := s.arrayGCore) c.wf c.geometry c.base.fas c.even c.window_aligned
    c.origin_le hr i hi

end ArrayGCall

/-- Settles O40: the call ends as its loop does, which writes the array and the window only. -/
theorem arrayGFrame : Obligations.ArrayGFrame := by
  unfold Obligations.ArrayGFrame
  intro s h heven hbase hlen
  have c : ArrayGCall s := ⟨h, heven, hbase, hlen⟩
  obtain ⟨t, ht, hst, hframe, -⟩ := c.ends
  have hflash : t.flash = s.arrayGEnd.flash := hframe.flash
  have hwin : t.win = s.arrayGEnd.win := hframe.win
  have hres : t.res = s.arrayGEnd.res := hframe.res
  have hcause : t.cause = s.arrayGEnd.cause := hframe.cause
  refine ⟨t, ht, hst, ?_, ?_, fun hl => ?_, fun a ha hp => ?_⟩
  · rw [hflash, hwin, hres, hcause]
    exact hframe
  · rw [hres, hcause]
    exact loopG_res _ _ _
  · rw [hflash]
    exact loopG_locked _ _ hl
  · rw [hflash]
    exact c.read_other ha hp

/-- Settles O41: on a healthy unlocked controller every half-word verifies, and an erased page stays erased where
nothing is written. -/
theorem arrayGRoundTrip : Obligations.ArrayGRoundTrip := by
  unfold Obligations.ArrayGRoundTrip
  intro s h heven hbase hend hlen hl hh hw
  have c : ArrayGCall s := ⟨h, heven, hbase, hlen⟩
  obtain ⟨t, ht, -, hframe, -⟩ := c.ends
  have hflash : t.flash = s.arrayGEnd.flash := hframe.flash
  have hres : t.res = s.arrayGEnd.res := hframe.res
  have hr : s.arrayGEnd.res = 1 :=
    (loopG_healthy s.a0 s.operandHalves (s := s.arrayGCore) c.wf c.geometry c.base.fas hl hh heven c.origin_le
      (by rw [c.length]; exact hend) hw).1
  refine ⟨t, ht, hres.trans hr, fun i v hv => ?_, fun a ha => ?_⟩
  · rw [hflash]
    exact c.readHalf_of_success hr hv
  · rw [hflash]
    split
    · rename_i hp
      rw [← c.length] at ha hp
      exact loopG_read_erasedPage s.a0 s.operandHalves (s := s.arrayGCore) c.wf c.base.fasPageSize c.room hl
        ha hr hp
    · rename_i hp
      exact c.read_other ha (Bool.eq_false_iff.mpr hp)

/-- Settles O42: each half-word of a successful call was verified. -/
theorem arrayGVerified : Obligations.ArrayGVerified := by
  unfold Obligations.ArrayGVerified
  intro s h heven hbase hlen
  have c : ArrayGCall s := ⟨h, heven, hbase, hlen⟩
  obtain ⟨t, ht, -, hframe, -⟩ := c.ends
  have hflash : t.flash = s.arrayGEnd.flash := hframe.flash
  have hres : t.res = s.arrayGEnd.res := hframe.res
  refine ⟨t, ht, fun hr i v hv => ?_⟩
  rw [hflash]
  exact c.readHalf_of_success (hres.symm.trans hr) hv

/-- Settles O43: the loop is empty, or its first bound test fails. -/
theorem arrayGNothingDone : Obligations.ArrayGNothingDone := by
  unfold Obligations.ArrayGNothingDone
  intro s h heven hbase hlen
  have c : ArrayGCall s := ⟨h, heven, hbase, hlen⟩
  obtain ⟨t, ht, hst, hframe, -⟩ := c.ends
  refine ⟨fun h1 => ⟨t, ht, hst, ?_⟩, fun h1 he => ⟨t, ht, hst, ?_⟩⟩
  · rw [State.arrayGEnd, State.operandHalves_of_zero h1] at hframe
    exact hframe
  · rw [State.arrayGEnd, loopG_beyond (s := s.arrayGCore) (c.operandHalves_ne_nil h1) he] at hframe
    exact hframe

/-- Settles O44: the loop stops at `FAS.end`, and the invariant keeps the array below it. -/
theorem arrayGCrossing : Obligations.ArrayGCrossing := by
  unfold Obligations.ArrayGCrossing
  intro s h heven hbase hle hcross hlen hl hh hw
  have c : ArrayGCall s := ⟨h, heven, hbase, hlen⟩
  obtain ⟨t, ht, -, hframe, htinv⟩ := c.ends
  have hflash : t.flash = s.arrayGEnd.flash := hframe.flash
  have hres : t.res = s.arrayGEnd.res := hframe.res
  have hcause : t.cause = s.arrayGEnd.cause := hframe.cause
  have hfas : t.fas = s.fas := hframe.fas
  obtain ⟨hr, hparam, hread⟩ := loopG_crossing s.a0 s.operandHalves (s := s.arrayGCore) c.wf c.geometry c.base.fas hl hh
    heven c.origin_le c.window_aligned hle (by rw [c.length]; exact hcross) hw
  refine ⟨t, ht, hres.trans hr, hcause.trans hparam, fun i v hv hlt => ?_, fun a ha => ?_⟩
  · obtain ⟨hi, rfl⟩ := List.getElem?_eq_some_iff.mp hv
    rw [hflash]
    exact hread i hi hlt
  · rw [c.base.read_beyond ha, htinv.base.read_beyond (by rw [hfas]; exact ha)]

/-- Settles O45: a window inside one page follows the half-words (`loopG_window`). -/
theorem arrayGWindow : Obligations.ArrayGWindow := by
  unfold Obligations.ArrayGWindow
  intro s h heven hbase hend hlen h1 hspan
  have c : ArrayGCall s := ⟨h, heven, hbase, hlen⟩
  obtain ⟨t, ht, -, hframe, -⟩ := c.ends
  have hwin : t.win = s.arrayGEnd.win := hframe.win
  have hres : t.res = s.arrayGEnd.res := hframe.res
  refine ⟨t, ht, fun hr => ?_⟩
  rw [hwin, c.base.fasPageSize, ← c.length]
  exact loopG_window s.a0 s.operandHalves (s := s.arrayGCore) c.geometry c.base.fas heven c.window_aligned
    (by rw [c.length]; exact hend) (c.operandHalves_ne_nil h1) (hres.symm.trans hr)
    (pageEnd_of_inside c.geometry c.window_aligned hspan)

end Sys2Proof.Machine
end

section
/-! ## `flash_program_page` on an erased page -/

namespace Sys2Proof.Machine

/-- How the status inspection decides the result (spec/41_flash_alternate.md R152). -/
theorem pageEnd150_res (u : State) (f : List Byte) :
    (pageEnd150 u f).1.res = if statusFlagged u.statr then 0 else 1 := by
  cases hflag : statusFlagged u.statr with
  | true => rw [pageEnd150_failed f hflag]; rfl
  | false => rw [pageEnd150_passed f hflag]; rfl

/-- On an unlocked healthy controller both fault draws count as 0 (spec/20_memory.md R75, R77). -/
theorem State.pagedA_statr_healthy {s : State} (hl : s.fc.locked = false) (hh : s.dev.healthy = true) (pg wp : Bool)
    (a : Word) (data : List Half) : (s.pagedA pg wp a data).statr = s.statr := by
  rw [State.pagedA_statr, hl, hh]
  exact orErrFlags_false _

/-- Settles O49: the bytes are those of O48's commit onto an erased page, the result that of the flags at the call. -/
theorem pageHealthy : Obligations.PageHealthy := by
  unfold Obligations.PageHealthy
  intro s h hal hm hin hlen hl hh herased
  obtain ⟨t, ht, hflash, -⟩ := pageProgrammed s h hal hm hin hlen
  obtain ⟨t', pg, wp, ht', hcore, -⟩ := programPage_ends h (pagePre_met hlen hin) (pageParamBad_eq_false hal hm)
  obtain rfl : t' = t := Host.Outcome.next.inj (ht'.symm.trans ht)
  generalize programPageLines s.cfg.hexUpper s.a0 s.a1 s.operandHalves ++ [.ret 1] = ls at hcore
  refine ⟨t', ht, fun j hj => ?_, ?_⟩
  · rw [hflash, if_neg (by simp [hl])]
    exact readHalf_commit_pageWords hh ((s.flashOk_iff).mp h.1.base.flash).1 herased j hj
  · have hstatr := State.pagedA_statr_healthy (s := (s.begin .flashProgramPage ls).core) hl hh pg wp s.a0
      s.operandHalves
    have hres := (congrArg State.res hcore).trans (pageEnd150_res _ _)
    rw [hstatr] at hres
    simpa [statusFlagged] using hres

end Sys2Proof.Machine
end

section
/-! ## The results and the frames of the loop of `flash_program_array`, variant A -/

namespace Sys2Proof.Machine

/-- How the loop ends: with success, or with a failure whose result is 0. -/
theorem loopA_res (upper : Bool) (ds : List (Bool × Bool)) (l : List (Word × List Half)) {s : State}
    (hs : s.cause = none) (fr : List (List Byte)) :
    ((loopA upper ds l s fr).1.res = 1 ∧ (loopA upper ds l s fr).1.cause = none) ∨
      ((loopA upper ds l s fr).1.res = 0 ∧ (loopA upper ds l s fr).1.cause ≠ none) := by
  induction l generalizing ds s fr with
  | nil => exact .inl ⟨rfl, hs⟩
  | cons p r ih =>
    obtain ⟨d, c⟩ := p
    obtain ⟨u, hu, he⟩ := loopA_cons upper ds d c r s fr
    have hcause : u.cause = none := by
      rw [hu, State.pagedA_cause]
      exact hs
    rw [he]
    split
    · exact .inr ⟨rfl, Option.some_ne_none _⟩
    · split
      · exact .inr ⟨rfl, Option.some_ne_none _⟩
      · split
        · exact ih (s := u.flagsPassed) _ hcause _
        · exact .inr ⟨rfl, Option.some_ne_none _⟩

/-- The pages of a request hold its half-words, and each page holds some. -/
theorem pagesOf_bounds (n : Nat) : n ≤ 64 * pagesOf n ∧ 64 * pagesOf n < n + 64 := by
  rw [pagesOf, Config.pageBufHalves]
  omega

/-- The frames of a completed request are those of R159. -/
theorem sessionFrame_cons_pageFrames {data : List Half} {n : Word} (hn : data.length = n.toNat) (upper : Bool)
    (dest : Word) :
    sessionFrame n :: pageFrames upper dest data 0 (pagesOf n.toNat) = arrayTrace upper dest n := by
  simp only [arrayTrace, pageFrames, pagesFrom, List.flatMap_map, List.range_eq_range', chunkOf_length, hn]
  rfl

theorem byteOfHalf_halfOfBytes_zero (b0 b1 : Byte) : byteOfHalf (halfOfBytes b0 b1) 0 = b0 := by
  ext i hi
  have h16 : i < 16 := by omega
  simp [byteOfHalf, halfOfBytes, hi, h16]

theorem byteOfHalf_halfOfBytes_one (b0 b1 : Byte) : byteOfHalf (halfOfBytes b0 b1) 1 = b1 := by
  ext i hi
  have h16 : 8 + i < 16 := by omega
  simp [byteOfHalf, halfOfBytes, BitVec.getLsbD_eq_getElem hi, h16]

/-- An erased half-word is two erased bytes. -/
theorem halfOfBytes_eq_erased {b0 b1 : Byte} (h : halfOfBytes b0 b1 = 0xFFFF) : b0 = 0xFF ∧ b1 = 0xFF := by
  have h0 := byteOfHalf_halfOfBytes_zero b0 b1
  have h1 := byteOfHalf_halfOfBytes_one b0 b1
  rw [h] at h0 h1
  exact ⟨h0.symm.trans (by decide), h1.symm.trans (by decide)⟩

/-- In an erased half-word each of its bytes reads erased. -/
theorem Memory.read_of_readHalf_erased {m : Memory} {p a : Nat} (h : Memory.readHalf m p = 0xFFFF)
    (ha : a = p ∨ a = p + 1) : Memory.read m a = 0xFF := by
  obtain ⟨h0, h1⟩ := halfOfBytes_eq_erased h
  rcases ha with rfl | rfl
  · exact h0
  · exact h1

end Sys2Proof.Machine
end

section
/-! ## `flash_program_array`, variant A -/

namespace Sys2Proof.Machine

/-- An aligned call that the host may issue, with its preconditions (spec/20_memory.md R64, R65,
spec/10_state.md R53). -/
structure ArrayACall (s : State) : Prop where
  ready : s.ReadyIn .a
  aligned : s.a0.toNat % 128 = 0
  base_le : s.fas.base.toNat ≤ s.a0.toNat
  source : s.a1.toNat ≤ s.src.halfWords.length

/-- The core in which the loop of a call begins. -/
def State.arrayACore (s : State) : State := (s.begin .flashProgramArrayA (arrayLinesA s)).core

/-- The core in which it ends, for fault draws `ds`, and the frames it has handed to the ring, the last one first. -/
def State.arrayAEnd (ds : List (Bool × Bool)) (s : State) : State × List (List Byte) :=
  loopA s.cfg.hexUpper ds (pagesFrom s.a0 s.operandHalves 0 (pagesOf s.a1.toNat)) s.arrayACore [sessionFrame s.a1]

/-- `s` but for what a call may write, which is as in `e` (spec/41_flash_alternate.md R156, R157). -/
def State.withArrayA (e s : State) : State :=
  { s with
    flash := e.flash, addr := e.addr, fc := { s.fc with pbuf := e.fc.pbuf }
    ctlr := { s.ctlr with bufrst := e.ctlr.bufrst, bufload := e.ctlr.bufload, strt := e.ctlr.strt }
    statr := { s.statr with pgerr := e.statr.pgerr, wrprterr := e.statr.wrprterr }
    cachectl := e.cachectl, draws := e.draws, res := e.res, ill := false, cause := e.cause }

theorem State.arrayAEnd_frame {s : State} (h : RestA s) (hs : s.rested = s) (ds : List (Bool × Bool)) :
    (s.arrayAEnd ds).1 = (State.withArrayA (s.arrayAEnd ds).1 s).core := by
  conv_rhs => rw [← hs]
  exact loopA_frame _ _ _ _ _ h.per h.ppg

namespace ArrayACall

variable {s : State} (c : ArrayACall s)
include c

theorem base : s.Base := c.ready.1.base

theorem wf : Memory.wf s.flash = true := ((s.flashOk_iff).mp c.base.flash).1

theorem length : s.operandHalves.length = s.a1.toNat := State.operandHalves_length c.source

theorem rest : RestA s := c.ready.1.restA c.ready.2.1 c.ready.2.2.1

theorem pageSize : s.cfg.pageSize.toNat = 128 := c.base.geometry.pageSizeA c.rest.variant

theorem end_mod : s.fas.endAddr.toNat % 128 = 0 := by
  have hdvd := c.base.geometry.endAddr_dvd
  rw [← c.base.fas, c.pageSize] at hdvd
  exact Nat.mod_eq_zero_of_dvd hdvd

theorem loopIn : LoopIn s.a0 0 s.arrayACore where
  wf := c.wf
  pageSize := c.pageSize
  endMod := c.end_mod
  endLe := by
    have hroom := c.base.end_room
    rwa [c.pageSize] at hroom
  aligned := c.aligned
  lt := s.a0.isLt

/-- The call ends as its loop does, and leaves the rest of the state. -/
theorem ends : ∃ t ds, exec .flashProgramArrayA s = .next t ∧ t.flash = (s.arrayAEnd ds).1.flash ∧
    t.res = (s.arrayAEnd ds).1.res ∧ t.cause = (s.arrayAEnd ds).1.cause ∧
    Streamed (s.arrayAEnd ds).2.reverse s t ∧ TxFrame (State.withArrayA t s) t ∧ t.Inv := by
  obtain ⟨hinv, hb, -⟩ := c.ready
  obtain ⟨hs0, ht0⟩ := hinv.idle_fields hb
  obtain ⟨t, ds, ht, hcore, -, hst, htinv, htseq, -⟩ :=
    arrayA_ends c.ready (arrayPreA_met c.source c.base_le) ((misalignedA_eq_false_iff _).mpr c.aligned)
  refine ⟨t, ds, ht, (congrArg State.flash hcore :), (congrArg State.res hcore :), (congrArg State.cause hcore :), hst,
    htinv.txFrame_of_core htseq ?_ ⟨hs0, ht0⟩, htinv⟩
  show t.core = (State.withArrayA t.core s).core
  rw [hcore]
  exact State.arrayAEnd_frame c.rest (State.rested_eq hs0 hb ht0) ds

/-- A call leaves the mode bits 0 and the read cache fresh. -/
theorem modes {t : State} (h : TxFrame (State.withArrayA t s) t) :
    t.ctlr.per = false ∧ t.ctlr.ppg = false ∧ t.fc.stale = false := by
  rw [h]
  exact ⟨c.rest.per, c.rest.ppg, c.rest.fresh⟩

/-- A byte outside the pages of the request is unchanged. -/
theorem read_other (ds : List (Bool × Bool)) {a : Nat}
    (ha : a < s.a0.toNat ∨ s.a0.toNat + 128 * pagesOf s.a1.toNat ≤ a) :
    Memory.read (s.arrayAEnd ds).1.flash a = Memory.read s.flash a :=
  loopA_read_other _ _ 0 c.loopIn ds _ (by omega)

/-- A half-word of the source is one of the request, and lies in one of its pages. -/
theorem index_lt {i : Nat} {v : Half} (hv : s.operandHalves[i]? = some v) : i < 64 * (0 + pagesOf s.a1.toNat) := by
  obtain ⟨hi, -⟩ := List.getElem?_eq_some_iff.mp hv
  have hpages := pagesOf_bounds s.a1.toNat
  rw [c.length] at hi
  omega

end ArrayACall

/-- Settles O50: the call ends as its loop does, by `loopA_res`, `loopA_locked` and `loopA_read_other`. -/
theorem arrayAFrame : Obligations.ArrayAFrame := by
  unfold Obligations.ArrayAFrame
  intro s h hal hbase hlen
  have c : ArrayACall s := ⟨h, hal, hbase, hlen⟩
  obtain ⟨t, ds, ht, hflash, hres, hcause, -, hframe, -⟩ := c.ends
  obtain ⟨hper, hppg, hfresh⟩ := c.modes hframe
  refine ⟨t, ht, hframe, ?_, hper, hppg, hfresh, fun hl => ?_, fun a ha => ?_⟩
  · rw [hres, hcause]
    exact loopA_res _ _ _ rfl _
  · exact hflash.trans (loopA_locked _ _ 0 c.loopIn hl _ _)
  · rw [hflash]
    exact c.read_other ds ha

/-- Settles O51: on a healthy unlocked controller every page takes its half-words and verifies (`loopA_healthy`). -/
theorem arrayARoundTrip : Obligations.ArrayARoundTrip := by
  unfold Obligations.ArrayARoundTrip
  intro s h hal hbase hend hlen hl hh hpg hwp
  have c : ArrayACall s := ⟨h, hal, hbase, hlen⟩
  obtain ⟨t, ds, ht, hflash, hres, -, hst, hframe, -⟩ := c.ends
  obtain ⟨hper, hppg, hfresh⟩ := c.modes hframe
  have hpages := pagesOf_bounds s.a1.toNat
  have hmod := c.end_mod
  obtain ⟨hone, -, htrace, hread⟩ := loopA_healthy s.cfg.hexUpper (pagesOf s.a1.toNat) 0 c.loopIn
    (data := s.operandHalves) hl hh (show statusFlagged s.statr = false by simp [statusFlagged, hpg, hwp])
    (show _ ≤ s.fas.endAddr.toNat by omega) ds [sessionFrame s.a1]
  refine ⟨t, ht, hres.trans hone, fun i v hv => ?_, fun a ha1 ha2 => ?_, fun a ha => ?_, hfresh, hper, hppg, ?_⟩
  · rw [hflash]
    exact (hread i (Nat.zero_le _) (c.index_lt hv)).trans (by simp [hv])
  · have herased := hread ((a - s.a0.toNat) / 2) (by omega) (by omega)
    rw [List.getD_eq_default _ _ (by rw [c.length]; omega)] at herased
    rw [hflash]
    exact Memory.read_of_readHalf_erased herased (by omega)
  · rw [hflash]
    exact c.read_other ds ha
  · have hframes : (s.arrayAEnd ds).2.reverse = arrayTrace s.cfg.hexUpper s.a0 s.a1 := by
      rw [State.arrayAEnd, htrace, List.reverse_append, List.reverse_reverse]
      exact sessionFrame_cons_pageFrames c.length _ _
    rwa [hframes] at hst

/-- Settles O52: each half-word of a successful call was verified. -/
theorem arrayAVerified : Obligations.ArrayAVerified := by
  unfold Obligations.ArrayAVerified
  intro s h hal hbase hlen
  have c : ArrayACall s := ⟨h, hal, hbase, hlen⟩
  obtain ⟨t, ds, ht, hflash, hres, -⟩ := c.ends
  refine ⟨t, ht, fun hr i v hv => ?_⟩
  have hlt := c.index_lt hv
  obtain ⟨hi, rfl⟩ := List.getElem?_eq_some_iff.mp hv
  rw [hflash]
  exact loopA_success _ _ 0 c.loopIn ds _ (hres.symm.trans hr) i hi (Nat.zero_le _) hlt

/-- Settles O54: the loop stops at `FAS.end` (`loopA_crossing`), and the invariant keeps the array below it. -/
theorem arrayACrossing : Obligations.ArrayACrossing := by
  unfold Obligations.ArrayACrossing
  intro s h hal hbase hle hcross hlen hl hh hpg hwp
  have c : ArrayACall s := ⟨h, hal, hbase, hlen⟩
  obtain ⟨t, ds, ht, hflash, hres, hcause, -, hframe, htinv⟩ := c.ends
  have hfas : t.fas = s.fas := hframe.fas
  have hpages := pagesOf_bounds s.a1.toNat
  obtain ⟨hzero, hparam, -, hread⟩ := loopA_crossing s.cfg.hexUpper (pagesOf s.a1.toNat) 0 c.loopIn
    (data := s.operandHalves) hl hh (show statusFlagged s.statr = false by simp [statusFlagged, hpg, hwp])
    (show s.fas.endAddr.toNat < _ by omega) hle ds [sessionFrame s.a1]
  refine ⟨t, ht, hres.trans hzero, hcause.trans hparam, fun i v hv hlt => ?_, fun a ha => ?_⟩
  · rw [hflash]
    exact (hread i (Nat.zero_le _) hlt).trans (by simp [hv])
  · rcases ha with hbelow | hbeyond
    · rw [hflash]
      exact c.read_other ds (.inl hbelow)
    · rw [c.base.read_beyond hbeyond, htinv.base.read_beyond (by rw [hfas]; exact hbeyond)]

end Sys2Proof.Machine
end

section
/-! ## Capacity -/

namespace Sys2Proof.Machine

/-- Settles O29: the one line answers `firmwareSize`, whose two cases are the statement's. (The name
`firmwareSize` is the model's function.) -/
theorem firmwareSize_answered : Obligations.FirmwareSize := by
  unfold Obligations.FirmwareSize
  intro s h
  have hrun : ∀ ds, plainRun ds (opLines .getMaxFirmwareSize s) 0
      (s.begin .getMaxFirmwareSize (opLines .getMaxFirmwareSize s)).core [] =
      some ((State.rested { s with res := firmwareSize s.fas, ill := false, cause := none }).core, []) := fun _ => rfl
  exact exec_ends h rfl rfl okAfter_getMax (framed_opLines _ s) ⟨rfl, rfl, rfl, rfl⟩ hrun

end Sys2Proof.Machine
end

section
/-! ## The consumer's turn -/

namespace Sys2Proof.Machine

/-- Without the request no interrupt is taken (spec/60_exceptions.md R220). -/
theorem State.irqTurn_of_no_request {s : State} (h : s.txeRequest = false) : s.irqTurn = s := by
  rw [State.irqTurn, h]
  rfl

theorem State.irqTurn_of_request {s : State} (h : s.txeRequest = true) : s.irqTurn = s.txeDrain := if_pos h

theorem State.txeRequest_iff (s : State) : s.txeRequest = true ↔ s.txe = true ∧ s.armed = true := by
  simp [State.txeRequest]

theorem State.txeDrain_of_empty {s : State} (h : ringEmpty s.rb = true) : s.txeDrain = { s with armed := false } :=
  if_pos h

theorem State.txeDrain_of_held {s : State} (h : ringEmpty s.rb = false) : s.txeDrain = { s with
    tdr := s.rb.buf.getD s.rb.rd 0, txe := false, line := s.line ++ [s.rb.buf.getD s.rb.rd 0],
    rb := { s.rb with rd := ringNext s.cfg.ringN s.rb.rd } } := by
  rw [State.txeDrain, h]
  rfl

/-- Settles O17: the request decides whether the drain runs, the two indices which of its branches. -/
theorem txeDrain : Obligations.TxeDrain := by
  unfold Obligations.TxeDrain
  refine ⟨fun s h => ?_, fun s htxe harm he => ?_, fun s b htxe harm hne hb => ?_⟩
  · rw [← s.txeRequest_iff, Bool.not_eq_true] at h
    exact State.irqTurn_of_no_request h
  · rw [State.irqTurn_of_request (s.txeRequest_iff.mpr ⟨htxe, harm⟩), State.txeDrain_of_empty (by simp [ringEmpty, he])]
  · have hget : s.rb.buf.getD s.rb.rd 0 = b := by rw [List.getD_eq_getElem?_getD, hb, Option.getD_some]
    rw [State.irqTurn_of_request (s.txeRequest_iff.mpr ⟨htxe, harm⟩), State.txeDrain_of_held (by simp [ringEmpty, hne]),
      hget]

end Sys2Proof.Machine
end

section
/-! ## The stream in one line, one turn and one step -/

namespace Sys2Proof.Machine

theorem State.ringIn_of_ringOk {s : State} (h : s.ringOk = true) : RingIn s.cfg.ringN s.rb := by
  obtain ⟨hsize, hrd, hwr⟩ := (s.ringOk_iff).mp h
  exact ⟨hsize, hrd, hwr⟩

/-- What survives a wait survives every single turn but a reset. -/
theorem KeptByTurns.turn {P : State → Prop} (hP : KeptByTurns P) {x : Turn} (hx : x.isReset = false) {s : State}
    (h : P s) : P (s.turn x) := by
  cases x with
  | irq => exact hP.irq s h
  | uart => exact hP.uart s h
  | fctl pg wp => exact hP.fctl pg wp s h
  | pin b => exact hP.pin b s h
  | stick => exact hP.stick s h
  | reset => cases hx
  | seq => exact h
  | host => exact h
  | yield => exact h

/-- Nothing has joined the stream yet. -/
theorem Grown.refl {s : State} (h : RingIn s.cfg.ringN s.rb) : Grown s [] s :=
  ⟨rfl, h, (List.append_nil _).symm, [], List.append_nil _⟩

theorem grown_keptByPort (s0 : State) (b : List Byte) : KeptByPort (Grown s0 b) where
  seq _ _ h := h.congr rfl rfl rfl
  accept _ _ _ h := h.congr rfl rfl rfl
  start _ _ _ h := h.congr rfl rfl rfl
  illegal _ h := h.congr rfl rfl rfl

/-- Bytes join the stream only in a step that runs lines, and are bytes that these lines offer. -/
theorem step_grown {s t : State} (h : RingIn s.cfg.ringN s.rb) (hr : ∀ x ∈ s.sched, x.isReset = false)
    (ht : step s = .next t) : ∃ stored, stored.Sublist (offeredBytes s.program) ∧ Grown s stored t := by
  have without_lines : s.program = [] → ∃ stored, stored.Sublist (offeredBytes s.program) ∧ Grown s stored t :=
    fun hp => ⟨[], List.nil_sublist _, step_always (grown_kept s []) (grown_keptByPort s [])
      (fun l hl => by rw [hp] at hl; cases hl) (Grown.refl h) (.inl hr) ht⟩
  rcases step_cases ht with ⟨i, lines, hs, hrun⟩ | ⟨hs, c, rest, i, hi, hd, hex⟩ | ⟨hs, c, rest, why, hi, hd, -⟩ |
    ⟨hs, hi, -⟩
  · rw [State.program, hs]
    exact runLines_grown i lines 0 (Grown.refl h) hr hrun
  · obtain ⟨-, -, hrun⟩ := exec_runs hex
    simp only [State.program, hs, hi, hd]
    exact runLines_grown i _ 0 (s := (s.accept c rest).begin i (opLines i (s.accept c rest)))
      ((Grown.refl h).congr rfl rfl rfl) hr hrun
  · exact without_lines (by simp [State.program, hs, hi, hd])
  · exact without_lines (by simp [State.program, hs, hi])

/-- The state after an enqueued byte has found a free slot (R182 lines 5, 6). -/
def State.stored (b : Byte) (s : State) : State :=
  { s with
    rb := { s.rb with buf := s.rb.buf.set s.rb.wr b, wr := ringNext s.cfg.ringN s.rb.wr }
    tmp := { s.tmp with put := s.tmp.put + 1 } }

theorem enqueueByte_free {s : State} (hf : ringFull s.cfg.ringN s.rb = false) (b : Byte) (left : Nat) :
    enqueueByte b left s = .go (s.stored b) := by
  rw [enqueueByte, hf]
  rfl

theorem State.held_stored {s : State} (h : RingIn s.cfg.ringN s.rb) (hf : ringFull s.cfg.ringN s.rb = false)
    (b : Byte) : (s.stored b).held = s.held ++ [b] := heldBytes_store h hf b

theorem enqueueByte_full {s : State} (hf : ringFull s.cfg.ringN s.rb = true) (b : Byte) (left : Nat) :
    enqueueByte b left s = .skip left s := if_pos hf

/-- Settles O20: an enqueued byte joins the end, and what the turns and the step add is `Grown`. -/
theorem streamGrows : Obligations.StreamGrows := by
  unfold Obligations.StreamGrows
  refine ⟨fun b left s hring => ⟨fun hf => enqueueByte_full hf b left, fun hf => ?_⟩, fun l s t n hl h => ?_,
    fun x s hring hx => ?_, fun s t hinv hr ht => ?_⟩
  · exact ⟨s.stored b, enqueueByte_free hf b left, rfl, State.held_stored (State.ringIn_of_ringOk hring) hf b⟩
  · have hf := lineFrame_of_runLine h
    obtain ⟨-, -, hline⟩ := hf.transmit
    have hring := hf.ring (Line.writesRing_false fun b left he => by rw [he] at hl; cases hl)
    exact ⟨hline, by rw [State.held_eq, State.held_eq, hf.cfg, hring]⟩
  · have hg := (grown_kept s []).turn hx (Grown.refl (State.ringIn_of_ringOk hring))
    exact ⟨hg.line, hg.stream.trans (List.append_nil _)⟩
  · obtain ⟨stored, hsub, hg⟩ := step_grown hinv.base.ringIn (by simpa using hr) ht
    exact ⟨hg.line, stored, hsub, hg.stream⟩

end Sys2Proof.Machine
end

section
/-! ## Draining to empty -/

namespace Sys2Proof.Machine

/-- `s` with the ring, the arming and the transmitter as in `e`: what the drain and the transmitter change. -/
def State.withUart (e s : State) : State :=
  { s with rb := e.rb, armed := e.armed, tdr := e.tdr, txe := e.txe, line := e.line }

theorem State.irqTurn_eq_withUart (s : State) : s.irqTurn = State.withUart s.irqTurn s := by
  unfold State.irqTurn State.txeDrain
  (repeat' split) <;> rfl

theorem State.uartShift_eq_withUart (s : State) : s.uartShift = State.withUart s.uartShift s := by
  unfold State.uartShift
  split <;> rfl

theorem State.withUart_trans {s t u : State} (hu : u = State.withUart u s) (ht : t = State.withUart t u) :
    t = State.withUart t s := ht.trans (by rw [hu]; rfl)

/-- Neither `SEQ` nor `HOST` nor the schedule has anything to do: the drain and the transmitter alternate (log 2). -/
structure Draining (s : State) : Prop where
  inv : s.Inv
  seq : s.seq = .idle
  inbox : s.inbox = []
  sched : s.sched = []

theorem Draining.irqTurn {s : State} (h : Draining s) : Draining s.irqTurn :=
  ⟨h.inv.turn h.seq .irq, by simpa using h.seq, by simpa using h.inbox, by simpa using h.sched⟩

theorem Draining.uartShift {s : State} (h : Draining s) : Draining s.uartShift :=
  ⟨h.inv.turn h.seq .uart, by simpa using h.seq, by simpa using h.inbox, by simpa using h.sched⟩

theorem Draining.step {s : State} (h : Draining s) :
    step s = .next (if s.txeRequest then s.txeDrain else s.uartShift) := by
  rw [Machine.step, State.poll_idle h.inv.base.cfg h.seq h.inbox]
  simp only [State.idleStep, h.sched]

/-- A requested drain is the next step. -/
theorem Draining.step_irq {s : State} (h : Draining s) (hr : s.txeRequest = true) :
    Machine.step s = .next s.irqTurn := by
  rw [h.step, if_pos hr, State.irqTurn_of_request hr]

/-- With no drain requested the transmitter's turn is. -/
theorem Draining.step_uart {s : State} (h : Draining s) (hr : s.txeRequest = false) :
    Machine.step s = .next s.uartShift := by
  rw [h.step, hr]
  rfl

/-- With `TXE` 0 and the ring armed the transmitter's turn is the next step, and it requests the drain. -/
theorem Draining.transmit {s : State} (h : Draining s) (htxe : s.txe = false) (harm : s.armed = true) :
    Machine.step s = .next s.uartShift ∧ s.uartShift.txeRequest = true := by
  refine ⟨h.step_uart (by rw [State.txeRequest, htxe, Bool.false_and]), ?_⟩
  rw [State.txeRequest_iff, State.uartShift_armed]
  exact ⟨by simp [State.uartShift, htxe], harm⟩

theorem core_run_succ {s u : State} (h : step s = .next u) (k : Nat) :
    Host.Core.run Sys2Proof.core (k + 1) s = Host.Core.run Sys2Proof.core k u := by
  simp only [Host.Core.run, show Sys2Proof.core.step s = .next u from h]

/-- The drain has come to its end: all that `s` held is on the line, and nothing moves any more (R188). -/
structure Drained (s t : State) : Prop where
  line : t.line = s.line ++ s.held
  held : t.held = []
  armed : t.armed = false
  txe : t.txe = true
  step : Machine.step t = .next t
  frame : t = State.withUart t s

/-- Turns of the drain and the transmitter before the end do not show in it. -/
theorem Drained.before {s u t : State} (h : Drained u t) (hs : u.stream = s.stream) (hf : u = State.withUart u s) :
    Drained s t :=
  { h with line := h.line.trans hs, frame := State.withUart_trans hf h.frame }

/-- With `TXE` 1 an empty ring is disarmed, and then no agent is enabled. -/
theorem Draining.disarm {s : State} (h : Draining s) (hr : s.txeRequest = true) (he : ringEmpty s.rb = true) :
    Drained s s.irqTurn := by
  have hheld : s.held = [] := heldBytes_empty h.inv.base.ringIn he
  have hend : s.irqTurn = { s with armed := false } := by
    rw [State.irqTurn_of_request hr, State.txeDrain_of_empty he]
  obtain ⟨htxe, -⟩ := s.txeRequest_iff.mp hr
  have hquiet : s.irqTurn.txeRequest = false ∧ s.irqTurn.txe = true := by rw [hend]; exact ⟨Bool.and_false _, htxe⟩
  exact
    { line := by rw [hend, hheld, List.append_nil]
      held := by rw [hend]; exact hheld
      armed := by rw [hend]
      txe := hquiet.2
      step := by rw [h.irqTurn.step_uart hquiet.1, State.uartShift, if_pos hquiet.2]
      frame := s.irqTurn_eq_withUart }

/-- With `TXE` 1 each byte takes two steps, its drain and its transmission, and one more step disarms. -/
theorem Draining.drains (n : Nat) {s : State} (h : Draining s) (hr : s.txeRequest = true) (hn : s.held.length = n) :
    ∃ t, Host.Core.run Sys2Proof.core (2 * n + 1) s = .next t ∧ Drained s t := by
  have hring := h.inv.base.ringIn
  rw [State.held_eq, heldBytes_length] at hn
  induction n generalizing s with
  | zero => exact ⟨s.irqTurn, core_run_succ (h.step_irq hr) 0, h.disarm hr ((ringEmpty_iff hring).mpr hn)⟩
  | succ n ih =>
    have hne : ringEmpty s.rb = false := by
      rw [← Bool.not_eq_true, ringEmpty_iff hring]
      omega
    have hdrain : s.irqTurn.txe = false ∧ s.irqTurn.armed = s.armed ∧
        s.irqTurn.rb = { s.rb with rd := ringNext s.cfg.ringN s.rb.rd } := by
      rw [State.irqTurn_of_request hr, State.txeDrain_of_held hne]
      exact ⟨rfl, rfl, rfl⟩
    obtain ⟨htxe, harmed, hrb⟩ := hdrain
    obtain ⟨hstep, hnext⟩ := h.irqTurn.transmit htxe (harmed.trans (s.txeRequest_iff.mp hr).2)
    have hlen : ringHeld s.irqTurn.uartShift.cfg.ringN s.irqTurn.uartShift.rb = n := by
      have := congrArg List.length (heldBytes_drain hring hne)
      rw [List.length_cons, heldBytes_length, heldBytes_length, hn] at this
      simpa [hrb] using this.symm
    obtain ⟨t, hrun, hend⟩ := ih h.irqTurn.uartShift hnext hlen h.irqTurn.uartShift.inv.base.ringIn
    refine ⟨t, ?_, hend.before ((State.stream_uartShift _).trans (State.stream_irqTurn hring))
      (State.withUart_trans s.irqTurn_eq_withUart s.irqTurn.uartShift_eq_withUart)⟩
    rw [show 2 * (n + 1) + 1 = 2 * n + 1 + 1 + 1 by omega, core_run_succ (h.step_irq hr), core_run_succ hstep]
    exact hrun

/-- Settles O19: from `TXE` 1 by `Draining.drains`, else one step of the transmitter goes before. -/
theorem drainsToEmpty : Obligations.DrainsToEmpty := by
  unfold Obligations.DrainsToEmpty
  intro s hinv hb hi hs harm
  have h : Draining s := ⟨hinv, hinv.idle_of_notBusy hb, hi, hs⟩
  have hends : ∃ k t, k ≤ 2 * s.held.length + 2 ∧ Host.Core.run Sys2Proof.core k s = .next t ∧ Drained s t := by
    cases htxe : s.txe with
    | true =>
      obtain ⟨t, hrun, hend⟩ := h.drains s.held.length (s.txeRequest_iff.mpr ⟨htxe, harm⟩) rfl
      exact ⟨_, t, Nat.le_succ _, hrun, hend⟩
    | false =>
      obtain ⟨hstep, hnext⟩ := h.transmit htxe harm
      have hlen : s.uartShift.held.length = s.held.length := by simp [State.held_eq]
      obtain ⟨t, hrun, hend⟩ := h.uartShift.drains s.held.length hnext hlen
      exact ⟨_, t, le_refl _, (core_run_succ hstep _).trans hrun,
        hend.before s.stream_uartShift s.uartShift_eq_withUart⟩
  obtain ⟨k, t, hk, hrun, hend⟩ := hends
  have hframe := hend.frame
  simp only [State.withUart, hend.armed, hend.txe] at hframe
  exact ⟨k, t, hk, hrun, hend.line, hend.held, hend.armed, hend.txe, hend.step, hframe⟩

end Sys2Proof.Machine
end

section
/-! ## `tx_enqueue` -/

namespace Sys2Proof.Machine

theorem opPre_txEnqueue {s : State} (h : s.a1.toNat ≤ s.src.byteSeq.length) : opPre .txEnqueue s = none :=
  if_neg (Nat.not_lt.mpr h)

/-- Between operations a ring that holds bytes is armed (R187). -/
theorem State.Inv.armed_of_held {s : State} (h : s.Inv) (hs : s.seq = .idle) (hheld : s.held ≠ []) :
    s.armed = true := by
  rcases h.armedOr hs with he | ha | ⟨-, hmid⟩
  · exact absurd (heldBytes_empty h.base.ringIn he) hheld
  · exact ha
  · cases hmid

/-- Settles O22: the plain run hands the one frame to the ring, and the end state keeps the arming invariant. -/
theorem enqueueStream : Obligations.EnqueueStream := by
  unfold Obligations.EnqueueStream
  intro s h hlen
  obtain ⟨t, ht, hstream, hframe⟩ := exec_ends (u := { s with res := 1, ill := false, cause := none })
    (frames := [s.operandBytes]) h rfl (opPre_txEnqueue hlen) okAfter_txEnqueue (framed_opLines _ s)
    ⟨rfl, rfl, rfl, rfl⟩ fun ds => plainRun_emit ds s.operandBytes [.ret 1] _ []
  have hinv : t.Inv := next_of_outcomeSat (exec_sound h.1 .txEnqueue rfl) ht
  have hidle : t.seq = .idle := by rw [hframe]; exact (h.1.idle_fields h.2.1).1
  exact ⟨t, ht, hframe, hstream, hinv.armed_of_held hidle⟩

/-! ### With no turn of the consumer -/

/-- Since `s0` an enqueue call has stored `stored`; what is left of the schedule gives the consumer no turn and
interrupts nothing. -/
structure Filled (s0 : State) (stored : List Byte) (s : State) : Prop where
  cfg : s.cfg = s0.cfg
  ring : RingIn s0.cfg.ringN s.rb
  rd : s.rb.rd = s0.rb.rd
  line : s.line = s0.line
  armed : s.armed = s0.armed
  held : s.held = s0.held ++ stored
  put : s.tmp.put = stored.length
  sched : ∀ x ∈ s.sched, x.quiet = true ∧ x.isIrq = false

theorem Filled.congr {s0 s t : State} {stored : List Byte} (h : Filled s0 stored s) (hc : t.cfg = s.cfg)
    (hr : t.rb = s.rb) (hl : t.line = s.line) (ha : t.armed = s.armed) (hp : t.tmp.put = s.tmp.put)
    (hs : ∀ x ∈ t.sched, x ∈ s.sched) : Filled s0 stored t where
  cfg := hc.trans h.cfg
  ring := by rw [hr]; exact h.ring
  rd := by rw [hr]; exact h.rd
  line := hl.trans h.line
  armed := ha.trans h.armed
  held := by rw [← h.held, State.held_eq, State.held_eq, hc, hr]
  put := hp.trans h.put
  sched x hx := h.sched x (hs x hx)

/-- The wait before a line that is no hold ends at the line, and the consumer has had no turn. -/
theorem Filled.await {l : Line} (hl : l.holds = false) {s0 : State} {stored : List Byte} (sched : List Turn) {s : State}
    (h : Filled s0 stored s) (hs : s.sched = sched) : ∃ t, Machine.await l sched s = .ready t ∧ Filled s0 stored t := by
  have enabled : ∀ u, lineEnabled l u = true := fun u => by rw [lineEnabled, hl]; rfl
  induction sched generalizing s with
  | nil => exact ⟨s, by rw [Machine.await, if_pos (enabled s)], h⟩
  | cons x r ih =>
    have h0 : Filled s0 stored { s with sched := r } :=
      h.congr rfl rfl rfl rfl rfl fun y hy => by rw [hs]; exact List.mem_cons_of_mem _ hy
    obtain ⟨hquiet, hirq⟩ := h.sched x (by rw [hs]; exact List.mem_cons_self)
    cases x with
    | seq => exact ⟨_, by rw [Machine.await, if_pos (enabled _)], h0⟩
    | uart => exact ih (h0.congr (t := State.uartShift { s with sched := r }) (by simp) (by simp) (by simp) (by simp)
        (by simp) (by simp)) (by simp [State.turn])
    | fctl pg wp => exact ih (h0.congr (t := State.fctlTurn pg wp { s with sched := r }) (by simp) (by simp) (by simp)
        (by simp) (by simp) (by simp)) (by simp [State.turn])
    | pin b => exact ih (h0.congr rfl rfl rfl rfl rfl fun _ hy => hy) rfl
    | irq => cases hirq
    | host => cases hquiet
    | reset => cases hquiet
    | stick => cases hquiet
    | yield => cases hquiet

/-- A line that is no hold is taken, from a state in which no more has been stored. -/
theorem Filled.ready {s0 s : State} {stored : List Byte} (h : Filled s0 stored s) (i : Instr) {l : Line}
    (hl : l.holds = false) (rest : List Line) :
    ∃ s1, Machine.await l s.sched { s with seq := .running i (l :: rest) } = .ready s1 ∧ Filled s0 stored s1 :=
  Filled.await hl s.sched (s := { s with seq := .running i (l :: rest) })
    (h.congr rfl rfl rfl rfl rfl fun _ hx => hx) rfl

/-- A line that goes on leads to the lines after it. -/
theorem runLines_go {i : Instr} {l : Line} {rest : List Line} {s s1 s2 : State}
    (h : await l s.sched { s with seq := .running i (l :: rest) } = .ready s1) (hgo : runLine l s1 = .go s2) :
    runLines i (l :: rest) 0 s = runLines i rest 0 s2 := by
  rw [runLines_ready h, hgo]

/-- Lines passed over are as good as absent. -/
theorem runLines_drop (i : Instr) (lines : List Line) (n : Nat) (s : State) :
    runLines i lines n s = runLines i (lines.drop n) 0 s := by
  induction lines generalizing n with
  | nil => cases n <;> rfl
  | cons l rest ih =>
    cases n with
    | zero => rfl
    | succ n => exact ih n

theorem Filled.stored {s0 s : State} {a : List Byte} (h : Filled s0 a s) (hf : ringFull s.cfg.ringN s.rb = false)
    (b : Byte) : Filled s0 (a ++ [b]) (s.stored b) where
  cfg := h.cfg
  ring := ⟨(List.length_set ..).trans h.ring.size, h.ring.rd, by
    rw [← h.cfg]; exact ringNext_lt (Nat.lt_of_le_of_lt (Nat.zero_le _) (h.cfg ▸ h.ring.rd))⟩
  rd := h.rd
  line := h.line
  armed := h.armed
  held := by rw [State.held_stored (h.cfg ▸ h.ring) hf, h.held, List.append_assoc]
  put := by rw [List.length_append, ← h.put]; rfl
  sched := h.sched

/-- The free slots are those that the bytes stored so far have left (R181). -/
theorem Filled.ringFree_eq {s0 s : State} {a : List Byte} (h : Filled s0 a s) :
    ringFree s.cfg.ringN s.rb = s0.cfg.ringN - 1 - s0.held.length - a.length := by
  have := congrArg List.length h.held
  rw [State.held_eq, heldBytes_length, List.length_append] at this
  rw [ringFree, this, h.cfg, Nat.sub_sub _ s0.held.length]

/-- With no turn of the consumer the bytes of a call fill the free slots, and the rest of them is passed over (R184). -/
theorem Filled.bytes (i : Instr) (rest : List Line) (bs : List Byte) {s0 s : State} {a : List Byte}
    (h : Filled s0 a s) :
    ∃ u, runLines i (enqueueBytes bs ++ rest) 0 s = runLines i (.enqArm :: rest) 0 u ∧
      Filled s0 (a ++ bs.take (ringFree s.cfg.ringN s.rb)) u := by
  induction bs generalizing s a with
  | nil => exact ⟨s, rfl, by rw [List.take_nil, List.append_nil]; exact h⟩
  | cons b bs ih =>
    obtain ⟨s1, hready, h1⟩ := h.ready i (l := .enqByte b bs.length) rfl (enqueueBytes bs ++ rest)
    rw [h.ringFree_eq, ← h1.ringFree_eq]
    have hring : RingIn s1.cfg.ringN s1.rb := h1.cfg ▸ h1.ring
    cases hf : ringFull s1.cfg.ringN s1.rb with
    | true =>
      have hnone : ringFree s1.cfg.ringN s1.rb = 0 := by
        have := (ringFull_iff hring).mp hf
        rw [ringFree]
        omega
      refine ⟨s1, ?_, by rw [hnone, List.take_zero, List.append_nil]; exact h1⟩
      show runLines i (.enqByte b bs.length :: (enqueueBytes bs ++ rest)) 0 s = _
      rw [runLines_ready hready, runLine, enqueueByte_full hf]
      show runLines i (enqueueBytes bs ++ rest) bs.length s1 = _
      rw [runLines_drop, drop_enqueueBytes]
    | false =>
      have h2 := h1.stored hf b
      have hone : ringFree s1.cfg.ringN s1.rb = ringFree (s1.stored b).cfg.ringN (s1.stored b).rb + 1 := by
        have hlt := ringHeld_lt hring
        have hnot : ringHeld s1.cfg.ringN s1.rb + 1 ≠ s1.cfg.ringN := fun he => by
          rw [(ringFull_iff hring).mpr he] at hf
          cases hf
        have hlen := congrArg List.length (State.held_stored hring hf b)
        rw [State.held_eq, State.held_eq, heldBytes_length, List.length_append, heldBytes_length] at hlen
        rw [ringFree, ringFree, hlen, show (s1.stored b).cfg = s1.cfg from rfl, List.length_singleton]
        omega
      obtain ⟨u, hrun, hu⟩ := ih h2
      refine ⟨u, (runLines_go hready (enqueueByte_free hf b _)).trans hrun, ?_⟩
      rw [hone, List.take_succ_cons]
      simpa using hu

/-- Line 7 of R182: the call arms iff it has stored a byte. -/
theorem Filled.arm {s0 s : State} {stored : List Byte} (h : Filled s0 stored s) :
    Filled { s0 with armed := s0.armed || decide (1 ≤ stored.length) } stored
      { s with armed := if s.tmp.put ≥ 1 then true else s.armed } where
  cfg := h.cfg
  ring := h.ring
  rd := h.rd
  line := h.line
  armed := by
    simp only [h.put, h.armed]
    by_cases hput : 1 ≤ stored.length <;> simp [hput]
  held := h.held
  put := h.put
  sched := h.sched

/-- The two lines after the bytes of a call: the arming and the return. -/
theorem Filled.returns {s0 s : State} {stored : List Byte} (h : Filled s0 stored s) (i : Instr) (v : Word) :
    ∃ t, runLines i [.enqArm, .ret v] 0 s = .next t ∧ t.res = v ∧ t.line = s0.line ∧ t.rb.rd = s0.rb.rd ∧
      t.held = s0.held ++ stored ∧ t.armed = (s0.armed || decide (1 ≤ stored.length)) := by
  obtain ⟨s1, hready1, h1⟩ := h.ready i (l := .enqArm) rfl [.ret v]
  obtain ⟨s2, hready2, h2⟩ := h1.arm.ready i (l := .ret v) rfl []
  refine ⟨s2.finish v, ?_, rfl, h2.line, h2.rd, h2.held, h2.armed⟩
  rw [runLines_go hready1 rfl, runLines_ready hready2]
  rfl

/-- Settles O23: the call fills the free slots and arms iff it has stored a byte. -/
theorem enqueueDropsTail : Obligations.EnqueueDropsTail := by
  unfold Obligations.EnqueueDropsTail
  intro s ⟨hinv, hb, hq⟩ hirq hlen
  have hsched : ∀ x ∈ s.sched, x.quiet = true ∧ x.isIrq = false := fun x hx =>
    ⟨((s.uninterrupted_iff).mp hq).1 x hx, by simpa using List.all_eq_true.mp hirq x hx⟩
  have h0 : Filled s [] (s.begin .txEnqueue (opLines .txEnqueue s)) :=
    ⟨rfl, hinv.base.ringIn, rfl, rfl, rfl, (List.append_nil _).symm, rfl, hsched⟩
  obtain ⟨s1, hready, h1⟩ := h0.ready .txEnqueue (l := .enqStart) rfl (enqueueBytes s.operandBytes ++ [.ret 1])
  have h2 : Filled s [] { s1 with tmp := { s1.tmp with put := 0 } } :=
    h1.congr rfl rfl rfl rfl h1.put.symm fun _ hx => hx
  obtain ⟨u, hrun, hu⟩ := h2.bytes .txEnqueue [.ret 1] s.operandBytes
  obtain ⟨t, ht, hres, hline, hrd, hheld, harmed⟩ := hu.returns .txEnqueue 1
  rw [h2.ringFree_eq, ← h0.ringFree_eq] at hheld harmed
  refine ⟨t, ?_, hres, hline, hrd, hheld, harmed⟩
  rw [exec_start, start_runs _ hb rfl (opPre_txEnqueue hlen)]
  exact (runLines_go hready rfl).trans (hrun.trans ht)

end Sys2Proof.Machine
end

section
/-! ## `should_force_bootloader` -/

namespace Sys2Proof.Machine

/-! ### A pin that does not move -/

/-- The button is at level `b`, and the schedule does not move it. -/
def PinStill (b : Bool) (s : State) : Prop := s.btn = b ∧ s.sched.all (fun x => !x.isPin) = true

theorem PinStill.congr {b : Bool} {s t : State} (h : PinStill b s) (hb : t.btn = s.btn) (hs : t.sched = s.sched) :
    PinStill b t := ⟨hb.trans h.1, by rw [hs]; exact h.2⟩

/-- The wait before a line leaves a pin that the schedule does not move where it is. -/
theorem PinStill.await {b : Bool} {l : Line} (sched : List Turn) {s t : State} (h : PinStill b s)
    (hs : s.sched = sched) (hw : Machine.await l sched s = .ready t) : PinStill b t := by
  induction sched generalizing s with
  | nil =>
    rw [Machine.await] at hw
    split at hw
    · cases hw; exact h
    · split at hw
      · cases hw
      · cases hw; exact h.congr (by simp) (by simp)
  | cons x r ih =>
    obtain ⟨hbtn, hpin⟩ := h
    rw [hs, List.all_cons, Bool.and_eq_true] at hpin
    obtain ⟨hx, hr⟩ := hpin
    have h0 : PinStill b { s with sched := r } := ⟨hbtn, hr⟩
    cases x with
    | seq =>
      rw [Machine.await] at hw
      split at hw
      · cases hw; exact h0
      · exact ih h0 rfl hw
    | irq => exact ih (h0.congr (t := State.irqTurn { s with sched := r }) (by simp) (by simp)) (by simp) hw
    | uart => exact ih (h0.congr (t := State.uartShift { s with sched := r }) (by simp) (by simp)) (by simp) hw
    | fctl pg wp =>
      exact ih (h0.congr (t := State.fctlTurn pg wp { s with sched := r }) (by simp) (by simp)) (by simp) hw
    | pin level => cases hx
    | host =>
      rw [Machine.await] at hw
      split at hw
      · exact ih h0 rfl hw
      · cases hw
    | reset => cases hw
    | stick => exact ih (h0.congr (t := { s with sched := r, fctlStuck := true }) rfl rfl) rfl hw
    | yield => cases hw

/-! ### An uninterrupted call, line by line -/

/-- Since `s0` nothing has been handed to the ring, and the state is now `u` but for the transmit side; a pin that the
schedule of `s0` does not move has not moved. -/
structure Aside (s0 u s : State) : Prop where
  core : s.core = u.core
  stream : s.stream = s0.stream
  pin : ∀ b, PinStill b s0 → PinStill b s

theorem Aside.step {s0 u v s t : State} (h : Aside s0 u s) (hc : t.core = v.core) (hstream : t.stream = s.stream)
    (henv : SameEnv s t) : Aside s0 v t where
  core := hc
  stream := hstream.trans h.stream
  pin b hb := (h.pin b hb).congr henv.btn henv.sched

/-- The call of `i` in `s0` has come to `lines` in the state `s`, which is `u` but for the transmit side. -/
structure CallAt (i : Instr) (s0 : State) (lines : List Line) (u s : State) : Prop where
  run : exec i s0 = runLines i lines 0 s
  going : Going i lines 0 s
  quiet : s.uninterrupted = true
  aside : Aside s0 u s

/-- The call of `i` in `s0` comes to `lines`, the state then being `u` but for the transmit side. -/
def Reaches (i : Instr) (s0 : State) (lines : List Line) (u : State) : Prop := ∃ s, CallAt i s0 lines u s

/-- The call of `i` in `s0` takes line `l` in the state `s`, which is `u` but for the transmit side. -/
structure LineTaken (i : Instr) (s0 : State) (l : Line) (rest : List Line) (u s : State) : Prop where
  goes : ∀ s2, runLine l s = .go s2 → exec i s0 = runLines i rest 0 s2
  ends : ∀ t, runLine l s = .done t → exec i s0 = .next t
  waiting : Waiting i l rest s
  meaning : LineSat l s (runLine l s)
  quiet : s.uninterrupted = true
  aside : Aside s0 u s

/-- The call of `i` in `s0` ends in `t`, which is `u` but for the transmit side. -/
structure CallEnds (i : Instr) (s0 u t : State) : Prop where
  run : exec i s0 = .next t
  ready : t.Ready
  aside : Aside s0 u t

theorem Flow.core_eq_go {f : Flow} {v : State} (h : f.core = .go v) : ∃ t, f = .go t ∧ t.core = v := by
  cases f with
  | go t => exact ⟨t, rfl, Flow.go.inj h⟩
  | _ => cases h

theorem Flow.core_eq_done {f : Flow} {v : State} (h : f.core = .done v) : ∃ t, f = .done t ∧ t.core = v := by
  cases f with
  | done t => exact ⟨t, rfl, Flow.done.inj h⟩
  | _ => cases h

theorem reaches_opLines {i : Instr} {s : State} (h : s.Ready) (hw : i.wf s.cfg.variant = true)
    (hp : opPre i s = none) : Reaches i s (opLines i s) (s.begin i (opLines i s)) := by
  obtain ⟨hinv, hb, hq⟩ := h
  exact ⟨s.begin i (opLines i s),
    { run := by rw [exec_start, start_runs _ hb hw hp]
      going := going_begin hinv hb hw (okAfter_opLines hinv.base hw hp)
      quiet := hq
      aside := ⟨rfl, State.stream_congr rfl rfl rfl, fun _ h => h⟩ }⟩

section
variable {i : Instr} {s0 u s : State} {l : Line} {rest : List Line}

theorem CallAt.taken (h : CallAt i s0 (l :: rest) u s) (hh : l.holds = false) :
    ∃ s1, LineTaken i s0 l rest u s1 := by
  obtain ⟨s1, hready, hp, hen, hq⟩ := ready_of_going h.going h.quiet
  exact ⟨s1,
    { goes := fun s2 hrun => h.run.trans (runLines_go hready hrun)
      ends := fun t hrun => h.run.trans (by rw [runLines_ready hready, hrun])
      waiting := hp.waiting
      meaning := runLine_ok hp.waiting.base (hp.waiting.pending hen) (linesOk_head hp.waiting.ok)
      quiet := hq
      aside :=
        { core := (hp.core_eq h.going hh).trans h.aside.core
          stream := hp.stream.trans h.aside.stream
          pin := fun b hb => PinStill.await s.sched (s := { s with seq := .running i (l :: rest) })
            ((h.aside.pin b hb).congr rfl rfl) rfl hready } }⟩

theorem LineTaken.went {v s2 : State} (h : LineTaken i s0 l rest u s) (hl : l.inEnqueue = false) (hs : l ≠ .enqStart)
    (hrun : runLine l s = .go s2) (hv : s2.core = v.core) : CallAt i s0 rest v s2 := by
  have hwent : Went l s s2 := by have := h.meaning; rwa [hrun] at this
  exact
    { run := h.goes s2 hrun
      going := h.waiting.went hrun hwent
      quiet := uninterrupted_went hwent h.quiet
      aside := h.aside.step hv (runLine_stream hwent hl hs) hwent.env }

theorem LineTaken.done {v t : State} (h : LineTaken i s0 l rest u s) (hrun : runLine l s = .done t)
    (hv : t.core = v.core) : CallEnds i s0 v t := by
  have hend : Ended s t := by have := h.meaning; rwa [hrun] at this
  exact
    { run := h.ends t hrun
      ready := ⟨h.waiting.ended (runLine_done_inEnqueue hrun) hend, hend.busy, by
        rw [State.uninterrupted, hend.env.sched, hend.env.stuck]; exact h.quiet⟩
      aside := h.aside.step hv (State.stream_congr hend.cfg hend.rb hend.line) hend.env }

/-- A line that sees nothing of the transmit side does to the state what it does to `u`. -/
theorem LineTaken.core_runLine (h : LineTaken i s0 l rest u s) (ho : l.observesTx = false) :
    (runLine l s).core = (runLine l u).core := by
  rw [← runLine_core ho, h.aside.core, runLine_core ho]

theorem Reaches.line {v : State} (h : Reaches i s0 (l :: rest) u) (ho : l.observesTx = false) (hh : l.holds = false)
    (hgo : runLine l u = .go v) : Reaches i s0 rest v := by
  obtain ⟨s, h⟩ := h
  obtain ⟨s1, h1⟩ := h.taken hh
  obtain ⟨s2, hrun, hc⟩ := Flow.core_eq_go (v := v.core) ((h1.core_runLine ho).trans (by rw [hgo]; rfl))
  exact ⟨s2, h1.went (by cases l <;> first | rfl | exact Bool.noConfusion ho) (by rintro rfl; cases ho) hrun hc⟩

/-- The sampled level is free, and is the pin's where the schedule does not move it (spec/10_state.md R52). -/
theorem Reaches.sample (h : Reaches i s0 (.pinSample :: rest) u) :
    ∃ lvl, Reaches i s0 rest { u with tmp := { u.tmp with lvl := lvl } } ∧ ∀ b, PinStill b s0 → lvl = b := by
  obtain ⟨s, h⟩ := h
  obtain ⟨s1, h1⟩ := h.taken rfl
  have hcore := congrArg (fun c : State => { c with tmp := { c.tmp with lvl := s1.btn } }) h1.aside.core
  exact ⟨s1.btn, ⟨_, h1.went rfl Line.noConfusion rfl hcore⟩, fun b hb => (h1.aside.pin b hb).1⟩

theorem Reaches.ends {v : State} (h : Reaches i s0 (l :: rest) u) (ho : l.observesTx = false) (hh : l.holds = false)
    (hdone : runLine l u = .done v) : ∃ t, CallEnds i s0 v t := by
  obtain ⟨s, h⟩ := h
  obtain ⟨s1, h1⟩ := h.taken hh
  obtain ⟨t, hrun, hc⟩ := Flow.core_eq_done (v := v.core) ((h1.core_runLine ho).trans (by rw [hdone]; rfl))
  exact ⟨t, h1.done hrun hc⟩

end

theorem CallEnds.streamed {i : Instr} {s u t : State} (h : CallEnds i s u t) : Streamed [] s t :=
  ⟨[], .nil, h.aside.stream.trans (List.append_nil _).symm, fun _ => rfl⟩

theorem CallEnds.txFrame {i : Instr} {s u t : State} (h : CallEnds i s u.rested t) (hs : u.seq = .idle)
    (hb : u.busy = false) (ht : u.tmp = Tmp.init) : TxFrame u t := by
  obtain ⟨hinv, hbusy, -⟩ := h.ready
  refine hinv.txFrame_of_core (hinv.idle_of_notBusy hbusy) (h.aside.core.trans ?_) ⟨hs, ht⟩
  rw [State.rested_eq hs hb ht]

/-! ### The lines of the trigger -/

/-- After lines 1 to 3 of R201: the cell is compared and cleared. -/
def State.cellTaken (s : State) : State :=
  { s with bkp := Config.cleared, tmp := { s.tmp with v := s.bkp, force := s.bkp == s.cfg.forceCmd } }

/-- What the button adds to `force` (spec/44_boot_trigger.md R201 lines 7, 8, R203). -/
def buttonForces (c : Config) (lvl : Bool) : Bool := c.haveButton && buttonPressed c.buttonActiveHigh lvl

theorem buttonForces_iff (c : Config) (lvl : Bool) :
    buttonForces c lvl = true ↔ c.haveButton = true ∧ (lvl = true ↔ c.buttonActiveHigh = true) := by
  rw [buttonForces, buttonPressed, Bool.and_eq_true]
  cases c.buttonActiveHigh <;> simp

theorem boolResult_eq_ite {b : Bool} {p : Prop} [Decidable p] (h : b = true ↔ p) :
    boolResult b = if p then 1 else 0 :=
  if_congr h rfl rfl

/-- The end of a call of the trigger whose sample of the pin is `lvl` (R205), up to the transmit side. -/
def State.triggered (lvl : Bool) (s : State) : State :=
  { s with
    bkp := 0x0000
    res := if s.bkp = s.cfg.forceCmd ∨ (s.cfg.haveButton = true ∧ (lvl = true ↔ s.cfg.buttonActiveHigh = true))
      then 1 else 0
    ill := false, cause := none }

section
variable {i : Instr} {s0 u : State} {rest : List Line}

theorem Reaches.cell (h : Reaches i s0 (.bkpRead :: .bkpCompare :: .bkpClear :: rest) u) :
    Reaches i s0 rest u.cellTaken :=
  ((h.line rfl rfl rfl).line rfl rfl rfl).line rfl rfl rfl

/-- Lines 5 to 8 of R201 write temporaries only, and add to `force` what the button does. -/
theorem Reaches.button {c : Config} (h : Reaches i s0 (buttonLines c ++ rest) u) (hc : u.cfg = c) :
    ∃ lvl tmp, Reaches i s0 rest { u with tmp := tmp } ∧ tmp.force = (u.tmp.force || buttonForces c lvl) ∧
      ∀ b, PinStill b s0 → lvl = b := by
  rw [buttonLines] at h
  cases hb : c.haveButton with
  | false =>
    rw [hb] at h
    exact ⟨s0.btn, u.tmp, h, by rw [buttonForces, hb, Bool.false_and, Bool.or_false], fun b hs => hs.1⟩
  | true =>
    rw [hb] at h
    obtain ⟨lvl, hsampled, hlvl⟩ := (h.line (l := .delay c.debounceDelay) rfl rfl rfl).sample
    exact ⟨lvl, _, (hsampled.line (l := .pinPressed) rfl rfl rfl).line (l := .pinOr) rfl rfl rfl,
      by rw [buttonForces, hb, Bool.true_and, hc], hlvl⟩

end

/-- A call of the trigger: the cell, the button if there is one, the answer. -/
theorem trigger_ends {s : State} (h : s.Ready) :
    ∃ t lvl, CallEnds .shouldForceBootloader s (s.triggered lvl).rested t ∧ ∀ b, PinStill b s → lvl = b := by
  have hcell : Reaches .shouldForceBootloader s (buttonLines s.cfg ++ [.retForce]) _ :=
    Reaches.cell (reaches_opLines h rfl rfl)
  obtain ⟨lvl, tmp, hreach, hforce, hlvl⟩ := hcell.button rfl
  obtain ⟨t, ht⟩ := hreach.ends rfl rfl rfl
  have hres : boolResult tmp.force = (s.triggered lvl).res := boolResult_eq_ite <| by
    rw [hforce, Bool.or_eq_true, buttonForces_iff]
    exact or_congr beq_iff_eq Iff.rfl
  refine ⟨t, lvl, { ht with aside := { ht.aside with core := ht.aside.core.trans ?_ } }, hlvl⟩
  rw [State.finish, hres]
  rfl

theorem trigger_txFrame {s t : State} {lvl : Bool} (h : s.Ready)
    (ht : CallEnds .shouldForceBootloader s (s.triggered lvl).rested t) : TxFrame (s.triggered lvl) t := by
  obtain ⟨hseq, htmp⟩ := h.1.idle_fields h.2.1
  exact ht.txFrame hseq h.2.1 htmp

/-- Settles O30: the call ends as `State.triggered` for the sampled level. -/
theorem triggerTruth : Obligations.TriggerTruth := by
  unfold Obligations.TriggerTruth
  intro s h
  obtain ⟨t, lvl, ht, hlvl⟩ := trigger_ends h
  exact ⟨t, lvl, ht.run, ht.streamed, trigger_txFrame h ht, fun hpin => hlvl s.btn ⟨rfl, hpin⟩⟩

/-- With the cell cleared only the button forces: `FORCE_CMD` is not `CLEARED` (R8). -/
theorem State.triggered_res_of_cleared {s : State} (h : s.Inv) (hb : s.bkp = 0x0000) (lvl : Bool) :
    (s.triggered lvl).res =
      if s.cfg.haveButton = true ∧ (lvl = true ↔ s.cfg.buttonActiveHigh = true) then 1 else 0 :=
  if_congr (or_iff_right fun hf => h.base.geometry.force (hf.symm.trans hb)) rfl rfl

/-- Settles O31: the first call clears the cell, so the second is decided by the button. -/
theorem triggerOneShot : Obligations.TriggerOneShot := by
  unfold Obligations.TriggerOneShot
  intro s t u h hfirst hsecond
  obtain ⟨t', lvl1, ht, -⟩ := trigger_ends h
  obtain rfl : t' = t := Host.Outcome.next.inj (ht.run.symm.trans hfirst)
  obtain ⟨u', lvl, hu, hlvl⟩ := trigger_ends ht.ready
  obtain rfl : u' = u := Host.Outcome.next.inj (hu.run.symm.trans hsecond)
  have htframe := trigger_txFrame h ht
  have huframe := trigger_txFrame ht.ready hu
  have hcleared : t'.bkp = 0x0000 := by rw [htframe]; rfl
  have hcfg : t'.cfg = s.cfg := by rw [htframe]; rfl
  have hres := huframe.res.trans (State.triggered_res_of_cleared ht.ready.1 hcleared lvl)
  rw [hcfg] at hres
  refine ⟨hcleared, by rw [huframe]; rfl, fun hnone => ?_, fun hpin hone => ?_⟩
  · rw [hres, hnone]
    rfl
  · obtain rfl := hlvl s.btn (ht.aside.pin s.btn ⟨rfl, hpin⟩)
    rw [hres] at hone
    by_contra hnot
    rw [if_neg hnot] at hone
    cases hone

end Sys2Proof.Machine
end

section
/-! ## A quiescent state -/

namespace Sys2Proof.Machine

/-- In the middle of an operation a line is still to come. -/
theorem State.Inv.next_line {s : State} (h : s.Inv) {i : Instr} {lines : List Line} (hs : s.seq = .running i lines) :
    ∃ l rest, lines = l :: rest := by
  cases lines with
  | nil => exact absurd (h.going hs).ok (by simp [linesOk])
  | cons l rest => exact ⟨l, rest, rfl⟩

/-- With the busy flag 0 every line is enabled (R76). -/
theorem lineEnabled_of_notBusy (l : Line) {s : State} (h : s.fc.busy = false) : lineEnabled l s = true := by
  simp [lineEnabled, State.statrBsy, h]

/-- Settles O21: with the busy flag 0 a line in progress would be enabled, so `SEQ` is idle; with `TXE` 1 no request
means disarmed, and between operations a disarmed ring is empty. -/
theorem quiescentIsEmpty : Obligations.QuiescentIsEmpty := by
  unfold Obligations.QuiescentIsEmpty
  intro s h hline hreq hfc htxe
  have hidle : s.seq = .idle := by
    cases hs : s.seq with
    | idle => rfl
    | running i lines =>
      obtain ⟨l, rest, rfl⟩ := h.next_line hs
      have hen := lineEnabled_of_notBusy l hfc
      rw [hline i l rest hs] at hen
      cases hen
  have harm : s.armed = false := by simpa [State.txeRequest, htxe] using hreq
  have hempty : ringEmpty s.rb = true := by
    rcases h.armedOr hidle with he | ha | ⟨-, hmid⟩
    · exact he
    · rw [harm] at ha
      cases ha
    · cases hmid
  exact ⟨(h.idle hidle).1, harm, hempty, heldBytes_empty h.base.ringIn hempty⟩

end Sys2Proof.Machine
end

section
/-! ## The failure label and the schedule are seen by no line -/

namespace Sys2Proof.Machine

/-- `s` with another failure label and another schedule: the two components that no line reads. -/
def State.retag (c : Option Cause) (r : List Turn) (s : State) : State := { s with cause := c, sched := r }

/-- A flash read with the label and the schedule replaced. -/
def Got.retag {α : Type} (c : Option Cause) (r : List Turn) : Got α → Got α
  | .value v t => .value v (t.retag c r)
  | .absent e => .absent e

/-- The second flow is the first with the label `c` and the schedule `r`, but that where the operation has ended the
label may be its own. -/
def Flow.Retags (c : Option Cause) (r : List Turn) : Flow → Flow → Prop
  | .go t, f => f = .go (t.retag c r)
  | .skip n t, f => f = .skip n (t.retag c r)
  | .done t, f => ∃ c', f = .done (t.retag c' r)
  | .fault e, f => f = .fault e
  | .refuse e, f => f = .refuse e

variable {c : Option Cause} {r : List Turn}

/-- A test that both sides make. -/
theorem ite_rel {α : Type} {R : α → α → Prop} {p : Prop} [Decidable p] {f g f' g' : α} (hf : R f f') (hg : R g g') :
    R (if p then f else g) (if p then f' else g') := by
  split <;> assumption

theorem memRead16_retag (a : Word) (s : State) : memRead16 a (s.retag c r) = (memRead16 a s).retag c r := by
  unfold memRead16
  rw [apply_ite (Got.retag c r), apply_ite (Got.retag c r), apply_ite (Got.retag c r)]
  rfl

theorem memRead32_retag (a : Word) (s : State) : memRead32 a (s.retag c r) = (memRead32 a s).retag c r := by
  unfold memRead32
  rw [apply_ite (Got.retag c r), apply_ite (Got.retag c r), apply_ite (Got.retag c r)]
  rfl

theorem verifyHalf_retag (a : Word) (v : Half) (s : State) :
    (verifyHalf a v s).Retags c r (verifyHalf a v (s.retag c r)) := by
  unfold verifyHalf
  rw [memRead16_retag]
  cases memRead16 a s with
  | absent e => rfl
  | value got t => exact ite_rel rfl ⟨_, rfl⟩

theorem refreshRead_retag (x : Word) (s : State) : (refreshRead x s).Retags c r (refreshRead x (s.retag c r)) := by
  unfold refreshRead
  rw [memRead32_retag]
  cases memRead32 (refreshPartner x) s <;> rfl

theorem startOn_retag (p : Word) (n : Nat) (y : Cycle) (s : State) :
    (startOn p n y s).Retags c r (startOn p n y (s.retag c r)) := ite_rel rfl (ite_rel rfl rfl)

theorem startBuffer_retag (y : Cycle) (s : State) : (startBuffer y s).Retags c r (startBuffer y (s.retag c r)) :=
  ite_rel rfl (ite_rel rfl rfl)

theorem startMode_retag (s : State) : (startMode s).Retags c r (startMode (s.retag c r)) := by
  unfold startMode
  rw [show (s.retag c r).ctlr = s.ctlr from rfl]
  split
  · exact startOn_retag _ _ _ s.setStrt
  · exact startOn_retag _ _ _ s.setStrt
  · rfl
  · rfl

theorem writeKey_retag (k : KeyReg) (v : Word) (s : State) :
    (writeKey k v s).Retags c r (writeKey k v (s.retag c r)) := by
  by_cases hk : expectedKey s.cfg (if s.fc.keyseq ≥ 4 then 0 else s.fc.keyseq) = (k, v)
  · rw [writeKey_eq hk, writeKey_eq (s := s.retag c r) hk]
    rfl
  · rw [writeKey_ne hk, writeKey_ne (s := s.retag c r) hk]
    rfl

/-- No line reads the label or the schedule. -/
theorem runLine_retag (l : Line) (s : State) : (runLine l s).Retags c r (runLine l (s.retag c r)) := by
  cases l with
  | enqByte b left => exact ite_rel rfl rfl
  | gErase d => exact startOn_retag _ _ _ s
  | gProg d v => exact ite_rel rfl (startOn_retag _ _ _ s)
  | bound d => exact ite_rel ⟨_, rfl⟩ rfl
  | windowTest d => exact ite_rel rfl rfl
  | verify d v => exact verifyHalf_retag d v s
  | keyWrite k v => exact writeKey_retag k v s
  | ctlSet b =>
    cases b with
    | level l => rfl
    | bufRst => exact startBuffer_retag _ s.setBufrst
    | bufLoad => exact startBuffer_retag _ s.setBufload
    | strt => exact startMode_retag s
    | lock => rfl
  | refreshRead x => exact refreshRead_retag x s
  | memWrite a w => exact ite_rel rfl (ite_rel rfl (ite_rel rfl (ite_rel rfl (ite_rel rfl rfl))))
  | statusTest => exact ite_rel rfl rfl
  | retForce => exact ⟨_, rfl⟩
  | retSize => exact ⟨_, rfl⟩
  | ret v => exact ⟨_, rfl⟩
  | fail k => exact ⟨_, rfl⟩
  | _ => rfl

theorem txeDrain_retag (s : State) : (s.retag c r).txeDrain = s.txeDrain.retag c r := by
  unfold State.txeDrain
  rw [apply_ite (State.retag c r)]
  rfl

theorem irqTurn_retag (s : State) : (s.retag c r).irqTurn = s.irqTurn.retag c r := by
  unfold State.irqTurn
  rw [apply_ite (State.retag c r), ← txeDrain_retag]
  rfl

theorem uartShift_retag (s : State) : (s.retag c r).uartShift = s.uartShift.retag c r := by
  unfold State.uartShift
  rw [apply_ite (State.retag c r)]
  rfl

theorem complete_retag (pg wp : Bool) (s : State) : (s.retag c r).complete pg wp = (s.complete pg wp).retag c r := by
  unfold State.complete
  rw [show (s.retag c r).fc = s.fc from rfl]
  split <;> rfl

theorem fctlTurn_retag (pg wp : Bool) (s : State) : (s.retag c r).fctlTurn pg wp = (s.fctlTurn pg wp).retag c r := by
  unfold State.fctlTurn
  rw [apply_ite (State.retag c r), ← complete_retag]
  rfl

/-- No turn reads the label or the schedule; a reset clears the label. -/
theorem turn_retag {x : Turn} (hx : x.isReset = false) (s : State) :
    State.turn x (s.retag c r) = (State.turn x s).retag c r := by
  cases x with
  | irq => exact irqTurn_retag s
  | uart => exact uartShift_retag s
  | fctl pg wp => exact fctlTurn_retag pg wp s
  | reset => cases hx
  | _ => rfl

theorem opPre_retag (i : Instr) (c : Option Cause) (r : List Turn) (s : State) :
    opPre i (s.retag c r) = opPre i s := by
  cases i <;> rfl

/-! ### What the end of a wait leads to -/

theorem runLines_ended {i : Instr} {l : Line} {rest : List Line} {s s1 : State}
    (h : await l s.sched { s with seq := .running i (l :: rest) } = .ended s1) :
    runLines i (l :: rest) 0 s = .next s1 := by
  rw [runLines, h]

theorem runLines_overrun {i : Instr} {l : Line} {rest : List Line} {s : State} {e : Refusal}
    (h : await l s.sched { s with seq := .running i (l :: rest) } = .refused e) :
    runLines i (l :: rest) 0 s = .refused e := by
  rw [runLines, h]

/-- What a run does with what its first line leads to, `rest` being the lines after it. -/
def Flow.run (i : Instr) (rest : List Line) : Flow → Outcome
  | .go s => runLines i rest 0 s
  | .skip n s => runLines i rest n s
  | .done s => .next s
  | .fault e => .fault e
  | .refuse e => .refused e

theorem runLines_taken {i : Instr} {l : Line} {rest : List Line} {s s1 : State}
    (h : await l s.sched { s with seq := .running i (l :: rest) } = .ready s1) :
    runLines i (l :: rest) 0 s = (runLine l s1).run i rest := by
  rw [runLines_ready h]
  cases runLine l s1 <;> rfl

theorem State.poll_illFormed {s : State} (hw : ¬ s.cfg.wf = true) : s.poll = .refuse .illFormedConfiguration := by
  simp [State.poll, hw]

/-- A step with an operation in progress goes on with its lines. -/
theorem step_resume {s : State} (hw : s.cfg.wf = true) {i : Instr} {lines : List Line}
    (hs : s.seq = .running i lines) : step s = runLines i lines 0 s := by
  rw [step, State.poll_running hw hs]

end Sys2Proof.Machine
end

section
/-! ## The failure label is ghost state -/

namespace Sys2Proof.Machine

/-- `s` with another failure label. -/
def State.relabel (c : Option Cause) (s : State) : State := { s with cause := c }

/-- The second outcome is the first but for the label of the state it answers. -/
def Labels : Outcome → Outcome → Prop
  | .next t, o => ∃ c, o = .next (t.relabel c)
  | .fault e, o => o = .fault e
  | .refused e, o => o = .refused e

/-- The same of the end of a wait. -/
def Awaited.Labels : Awaited → Awaited → Prop
  | .ready t, a => ∃ c, a = .ready (t.relabel c)
  | .ended t, a => ∃ c, a = .ended (t.relabel c)
  | .refused e, a => a = .refused e

/-- The same of what a line leads to. -/
def Flow.Labels : Flow → Flow → Prop
  | .go t, f => ∃ c, f = .go (t.relabel c)
  | .skip n t, f => ∃ c, f = .skip n (t.relabel c)
  | .done t, f => ∃ c, f = .done (t.relabel c)
  | .fault e, f => f = .fault e
  | .refuse e, f => f = .refuse e

theorem Labels.refl (o : Outcome) : Labels o o := by
  cases o with
  | next t => exact ⟨t.cause, rfl⟩
  | fault e => rfl
  | refused e => rfl

theorem State.retag_eq_relabel {t : State} {r : List Turn} (h : t.sched = r) (c : Option Cause) :
    t.retag c r = t.relabel c := by
  rw [← h]
  rfl

/-! ### Turns and idle steps -/

theorem State.turn_sched (x : Turn) (s : State) : (s.turn x).sched = s.sched := by
  cases x <;> simp [State.turn]

/-- No turn reads the label, and a reset clears it. -/
theorem turn_relabel (x : Turn) (s : State) (c : Option Cause) :
    ∃ c', State.turn x (s.relabel c) = (State.turn x s).relabel c' := by
  cases hx : x.isReset with
  | false => exact ⟨c, (turn_retag hx s).trans (State.retag_eq_relabel (s.turn_sched x) c)⟩
  | true =>
    cases x with
    | reset => exact ⟨none, rfl⟩
    | _ => cases hx

theorem completeFree_relabel (s : State) (c : Option Cause) :
    (s.relabel c).completeFree = s.completeFree.relabel c :=
  (complete_retag _ _ s).trans (State.retag_eq_relabel (State.complete_sched ..) c)

theorem idleStep_relabel (s : State) (c : Option Cause) :
    ∃ c', (s.relabel c).idleStep = s.idleStep.relabel c' := by
  unfold State.idleStep
  rw [show (s.relabel c).sched = s.sched from rfl]
  cases s.sched with
  | cons x r => exact turn_relabel x { s with sched := r } c
  | nil =>
    exact ite_rel (R := fun t u => ∃ c', t = State.relabel c' u)
      ⟨c, (txeDrain_retag s).trans (State.retag_eq_relabel s.txeDrain_sched c)⟩
      ⟨c, (uartShift_retag s).trans (State.retag_eq_relabel s.uartShift_sched c)⟩

/-! ### Waits and lines -/

/-- A wait does not depend on the label. -/
theorem await_relabel (l : Line) (sched : List Turn) (s : State) (c : Option Cause) :
    (await l sched s).Labels (await l sched (s.relabel c)) := by
  induction sched generalizing s c with
  | nil => exact ite_rel ⟨c, rfl⟩ (ite_rel ⟨c, rfl⟩ ⟨c, congrArg Awaited.ready (completeFree_relabel s c)⟩)
  | cons x r ih =>
    have turned : (await l r (State.turn x { s with sched := r })).Labels
        (await l r (State.turn x { s.relabel c with sched := r })) := by
      obtain ⟨c', hc⟩ := turn_relabel x { s with sched := r } c
      rw [show ({ s.relabel c with sched := r } : State) = ({ s with sched := r } : State).relabel c from rfl, hc]
      exact ih _ c'
    cases x with
    | seq => exact ite_rel ⟨c, rfl⟩ turned
    | host => exact ite_rel turned rfl
    | reset => exact ⟨none, rfl⟩
    | yield => exact ⟨c, rfl⟩
    | irq => exact turned
    | uart => exact turned
    | fctl pg wp => exact turned
    | pin b => exact turned
    | stick => exact turned

/-- A flow in which the schedule is still `r` has been retagged in its label only. -/
theorem Flow.Retags.labels {c : Option Cause} {r : List Turn} {f g : Flow} (h : f.Retags c r g)
    (hs : f.Always fun t => t.sched = r) : f.Labels g := by
  cases f with
  | go t => exact ⟨c, h.trans (congrArg _ (State.retag_eq_relabel hs c))⟩
  | skip n t => exact ⟨c, h.trans (congrArg _ (State.retag_eq_relabel hs c))⟩
  | done t =>
    obtain ⟨c', h⟩ := h
    exact ⟨c', h.trans (congrArg _ (State.retag_eq_relabel hs c'))⟩
  | fault e => exact h
  | refuse e => exact h

/-- What a line leads to does not depend on the label. -/
theorem runLine_relabel (l : Line) (s : State) (c : Option Cause) :
    (runLine l s).Labels (runLine l (s.relabel c)) :=
  Flow.Retags.labels (c := c) (runLine_retag l s) (runLine_sched l s)

/-- What a run does with a flow does not depend on the label, if the lines after it do not. -/
theorem Flow.Labels.run {i : Instr} {rest : List Line} {f g : Flow} (h : f.Labels g)
    (hrest : ∀ n s c, Machine.Labels (runLines i rest n s) (runLines i rest n (State.relabel c s))) :
    Machine.Labels (f.run i rest) (g.run i rest) := by
  cases f with
  | go t =>
    obtain ⟨c, rfl⟩ := h
    exact hrest 0 t c
  | skip n t =>
    obtain ⟨c, rfl⟩ := h
    exact hrest n t c
  | done t =>
    obtain ⟨c, rfl⟩ := h
    exact ⟨c, rfl⟩
  | fault e =>
    subst h
    rfl
  | refuse e =>
    subst h
    rfl

/-- A run of lines does not depend on the label. -/
theorem runLines_relabel (i : Instr) (lines : List Line) (n : Nat) (s : State) (c : Option Cause) :
    Labels (runLines i lines n s) (runLines i lines n (s.relabel c)) := by
  induction lines generalizing n s c with
  | nil => exact ⟨c, rfl⟩
  | cons l rest ih =>
    cases n with
    | succ n => exact ih n s c
    | zero =>
      have ha := await_relabel l s.sched { s with seq := .running i (l :: rest) } c
      cases hs : await l s.sched { s with seq := .running i (l :: rest) } with
      | ready s1 =>
        rw [hs] at ha
        obtain ⟨c1, hc⟩ := ha
        rw [runLines_taken hs, runLines_taken (s := s.relabel c) hc]
        exact (runLine_relabel l s1 c1).run ih
      | ended s1 =>
        rw [hs] at ha
        obtain ⟨c1, hc⟩ := ha
        rw [runLines_ended hs, runLines_ended (s := s.relabel c) hc]
        exact ⟨c1, rfl⟩
      | refused e =>
        rw [hs] at ha
        rw [runLines_overrun hs, runLines_overrun (s := s.relabel c) ha]
        rfl

/-! ### Steps -/

/-- An operation starts without a label. -/
theorem exec_relabel (i : Instr) (s : State) (c : Option Cause) : exec i (s.relabel c) = exec i s := by
  rw [exec_start, exec_start, show opPre i (s.relabel c) = opPre i s from opPre_retag i c s.sched s,
    opLines_congr (s := s) (t := s.relabel c) rfl rfl rfl rfl]
  rfl

/-- A step does not depend on the label. -/
theorem step_relabel (s : State) (c : Option Cause) : Labels (step s) (step (s.relabel c)) := by
  by_cases hw : s.cfg.wf = true
  · cases hs : s.seq with
    | running i lines =>
      rw [step_resume hw hs, step_resume (s := s.relabel c) hw hs]
      exact runLines_relabel i lines 0 s c
    | idle =>
      cases hi : s.inbox with
      | nil =>
        obtain ⟨c', hc⟩ := idleStep_relabel s c
        rw [step, step, State.poll_idle hw hs hi, State.poll_idle (s := s.relabel c) hw hs hi]
        exact ⟨c', congrArg _ hc⟩
      | cons y rest =>
        cases hd : decode s.cfg.variant y.op with
        | op i =>
          rw [step_issue hw hs hi hd, step_issue (s := s.relabel c) hw hs hi hd,
            show (s.relabel c).accept y rest = (s.accept y rest).relabel c from rfl, exec_relabel]
          exact Labels.refl _
        | illegal why =>
          rw [step, step, State.poll_issue hw hs hi, State.poll_issue (s := s.relabel c) hw hs hi,
            show (s.relabel c).cfg = s.cfg from rfl, hd]
          exact ⟨c, rfl⟩
  · rw [step, step, State.poll_illFormed hw, State.poll_illFormed (s := s.relabel c) hw]
    rfl

/-- Settles O14: no turn and no line reads the label, an operation starts without one, so the two steps take the same
way. -/
theorem causeIsGhost : Obligations.CauseIsGhost := by
  unfold Obligations.CauseIsGhost
  intro s c
  have h := step_relabel s c
  refine ⟨fun t ht => ?_, fun e he => ?_, fun e he => ?_⟩
  · rw [ht] at h
    exact h
  · rw [he] at h
    exact h
  · rw [he] at h
    exact h

end Sys2Proof.Machine
end

section
/-! ## Turns before the rest of a schedule -/

namespace Sys2Proof.Machine

/-- `s` after the turns `a`, one by one. -/
def State.turns (a : List Turn) (s : State) : State := a.foldl (fun u x => u.turn x) s

theorem Turn.isReset_of_quiet {x : Turn} (h : x.quiet = true) : x.isReset = false := by
  cases x with
  | reset => cases h
  | _ => rfl

theorem KeptByTurns.turns {P : State → Prop} (hP : KeptByTurns P) {a : List Turn} (ha : ∀ x ∈ a, x.quiet = true)
    {s : State} (h : P s) : P (s.turns a) := by
  induction a generalizing s with
  | nil => exact h
  | cons x a ih =>
    exact ih (fun y hy => ha y (List.mem_cons_of_mem _ hy))
      (hP.turn (Turn.isReset_of_quiet (ha x List.mem_cons_self)) h)

/-- How the wait before `l` from `s` takes the turns `a`, whatever comes after them: all of them, or `SEQ` goes on at
one of its own. -/
inductive TakesTurns (l : Line) (a : List Turn) (s : State) : Prop
  | all (h : ∀ c r, await l (a ++ r) (s.retag c (a ++ r)) = await l r ((s.turns a).retag c r))
  | upTo (a₁ a₂ : List Turn) (ha : a = a₁ ++ .seq :: a₂) (hen : lineEnabled l (s.turns a₁) = true)
      (h : ∀ c r, await l (a ++ r) (s.retag c (a ++ r)) = .ready ((s.turns a₁).retag c (a₂ ++ r)))

/-- One more turn before them. -/
theorem TakesTurns.cons {l : Line} {a : List Turn} {s : State} {x : Turn} (h : TakesTurns l a (s.turn x))
    (hx : ∀ c r, await l (x :: (a ++ r)) (s.retag c (x :: (a ++ r))) = await l (a ++ r) ((s.turn x).retag c (a ++ r))) :
    TakesTurns l (x :: a) s := by
  cases h with
  | all h => exact .all fun c r => (hx c r).trans (h c r)
  | upTo a₁ a₂ ha hen h => exact .upTo (x :: a₁) a₂ (by rw [ha]; rfl) hen fun c r => (hx c r).trans (h c r)

theorem takesTurns (l : Line) {a : List Turn} (ha : ∀ x ∈ a, x.quiet = true) (s : State) : TakesTurns l a s := by
  induction a generalizing s with
  | nil => exact .all fun c r => rfl
  | cons x a ih =>
    have hq := ha x List.mem_cons_self
    have ih' := ih (fun y hy => ha y (List.mem_cons_of_mem _ hy)) (s.turn x)
    have turned : ∀ c r,
        State.turn x { s.retag c (x :: (a ++ r)) with sched := a ++ r } = (s.turn x).retag c (a ++ r) := fun c r =>
      turn_retag (Turn.isReset_of_quiet hq) s
    cases x with
    | seq =>
      cases hen : lineEnabled l s with
      | true => exact .upTo [] a rfl hen fun c r => if_pos hen
      | false => exact ih'.cons fun c r => if_neg (ne_true_of_eq_false hen)
    | irq => exact ih'.cons fun c r => congrArg (await l (a ++ r)) (turned c r)
    | uart => exact ih'.cons fun c r => congrArg (await l (a ++ r)) (turned c r)
    | fctl pg wp => exact ih'.cons fun c r => congrArg (await l (a ++ r)) (turned c r)
    | pin b => exact ih'.cons fun c r => rfl
    | host => cases hq
    | reset => cases hq
    | stick => cases hq
    | yield => cases hq

end Sys2Proof.Machine
end

section
/-! ## Cutting an operation and resuming it -/

namespace Sys2Proof.Machine

/-- A run of lines goes on by what its first wait answers. -/
theorem runLines_congr_await {i : Instr} {l : Line} {rest : List Line} {s s' : State}
    (h : await l s.sched { s with seq := .running i (l :: rest) } =
      await l s'.sched { s' with seq := .running i (l :: rest) }) :
    runLines i (l :: rest) 0 s = runLines i (l :: rest) 0 s' := by
  rw [runLines, runLines, h]

theorem State.with_seq_eq {s : State} {q : SeqPos} (h : s.seq = q) : { s with seq := q } = s := by
  rw [← h]

/-- What the lines `rest` answer when the run is cut among them, and when it is not (`a`, `b` the turns before and after
the cut): the step that resumes a cut operation has the outcome of the run without the cut. -/
def CutsAlike (i : Instr) (c : Option Cause) (b : List Turn) (rest : List Line) : Prop :=
  ∀ (n : Nat) (a : List Turn) (s t : State), Going i rest n s → (∀ x ∈ a, x.quiet = true) →
    runLines i rest n (s.retag c (a ++ .yield :: b)) = .next t → t.busy = true →
    step t = runLines i rest n (s.retag c (a ++ b))

/-- Where the cut comes after the next line, the line leads to the same state in both runs. -/
theorem Waiting.cut_later {i : Instr} {l : Line} {rest : List Line} {c : Option Cause} {a b : List Turn} {u t : State}
    (hu : Waiting i l rest u) (hen : lineEnabled l u = true) (ha : ∀ x ∈ a, x.quiet = true)
    (hrest : CutsAlike i c b rest) (hrun : (runLine l (u.retag c (a ++ .yield :: b))).run i rest = .next t)
    (hb : t.busy = true) : step t = (runLine l (u.retag c (a ++ b))).run i rest := by
  have hsat := runLine_ok hu.base (hu.pending hen) (linesOk_head hu.ok)
  have hcut := runLine_retag (c := c) (r := a ++ .yield :: b) l u
  have hall := runLine_retag (c := c) (r := a ++ b) l u
  generalize runLine l (u.retag c (a ++ .yield :: b)) = fcut at hcut hrun
  generalize runLine l (u.retag c (a ++ b)) = fall at hall ⊢
  cases hf : runLine l u with
  | go v =>
    rw [hf] at hsat hcut hall
    subst hcut hall
    exact hrest 0 a v t (hu.went hf hsat) ha hrun hb
  | skip m v =>
    rw [hf] at hsat hcut hall
    subst hcut hall
    exact hrest m a v t (hu.branched hsat) ha hrun hb
  | done v =>
    rw [hf] at hsat hcut
    obtain ⟨c', rfl⟩ := hcut
    obtain rfl := Host.Outcome.next.inj hrun
    exact absurd (hsat.busy.symm.trans hb) Bool.noConfusion
  | fault e =>
    rw [hf] at hsat
    exact hsat.elim
  | refuse e =>
    rw [hf] at hsat
    exact hsat.elim

/-- A cut operation and its resumption are the operation: the turns before the cut have the same effect in both runs,
and so have the lines. -/
theorem cutsAlike (i : Instr) (c : Option Cause) (b : List Turn) (lines : List Line) : CutsAlike i c b lines := by
  induction lines with
  | nil => exact fun n a s t h => absurd h.ok (by simp [linesOk])
  | cons l rest ih =>
    intro n a s t h ha hrun hb
    cases n with
    | succ n => exact ih n a s t h.skip ha hrun hb
    | zero =>
      have hw := h.waiting
      have hwait : ∀ r, await l (s.retag c r).sched { s.retag c r with seq := .running i (l :: rest) } =
        await l r (State.retag c r { s with seq := .running i (l :: rest) }) := fun r => rfl
      generalize ({ s with seq := .running i (l :: rest) } : State) = w at hw hwait
      cases takesTurns l ha w with
      | all htakes =>
        have hu := (Waiting.kept i l rest).turns ha hw
        have hend : await l (a ++ .yield :: b) (w.retag c (a ++ .yield :: b)) = .ended ((w.turns a).retag c b) :=
          htakes c (.yield :: b)
        obtain rfl := Host.Outcome.next.inj ((runLines_ended ((hwait _).trans hend)).symm.trans hrun)
        rw [step_resume (s := (w.turns a).retag c b) hu.base.cfg hu.seq]
        refine runLines_congr_await (Eq.trans ?_ ((hwait _).trans (htakes c b)).symm)
        rw [State.with_seq_eq (s := (w.turns a).retag c b) hu.seq]
        rfl
      | upTo a₁ a₂ hsplit hen htakes =>
        have ha₁ : ∀ x ∈ a₁, x.quiet = true := fun x hx => ha x (by simp [hsplit, hx])
        have ha₂ : ∀ x ∈ a₂, x.quiet = true := fun x hx => ha x (by simp [hsplit, hx])
        rw [runLines_taken ((hwait _).trans (htakes c (.yield :: b)))] at hrun
        rw [runLines_taken ((hwait _).trans (htakes c b))]
        exact ((Waiting.kept i l rest).turns ha₁ hw).cut_later hen ha₂ ih hrun hb

/-- Settles O6, by `cutsAlike` from the start of the operation. -/
theorem cutAndResume : Obligations.CutAndResume := by
  unfold Obligations.CutAndResume
  intro i s t a b h hw ha hex hbusy
  obtain ⟨hb, -, hrun⟩ := exec_runs hex
  have pre : ∀ r : List Turn, opPre i { s with sched := r } = opPre i s := fun r => opPre_retag i s.cause r s
  have hp : opPre i s = none := (pre _).symm.trans (opPre_of_exec hex)
  have lines : ∀ r : List Turn, opLines i { s with sched := r } = opLines i s := fun r =>
    opLines_congr rfl rfl rfl rfl i
  have hgoing := going_begin h hb hw (okAfter_opLines h.base hw hp)
  rw [lines] at hrun
  rw [exec_start, start_runs (s := { s with sched := a ++ b }) _ hb hw ((pre _).trans hp), lines]
  exact cutsAlike i none b _ 0 a _ t hgoing (List.all_eq_true.mp ha) hrun hbusy

end Sys2Proof.Machine
end

section
/-! ## A controller whose busy flag never clears -/

namespace Sys2Proof.Machine

/-! ### A hold that never ends -/

/-- Turns that reset nothing change the transmit side and the pin of a stuck controller only. -/
theorem txFrame_turns {a : List Turn} (ha : ∀ x ∈ a, x.quiet = true) {s : State} (hk : s.fctlStuck = true) :
    TxFrame s (s.turns a) := by
  induction a generalizing s with
  | nil => rfl
  | cons x a ih =>
    have hx := txFrame_turn (Turn.isReset_of_quiet (ha x List.mem_cons_self)) hk
    have hk' : (s.turn x).fctlStuck = true := by rw [hx]; exact hk
    exact hx.trans (ih (fun y hy => ha y (List.mem_cons_of_mem _ hy)) hk')

theorem txFrame_retag {s u : State} (h : TxFrame s u) (r : List Turn) : TxFrame s (u.retag s.cause r) := by
  rw [← h.cause]
  exact h.trans rfl

theorem TxFrame.fc {s t : State} (h : TxFrame s t) : t.fc = s.fc := by rw [h]; rfl

theorem TxFrame.stuck {s t : State} (h : TxFrame s t) : t.fctlStuck = s.fctlStuck := by rw [h]; rfl

theorem TxFrame.seq {s t : State} (h : TxFrame s t) : t.seq = s.seq := by rw [h]; rfl

theorem TxFrame.busy {s t : State} (h : TxFrame s t) : t.busy = s.busy := by rw [h]; rfl

theorem hold_disabled {l : Line} (hl : l.holds = true) {s : State} (hb : s.fc.busy = true) :
    lineEnabled l s = false := by
  simp [lineEnabled, State.statrBsy, hl, hb]

/-- A reset ends the wait before a hold on a stuck busy controller, whatever the other agents have done before it. -/
theorem await_hung_reset {l : Line} (hl : l.holds = true) {a b : List Turn} (ha : ∀ x ∈ a, x.quiet = true) {s : State}
    (hb : s.fc.busy = true) (hk : s.fctlStuck = true) (hs : s.sched = a ++ .reset :: b) :
    ∃ u, TxFrame s u ∧ await l s.sched s = .ended u.coreReset := by
  have hself : s.retag s.cause (a ++ .reset :: b) = s := by rw [← hs]; rfl
  cases takesTurns l ha s with
  | all htakes =>
    refine ⟨(s.turns a).retag s.cause b, txFrame_retag (txFrame_turns ha hk) b, ?_⟩
    have hend := htakes s.cause (.reset :: b)
    rw [hself] at hend
    rw [hs]
    exact hend
  | upTo a₁ a₂ hsplit hen =>
    have hframe := txFrame_turns (a := a₁) (fun x hx => ha x (by simp [hsplit, hx])) hk
    rw [hold_disabled hl (by rw [hframe.fc]; exact hb)] at hen
    cases hen

/-! ### Which lines come to a hold -/

/-- The lines that start a cycle. -/
def Line.startsCycle : Line → Bool
  | .gErase _ => true
  | .gProg _ _ => true
  | .ctlSet .bufRst => true
  | .ctlSet .bufLoad => true
  | .ctlSet .strt => true
  | _ => false

/-- Lines that neither end the operation nor start a cycle: those that come before the first cycle of an erase or a
program operation. -/
def Line.leadsOn (fas : AddressSpace) : Line → Bool
  | .enqStart => true
  | .enqByte _ _ => true
  | .enqArm => true
  | .bound d => decide (d.toNat < fas.endAddr.toNat)
  | .windowTest _ => true
  | .ctlSet (.level _) => true
  | .addrWrite _ => true
  | _ => false

/-- Every path through the lines comes to the start of a cycle and to the hold after it. -/
inductive ComesToHold (fas : AddressSpace) : List Line → Prop
  | start {l h : Line} {rest : List Line} (hl : l.startsCycle = true) (hh : h.holds = true) :
      ComesToHold fas (l :: h :: rest)
  | line {l : Line} {rest : List Line} (hl : l.leadsOn fas = true) (hrest : ComesToHold fas rest)
      (hbranch : ∀ n, l.branch? = some n → ComesToHold fas (rest.drop n)) : ComesToHold fas (l :: rest)

theorem Line.holds_of_startsCycle {l : Line} (h : l.startsCycle = true) : l.holds = false := by
  cases hh : l.holds with
  | false => rfl
  | true => rcases Line.holds_cases hh with rfl | rfl <;> cases h

theorem Line.holds_of_leadsOn {l : Line} {fas : AddressSpace} (h : l.leadsOn fas = true) : l.holds = false := by
  cases hh : l.holds with
  | false => rfl
  | true => rcases Line.holds_cases hh with rfl | rfl <;> cases h

/-- A start whose demand is met leaves the busy flag 1. -/
theorem runLine_startsCycle {l : Line} {rest : List Line} {s : State} (hl : l.startsCycle = true) (h : s.Base)
    (hp : s.fc.pending = .none) (hok : l.ok s.cfg s.fas rest s.ctl = true) :
    ∃ t, runLine l s = .go t ∧ t.fc.busy = true := by
  cases l with
  | gErase d =>
    simp only [Line.ok, Bool.and_eq_true] at hok
    exact ⟨_, startOn_go h hp hok.2 _, rfl⟩
  | gProg d v =>
    simp only [Line.ok, Bool.and_eq_true, beq_iff_eq] at hok
    obtain ⟨⟨-, heven⟩, hin⟩ := hok
    exact ⟨_, (if_neg (not_not.mpr heven)).trans (startOn_go h hp hin _), rfl⟩
  | ctlSet b =>
    cases b with
    | bufRst =>
      simp only [Line.ok, Bool.and_eq_true] at hok
      exact ⟨_, startBuffer_go h.setBufrst hp hok.2 _, rfl⟩
    | bufLoad =>
      simp only [Line.ok, Bool.and_eq_true] at hok
      exact ⟨_, startBuffer_go h.setBufload hp hok.2 _, rfl⟩
    | strt => exact ⟨_, startMode_eq h hok, rfl⟩
    | level v => cases hl
    | lock => cases hl
  | _ => cases hl

/-- What a line that leads on leads to. -/
theorem runLine_leadsOn {l : Line} {s : State} (hl : l.leadsOn s.fas = true) :
    (∃ t, runLine l s = .go t) ∨ ∃ n t, runLine l s = .skip n t := by
  cases l with
  | enqByte b left =>
    cases hf : ringFull s.cfg.ringN s.rb with
    | true => exact .inr ⟨_, _, enqueueByte_full hf b left⟩
    | false => exact .inl ⟨_, enqueueByte_free hf b left⟩
  | bound d => exact .inl ⟨_, if_neg (Nat.not_le.mpr (of_decide_eq_true hl))⟩
  | windowTest d =>
    cases hw : outsideWindow s.win d with
    | true => exact .inl ⟨_, if_pos hw⟩
    | false => exact .inr ⟨_, _, if_neg (ne_true_of_eq_false hw)⟩
  | enqStart => exact .inl ⟨_, rfl⟩
  | enqArm => exact .inl ⟨_, rfl⟩
  | ctlSet b =>
    cases b with
    | level v => exact .inl ⟨_, rfl⟩
    | _ => cases hl
  | addrWrite a => exact .inl ⟨_, rfl⟩
  | _ => cases hl

/-! ### Operations that come to a hold -/

/-- A line that is no hold is taken, although the controller is stuck. -/
theorem await_stuck_ready {l : Line} (hl : l.holds = false) {s : State} (hk : s.fctlStuck = true)
    (hq : ∀ x ∈ s.sched, x.quiet = true) :
    ∃ t, await l s.sched s = .ready t ∧ TxFrame s t ∧ ∀ x ∈ t.sched, x.quiet = true := by
  have hself : s.retag s.cause (s.sched ++ []) = s := by rw [List.append_nil]; rfl
  cases takesTurns l hq s with
  | all htakes =>
    refine ⟨(s.turns s.sched).retag s.cause [], ?_, txFrame_retag (txFrame_turns hq hk) [], fun x hx => by cases hx⟩
    have hready := htakes s.cause []
    rw [hself, List.append_nil] at hready
    exact hready.trans (if_pos (by simp [lineEnabled, hl]))
  | upTo a₁ a₂ hsplit hen htakes =>
    have hready := htakes s.cause []
    rw [hself, List.append_nil, List.append_nil] at hready
    exact ⟨_, hready, txFrame_retag (txFrame_turns (fun x hx => hq x (by simp [hsplit, hx])) hk) a₂,
      fun x hx => hq x (by rw [hsplit]; exact List.mem_append_right _ (List.mem_cons_of_mem _ hx))⟩

/-- The controller is stuck, no turn to come interrupts the operation, and the array and the address space are those of
`s0`. -/
structure StuckAs (s0 s : State) : Prop where
  stuck : s.fctlStuck = true
  quiet : ∀ x ∈ s.sched, x.quiet = true
  flash : s.flash = s0.flash
  fas : s.fas = s0.fas

/-- The operation `i` is held before the first of its lines to come, `BUSY` and the busy flag 1, with the array of
`s0`. -/
structure HeldAt (i : Instr) (l : Line) (rest : List Line) (s0 s : State) : Prop where
  seq : s.seq = .running i (l :: rest)
  holds : l.holds = true
  busy : s.busy = true
  fcBusy : s.fc.busy = true
  stuck : s.fctlStuck = true
  flash : s.flash = s0.flash

theorem StuckAs.line {l : Line} {s0 s t : State} (h : StuckAs s0 s) (hl : LineFrame l s t) : StuckAs s0 t := by
  obtain ⟨-, -, hsched, -, hstuck⟩ := hl.outside
  exact { stuck := hstuck.trans h.stuck, quiet := by rw [hsched]; exact h.quiet, flash := hl.flash.trans h.flash,
          fas := hl.fas.trans h.fas }

/-- A line that is no hold is taken from a state that waits for it. -/
theorem StuckAs.taken {i : Instr} {l : Line} {rest : List Line} {s0 s : State} (h : StuckAs s0 s)
    (hg : Going i (l :: rest) 0 s) (hl : l.holds = false) :
    ∃ s1, await l s.sched { s with seq := .running i (l :: rest) } = .ready s1 ∧ StuckAs s0 s1 ∧
      Waiting i l rest s1 ∧ s1.fc.pending = .none := by
  obtain ⟨s1, hready, hframe, hquiet⟩ :=
    await_stuck_ready (s := { s with seq := .running i (l :: rest) }) hl h.stuck h.quiet
  have hw := await_keeps (Waiting.kept i l rest) l s.sched _ hg.waiting
  rw [show await l s.sched { s with seq := .running i (l :: rest) } = _ from hready] at hw
  exact ⟨s1, hready, ⟨hframe.stuck.trans h.stuck, hquiet, hframe.flash.trans h.flash, hframe.fas.trans h.fas⟩, hw.1,
    hw.1.pending hw.2⟩

/-- Before a hold with the busy flag 1 the run is held. -/
theorem StuckAs.held {i : Instr} {l : Line} {rest : List Line} {s0 s : State} (h : StuckAs s0 s) (hb : s.busy = true)
    (hl : l.holds = true) (hfc : s.fc.busy = true) :
    ∃ t, runLines i (l :: rest) 0 s = .next t ∧ HeldAt i l rest s0 t := by
  obtain ⟨t, hend, hframe⟩ := await_hung hl s.sched (s := { s with seq := .running i (l :: rest) }) hfc h.stuck
    (fun x hx => ⟨Turn.isReset_of_quiet (h.quiet x hx), fun he => by simpa [he, Turn.quiet] using h.quiet x hx⟩) rfl
  exact ⟨t, runLines_ended hend, hframe.seq, hl, hframe.busy.trans hb, by rw [hframe.fc]; exact hfc,
    hframe.stuck.trans h.stuck, hframe.flash.trans h.flash⟩

theorem linesOk_drop (cfg : Config) (fas : AddressSpace) (lines : List Line) (n : Nat) (c : Ctl) :
    linesOk cfg fas (lines.drop n) 0 c = linesOk cfg fas lines n c := by
  induction lines generalizing n with
  | nil => cases n <;> rfl
  | cons l rest ih =>
    cases n with
    | zero => rfl
    | succ n => exact ih n

theorem Going.drop {i : Instr} {lines : List Line} {n : Nat} {s : State} (h : Going i lines n s) :
    Going i (lines.drop n) 0 s :=
  { base := h.base, busy := h.busy, wf := h.wf, ok := by rw [linesOk_drop]; exact h.ok, armed := h.armed }

/-- On a stuck controller lines that come to a hold are held there, with the array as it was. -/
theorem ComesToHold.held {i : Instr} {lines : List Line} {s0 : State} (hlines : ComesToHold s0.fas lines) {s : State}
    (hg : Going i lines 0 s) (h : StuckAs s0 s) :
    ∃ t l rest, runLines i lines 0 s = .next t ∧ HeldAt i l rest s0 t := by
  induction hlines generalizing s with
  | @start l hold rest hl hh =>
    obtain ⟨s1, hready, h1, hw, hp⟩ := h.taken hg (Line.holds_of_startsCycle hl)
    have hok := linesOk_head hw.ok
    obtain ⟨s2, hgo, hfc⟩ := runLine_startsCycle hl hw.base hp hok
    have hwent := runLine_ok hw.base hp hok
    rw [hgo] at hwent
    obtain ⟨t, hrun, ht⟩ := (h1.line (lineFrame_of_runLine (n := 0) (.inl hgo))).held (i := i) (rest := rest)
      (hw.went hgo hwent).busy hh hfc
    exact ⟨t, hold, rest, (runLines_go hready hgo).trans hrun, ht⟩
  | @line l rest hl hrest hbranch ih ihbranch =>
    obtain ⟨s1, hready, h1, hw, hp⟩ := h.taken hg (Line.holds_of_leadsOn hl)
    have hsat := runLine_ok hw.base hp (linesOk_head hw.ok)
    rcases runLine_leadsOn (l := l) (s := s1) (by rw [h1.fas]; exact hl) with ⟨s2, hgo⟩ | ⟨n, s2, hskip⟩
    · rw [hgo] at hsat
      obtain ⟨t, k, r, hrun, ht⟩ := ih (hw.went hgo hsat) (h1.line (lineFrame_of_runLine (n := 0) (.inl hgo)))
      exact ⟨t, k, r, (runLines_go hready hgo).trans hrun, ht⟩
    · rw [hskip] at hsat
      obtain ⟨t, k, r, hrun, ht⟩ := ihbranch n hsat.branch (hw.branched hsat).drop
        (h1.line (lineFrame_of_runLine (.inr (.inl hskip))))
      refine ⟨t, k, r, ?_, ht⟩
      rw [runLines_taken hready, hskip]
      exact (runLines_drop i rest n s2).trans hrun

/-! ### The programs -/

section Programs

variable {fas : AddressSpace} {rest : List Line}

theorem ComesToHold.plain {l : Line} (h : ComesToHold fas rest) (hl : l.leadsOn fas = true) (hb : l.branch? = none) :
    ComesToHold fas (l :: rest) :=
  .line hl h fun n hn => by rw [hb] at hn; cases hn

theorem ComesToHold.enqueueBytes (h : ComesToHold fas rest) (bs : List Byte) :
    ComesToHold fas (enqueueBytes bs ++ rest) := by
  induction bs with
  | nil => exact h.plain rfl rfl
  | cons b bs ih =>
    refine .line rfl ih fun n hn => ?_
    obtain rfl : bs.length = n := Option.some.inj hn
    show ComesToHold fas ((Machine.enqueueBytes bs ++ rest).drop bs.length)
    rw [drop_enqueueBytes]
    exact h.plain rfl rfl

theorem ComesToHold.emit (h : ComesToHold fas rest) (bs : List Byte) : ComesToHold fas (emit bs ++ rest) :=
  (h.enqueueBytes bs).plain rfl rfl

theorem comesToHold_halfLinesG {d : Word} (hd : d.toNat < fas.endAddr.toNat) (v : Half) (rest : List Line) :
    ComesToHold fas (halfLinesG d v ++ rest) := by
  have hprog : ComesToHold fas (.gProg d v :: .gWait :: .windowPast d :: .verify d v :: rest) := .start rfl rfl
  have herase : ComesToHold fas (.gErase d :: .gWait :: .windowPage d :: .gProg d v :: .gWait :: .windowPast d ::
      .verify d v :: rest) := .start rfl rfl
  refine ComesToHold.plain (l := .bound d) (.line (l := .windowTest d) rfl herase fun n hn => ?_)
    (decide_eq_true hd) rfl
  obtain rfl : 3 = n := Option.some.inj hn
  exact hprog

theorem comesToHold_erasePageLines (fas : AddressSpace) (d : Word) (rest : List Line) :
    ComesToHold fas (erasePageLines d ++ rest) := by
  have hstart : ComesToHold fas (.ctlSet .strt :: .spin :: .ctlClear .per ::
      (refreshLines (pageOfA d) ++ Machine.emit statusE ++ rest)) := .start rfl rfl
  exact (hstart.plain (l := .addrWrite (pageOfA d)) rfl rfl).plain (l := .ctlSet (.level .per)) rfl rfl

theorem comesToHold_programPageLines {a m : Word} (hp : pageParamBad a m = false) (upper : Bool) (data : List Half)
    (rest : List Line) : ComesToHold fas (programPageLines upper a m data ++ rest) := by
  rw [programPageLines, hp]
  simp only [Bool.false_eq_true, if_false, List.append_assoc]
  refine ComesToHold.emit ?_ _
  exact ComesToHold.plain (l := .ctlSet (.level .ppg)) (.start (l := .ctlSet .bufRst) (h := .spin) rfl rfl) rfl rfl

theorem comesToHold_arrayPageLines {d : Word} (hd : d.toNat < fas.endAddr.toNat) (upper : Bool) (chunk : List Half)
    (rest : List Line) : ComesToHold fas (arrayPageLines upper d chunk ++ rest) := by
  rw [arrayPageLines, List.cons_append, List.append_assoc, List.append_assoc]
  exact (comesToHold_erasePageLines fas d _).plain (decide_eq_true hd) rfl

theorem comesToHold_arrayLoopA {dest : Word} (hd : dest.toNat < fas.endAddr.toNat) {data : List Half}
    (hdata : data ≠ []) (upper : Bool) (rest : List Line) :
    ComesToHold fas (arrayLoopA upper dest data ++ rest) := by
  obtain ⟨n, hn⟩ : ∃ n, (data.length + 63) / Config.pageBufHalves = n + 1 :=
    Nat.exists_eq_succ_of_ne_zero (by
      have := List.length_pos_iff.mpr hdata
      rw [Config.pageBufHalves]
      omega)
  rw [arrayLoopA, hn, List.range_succ_eq_map, List.flatMap_cons, List.append_assoc]
  exact comesToHold_arrayPageLines (by simpa using hd) _ _ _

end Programs

theorem operandHalves_ne_nil {s : State} (h1 : s.a1 ≠ 0) (hlen : s.a1.toNat ≤ s.src.halfWords.length) :
    s.operandHalves ≠ [] := by
  rw [ne_eq, ← List.length_eq_zero_iff, State.operandHalves_length hlen]
  exact toNat_ne_zero_of_ne h1

theorem comesToHold_arrayLinesG {s : State} (hd : s.a0.toNat < s.fas.endAddr.toNat) (h1 : s.a1 ≠ 0)
    (hlen : s.a1.toNat ≤ s.src.halfWords.length) : ComesToHold s.fas (arrayLinesG s) := by
  rw [arrayLinesG, List.append_assoc]
  refine ComesToHold.emit ?_ _
  cases hdata : s.operandHalves with
  | nil => exact absurd hdata (operandHalves_ne_nil h1 hlen)
  | cons v vs =>
    rw [arrayLoopG, List.append_assoc]
    exact comesToHold_halfLinesG hd v _

theorem comesToHold_arrayLinesA {s : State} (ha : s.a0.toNat % 128 = 0) (hd : s.a0.toNat < s.fas.endAddr.toNat)
    (h1 : s.a1 ≠ 0) (hlen : s.a1.toNat ≤ s.src.halfWords.length) : ComesToHold s.fas (arrayLinesA s) := by
  rw [arrayLinesA, (misalignedA_eq_false_iff _).mpr ha]
  exact (comesToHold_arrayLoopA hd (operandHalves_ne_nil h1 hlen) _ _).emit _

/-- On a stuck controller an operation whose lines come to a hold is held there. -/
theorem exec_held {i : Instr} {s : State} (h : s.Inv) (hb : s.busy = false) (hk : s.fctlStuck = true)
    (hq : s.sched.all Turn.quiet = true) (hw : i.wf s.cfg.variant = true) (hp : opPre i s = none)
    (hlines : ComesToHold s.fas (opLines i s)) :
    ∃ t l rest, exec i s = .next t ∧ HeldAt i l rest s t := by
  have hgoing := going_begin h hb hw (okAfter_opLines h.base hw hp)
  rw [exec_start, start_runs _ hb hw hp]
  exact hlines.held hgoing ⟨hk, List.all_eq_true.mp hq, rfl, rfl⟩

/-- Settles O57: each of the programs comes to a hold before it can end, where nothing but a reset ends the wait. -/
theorem hangUntilReset : Obligations.HangUntilReset := by
  unfold Obligations.HangUntilReset
  refine ⟨fun i s h hb hk hq hw hop => ?_, fun i l rest s hcfg hs hl hfc hk => ?_⟩
  · have held (hp : opPre i s = none) (hlines : ComesToHold s.fas (opLines i s)) :
        ∃ t l rest, exec i s = .next t ∧ t.seq = .running i (l :: rest) ∧ l.holds = true ∧ t.busy = true ∧
          t.fc.busy = true ∧ t.fctlStuck = true ∧ t.flash = s.flash := by
      obtain ⟨t, l, rest, ht, hheld⟩ := exec_held h hb hk hq hw hp hlines
      exact ⟨t, l, rest, ht, hheld.seq, hheld.holds, hheld.busy, hheld.fcBusy, hheld.stuck, hheld.flash⟩
    rcases hop with ⟨rfl, hin⟩ | ⟨rfl, hin⟩ | ⟨rfl, ha, hm, hin, hlen⟩ | ⟨⟨rfl, ha⟩ | ⟨rfl, ha⟩, hbase, hend, h1, hlen⟩
    · exact held (if_pos hin) (.start rfl rfl)
    · exact held (if_pos hin) (comesToHold_erasePageLines _ _ _)
    · exact held (pagePre_met hlen hin) (comesToHold_programPageLines (pageParamBad_eq_false ha hm) _ _ _)
    · exact held (arrayPreG_met ha hbase hlen) (comesToHold_arrayLinesG hend h1 hlen)
    · exact held (arrayPreA_met hlen hbase) (comesToHold_arrayLinesA ha hend h1 hlen)
  · have hself : ({ s with seq := .running i (l :: rest) } : State) = s := State.with_seq_eq hs
    rw [step_resume hcfg hs]
    refine ⟨fun hsched => ?_, fun a b ha hsched => ?_⟩
    · obtain ⟨t, hend, hframe⟩ := await_hung hl s.sched hfc hk (by simpa using hsched) rfl
      exact ⟨t, runLines_ended (by rw [hself]; exact hend), hframe⟩
    · obtain ⟨u, hframe, hend⟩ := await_hung_reset hl (List.all_eq_true.mp ha) hfc hk hsched
      exact ⟨u, hframe, runLines_ended (by rw [hself]; exact hend)⟩

end Sys2Proof.Machine
end

section
/-! ## A reset while a controller cycle is pending -/

namespace Sys2Proof.Machine

/-- Only the unit of the pending cycle is free after a reset (spec/70_reset_and_hazards.md R242). -/
theorem State.Base.read_coreReset_outside {s : State} (h : s.Base) {a : Nat}
    (ha : a < s.pendingUnit.1 ∨ s.pendingUnit.1 + s.pendingUnit.2 ≤ a) :
    Memory.read s.coreReset.flash a = Memory.read s.flash a :=
  Memory.read_fillFree_other ((State.flashOk_iff s).mp h.flash).1 ha

/-- A reset empties the ring: no byte it held is sent (spec/70_reset_and_hazards.md R242). -/
theorem State.Base.held_coreReset {s : State} (h : s.Base) : s.coreReset.held = [] :=
  heldBytes_empty h.inv_coreReset.base.ringIn rfl

/-- Settles O16: a reset fills the pending unit alone with free bytes, and the state it leads to is sound and holds an
empty ring. -/
theorem resetDuringCycle : Obligations.ResetDuringCycle := by
  unfold Obligations.ResetDuringCycle
  intro s hs
  exact ⟨fun _ ha => hs.base.read_coreReset_outside ha, hs.base.held_coreReset, s.coreReset_bkp,
    hs.base.inv_coreReset⟩

end Sys2Proof.Machine
end
